-- ==== Sys2Proof/Word.lean ====
section
/-! DEFINITION. The word types of the block (00_scope.md rule R8). -/

namespace Sys2Proof

/-- A buffer byte: 8 bits, unsigned (R8). -/
abbrev Byte := BitVec 8

/-- A register, an argument, a model integer or a character code: 32 bits (R8). Model values are
read as two's complement where a rule compares them (R9). -/
abbrev Word := BitVec 32

/-- A key index: 16 bits (R8). -/
abbrev Key := BitVec 16

/-- The key value 0xFFFF, which means "no key" (R7, 93_implementation_defined.md X16). -/
abbrev noKey : Key := 0xFFFF#16

end Sys2Proof
end

