-- ==== Sys2Proof/Config.lean ====
section
/-! DEFINITION. The implementation parameters and the read-only configuration `Cfg`: 00_scope.md rule R7 and
10_state.md rules R40 to R43, and the configuration that the reset state carries (95_test_vectors.md V9). -/

namespace Sys2Proof

/-- The implementation parameters of R7. HOST_BASE is OPEN in the spec. NDEV is the number of devices listed in
`Config.devs`. -/
structure Params where
  /-- BUF_SIZE, the bytes in each of IBUF and OBUF. -/
  bufSize : Nat
  /-- DATA_SIZE, the bytes in DIMG. -/
  dataSize : Nat
  /-- NKEYS, the key slots of the model store. -/
  nkeys : Nat
  /-- TEXT_MAX, the characters one TEXT entry can hold. -/
  textMax : Nat
  /-- DIAG_MAX, the entries of the diagnostic log. -/
  diagMax : Nat
  /-- HOST_BASE, the bus address of the register window. -/
  hostBase : Nat
  deriving DecidableEq, Repr

/-- The four 32-bit words of one FieldSpec as the table holds them (30_encoding.md rule R86). They are kept
undecoded so that the run-time check of R221 can see a reserved bit. -/
structure FieldWords where
  w0 : Word
  w1 : Word
  w2 : Word
  w3 : Word
  deriving DecidableEq, Repr

/-- A defined schema entry (R42): DEF = 1 with its KIND. An undefined key has no entry. -/
inductive SchemaEntry where
  /-- KIND = INT with MIN, MAX and DFLT (signed). -/
  | int (min max dflt : Word)
  /-- KIND = TEXT with DTXT. -/
  | text (dtxt : List Word)
  deriving DecidableEq, Repr

/-- A format record (R43). H is the length of `hdr` and NF the length of `fields`. -/
structure Format where
  /-- HDR, the literal header bytes. -/
  hdr : List Byte
  /-- RL, how many leading header bytes the recognizer checks. -/
  rl : Nat
  /-- VER: there is a protocol version byte. -/
  ver : Bool
  /-- VOFF, the header offset of the version byte. -/
  voff : Nat
  /-- L, the total frame length. -/
  total : Nat
  /-- MODE: 0 is DIRECT, 1 is NIBBLIZED (R32). -/
  mode : Nat
  /-- D, the data image length. -/
  dlen : Nat
  /-- CK: there is a checksum byte. -/
  ck : Bool
  /-- CKS, the first summed frame offset. -/
  cks : Nat
  /-- CKE, one past the last summed frame offset. -/
  cke : Nat
  /-- R, the number of patch records. -/
  recs : Nat
  /-- S, the record stride in DIMG bytes. -/
  stride : Nat
  /-- B, the DIMG offset of record 0. -/
  base : Nat
  /-- M, the number of parts of a multi-message patch. -/
  parts : Nat
  /-- POFF, the header offset of the part index byte. -/
  poff : Nat
  /-- FIELDS, the FieldSpec table. -/
  fields : List FieldWords
  deriving DecidableEq, Repr

/-- H, the header length (R43). -/
def Format.h (f : Format) : Nat := f.hdr.length

/-- NF, the number of FieldSpecs (R43). -/
def Format.nf (f : Format) : Nat := f.fields.length

/-- A device record (R41): the schema, as the defined keys with their entries in rising key order, and the formats. -/
structure Device where
  schema : List (Nat × SchemaEntry)
  fmts : List Format
  deriving DecidableEq, Repr

/-- The configuration (R40) with the implementation parameters (R7). -/
structure Config where
  params : Params
  devs : List Device
  deriving DecidableEq, Repr

/-- The default parameter values of R7 (92_eei_decisions.md D30). HOST_BASE is OPEN there; 0 is a DESIGN CHOICE (log 1). -/
def Params.default : Params :=
  { bufSize := 4096, dataSize := 4096, nkeys := 8192, textMax := 64, diagMax := 16, hostBase := 0 }

/-- Device 0 of 95_test_vectors.md V9: its schema. -/
def Config.toySchema : List (Nat × SchemaEntry) :=
  [(0, .int 0 127 100), (1, .int 0 16383 8192), (2, .int 0 26 0), (3, .int 0 7 0), (4, .int 0 127 0),
   (5, .int 0 1 0), (6, .text [0x49, 0x6E, 0x69, 0x74]), (7, .int 0 15 0)]

/-- TOY format 0, the single-patch shape (V9). -/
def Config.toySingle : Format :=
  { hdr := [0xF0, 0x7D, 0x01], rl := 2, ver := true, voff := 2, total := 15, mode := 0, dlen := 10
    ck := true, cks := 3, cke := 13, recs := 1, stride := 0, base := 0, parts := 1, poff := 0
    fields :=
      [⟨0x00000000, 0x00000000, 0x00000000, 0x00000000⟩, ⟨0x00000103, 0x00000001, 0x00000000, 0x00000000⟩,
       ⟨0x00000202, 0x00000003, 0x0000109C, 0x0003001B⟩, ⟨0x00000302, 0x00000004, 0x0000001A, 0x00000000⟩,
       ⟨0x00000404, 0x00050005, 0x00000000, 0x00000000⟩, ⟨0x00000605, 0x00000006, 0x00000004, 0x00000000⟩] }

/-- TOY format 1, the bank shape (V9). -/
def Config.toyBank : Format :=
  { hdr := [0xF0, 0x7D, 0x01], rl := 2, ver := true, voff := 2, total := 14, mode := 1, dlen := 5
    ck := false, cks := 0, cke := 0, recs := 2, stride := 2, base := 0, parts := 1, poff := 0
    fields :=
      [⟨0x00000000, 0x00000000, 0x00000000, 0x00000000⟩, ⟨0x00000302, 0x00000001, 0x00000018, 0x00000000⟩,
       ⟨0x00000710, 0x00000004, 0x00000000, 0x00000000⟩] }

/-- DUO format 0, a two-part patch (V9). -/
def Config.duoParts : Format :=
  { hdr := [0xF0, 0x7D, 0x02, 0x00], rl := 3, ver := false, voff := 0, total := 6, mode := 0, dlen := 1
    ck := false, cks := 0, cke := 0, recs := 1, stride := 0, base := 0, parts := 2, poff := 3
    fields :=
      [⟨0x00000000, 0x00000000, 0x00000000, 0x00000000⟩, ⟨0x00000120, 0x00000000, 0x00000000, 0x00000000⟩] }

/-- The configuration of 95_test_vectors.md V9 (TOY and DUO) with the default parameters. The spec leaves the
configuration OPEN; that `State.reset` carries this one is a DESIGN CHOICE (log 1). -/
def Config.v9 : Config :=
  { params := Params.default
    devs :=
      [{ schema := Config.toySchema, fmts := [Config.toySingle, Config.toyBank] },
       { schema := [(0, .int 0 255 0), (1, .int 0 255 0)], fmts := [Config.duoParts] }] }

end Sys2Proof
end

