-- ==== Sys2Proof/Syntax.lean ====
section
/-! DEFINITION. The instructions: one constructor per row of spec/opcode_table.json. The 19 commands (30_encoding.md
rule R81) carry no operand, because every operand stands in an argument register (R82, R88). The 6 FieldSpec kinds
(R87) carry the fields of their four words (R86). -/

namespace Sys2Proof

/-- The fields of a FieldSpec that every kind has (R86). -/
structure FieldPlace where
  /-- W0[4], SCOPE: true is a footer or absolute field, false a record field. -/
  scope : Bool
  /-- W0[7:5], PART. -/
  part : BitVec 3
  /-- W0[23:8], KEY. -/
  key : Key
  /-- W1[15:0], OFF. -/
  off : BitVec 16
  deriving DecidableEq, Repr

/-- The instructions of the block. -/
inductive Instr where
  /-- INIT (R292). -/
  | init
  /-- RECOG (R261). -/
  | recog
  /-- ENCODE (R220). -/
  | encode
  /-- DECODE (R262). -/
  | decode
  /-- REVISE (R270). -/
  | revise
  /-- NIBX (R121). -/
  | nibx
  /-- NIBC (R123). -/
  | nibc
  /-- BFPK (R142). -/
  | bfpk
  /-- BFUP (R144). -/
  | bfup
  /-- S14E (R161). -/
  | s14e
  /-- S14D (R163). -/
  | s14d
  /-- VELE (R165). -/
  | vele
  /-- VELD (R167). -/
  | veld
  /-- NAMEE (R169). -/
  | namee
  /-- NAMED (R171). -/
  | named
  /-- ENUMCHK (R173). -/
  | enumchk
  /-- CLAMP (R174). -/
  | clamp
  /-- CKGEN (R201). -/
  | ckgen
  /-- CKCHK (R203). -/
  | ckchk
  /-- FSPEC.RAW8, KIND 0 (R175, R176): the place and the ENUMW word. -/
  | fspecRaw8 (f : FieldPlace) (enumw : Word)
  /-- FSPEC.NIB8, KIND 1 (R177, R178): the place and the ENUMW word. -/
  | fspecNib8 (f : FieldPlace) (enumw : Word)
  /-- FSPEC.BITS, KIND 2 (R179, R180): the place, the GEOM word and the ENUMW word. -/
  | fspecBits (f : FieldPlace) (geom enumw : Word)
  /-- FSPEC.S14, KIND 3 (R181, R182): the place, the XF14 word and the ENUMW word. -/
  | fspecS14 (f : FieldPlace) (xf14 enumw : Word)
  /-- FSPEC.VEL, KIND 4 (R183, R184): the place (KEY is the value key) and KEY2, the flag key. -/
  | fspecVel (f : FieldPlace) (key2 : Key)
  /-- FSPEC.NAME, KIND 5 (R185, R186): the place and the XFNAME word. -/
  | fspecName (f : FieldPlace) (xfname : Word)
  deriving DecidableEq, Repr

/-- The place fields of a FieldSpec, and none for a command. -/
def Instr.place? (i : Instr) : Option FieldPlace :=
  match i with
  | .init | .recog | .encode | .decode | .revise | .nibx | .nibc | .bfpk | .bfup | .s14e | .s14d | .vele | .veld
  | .namee | .named | .enumchk | .clamp | .ckgen | .ckchk => none
  | .fspecRaw8 f _ => some f
  | .fspecNib8 f _ => some f
  | .fspecBits f _ _ => some f
  | .fspecS14 f _ _ => some f
  | .fspecVel f _ => some f
  | .fspecName f _ => some f

/-- A row of the FSPEC_W0 format of spec/opcode_table.json, as against a CMD32 row. -/
def Instr.isField (i : Instr) : Bool := i.place?.isSome

end Sys2Proof
end

