-- ==== Sys2Proof/Machine/State.lean ====
section
/-! DEFINITION. The state of the block as plain data: 10_state.md rules R20 to R39, the configuration it carries (R40),
and the model's own fields for what the host does (20_memory.md rule R70) and for the walk of a FieldSpec table (R27). -/

namespace Sys2Proof.Machine

/-- The codes of RESULT (R24). Codes 6 and 7 are reserved and never written. -/
inductive ResultCode where
  /-- 0: no command has completed since reset. -/
  | none
  /-- 1. -/
  | success
  /-- 2. -/
  | incomplete
  /-- 3. -/
  | failed
  /-- 4. -/
  | cancelled
  /-- 5. -/
  | fault
  deriving DecidableEq, Repr

/-- The codes of FAIL_CAUSE (R25). Codes 6 and 7 are reserved and never written. -/
inductive FailCause where
  /-- 0. -/
  | none
  /-- 1. -/
  | length
  /-- 2. -/
  | header
  /-- 3. -/
  | version
  /-- 4. -/
  | checksum
  /-- 5. -/
  | part
  deriving DecidableEq, Repr

/-- The codes of FAULT_CAUSE (R300). Codes 8 to 15 are reserved and never raised. -/
inductive FaultCause where
  /-- 0: no fault since reset. -/
  | none
  /-- 1: ILLEGAL_CMD. -/
  | illegalCmd
  /-- 2: BAD_ARG. -/
  | badArg
  /-- 3: BOUNDS. -/
  | bounds
  /-- 4: NO_DEVICE. -/
  | noDevice
  /-- 5: SCHEMA. -/
  | schema
  /-- 6: BAD_FIELD. -/
  | badField
  /-- 7: UNSUPPORTED. -/
  | unsupported
  deriving DecidableEq, Repr

/-- What `raise Fault(cause, key)` names (R10, R302). -/
structure FaultRec where
  cause : FaultCause
  key : Key
  deriving DecidableEq, Repr

/-- The three byte buffers (R30). -/
inductive Space where
  | ibuf
  | obuf
  | dimg
  deriving DecidableEq, Repr

/-- Byte memory as (address, byte) pairs. An unlisted address reads 0x00, its reset contents (R31). -/
abbrev Memory := List Host.Cell

/-- An entry of the model store (R35). An unlisted character code is 0, its reset value (R39). -/
structure Entry where
  val : Word
  len : Nat
  txt : List (Nat × Word)
  deriving DecidableEq, Repr

/-- The entry that every key holds after reset (R39). -/
def Entry.zero : Entry := { val := 0, len := 0, txt := [] }

/-- The model store as (key, entry) pairs. An unlisted key holds `Entry.zero`, its reset value (R39). -/
abbrev ModelStore := List (Nat × Entry)

/-- The width of a host access to the register window (R63). -/
inductive AccessWidth where
  | byte
  | half
  | word
  deriving DecidableEq, Repr

/-- What the host can do to the block (R63, R70). A register is named by its bus address. -/
inductive HostOp where
  /-- Read a register. -/
  | regRead (addr : Nat) (width : AccessWidth)
  /-- Write a register. A write to CMD starts a command (R21). -/
  | regWrite (addr : Nat) (width : AccessWidth) (v : Word)
  /-- Read one buffer byte. -/
  | bufRead (sp : Space) (off : Nat)
  /-- Write one buffer byte. -/
  | bufWrite (sp : Space) (off : Nat) (b : Byte)
  /-- Read `val` of an entry. -/
  | valRead (k : Nat)
  /-- Write `val` of an entry. -/
  | valWrite (k : Nat) (v : Word)
  /-- Read `len` of an entry. -/
  | lenRead (k : Nat)
  /-- Write `len` of an entry. -/
  | lenWrite (k : Nat) (v : Word)
  /-- Read `txt[i]` of an entry. -/
  | txtRead (k i : Nat)
  /-- Write `txt[i]` of an entry. -/
  | txtWrite (k i : Nat) (v : Word)
  /-- Assert reset (R340). -/
  | reset
  deriving DecidableEq, Repr

/-- Whether a FieldSpec table is walked by ENCODE or by DECODE (R27). -/
inductive WalkDir where
  | encode
  | decode
  deriving DecidableEq, Repr

/-- A walk of a FieldSpec table in progress (R27). `rest` is the table from the internal index FIDX on. -/
structure Walk where
  dir : WalkDir
  /-- The part whose FieldSpecs run (R230, R265). -/
  part : Nat
  /-- `B + sel * S`, where the selected record starts (R187). -/
  recBase : Nat
  rest : List FieldWords
  deriving DecidableEq, Repr

/-- Why the machine stops. The block's own faults are not here: they are states (R302, `State.raiseFault`). -/
inductive Fault where
  /-- A FieldSpec run on its own names DIMG bytes from `addr` on that run past DATA_SIZE, or lie there. Raised by the
  meanings of the FieldSpec kinds. Safe: such an address does not exist (R60), and inside ENCODE and DECODE the check
  of R221 rules it out. -/
  | dimgRange (addr : Nat)
  /-- A FieldSpec run on its own names a key of NKEYS or above. Raised by the meanings of the FieldSpec kinds. Safe:
  such an entry does not exist (R60), and inside ENCODE and DECODE the check of R221 rules it out. -/
  | modelRange (key : Nat)
  deriving DecidableEq, Repr

/-- What the model gives no meaning to. -/
inductive Refusal where
  /-- An instruction that has no meaning yet. No arm of `exec` raises it. Safe. -/
  | notModelled (mnemonic : String)
  /-- A register access that is not one aligned 32-bit word. Raised by a host access. Safe: R63 leaves it to the
  platform and says that a model refuses it. -/
  | hostWidth (addr : Nat)
  /-- A register access below HOST_BASE, or at or beyond the end of the window. Raised by a host access. Safe: it does
  not reach this block, where no other space exists (R20, R60, R72). -/
  | hostAddress (addr : Nat)
  /-- A host buffer access at or beyond the buffer's size. Raised by a host access. Safe: R63 says that the model
  refuses it. -/
  | hostBuffer (off : Nat)
  /-- A host MODEL access with key >= NKEYS, or to `txt[i]` with i >= TEXT_MAX. Raised by a host access. Safe: there is
  no such entry or character (R35, R63). -/
  | hostModel (k : Nat)
  /-- A configuration that is not well-formed. Raised by `construct`, before there is a machine. Safe: R47 says that a
  model "refuses any other configuration when it is constructed". No instruction raises it. -/
  | illFormedConfig
  /-- A FieldSpec with no walk in progress. Raised by the meanings of the FieldSpec kinds. Safe: the host cannot issue
  a FieldSpec, and outside ENCODE and DECODE the spec gives one no effect (R27, R187). -/
  | fieldOutsideWalk
  /-- Words in a walk that encode no FieldSpec. Raised by `walkStep`. Safe: the check of R221 keeps a walk from starting
  on such a table. -/
  | fieldUndecodable
  deriving DecidableEq, Repr

/-- The state of the block. -/
structure State where
  /-- CMD, the last command word stored (R21). -/
  cmd : Word
  /-- A0, argument 0 (R22). -/
  a0 : Word
  /-- A1, argument 1 (R22). -/
  a1 : Word
  /-- A2, argument 2 (R22). -/
  a2 : Word
  /-- IN_LEN, the length of the frame in IBUF (R23). -/
  inLen : Word
  /-- RESULT (R24). -/
  result : ResultCode
  /-- FAIL_CAUSE (R25). -/
  failCause : FailCause
  /-- STATUS.FAULTED (R26). STATUS.DEV_VALID is computed from CURDEV. -/
  faulted : Bool
  /-- FAULT_CAUSE (R28, R300). -/
  faultCause : FaultCause
  /-- FAULT_KEY (R28). -/
  faultKey : Key
  /-- FAULT_CMD (R28). -/
  faultCmd : Word
  /-- RVAL (R29). -/
  rval : Word
  /-- RVAL2 (R29). -/
  rval2 : Word
  /-- OUT_LEN (R29). -/
  outLen : Word
  /-- SHAPE (R29). -/
  shape : Word
  /-- DIAG_COUNT (R33). -/
  diagCount : Word
  /-- CURDEV (R34). -/
  curdev : BitVec 8
  /-- PARTS_SEEN (R34). -/
  partsSeen : BitVec 8
  /-- DIAG_LOG[0..DIAG_MAX-1] (R33). -/
  diagLog : List Word
  /-- IBUF (R30). -/
  ibuf : Memory
  /-- OBUF (R30). -/
  obuf : Memory
  /-- DIMG (R30). -/
  dimg : Memory
  /-- The model store (R35). -/
  model : ModelStore
  /-- The configuration (R40). Nothing writes it; it stands here because a step has no other argument (log 1). -/
  cfg : Config
  /-- The model's own: a walk of a FieldSpec table in progress. No run from reset shows one at a step (log 4). -/
  walk : Option Walk
  /-- The model's own: the host's accesses that have not been performed yet, first one first (log 2). -/
  host : List HostOp
  /-- The model's own: the value the last host read returned (log 3). -/
  hostData : Word
  deriving DecidableEq, Repr

/-- The reset contents of a block that carries the configuration `cfg` (R48, R340). A model is built by `construct`, which
gives this state for a well-formed `cfg` and refuses any other. With another `cfg` this state is the hardware instance
loaded with an unchecked configuration, to which R47 gives the run-time checks of R221 (log 6). -/
def State.resetWith (cfg : Config) : State :=
  { cmd := 0, a0 := 0, a1 := 0, a2 := 0, inLen := 0
    result := .none, failCause := .none
    faulted := false, faultCause := .none, faultKey := 0, faultCmd := 0
    rval := 0, rval2 := 0, outLen := 0, shape := 0xFFFFFFFF, diagCount := 0
    curdev := 0xFF, partsSeen := 0, diagLog := List.replicate cfg.params.diagMax 0
    ibuf := [], obuf := [], dimg := [], model := []
    cfg := cfg, walk := none, host := [], hostData := 0 }

/-- The machine right after reset (R48, R340), built with the configuration of 95_test_vectors.md V9 (log 1):
`construct Config.v9` answers it. -/
def State.reset : State := State.resetWith Config.v9

end Sys2Proof.Machine
end

