-- ==== Sys2Proof/Machine/Operands.lean ====
section
/-! DEFINITION. The operand formats: bit fields (00_scope.md rule R9), BREF (30_encoding.md rule R83) with `chk_bref`
(00_scope.md rule R11), GEOM (R84), XF14, XFNAME and ENUMW (R85). -/

namespace Sys2Proof.Machine

/-- `mask(w)` of R9 as a 32-bit pattern: bits w-1..0 set, and 0 for w = 0. -/
def maskWord (w : Nat) : Word := BitVec.ofNat 32 (2 ^ w - 1)

/-- `v[lo+w-1:lo]` of R9 as a number. -/
def bitsAt (v : Word) (lo w : Nat) : Nat := (v.extractLsb' lo w).toNat

/-- A decoded buffer reference: the space and the offset (R83). -/
structure BufRef where
  sp : Space
  off : Nat
  deriving DecidableEq, Repr

/-- `size(s)` of R11. -/
def spaceSize (P : Params) (sp : Space) : Nat :=
  match sp with
  | .ibuf => P.bufSize
  | .obuf => P.bufSize
  | .dimg => P.dataSize

/-- SP of a BREF (R83): 3 is reserved. -/
def spaceOf (sp : Nat) : Option Space :=
  match sp with
  | 0 => some .ibuf
  | 1 => some .obuf
  | 2 => some .dimg
  | _ => none

/-- `chk_bref(b, n)` of R11. The sum does not wrap. -/
def chkBref (P : Params) (b : Word) (n : Nat) : Except FaultRec BufRef :=
  if bitsAt b 18 14 ≠ 0 then .error ⟨.badArg, noKey⟩
  else
    match spaceOf (bitsAt b 16 2) with
    | none => .error ⟨.badArg, noKey⟩
    | some sp =>
      if bitsAt b 0 16 + n > spaceSize P sp then .error ⟨.bounds, noKey⟩
      else .ok ⟨sp, bitsAt b 0 16⟩

/-- The geometry of a bit field (R84). -/
structure Geom where
  sa : Nat
  wa : Nat
  two : Bool
  sb : Nat
  wb : Nat
  ord : Bool
  deriving DecidableEq, Repr

/-- The fields of a GEOM word (R84). -/
def geomOf (g : Word) : Geom :=
  { sa := bitsAt g 0 3, wa := bitsAt g 3 4, two := g.getLsbD 7, sb := bitsAt g 8 3, wb := bitsAt g 11 4
    ord := g.getLsbD 15 }

/-- The legal values of a GEOM word (R84). -/
def geomLegal (g : Word) : Bool :=
  let G := geomOf g
  bitsAt g 16 16 == 0 && decide (1 ≤ G.wa) && decide (G.wa ≤ 8) && decide (G.sa + G.wa ≤ 8) &&
    (if G.two then
      decide (1 ≤ G.wb) && decide (G.wb ≤ 8) && decide (G.sb + G.wb ≤ 8) && decide (G.wa + G.wb ≤ 8)
    else G.sb == 0 && G.wb == 0 && !G.ord)

/-- W, the field width (R84, R140). -/
def Geom.width (G : Geom) : Nat := G.wa + if G.two then G.wb else 0

/-- The bytes a bit field touches, 1 + TWO (R87, R142). -/
def Geom.span (G : Geom) : Nat := if G.two then 2 else 1

/-- XF14 is legal: bits 31:1 are 0 (R85). -/
def xf14Legal (x : Word) : Bool := bitsAt x 1 31 == 0

/-- LSBF of XF14 (R85). -/
def xf14Lsbf (x : Word) : Bool := x.getLsbD 0

/-- N of XFNAME (R85). -/
def xfnameN (x : Word) : Nat := bitsAt x 0 6

/-- XFNAME is legal: 1 <= N <= min(63, TEXT_MAX), bits 31:6 are 0 (R85, R169). -/
def xfnameLegal (P : Params) (x : Word) : Bool :=
  bitsAt x 6 26 == 0 && decide (1 ≤ xfnameN x) && decide (xfnameN x ≤ P.textMax)

/-- ECOUNT of ENUMW (R85). -/
def ecount (e : Word) : Nat := bitsAt e 0 16

/-- EFALL of ENUMW (R85). -/
def efall (e : Word) : Nat := bitsAt e 16 16

/-- ENUMW is legal: ECOUNT = 0 and EFALL = 0, or ECOUNT >= 1 and EFALL < ECOUNT (R85). -/
def enumwLegal (e : Word) : Bool :=
  (ecount e == 0 && efall e == 0) || (decide (1 ≤ ecount e) && decide (efall e < ecount e))

/-- The operands of a FieldSpec are legal (R45): KEY and KEY2 below NKEYS, PARAM and ENUMW legal for the kind. A command
has no operand in its word. -/
def fieldOperandsLegal (P : Params) (i : Instr) : Bool :=
  match i with
  | .init | .recog | .encode | .decode | .revise | .nibx | .nibc | .bfpk | .bfup | .s14e | .s14d | .vele | .veld
  | .namee | .named | .enumchk | .clamp | .ckgen | .ckchk => true
  | .fspecRaw8 f e => decide (f.key.toNat < P.nkeys) && enumwLegal e
  | .fspecNib8 f e => decide (f.key.toNat < P.nkeys) && enumwLegal e
  | .fspecBits f g e => decide (f.key.toNat < P.nkeys) && geomLegal g && enumwLegal e
  | .fspecS14 f x e => decide (f.key.toNat < P.nkeys) && xf14Legal x && enumwLegal e
  | .fspecVel f k2 => decide (f.key.toNat < P.nkeys) && decide (k2.toNat < P.nkeys)
  | .fspecName f x => decide (f.key.toNat < P.nkeys) && xfnameLegal P x

/-- span(f), the DIMG bytes of a FieldSpec (R87). -/
def fieldSpan (i : Instr) : Nat :=
  match i with
  | .init | .recog | .encode | .decode | .revise | .nibx | .nibc | .bfpk | .bfup | .s14e | .s14d | .vele | .veld
  | .namee | .named | .enumchk | .clamp | .ckgen | .ckchk => 0
  | .fspecRaw8 _ _ => 1
  | .fspecNib8 _ _ => 2
  | .fspecBits _ g _ => (geomOf g).span
  | .fspecS14 _ _ _ => 2
  | .fspecVel _ _ => 1
  | .fspecName _ x => xfnameN x

/-- `base(f, sel)` of R187, given `recBase = B + sel * S`. -/
def fieldBase (recBase : Nat) (f : FieldPlace) : Nat :=
  if f.scope then f.off.toNat else recBase + f.off.toNat

end Sys2Proof.Machine
end

