-- ==== Sys2Proof/Machine/Flags.lean ====
section
/-! DEFINITION. The block has no condition flags. What a command leaves to be read is RESULT, FAIL_CAUSE and STATUS; this
file gives the words the host reads from them: 10_state.md rules R20, R24, R25, R26 and 60_exceptions.md rule R300. -/

namespace Sys2Proof.Machine

/-- The code in RESULT[2:0] (R24). -/
def ResultCode.word (r : ResultCode) : Word :=
  match r with
  | .none => 0
  | .success => 1
  | .incomplete => 2
  | .failed => 3
  | .cancelled => 4
  | .fault => 5

/-- The code in FAIL_CAUSE[2:0] (R25). -/
def FailCause.word (c : FailCause) : Word :=
  match c with
  | .none => 0
  | .length => 1
  | .header => 2
  | .version => 3
  | .checksum => 4
  | .part => 5

/-- The code in FAULT_CAUSE[3:0] (R300). -/
def FaultCause.word (c : FaultCause) : Word :=
  match c with
  | .none => 0
  | .illegalCmd => 1
  | .badArg => 2
  | .bounds => 3
  | .noDevice => 4
  | .schema => 5
  | .badField => 6
  | .unsupported => 7

/-- STATUS.DEV_VALID: 1 exactly when CURDEV is not 0xFF (R26). -/
def State.devValid (s : State) : Bool := s.curdev ≠ 0xFF#8

/-- STATUS (R26): FAULTED in bit 0, DEV_VALID in bit 1, the rest 0. -/
def State.statusWord (s : State) : Word :=
  0#30 ++ BitVec.ofBool s.devValid ++ BitVec.ofBool s.faulted

end Sys2Proof.Machine
end

