-- ==== Sys2Proof/Machine/Ops.lean ====
section
/-! DEFINITION. The named operations over buffers, registers and the model store; taking a fault (60_exceptions.md rule
R302) and the normal ending (R305); the enumeration fallback (42_field_transform.md rule R172). There is no return from
a fault: reset is the only way out (R309). -/

namespace Sys2Proof.Machine

/-! ### Sparse storage: one canonical form for the buffers, the character codes and the model store -/

/-- The value at `a`, where `d` is what an unlisted place holds. -/
def readCell {α : Type} (d : α) (m : List (Nat × α)) (a : Nat) : α :=
  match m with
  | [] => d
  | (k, v) :: m => if k = a then v else readCell d m a

/-- `m` without an entry at `a`. -/
def eraseCell {α : Type} (m : List (Nat × α)) (a : Nat) : List (Nat × α) := m.filter (fun c => c.1 ≠ a)

/-- `m` with the entry `(a, v)` put before the first entry at a higher place. -/
def insertCell {α : Type} (m : List (Nat × α)) (a : Nat) (v : α) : List (Nat × α) :=
  match m with
  | [] => [(a, v)]
  | (k, w) :: m => if a < k then (a, v) :: (k, w) :: m else (k, w) :: insertCell m a v

/-- `m` with `v` at `a`. Writing `d`, what an unlisted place holds, removes the entry. -/
def writeCell {α : Type} [DecidableEq α] (d : α) (m : List (Nat × α)) (a : Nat) (v : α) : List (Nat × α) :=
  if v = d then eraseCell m a else insertCell (eraseCell m a) a v

/-- The canonical form: places strictly rising, and no entry equal to what an unlisted place holds. -/
abbrev cellsWf {α : Type} [DecidableEq α] (d : α) (m : List (Nat × α)) : Prop :=
  m.Pairwise (fun x y => x.1 < y.1) ∧ ∀ c ∈ m, c.2 ≠ d

/-! ### Byte memory -/

/-- The byte of a buffer at an offset. An unlisted byte is 0x00 (R31). -/
def Memory.read (m : Memory) (a : Nat) : Byte := readCell 0#8 m a

/-- A buffer with one byte written. -/
def Memory.write (m : Memory) (a : Nat) (b : Byte) : Memory := writeCell 0#8 m a b

/-- The canonical form of a buffer. -/
abbrev Memory.wf (m : Memory) : Prop := cellsWf 0#8 m

/-- `MemRead` of R10. -/
def Memory.readBytes (m : Memory) (off n : Nat) : List Byte := (List.range n).map (fun i => m.read (off + i))

/-- `MemWrite` of R10. -/
def Memory.writeBytes (m : Memory) (off : Nat) (bs : List Byte) : Memory :=
  match bs with
  | [] => m
  | b :: bs => Memory.writeBytes (m.write off b) (off + 1) bs

/-- The memory of a buffer space. -/
def State.buf (s : State) (sp : Space) : Memory :=
  match sp with
  | .ibuf => s.ibuf
  | .obuf => s.obuf
  | .dimg => s.dimg

/-- The state with one buffer replaced. -/
def State.setBuf (s : State) (sp : Space) (m : Memory) : State :=
  match sp with
  | .ibuf => { s with ibuf := m }
  | .obuf => { s with obuf := m }
  | .dimg => { s with dimg := m }

/-- `Buf[sp][i]` of R10. -/
def State.byteAt (s : State) (sp : Space) (i : Nat) : Byte := (s.buf sp).read i

/-- `MemRead(sp, off, n)` of R10. -/
def State.readBytes (s : State) (sp : Space) (off n : Nat) : List Byte := (s.buf sp).readBytes off n

/-- `MemWrite(sp, off, n, bytes)` of R10. -/
def State.writeBytes (s : State) (sp : Space) (off : Nat) (bs : List Byte) : State :=
  s.setBuf sp ((s.buf sp).writeBytes off bs)

/-! ### The model store -/

/-- `Model[k]` (R35). -/
def State.entry (s : State) (k : Nat) : Entry := readCell Entry.zero s.model k

/-- The state with `Model[k]` replaced. -/
def State.setEntry (s : State) (k : Nat) (e : Entry) : State := { s with model := writeCell Entry.zero s.model k e }

/-- `Model[k].val` (R35). -/
def State.val (s : State) (k : Key) : Word := (s.entry k.toNat).val

/-- The state with `Model[k].val` written. -/
def State.setVal (s : State) (k : Key) (v : Word) : State :=
  s.setEntry k.toNat { s.entry k.toNat with val := v }

/-- `txt[i]` of an entry (R35). -/
def Entry.code (e : Entry) (i : Nat) : Word := readCell 0#32 e.txt i

/-- Character codes from index `i` on as sparse storage. -/
def textCells (i : Nat) (codes : List Word) : List (Nat × Word) :=
  match codes with
  | [] => []
  | c :: cs => if c = 0#32 then textCells (i + 1) cs else (i, c) :: textCells (i + 1) cs

/-- An entry with `len` and every `txt[i]` written from a list of codes: `txt[i] <- (i < len) ? codes[i] : 0`. No more
than TEXT_MAX codes are kept; every rule that writes a text stays within TEXT_MAX (R42, R45, R171). -/
def Entry.withText (e : Entry) (textMax : Nat) (codes : List Word) : Entry :=
  { e with len := (codes.take textMax).length, txt := textCells 0 (codes.take textMax) }

/-- The state with the text of `Model[k]` written (R171, R186). -/
def State.setText (s : State) (k : Key) (codes : List Word) : State :=
  s.setEntry k.toNat ((s.entry k.toNat).withText s.cfg.params.textMax codes)

/-! ### Faults and endings -/

/-- The fault entry of R302: FAULTED, FAULT_CAUSE, FAULT_KEY, FAULT_CMD, RESULT and FAIL_CAUSE, and nothing else. -/
def State.raiseFault (s : State) (f : FaultRec) : State :=
  { s with
    faulted := true, faultCause := f.cause, faultKey := f.key, faultCmd := s.cmd, result := .fault, failCause := .none }

/-- `finish(result, cause)` of R305. -/
def State.finish (s : State) (r : ResultCode) (c : FailCause) : State := { s with result := r, failCause := c }

/-- `finish(SUCCESS, NONE)`. -/
def State.succeed (s : State) : State := s.finish .success .none

/-- The outcome of a command (R290): the state its rule ends with, or the fault entry from the state before it, since
every check comes before the first write (R12). -/
def conclude (s : State) (r : Except FaultRec State) : Host.Outcome State Fault Refusal :=
  match r with
  | .ok t => .next t
  | .error f => .next (s.raiseFault f)

/-- Goes on if `c` holds, and raises `f` if not. -/
def need (c : Bool) (f : FaultRec) : Except FaultRec Unit := if c then .ok () else .error f

/-- Goes on if a check found no violation, and raises the violation if it found one. -/
def noViolation (v : Option FaultRec) : Except FaultRec Unit :=
  match v with
  | none => .ok ()
  | some f => .error f

/-- Fault(BAD_ARG, 0xFFFF) (R300). -/
def badArg : FaultRec := ⟨.badArg, noKey⟩

/-- Fault(NO_DEVICE, 0xFFFF) (R300). -/
def noDevice : FaultRec := ⟨.noDevice, noKey⟩

/-! ### The current device -/

/-- `Schema[k]` (R42): the entry of a defined key, and none where DEF = 0. -/
def schemaAt (d : Device) (k : Nat) : Option SchemaEntry := d.schema.lookup k

/-- `Cfg.dev[Reg[CURDEV]]` (R10), or Fault(NO_DEVICE) when CURDEV = 0xFF (R295). A CURDEV that names no device of the
configuration, which no run reaches, is treated as none (log 9). -/
def currentDevice (s : State) : Except FaultRec Device :=
  if s.curdev = 0xFF#8 then .error noDevice
  else
    match s.cfg.devs[s.curdev.toNat]? with
    | some d => .ok d
    | none => .error noDevice

/-! ### Enumeration fallback -/

/-- The DIAG_LOG word of a substitution: code[15:0] in bits 31:16 and the key in bits 15:0 (R33, R172). -/
def diagWord (code : Word) (key : Key) : Word := code.extractLsb' 0 16 ++ key

/-- What a substitution records (R33, R172): DIAG_LOG[c] when the count c before it is below DIAG_MAX, and the count
plus 1, saturating. -/
def State.logSubstitution (s : State) (code : Word) (key : Key) : State :=
  { s with
    diagLog :=
      if s.diagCount.toNat < s.cfg.params.diagMax then s.diagLog.set s.diagCount.toNat (diagWord code key)
      else s.diagLog
    diagCount := if s.diagCount = 0xFFFFFFFF#32 then s.diagCount else s.diagCount + 1 }

/-- A code passes the check: ECOUNT = 0 or code < ECOUNT, unsigned (R172). -/
def enumPasses (code enumw : Word) : Bool := ecount enumw == 0 || decide (code.toNat < ecount enumw)

/-- The code that `enum_fix` of R172 returns. -/
def enumCode (code enumw : Word) : Word := if enumPasses code enumw then code else BitVec.ofNat 32 (efall enumw)

/-- The state after `enum_fix` of R172. -/
def State.enumFix (s : State) (code enumw : Word) (key : Key) : State :=
  if enumPasses code enumw then s else s.logSubstitution code key

/-- `clamp(v, lo, hi)` of R16, signed. R16 defines it for lo <= hi only. For lo > hi, DESIGN CHOICE (log 6): `lo` is tested
first and then `hi`. CLAMP never gets there (R174), and REVISE only in a configuration that is not well-formed (R42). -/
def clampWord (v lo hi : Word) : Word :=
  if v.toInt < lo.toInt then lo else if hi.toInt < v.toInt then hi else v

end Sys2Proof.Machine
end

