-- ==== Sys2Proof/Machine/Control.lean ====
section
/-! DEFINITION. Control: INIT (46_control.md rule R292). -/

namespace Sys2Proof.Machine

/-- The entry that INIT loads for a schema entry (R292). -/
def initEntry (P : Params) (e : SchemaEntry) : Entry :=
  match e with
  | .int _ _ dflt => { val := dflt, len := 0, txt := [] }
  | .text dtxt => Entry.zero.withText P.textMax dtxt

/-- The model store that INIT loads (R292), from the keys listed: the default of each defined key below NKEYS, and
`Entry.zero` for every other key. -/
def initModel (P : Params) (dev : Device) (ks : List Nat) : ModelStore :=
  match ks with
  | [] => []
  | k :: ks =>
    match schemaAt dev k with
    | some e => if k < P.nkeys then writeCell Entry.zero (initModel P dev ks) k (initEntry P e) else initModel P dev ks
    | none => initModel P dev ks

/-- The rule of INIT (R292). -/
def initRule (s : State) : Except FaultRec State :=
  match s.cfg.devs[s.a0.toNat]? with
  | none => .error noDevice
  | some dev =>
    .ok
      { s with
        curdev := s.a0.setWidth 8
        model := initModel s.cfg.params dev (dev.schema.map Prod.fst)
        partsSeen := 0
        diagCount := 0 }.succeed

/-- INIT: select a device and load its defaults (R292). -/
def execInit (s : State) : Host.Outcome State Fault Refusal := conclude s (initRule s)

end Sys2Proof.Machine
end

