-- ==== Sys2Proof/Decode.lean ====
section
/-! DEFINITION. Decoding and encoding: the CMD word (30_encoding.md rules R80, R81, R89) and the four words of a
FieldSpec (R86, R87). The decoders are total and reject by name; the encoder is written from the same tables. -/

namespace Sys2Proof

/-- Why words are no instruction. -/
inductive DecodeError where
  /-- CMD[31:8] is not 0, or W0[31:24] is not 0 (R80, R86). -/
  | reservedBits
  /-- OPC is not in the opcode map (R81). -/
  | illegalOpcode
  /-- KIND is 6..15 (R87). -/
  | reservedKind
  /-- KEY2 is not 0 in a kind other than VEL (R45). -/
  | key2NotZero
  /-- PARAM is not 0 in a kind without a parameter (R87). -/
  | paramNotZero
  /-- W3 is not 0 in a kind without an enumeration check (R87). -/
  | enumwNotZero
  /-- The instruction has neither one word nor four. -/
  | wordCount
  deriving DecidableEq, Repr

/-- The opcode map of R81. -/
def opcodeMap : List (BitVec 8 × Instr) :=
  [(0x01, .init), (0x02, .recog), (0x03, .encode), (0x04, .decode), (0x05, .revise), (0x10, .nibx), (0x11, .nibc),
   (0x20, .bfpk), (0x21, .bfup), (0x30, .s14e), (0x31, .s14d), (0x32, .vele), (0x33, .veld), (0x34, .namee),
   (0x35, .named), (0x36, .enumchk), (0x37, .clamp), (0x40, .ckgen), (0x41, .ckchk)]

/-- The command that a CMD word encodes (R80, R81, R89). -/
def decodeCmd (w : Word) : Except DecodeError Instr :=
  if w.extractLsb' 8 24 ≠ 0#24 then .error .reservedBits
  else
    match opcodeMap.lookup (w.extractLsb' 0 8) with
    | some i => .ok i
    | none => .error .illegalOpcode

/-- W0[23:8], the KEY of a FieldSpec (R86), which a BAD_FIELD fault records even when the rest is ill-formed (R221). -/
def FieldWords.key (f : FieldWords) : Key := f.w0.extractLsb' 8 16

/-- The place fields of W0 and W1 (R86). -/
def fieldPlace (f : FieldWords) : FieldPlace :=
  { scope := f.w0.getLsbD 4, part := f.w0.extractLsb' 5 3, key := f.key, off := f.w1.extractLsb' 0 16 }

/-- W1[31:16], KEY2 (R86). -/
def fieldKey2 (f : FieldWords) : Key := f.w1.extractLsb' 16 16

/-- `i` if KEY2 is 0, as every kind but VEL needs (R45). -/
def needKey2Zero (f : FieldWords) (i : Instr) : Except DecodeError Instr :=
  if fieldKey2 f = 0#16 then .ok i else .error .key2NotZero

/-- `r` if PARAM is 0, as the kinds without a parameter need (R87). -/
def needParamZero (f : FieldWords) (r : Except DecodeError Instr) : Except DecodeError Instr :=
  if f.w2 = 0#32 then r else .error .paramNotZero

/-- `r` if W3 is 0, as the kinds without an enumeration check need (R87). -/
def needEnumwZero (f : FieldWords) (r : Except DecodeError Instr) : Except DecodeError Instr :=
  if f.w3 = 0#32 then r else .error .enumwNotZero

/-- The FieldSpec that four words encode (R86, R87). Every bit that must be 0 is checked here. Whether PARAM and ENUMW
hold legal values is a matter of well-formedness (R45), not of decoding. -/
def decodeField (f : FieldWords) : Except DecodeError Instr :=
  if f.w0.extractLsb' 24 8 ≠ 0#8 then .error .reservedBits
  else
    match (f.w0.extractLsb' 0 4).toNat with
    | 0 => needParamZero f (needKey2Zero f (.fspecRaw8 (fieldPlace f) f.w3))
    | 1 => needParamZero f (needKey2Zero f (.fspecNib8 (fieldPlace f) f.w3))
    | 2 => needKey2Zero f (.fspecBits (fieldPlace f) f.w2 f.w3)
    | 3 => needKey2Zero f (.fspecS14 (fieldPlace f) f.w2 f.w3)
    | 4 => needParamZero f (needEnumwZero f (.ok (.fspecVel (fieldPlace f) (fieldKey2 f))))
    | 5 => needEnumwZero f (needKey2Zero f (.fspecName (fieldPlace f) f.w2))
    | _ => .error .reservedKind

/-- The instruction that a list of words encodes: one word is a CMD word, four are a FieldSpec. -/
def decodeWords (ws : List Word) : Except DecodeError Instr :=
  match ws with
  | [w] => decodeCmd w
  | [w0, w1, w2, w3] => decodeField ⟨w0, w1, w2, w3⟩
  | _ => .error .wordCount

/-- W0 of a FieldSpec of the given KIND (R86). -/
def encodeW0 (kind : BitVec 4) (f : FieldPlace) : Word :=
  0#8 ++ f.key ++ f.part ++ BitVec.ofBool f.scope ++ kind

/-- W1 of a FieldSpec (R86). -/
def encodeW1 (key2 : Key) (f : FieldPlace) : Word := key2 ++ f.off

/-- The words of an instruction (R80, R81, R86, R87). -/
def encode (i : Instr) : List Word :=
  match i with
  | .init => [0x00000001]
  | .recog => [0x00000002]
  | .encode => [0x00000003]
  | .decode => [0x00000004]
  | .revise => [0x00000005]
  | .nibx => [0x00000010]
  | .nibc => [0x00000011]
  | .bfpk => [0x00000020]
  | .bfup => [0x00000021]
  | .s14e => [0x00000030]
  | .s14d => [0x00000031]
  | .vele => [0x00000032]
  | .veld => [0x00000033]
  | .namee => [0x00000034]
  | .named => [0x00000035]
  | .enumchk => [0x00000036]
  | .clamp => [0x00000037]
  | .ckgen => [0x00000040]
  | .ckchk => [0x00000041]
  | .fspecRaw8 f e => [encodeW0 0 f, encodeW1 0 f, 0, e]
  | .fspecNib8 f e => [encodeW0 1 f, encodeW1 0 f, 0, e]
  | .fspecBits f g e => [encodeW0 2 f, encodeW1 0 f, g, e]
  | .fspecS14 f x e => [encodeW0 3 f, encodeW1 0 f, x, e]
  | .fspecVel f k2 => [encodeW0 4 f, encodeW1 k2 f, 0, 0]
  | .fspecName f x => [encodeW0 5 f, encodeW1 0 f, x, 0]

/-- The four words of the number `w`, word 0 in its low 32 bits. -/
def wordsOfNat (w : Nat) : FieldWords :=
  ⟨BitVec.ofNat 32 w, BitVec.ofNat 32 (w >>> 32), BitVec.ofNat 32 (w >>> 64), BitVec.ofNat 32 (w >>> 96)⟩

/-- The instruction the decoder reads from an instruction's bits `w`, numbered as spec/opcode_table.json numbers them.
Every row of the table is 32 bits wide, and a CMD word and the W0 of a FieldSpec share that width, so a 32-bit `w` is
read as a CMD word where it is a legal one, and else as the W0 of a FieldSpec whose other words hold the bits above
(log 5). A `w` of more than 32 bits is a FieldSpec. -/
def decodeTableWord (nbits w : Nat) : Option Instr :=
  match (if nbits ≤ 32 then decodeCmd (BitVec.ofNat 32 w) else .error .wordCount) with
  | .ok i => some i
  | .error _ =>
    match decodeField (wordsOfNat w) with
    | .ok i => some i
    | .error _ => none

end Sys2Proof
end

