-- ==== Sys2Proof/Machine/Checks.lean ====
section
/-! DEFINITION. The conditions on formats and FieldSpecs (10_state.md rules R44 and R45, FW1 to FW10) and the run-time
configuration check `check_format` (44_encoder.md rule R221). -/

namespace Sys2Proof.Machine

/-- PL, the payload length: D when MODE = 0 and 2*D when MODE = 1 (R44). -/
def payloadLen (fmt : Format) : Nat := if fmt.mode = 0 then fmt.dlen else 2 * fmt.dlen

/-- FW1: HDR[0] = 0xF0. -/
def fw1 (fmt : Format) : Bool := fmt.hdr.head? == some 0xF0#8

/-- FW2: L = H + PL + (CK ? 1 : 0) + 1, L <= BUF_SIZE, D <= DATA_SIZE, and MODE is 0 or 1. -/
def fw2 (P : Params) (fmt : Format) : Bool :=
  fmt.total == fmt.h + payloadLen fmt + (if fmt.ck then 1 else 0) + 1 && decide (fmt.total ≤ P.bufSize) &&
    decide (fmt.dlen ≤ P.dataSize) && (fmt.mode == 0 || fmt.mode == 1)

/-- FW3: with CK, H <= CKS <= CKE <= H + PL; without, CKS = CKE = 0. -/
def fw3 (fmt : Format) : Bool :=
  if fmt.ck then
    decide (fmt.h ≤ fmt.cks) && decide (fmt.cks ≤ fmt.cke) && decide (fmt.cke ≤ fmt.h + payloadLen fmt)
  else fmt.cks == 0 && fmt.cke == 0

/-- FW4: with VER, VOFF < H; without, VOFF = 0. -/
def fw4 (fmt : Format) : Bool := if fmt.ver then decide (fmt.voff < fmt.h) else fmt.voff == 0

/-- FW5: 1 <= M <= 8. If M > 1, then R = 1, RL <= POFF < H, and POFF /= VOFF when VER. If M = 1, then POFF = 0. -/
def fw5 (fmt : Format) : Bool :=
  decide (1 ≤ fmt.parts) && decide (fmt.parts ≤ 8) &&
    (if 1 < fmt.parts then
      fmt.recs == 1 && decide (fmt.rl ≤ fmt.poff) && decide (fmt.poff < fmt.h) &&
        (!fmt.ver || fmt.poff != fmt.voff)
    else fmt.poff == 0)

/-- FW6: R >= 1 and B + R*S <= D. If R > 1, then S >= 1. -/
def fw6 (fmt : Format) : Bool :=
  decide (1 ≤ fmt.recs) && decide (fmt.base + fmt.recs * fmt.stride ≤ fmt.dlen) &&
    (fmt.recs == 1 || decide (1 ≤ fmt.stride))

/-- The format-level conditions FW1 to FW6 (R221 step 1). -/
def formatLevelOk (P : Params) (fmt : Format) : Bool :=
  fw1 fmt && fw2 P fmt && fw3 fmt && fw4 fmt && fw5 fmt && fw6 fmt

/-- FW7 for a decoded FieldSpec: its bytes fit in DIMG for every record, and, when R > 1, in its record. -/
def fieldFits (fmt : Format) (i : Instr) (f : FieldPlace) : Bool :=
  if f.scope then decide (f.off.toNat + fieldSpan i ≤ fmt.dlen)
  else
    decide (fmt.base + (fmt.recs - 1) * fmt.stride + f.off.toNat + fieldSpan i ≤ fmt.dlen) &&
      (decide (fmt.recs ≤ 1) || decide (f.off.toNat + fieldSpan i ≤ fmt.stride))

/-- The word-level conditions of R45 with FW7 and FW8 (R221 step 2). Words that decode to no FieldSpec break R45. -/
def fieldWordsOk (P : Params) (fmt : Format) (w : FieldWords) : Bool :=
  match decodeField w with
  | .error _ => false
  | .ok i =>
    match i.place? with
    | none => false
    | some f => fieldOperandsLegal P i && fieldFits fmt i f && decide (f.part.toNat < fmt.parts)

/-- Key `k` is a defined INT key. -/
def isIntKey (dev : Device) (k : Key) : Bool :=
  match schemaAt dev k.toNat with
  | some (.int _ _ _) => true
  | some (.text _) => false
  | none => false

/-- Key `k` is a defined TEXT key. -/
def isTextKey (dev : Device) (k : Key) : Bool :=
  match schemaAt dev k.toNat with
  | some (.text _) => true
  | some (.int _ _ _) => false
  | none => false

/-- FW9: the SCHEMA violation of a FieldSpec, KEY before KEY2 (R221 step 2). -/
def schemaViolation (dev : Device) (i : Instr) : Option FaultRec :=
  match i with
  | .init | .recog | .encode | .decode | .revise | .nibx | .nibc | .bfpk | .bfup | .s14e | .s14d | .vele | .veld
  | .namee | .named | .enumchk | .clamp | .ckgen | .ckchk => none
  | .fspecRaw8 f _ => if isIntKey dev f.key then none else some ⟨.schema, f.key⟩
  | .fspecNib8 f _ => if isIntKey dev f.key then none else some ⟨.schema, f.key⟩
  | .fspecBits f _ _ => if isIntKey dev f.key then none else some ⟨.schema, f.key⟩
  | .fspecS14 f _ _ => if isIntKey dev f.key then none else some ⟨.schema, f.key⟩
  | .fspecVel f k2 =>
    if !isIntKey dev f.key then some ⟨.schema, f.key⟩
    else if !isIntKey dev k2 then some ⟨.schema, k2⟩
    else none
  | .fspecName f _ => if isTextKey dev f.key then none else some ⟨.schema, f.key⟩

/-- The first violation of one FieldSpec: BAD_FIELD before SCHEMA (R221 step 2). -/
def fieldViolation (P : Params) (dev : Device) (fmt : Format) (w : FieldWords) : Option FaultRec :=
  if fieldWordsOk P fmt w then
    match decodeField w with
    | .error _ => none
    | .ok i => schemaViolation dev i
  else some ⟨.badField, w.key⟩

/-- The place and the GEOM word of a BITS FieldSpec. -/
def bitsParts (i : Instr) : Option (FieldPlace × Word) :=
  match i with
  | .init | .recog | .encode | .decode | .revise | .nibx | .nibc | .bfpk | .bfup | .s14e | .s14d | .vele | .veld
  | .namee | .named | .enumchk | .clamp | .ckgen | .ckchk => none
  | .fspecBits f g _ => some (f, g)
  | .fspecRaw8 _ _ | .fspecNib8 _ _ | .fspecS14 _ _ _ | .fspecVel _ _ | .fspecName _ _ => none

/-- The PART of the words if they are a BITS FieldSpec, with the DIMG bytes that its segments target in record `r`. -/
def bitsTargets (fmt : Format) (r : Nat) (w : FieldWords) : Option (BitVec 3 × List Nat) :=
  match decodeField w with
  | .error _ => none
  | .ok i =>
    match bitsParts i with
    | none => none
    | some (f, g) =>
      some (f.part, (List.range (geomOf g).span).map (fun j => fieldBase (fmt.base + r * fmt.stride) f + j))

/-- The words are a BITS FieldSpec of part `p` that targets DIMG byte `b` for some record. -/
def bitsHits (fmt : Format) (p : BitVec 3) (b : Nat) (w : FieldWords) : Bool :=
  (List.range fmt.recs).any fun r =>
    match bitsTargets fmt r w with
    | some (q, bs) => q == p && bs.contains b
    | none => false

/-- FW10: no DIMG byte is a segment target of more than 8 BITS FieldSpecs of one part. -/
def fw10 (fmt : Format) : Bool :=
  fmt.fields.all fun w =>
    (List.range fmt.recs).all fun r =>
      match bitsTargets fmt r w with
      | some (p, bs) => bs.all fun b => decide (fmt.fields.countP (bitsHits fmt p b) ≤ 8)
      | none => true

/-- `check_format_level(Fmt)` of R221. -/
def checkFormatLevel (P : Params) (fmt : Format) : Option FaultRec :=
  if formatLevelOk P fmt then none else some ⟨.badField, noKey⟩

/-- `check_format(Dev, Fmt)` of R221: the first violation in its order. -/
def checkFormat (P : Params) (dev : Device) (fmt : Format) : Option FaultRec :=
  match checkFormatLevel P fmt with
  | some v => some v
  | none =>
    match fmt.fields.findSome? (fieldViolation P dev fmt) with
    | some v => some v
    | none => if fw10 fmt then none else some ⟨.badField, noKey⟩

end Sys2Proof.Machine
end

