-- ==== Sys2Proof/Machine/Checksum.lean ====
section
/-! DEFINITION. checksum_validator: CKGEN and CKCHK (43_checksum.md rules R200 to R205). -/

namespace Sys2Proof.Machine

/-- The sum of unsigned bytes (R15, R200). -/
def byteSum (bs : List Byte) : Nat :=
  match bs with
  | [] => 0
  | b :: bs => b.toNat + byteSum bs

/-- `ck_sum` of R200 over a list of bytes: the sum mod 128. -/
def ckSum (bs : List Byte) : Byte := BitVec.ofNat 8 (byteSum bs % 128)

/-- `ck_valid(recv, computed)` of R200: the whole received byte is compared, and 0x7F is always valid. -/
def ckValid (recv computed : Byte) : Bool := recv == 0x7F#8 || recv == computed

/-- The rule of CKGEN (R201). -/
def ckgenRule (s : State) : Except FaultRec State := do
  let src ← chkBref s.cfg.params s.a0 s.a1.toNat
  let dst ← chkBref s.cfg.params s.a2 1
  let c := ckSum (s.readBytes src.sp src.off s.a1.toNat)
  return { s.writeBytes dst.sp dst.off [c] with rval := c.setWidth 32 }.succeed

/-- CKGEN: compute a checksum and write it (R201). -/
def execCkgen (s : State) : Host.Outcome State Fault Refusal := conclude s (ckgenRule s)

/-- The rule of CKCHK (R203). -/
def ckchkRule (s : State) : Except FaultRec State := do
  let src ← chkBref s.cfg.params s.a0 s.a1.toNat
  let rcv ← chkBref s.cfg.params s.a2 1
  let c := ckSum (s.readBytes src.sp src.off s.a1.toNat)
  let ok := ckValid (s.byteAt rcv.sp rcv.off) c
  return { s with rval := if ok then 1 else 0, rval2 := c.setWidth 32 }.succeed

/-- CKCHK: check a received checksum byte (R203). -/
def execCkchk (s : State) : Host.Outcome State Fault Refusal := conclude s (ckchkRule s)

end Sys2Proof.Machine
end

