-- ==== Sys2Proof/Machine/Bitfield.lean ====
section
/-! DEFINITION. bitfield_packer and bitfield_unpacker: BFPK and BFUP (41_bitfield.md rules R140 to R147). -/

namespace Sys2Proof.Machine

/-- The segments `(pa, pb)` of a value (R140). -/
def splitValue (G : Geom) (v : Word) : Word × Word :=
  let u := v &&& maskWord G.width
  if !G.two then (u, 0)
  else if !G.ord then (u &&& maskWord G.wa, (u >>> G.wa) &&& maskWord G.wb)
  else ((u >>> G.wb) &&& maskWord G.wa, u &&& maskWord G.wb)

/-- `b` with a segment ORed in at a shift (R141). -/
def orSegment (b : Byte) (p : Word) (shift : Nat) : Byte := b ||| (p.setWidth 8 <<< shift)

/-- `bf_pack(sp, off, g, v)` of R141. -/
def bfPack (sp : Space) (off : Nat) (G : Geom) (v : Word) (s : State) : State :=
  let p := splitValue G v
  if G.two then
    s.writeBytes sp off
      [orSegment (s.byteAt sp off) p.1 G.sa, orSegment (s.byteAt sp (off + 1)) p.2 G.sb]
  else s.writeBytes sp off [orSegment (s.byteAt sp off) p.1 G.sa]

/-- A segment of a byte: `(b >> shift) & mask(w)` as 32 bits (R143). -/
def segmentOf (b : Byte) (shift w : Nat) : Word := (b.setWidth 32 >>> shift) &&& maskWord w

/-- The code in the bytes N and N+1 (R143). -/
def joinSegments (G : Geom) (b0 b1 : Byte) : Word :=
  let pa := segmentOf b0 G.sa G.wa
  let pb := segmentOf b1 G.sb G.wb
  if !G.two then pa else if !G.ord then pa ||| (pb <<< G.wa) else pb ||| (pa <<< G.wb)

/-- `bf_unpack(sp, off, g)` of R143. -/
def bfUnpack (sp : Space) (off : Nat) (G : Geom) (s : State) : Word :=
  joinSegments G (s.byteAt sp off) (s.byteAt sp (off + 1))

/-- The rule of BFPK (R142). -/
def bfpkRule (s : State) : Except FaultRec State := do
  need (geomLegal s.a2) badArg
  let r ← chkBref s.cfg.params s.a1 (geomOf s.a2).span
  return (bfPack r.sp r.off (geomOf s.a2) s.a0 s).succeed

/-- BFPK: OR a value into a bit field (R142). -/
def execBfpk (s : State) : Host.Outcome State Fault Refusal := conclude s (bfpkRule s)

/-- The rule of BFUP (R144). -/
def bfupRule (s : State) : Except FaultRec State := do
  need (geomLegal s.a2) badArg
  let r ← chkBref s.cfg.params s.a1 (geomOf s.a2).span
  return { s with rval := bfUnpack r.sp r.off (geomOf s.a2) s }.succeed

/-- BFUP: extract a bit field (R144). -/
def execBfup (s : State) : Host.Outcome State Fault Refusal := conclude s (bfupRule s)

end Sys2Proof.Machine
end

