-- ==== Sys2Proof/Machine/Nibble.lean ====
section
/-! DEFINITION. nibble_expander and nibble_compressor: NIBX and NIBC (40_nibble.md rules R120 to R124). -/

namespace Sys2Proof.Machine

/-- `nib_hi(b)` of R120. -/
def nibHi (b : Byte) : Byte := (b >>> 4) &&& 0xF#8

/-- `nib_lo(b)` of R120. -/
def nibLo (b : Byte) : Byte := b &&& 0xF#8

/-- `nib_join(h, l)` of R120: both members are masked to 4 bits. -/
def nibJoin (h l : Byte) : Byte := ((h &&& 0xF#8) <<< 4) ||| (l &&& 0xF#8)

/-- The 2n nibble bytes of n bytes, high nibble first (R120, R121). -/
def nibExpand (bs : List Byte) : List Byte :=
  match bs with
  | [] => []
  | b :: bs => nibHi b :: nibLo b :: nibExpand bs

/-- The n bytes of 2n nibble bytes (R120, R123). -/
def nibCompress (bs : List Byte) : List Byte :=
  match bs with
  | h :: l :: bs => nibJoin h l :: nibCompress bs
  | _ => []

/-- The rule of NIBX (R121). -/
def nibxRule (s : State) : Except FaultRec State := do
  let src ← chkBref s.cfg.params s.a0 s.a2.toNat
  let dst ← chkBref s.cfg.params s.a1 (2 * s.a2.toNat)
  return (s.writeBytes dst.sp dst.off (nibExpand (s.readBytes src.sp src.off s.a2.toNat))).succeed

/-- NIBX: expand n bytes into 2n nibble bytes (R121). -/
def execNibx (s : State) : Host.Outcome State Fault Refusal := conclude s (nibxRule s)

/-- The rule of NIBC (R123). -/
def nibcRule (s : State) : Except FaultRec State := do
  let src ← chkBref s.cfg.params s.a0 (2 * s.a2.toNat)
  let dst ← chkBref s.cfg.params s.a1 s.a2.toNat
  return (s.writeBytes dst.sp dst.off (nibCompress (s.readBytes src.sp src.off (2 * s.a2.toNat)))).succeed

/-- NIBC: combine 2n nibble bytes into n bytes (R123). -/
def execNibc (s : State) : Host.Outcome State Fault Refusal := conclude s (nibcRule s)

end Sys2Proof.Machine
end

