-- ==== Sys2Proof/Machine/Transform.lean ====
section
/-! DEFINITION. field_transform_engine, the commands S14E, S14D, VELE, VELD, NAMEE, NAMED, ENUMCHK and CLAMP
(42_field_transform.md rules R160 to R174). -/

namespace Sys2Proof.Machine

/-! ### 14-bit split -/

/-- The MSB of `s14_split(v)`: v[13:7] (R160). -/
def s14Msb (v : Word) : Byte := ((v >>> 7) &&& 0x7F#32).setWidth 8

/-- The LSB of `s14_split(v)`: v[6:0] (R160). -/
def s14Lsb (v : Word) : Byte := (v &&& 0x7F#32).setWidth 8

/-- `s14_join(msb, lsb)` of R160: each byte is masked to 7 bits. -/
def s14Join (m l : Byte) : Word := ((m &&& 0x7F#8).setWidth 32 <<< 7) ||| (l &&& 0x7F#8).setWidth 32

/-- The two bytes of a value in the order LSBF gives (R160). -/
def s14Bytes (lsbf : Bool) (v : Word) : List Byte :=
  if lsbf then [s14Lsb v, s14Msb v] else [s14Msb v, s14Lsb v]

/-- The value of two bytes in the order LSBF gives (R160, R163). -/
def s14Value (lsbf : Bool) (b0 b1 : Byte) : Word := if lsbf then s14Join b1 b0 else s14Join b0 b1

/-- The rule of S14E (R161). -/
def s14eRule (s : State) : Except FaultRec State := do
  need (xf14Legal s.a2) badArg
  let r ← chkBref s.cfg.params s.a1 2
  return (s.writeBytes r.sp r.off (s14Bytes (xf14Lsbf s.a2) s.a0)).succeed

/-- S14E: write a value as a 14-bit MSB/LSB pair (R161). -/
def execS14e (s : State) : Host.Outcome State Fault Refusal := conclude s (s14eRule s)

/-- The rule of S14D (R163). -/
def s14dRule (s : State) : Except FaultRec State := do
  need (xf14Legal s.a2) badArg
  let r ← chkBref s.cfg.params s.a1 2
  return { s with rval := s14Value (xf14Lsbf s.a2) (s.byteAt r.sp r.off) (s.byteAt r.sp (r.off + 1)) }.succeed

/-- S14D: read a 14-bit MSB/LSB pair (R163). -/
def execS14d (s : State) : Host.Outcome State Fault Refusal := conclude s (s14dRule s)

/-! ### Velocity+value byte -/

/-- `vel_byte(flag, value)` of R164: bit 0 of the flag in bit 7, value[6:0] below. -/
def velByte (flag value : Word) : Byte := ((flag <<< 7) ||| (value &&& 0x7F#32)).setWidth 8

/-- `vel_flag(b)` of R164. -/
def velFlag (b : Byte) : Word := (b >>> 7).setWidth 32

/-- `vel_value(b)` of R164. -/
def velValue (b : Byte) : Word := (b &&& 0x7F#8).setWidth 32

/-- The rule of VELE (R165). -/
def veleRule (s : State) : Except FaultRec State := do
  let r ← chkBref s.cfg.params s.a1 1
  return (s.writeBytes r.sp r.off [velByte s.a2 s.a0]).succeed

/-- VELE: write a velocity+value byte (R165). -/
def execVele (s : State) : Host.Outcome State Fault Refusal := conclude s (veleRule s)

/-- The rule of VELD (R167). -/
def veldRule (s : State) : Except FaultRec State := do
  let r ← chkBref s.cfg.params s.a1 1
  let b := s.byteAt r.sp r.off
  return { s with rval := velValue b, rval2 := velFlag b }.succeed

/-- VELD: split a velocity+value byte (R167). -/
def execVeld (s : State) : Host.Outcome State Fault Refusal := conclude s (veldRule s)

/-! ### Padded name -/

/-- `printable(c)` of R168: 0x20 <= c <= 0x7E, signed. -/
def printable (c : Word) : Bool := decide (0x20 ≤ c.toInt) && decide (c.toInt ≤ 0x7E)

/-- The byte a character code is written as (R168). -/
def nameByte (c : Word) : Byte := if printable c then c.setWidth 8 else 0x20

/-- `name_enc(txt, len, N)` of R168. -/
def nameEnc (e : Entry) (n : Nat) : List Byte :=
  (List.range n).map (fun i => nameByte (if i < e.len then e.code i else 0x20#32))

/-- `name_dec` of R168: the codes of the bytes up to the last one above 0x20. -/
def nameDec (bs : List Byte) : List Word :=
  ((bs.reverse.dropWhile (fun b => decide (b.toNat ≤ 0x20))).reverse).map (fun b => b.setWidth 32)

/-- The checks that NAMEE and NAMED share, in order (R169, R171): XFNAME, the key, the BREF, the device, the schema. -/
def nameChecks (s : State) : Except FaultRec BufRef := do
  need (xfnameLegal s.cfg.params s.a2) badArg
  need (decide (s.a0.toNat < s.cfg.params.nkeys)) badArg
  let r ← chkBref s.cfg.params s.a1 (xfnameN s.a2)
  let dev ← currentDevice s
  match schemaAt dev (bitsAt s.a0 0 16) with
  | some (.text _) => .ok r
  | some (.int _ _ _) => .error ⟨.schema, s.a0.extractLsb' 0 16⟩
  | none => .error ⟨.schema, s.a0.extractLsb' 0 16⟩

/-- The rule of NAMEE (R169). -/
def nameeRule (s : State) : Except FaultRec State := do
  let r ← nameChecks s
  return (s.writeBytes r.sp r.off (nameEnc (s.entry (bitsAt s.a0 0 16)) (xfnameN s.a2))).succeed

/-- NAMEE: write a TEXT key as a padded name field (R169). -/
def execNamee (s : State) : Host.Outcome State Fault Refusal := conclude s (nameeRule s)

/-- The rule of NAMED (R171). -/
def namedRule (s : State) : Except FaultRec State := do
  let r ← nameChecks s
  return (s.setText (s.a0.extractLsb' 0 16) (nameDec (s.readBytes r.sp r.off (xfnameN s.a2)))).succeed

/-- NAMED: read a padded name field into a TEXT key (R171). -/
def execNamed (s : State) : Host.Outcome State Fault Refusal := conclude s (namedRule s)

/-! ### Enumeration check and clamp -/

/-- The rule of ENUMCHK (R173). -/
def enumchkRule (s : State) : Except FaultRec State := do
  need (enumwLegal s.a1) badArg
  return { s.enumFix s.a0 s.a1 noKey with rval := enumCode s.a0 s.a1 }.succeed

/-- ENUMCHK: check a code against an enumeration (R173). -/
def execEnumchk (s : State) : Host.Outcome State Fault Refusal := conclude s (enumchkRule s)

/-- The rule of CLAMP (R174). -/
def clampRule (s : State) : Except FaultRec State := do
  need (decide (s.a1.toInt ≤ s.a2.toInt)) badArg
  return { s with rval := clampWord s.a0 s.a1 s.a2 }.succeed

/-- CLAMP: clamp a value to a range (R174). -/
def execClamp (s : State) : Host.Outcome State Fault Refusal := conclude s (clampRule s)

end Sys2Proof.Machine
end

