-- ==== Sys2Proof/Machine/Fields.lean ====
section
/-! DEFINITION. The FieldSpec kinds RAW8, NIB8, BITS, S14, VEL and NAME: their encode and decode rules
(42_field_transform.md rules R175 to R187), the walk that ENCODE and DECODE make over a table (10_state.md rule R27),
and the meaning of one FieldSpec run on its own (log 4). -/

namespace Sys2Proof.Machine

/-! ### The kind rules, at DIMG byte `p` -/

/-- `Model[KEY].val <- zext_32(enum_fix(code, ECOUNT, EFALL, KEY))`, the end of every decode rule with an enumeration
check. -/
def storeCode (key : Key) (enumw code : Word) (s : State) : State :=
  (s.enumFix code enumw key).setVal key (enumCode code enumw)

/-- RAW8, encode (R175). -/
def encodeRaw8 (key : Key) (p : Nat) (s : State) : State := s.writeBytes .dimg p [(s.val key).setWidth 8]

/-- RAW8, decode (R176). -/
def decodeRaw8 (key : Key) (enumw : Word) (p : Nat) (s : State) : State :=
  storeCode key enumw ((s.byteAt .dimg p).setWidth 32) s

/-- NIB8, encode (R177). -/
def encodeNib8 (key : Key) (p : Nat) (s : State) : State :=
  s.writeBytes .dimg p [nibHi ((s.val key).setWidth 8), nibLo ((s.val key).setWidth 8)]

/-- NIB8, decode (R178). -/
def decodeNib8 (key : Key) (enumw : Word) (p : Nat) (s : State) : State :=
  storeCode key enumw ((nibJoin (s.byteAt .dimg p) (s.byteAt .dimg (p + 1))).setWidth 32) s

/-- BITS, encode (R179). -/
def encodeBits (key : Key) (geom : Word) (p : Nat) (s : State) : State :=
  bfPack .dimg p (geomOf geom) (s.val key) s

/-- BITS, decode (R180). -/
def decodeBits (key : Key) (geom enumw : Word) (p : Nat) (s : State) : State :=
  storeCode key enumw (bfUnpack .dimg p (geomOf geom) s) s

/-- S14, encode (R181). -/
def encodeS14 (key : Key) (xf14 : Word) (p : Nat) (s : State) : State :=
  s.writeBytes .dimg p (s14Bytes (xf14Lsbf xf14) (s.val key))

/-- S14, decode (R182). -/
def decodeS14 (key : Key) (xf14 enumw : Word) (p : Nat) (s : State) : State :=
  storeCode key enumw (s14Value (xf14Lsbf xf14) (s.byteAt .dimg p) (s.byteAt .dimg (p + 1))) s

/-- VEL, encode (R183). -/
def encodeVel (key key2 : Key) (p : Nat) (s : State) : State :=
  s.writeBytes .dimg p [velByte (s.val key2) (s.val key)]

/-- VEL, decode (R184): the flag write comes second. -/
def decodeVel (key key2 : Key) (p : Nat) (s : State) : State :=
  (s.setVal key (velValue (s.byteAt .dimg p))).setVal key2 (velFlag (s.byteAt .dimg p))

/-- NAME, encode (R185). -/
def encodeName (key : Key) (xfname : Word) (p : Nat) (s : State) : State :=
  s.writeBytes .dimg p (nameEnc (s.entry key.toNat) (xfnameN xfname))

/-- NAME, decode (R186). -/
def decodeName (key : Key) (xfname : Word) (p : Nat) (s : State) : State :=
  s.setText key (nameDec (s.readBytes .dimg p (xfnameN xfname)))

/-! ### The walk inside ENCODE and DECODE -/

/-- `encode_field(f, base(f, 0))` of R220. A table holds no command. -/
def encodeFieldAt (i : Instr) (recBase : Nat) (s : State) : State :=
  match i with
  | .init | .recog | .encode | .decode | .revise | .nibx | .nibc | .bfpk | .bfup | .s14e | .s14d | .vele | .veld
  | .namee | .named | .enumchk | .clamp | .ckgen | .ckchk => s
  | .fspecRaw8 f _ => encodeRaw8 f.key (fieldBase recBase f) s
  | .fspecNib8 f _ => encodeNib8 f.key (fieldBase recBase f) s
  | .fspecBits f g _ => encodeBits f.key g (fieldBase recBase f) s
  | .fspecS14 f x _ => encodeS14 f.key x (fieldBase recBase f) s
  | .fspecVel f k2 => encodeVel f.key k2 (fieldBase recBase f) s
  | .fspecName f x => encodeName f.key x (fieldBase recBase f) s

/-- `decode_field(f, base(f, sel))` of R262. A table holds no command. -/
def decodeFieldAt (i : Instr) (recBase : Nat) (s : State) : State :=
  match i with
  | .init | .recog | .encode | .decode | .revise | .nibx | .nibc | .bfpk | .bfup | .s14e | .s14d | .vele | .veld
  | .namee | .named | .enumchk | .clamp | .ckgen | .ckchk => s
  | .fspecRaw8 f e => decodeRaw8 f.key e (fieldBase recBase f) s
  | .fspecNib8 f e => decodeNib8 f.key e (fieldBase recBase f) s
  | .fspecBits f g e => decodeBits f.key g e (fieldBase recBase f) s
  | .fspecS14 f x e => decodeS14 f.key x e (fieldBase recBase f) s
  | .fspecVel f k2 => decodeVel f.key k2 (fieldBase recBase f) s
  | .fspecName f x => decodeName f.key x (fieldBase recBase f) s

/-- The PART of a FieldSpec is `part`. -/
def inPart (i : Instr) (part : Nat) : Bool :=
  match i.place? with
  | some f => f.part.toNat == part
  | none => false

/-- One FieldSpec of the table of ENCODE or DECODE: run if it is of the part, skipped if not (R220, R262). The check of
R221 has found that the words decode. -/
def walkField (dir : WalkDir) (part recBase : Nat) (w : FieldWords) (s : State) : State :=
  match decodeField w with
  | .error _ => s
  | .ok i =>
    if inPart i part then
      match dir with
      | .encode => encodeFieldAt i recBase s
      | .decode => decodeFieldAt i recBase s
    else s

/-- The walk of a FieldSpec table in table order (R222, R265). -/
def walkFields (dir : WalkDir) (part recBase : Nat) (ws : List FieldWords) (s : State) : State :=
  match ws with
  | [] => s
  | w :: ws => walkFields dir part recBase ws (walkField dir part recBase w s)

/-! ### One FieldSpec on its own -/

/-- Runs a kind's encode or decode rule in the walk in progress. The DIMG bytes and the keys that the FieldSpec names
must exist. -/
def runKind (f : FieldPlace) (keys : List Key) (span : Nat) (enc dec : Nat → State → State) (s : State) :
    Host.Outcome State Fault Refusal :=
  match s.walk with
  | none => .refused .fieldOutsideWalk
  | some w =>
    match keys.find? (fun k => decide (s.cfg.params.nkeys ≤ k.toNat)) with
    | some k => .fault (.modelRange k.toNat)
    | none =>
      if s.cfg.params.dataSize < fieldBase w.recBase f + span then .fault (.dimgRange (fieldBase w.recBase f))
      else
        match w.dir with
        | .encode => .next (enc (fieldBase w.recBase f) s)
        | .decode => .next (dec (fieldBase w.recBase f) s)

/-- FSPEC.RAW8 (R175, R176). -/
def execFspecRaw8 (f : FieldPlace) (enumw : Word) (s : State) : Host.Outcome State Fault Refusal :=
  runKind f [f.key] 1 (encodeRaw8 f.key) (decodeRaw8 f.key enumw) s

/-- FSPEC.NIB8 (R177, R178). -/
def execFspecNib8 (f : FieldPlace) (enumw : Word) (s : State) : Host.Outcome State Fault Refusal :=
  runKind f [f.key] 2 (encodeNib8 f.key) (decodeNib8 f.key enumw) s

/-- FSPEC.BITS (R179, R180). -/
def execFspecBits (f : FieldPlace) (geom enumw : Word) (s : State) : Host.Outcome State Fault Refusal :=
  runKind f [f.key] (geomOf geom).span (encodeBits f.key geom) (decodeBits f.key geom enumw) s

/-- FSPEC.S14 (R181, R182). -/
def execFspecS14 (f : FieldPlace) (xf14 enumw : Word) (s : State) : Host.Outcome State Fault Refusal :=
  runKind f [f.key] 2 (encodeS14 f.key xf14) (decodeS14 f.key xf14 enumw) s

/-- FSPEC.VEL (R183, R184). -/
def execFspecVel (f : FieldPlace) (key2 : Key) (s : State) : Host.Outcome State Fault Refusal :=
  runKind f [f.key, key2] 1 (encodeVel f.key key2) (decodeVel f.key key2) s

/-- FSPEC.NAME (R185, R186). -/
def execFspecName (f : FieldPlace) (xfname : Word) (s : State) : Host.Outcome State Fault Refusal :=
  runKind f [f.key] (xfnameN xfname) (encodeName f.key xfname) (decodeName f.key xfname) s

end Sys2Proof.Machine
end

