-- ==== Sys2Proof/Machine/Decoder.lean ====
section
/-! DEFINITION. sysex_decoder with its recognizer and the revise post-pass: RECOG, DECODE and REVISE (45_decoder.md
rules R260 to R275). -/

namespace Sys2Proof.Machine

/-! ### Matching a frame to a format -/

/-- The checked header bytes agree: IBUF[i] = HDR[i] for i < RL, but for the version byte (R260). Where RL exceeds H or
BUF_SIZE, which R43 and R44 rule out and R221 does not check, a byte beyond HDR and a byte beyond IBUF are 0x00: DESIGN
CHOICE (log 6). -/
def headerMatches (fmt : Format) (s : State) : Bool :=
  (List.range fmt.rl).all fun i =>
    (fmt.ver && i == fmt.voff) || s.byteAt .ibuf i == fmt.hdr.getD i 0

/-- The version byte agrees, or there is none (R260). -/
def versionMatches (fmt : Format) (s : State) : Bool :=
  !fmt.ver || s.byteAt .ibuf fmt.voff == fmt.hdr.getD fmt.voff 0

/-- `match(Fmt)` of R260: the first check that fails, and `none` (the fail cause) for OK. -/
def matchFormat (fmt : Format) (s : State) : FailCause :=
  if s.inLen.toNat ≠ fmt.total then .length
  else if !headerMatches fmt s then .header
  else if !versionMatches fmt s then .version
  else .none

/-- `recognize(Dev)` of R260: the lowest format index that matches. -/
def recognize (dev : Device) (s : State) : Option Nat :=
  dev.fmts.findIdx? (fun fmt => matchFormat fmt s == .none)

/-- `fail_cause(Dev)` of R260. -/
def failCauseOf (dev : Device) (s : State) : FailCause :=
  ((dev.fmts.map (fun fmt => matchFormat fmt s)).find? (fun c => c != .length)).getD .length

/-- The SHAPE word of a match (R29, R261). -/
def shapeWord (m : Option Nat) : Word :=
  match m with
  | some j => BitVec.ofNat 32 j
  | none => 0xFFFFFFFF

/-! ### RECOG -/

/-- The rule of RECOG (R261). -/
def recogRule (s : State) : Except FaultRec State := do
  let dev ← currentDevice s
  noViolation (dev.fmts.findSome? (checkFormatLevel s.cfg.params))
  let m := recognize dev s
  return { s with rval := if m.isSome then 1 else 0, shape := shapeWord m }.succeed

/-- RECOG: does IBUF hold a frame of the current device? (R261) -/
def execRecog (s : State) : Host.Outcome State Fault Refusal := conclude s (recogRule s)

/-! ### REVISE -/

/-- The clamp of one key (R270): a defined INT key is clamped to its range, any other is left. A range with MIN > MAX, which
R42 rules out and R221 does not check, is clamped as `clampWord` does it: DESIGN CHOICE (log 6). -/
def reviseKey (dev : Device) (k : Nat) (s : State) : State :=
  match schemaAt dev k with
  | some (.int lo hi _) =>
    if k < s.cfg.params.nkeys then s.setEntry k { s.entry k with val := clampWord (s.entry k).val lo hi } else s
  | some (.text _) => s
  | none => s

/-- `revise(Dev)` of R270 over the keys listed. -/
def reviseKeys (dev : Device) (ks : List Nat) (s : State) : State :=
  match ks with
  | [] => s
  | k :: ks => reviseKeys dev ks (reviseKey dev k s)

/-- `revise(Dev)` of R270. Only a defined key can change, so the defined keys are the ones visited. -/
def revise (dev : Device) (s : State) : State := reviseKeys dev (dev.schema.map Prod.fst) s

/-- The rule of REVISE (R270). -/
def reviseRule (s : State) : Except FaultRec State := do
  let dev ← currentDevice s
  return (revise dev s).succeed

/-- REVISE: clamp every defined INT key to its range (R270). -/
def execRevise (s : State) : Host.Outcome State Fault Refusal := conclude s (reviseRule s)

/-! ### DECODE -/

/-- SEL_NONE, "no selection yet" (R262). -/
def selNone : Word := 0xFFFFFFFF

/-- How the checks of DECODE end when none of them faults (R262, R263). -/
inductive DecodeCheck where
  /-- Check 1, 2, 3, 4 or 5 fails: FAILED with a cause, and SHAPE. -/
  | failed (cause : FailCause) (shape : Word)
  /-- A bank format and no selection: CANCELLED, and SHAPE (R267). -/
  | cancelled (shape : Word)
  /-- Every check passes: the format with its index, the part and the record. -/
  | pass (j : Nat) (fmt : Format) (part sel : Nat)
  deriving DecidableEq, Repr

/-- The byte check 4 of R263: without a checksum, or with a valid one. -/
def checksumOk (fmt : Format) (s : State) : Bool :=
  !fmt.ck ||
    ckValid (s.byteAt .ibuf (fmt.total - 2)) (ckSum (s.readBytes .ibuf fmt.cks (fmt.cke - fmt.cks)))

/-- The part index of the frame in IBUF: IBUF[POFF] when M > 1, and 0 else (R262). -/
def framePart (fmt : Format) (s : State) : Nat :=
  if 1 < fmt.parts then (s.byteAt .ibuf fmt.poff).toNat else 0

/-- Checks 4 to 6 of R263 in the matched format. -/
def frameChecks (j : Nat) (fmt : Format) (s : State) : Except FaultRec DecodeCheck :=
  if !checksumOk fmt s then .ok (.failed .checksum (shapeWord (some j)))
  else if fmt.parts ≤ framePart fmt s then .ok (.failed .part (shapeWord (some j)))
  else if fmt.recs = 1 then .ok (.pass j fmt (framePart fmt s) 0)
  else if s.a0 = selNone then .ok (.cancelled (shapeWord (some j)))
  else if fmt.recs ≤ s.a0.toNat then .error badArg
  else .ok (.pass j fmt (framePart fmt s) s.a0.toNat)

/-- The checks of DECODE, in order (R262, R263), with the current device. -/
def decodeChecks (s : State) : Except FaultRec (Device × DecodeCheck) := do
  let dev ← currentDevice s
  noViolation (dev.fmts.findSome? (checkFormat s.cfg.params dev))
  match recognize dev s with
  | none => return (dev, .failed (failCauseOf dev s) (shapeWord none))
  | some j =>
    match dev.fmts[j]? with
    | none => return (dev, .failed (failCauseOf dev s) (shapeWord none))
    | some fmt =>
      let c ← frameChecks j fmt s
      return (dev, c)

/-- `stage_in(Fmt)` of R264, with `nib_compress_payload` of R124. -/
def stageIn (fmt : Format) (s : State) : State :=
  s.writeBytes .dimg 0
    (if fmt.mode = 0 then s.readBytes .ibuf fmt.h fmt.dlen
     else nibCompress (s.readBytes .ibuf fmt.h (2 * fmt.dlen)))

/-- PARTS_SEEN with bit p set (R268). -/
def partsWith (seen : BitVec 8) (p : Nat) : BitVec 8 := seen ||| (1#8 <<< p)

/-- `mask(M)` as a PARTS_SEEN value (R268). -/
def partsMask (m : Nat) : BitVec 8 := BitVec.ofNat 8 (2 ^ m - 1)

/-- The new PARTS_SEEN after part `p` of the format (R268). -/
def nextParts (fmt : Format) (p : Nat) (seen : BitVec 8) : BitVec 8 :=
  if 1 < fmt.parts then (if partsWith seen p = partsMask fmt.parts then 0 else partsWith seen p) else seen

/-- The result of a decode that writes the model (R268, R269). -/
def decodeResult (fmt : Format) (p : Nat) (seen : BitVec 8) : ResultCode :=
  if 1 < fmt.parts && partsWith seen p != partsMask fmt.parts then .incomplete else .success

/-- What DECODE does once every check has passed (R262): DIAG_COUNT, the data image, the fields of the part,
PARTS_SEEN, the revise pass, SHAPE and the ending. -/
def decodeFrame (dev : Device) (j : Nat) (fmt : Format) (p sel : Nat) (s : State) : State :=
  let t := stageIn fmt { s with diagCount := 0 }
  let t := walkFields .decode p (fmt.base + sel * fmt.stride) fmt.fields t
  let t := revise dev { t with partsSeen := nextParts fmt p s.partsSeen }
  { t with shape := shapeWord (some j) }.finish (decodeResult fmt p s.partsSeen) .none

/-- The rule of DECODE (R262). -/
def decodeRule (s : State) : Except FaultRec State := do
  let r ← decodeChecks s
  match r.2 with
  | .failed cause shape => return { s with shape := shape }.finish .failed cause
  | .cancelled shape => return { s with shape := shape }.finish .cancelled .none
  | .pass j fmt p sel => return decodeFrame r.1 j fmt p sel s

/-- DECODE: decode the frame in IBUF into the model store (R262). -/
def execDecode (s : State) : Host.Outcome State Fault Refusal := conclude s (decodeRule s)

end Sys2Proof.Machine
end

