-- ==== Sys2Proof/Machine/Encoder.lean ====
section
/-! DEFINITION. sysex_encoder: ENCODE (44_encoder.md rules R220 to R230). -/

namespace Sys2Proof.Machine

/-- The first writes of ENCODE (R220, R222, R230): OBUF[0..L-1] and DIMG[0..D-1] zeroed, the header, the part byte. -/
def encodeHeader (fmt : Format) (p : Nat) (s : State) : State :=
  let s := s.writeBytes .obuf 0 (List.replicate fmt.total 0)
  let s := s.writeBytes .dimg 0 (List.replicate fmt.dlen 0)
  let s := s.writeBytes .obuf 0 fmt.hdr
  if 1 < fmt.parts then s.writeBytes .obuf fmt.poff [BitVec.ofNat 8 p] else s

/-- `stage_payload(Fmt)` of R223, with `nib_expand_payload` of R124. -/
def stagePayload (fmt : Format) (s : State) : State :=
  let img := s.readBytes .dimg 0 fmt.dlen
  s.writeBytes .obuf fmt.h (if fmt.mode = 0 then img else nibExpand img)

/-- The checksum byte and the terminator (R224, R205). -/
def encodeTail (fmt : Format) (s : State) : State :=
  let s :=
    if fmt.ck then
      s.writeBytes .obuf (fmt.total - 2) [ckSum (s.readBytes .obuf fmt.cks (fmt.cke - fmt.cks))]
    else s
  s.writeBytes .obuf (fmt.total - 1) [0xF7]

/-- The frame of part `p` built in OBUF (R220), from the first write to OUT_LEN. -/
def buildFrame (fmt : Format) (p : Nat) (s : State) : State :=
  let t := encodeTail fmt (stagePayload fmt (walkFields .encode p fmt.base fmt.fields (encodeHeader fmt p s)))
  { t with outLen := BitVec.ofNat 32 fmt.total }

/-- The part index that ENCODE builds: A1 when M > 1, and 0 else (R220). -/
def encodePart (fmt : Format) (s : State) : Nat := if 1 < fmt.parts then s.a1.toNat else 0

/-- The checks of ENCODE (R220), in order, with the format they end on. -/
def encodeChecks (s : State) : Except FaultRec Format := do
  let dev ← currentDevice s
  match dev.fmts[s.a0.toNat]? with
  | none => .error badArg
  | some fmt =>
    noViolation (checkFormat s.cfg.params dev fmt)
    need (decide (fmt.recs ≤ 1)) ⟨.unsupported, noKey⟩
    need (decide (fmt.parts ≤ 1) || decide (s.a1.toNat < fmt.parts)) badArg
    return fmt

/-- The rule of ENCODE (R220). `base(f, 0)` of a record field is B + OFF (R187). -/
def encodeRule (s : State) : Except FaultRec State := do
  let fmt ← encodeChecks s
  return (buildFrame fmt (encodePart fmt s) s).succeed

/-- ENCODE: build a frame from the model (R220). -/
def execEncode (s : State) : Host.Outcome State Fault Refusal := conclude s (encodeRule s)

end Sys2Proof.Machine
end

