-- ==== Sys2Proof/Machine/Dispatch.lean ====
section
/-! DEFINITION. The dispatch: one arm per instruction of spec/opcode_table.json, each one call of its meaning. -/

namespace Sys2Proof.Machine

def exec (i : Instr) (s : State) : Host.Outcome State Fault Refusal :=
  match i with
  | .init => Sys2Proof.Machine.execInit s
  | .recog => Sys2Proof.Machine.execRecog s
  | .encode => Sys2Proof.Machine.execEncode s
  | .decode => Sys2Proof.Machine.execDecode s
  | .revise => Sys2Proof.Machine.execRevise s
  | .nibx => Sys2Proof.Machine.execNibx s
  | .nibc => Sys2Proof.Machine.execNibc s
  | .bfpk => Sys2Proof.Machine.execBfpk s
  | .bfup => Sys2Proof.Machine.execBfup s
  | .s14e => Sys2Proof.Machine.execS14e s
  | .s14d => Sys2Proof.Machine.execS14d s
  | .vele => Sys2Proof.Machine.execVele s
  | .veld => Sys2Proof.Machine.execVeld s
  | .namee => Sys2Proof.Machine.execNamee s
  | .named => Sys2Proof.Machine.execNamed s
  | .enumchk => Sys2Proof.Machine.execEnumchk s
  | .clamp => Sys2Proof.Machine.execClamp s
  | .ckgen => Sys2Proof.Machine.execCkgen s
  | .ckchk => Sys2Proof.Machine.execCkchk s
  | .fspecRaw8 f e => Sys2Proof.Machine.execFspecRaw8 f e s
  | .fspecNib8 f e => Sys2Proof.Machine.execFspecNib8 f e s
  | .fspecBits f g e => Sys2Proof.Machine.execFspecBits f g e s
  | .fspecS14 f x e => Sys2Proof.Machine.execFspecS14 f x e s
  | .fspecVel f k => Sys2Proof.Machine.execFspecVel f k s
  | .fspecName f x => Sys2Proof.Machine.execFspecName f x s

end Sys2Proof.Machine
end

