-- ==== Sys2Proof/Machine/HostPort.lean ====
section
/-! DEFINITION. The host's side: the register window (10_state.md rule R20), the dispatch of a CMD write (46_control.md
rule R290), the host's accesses to buffers and model (20_memory.md rules R63, R65, R70), reset (R340), and the step of
a walk in progress (log 4). -/

namespace Sys2Proof.Machine

/-! ### The register window -/

/-- The registers of R20 at their offsets, with the words that a host read returns. -/
def registerTable (s : State) : List (Nat × Word) :=
  [(0x000, s.cmd), (0x004, s.a0), (0x008, s.a1), (0x00C, s.a2), (0x010, s.inLen), (0x014, s.result.word),
   (0x018, s.failCause.word), (0x01C, s.statusWord), (0x020, s.faultCause.word), (0x024, s.faultKey.setWidth 32),
   (0x028, s.faultCmd), (0x02C, s.rval), (0x030, s.rval2), (0x034, s.outLen), (0x038, s.shape),
   (0x03C, s.diagCount), (0x040, s.curdev.setWidth 32), (0x044, s.partsSeen.setWidth 32)]

/-- The word that a host read of a window offset returns (R20): a register, DIAG_LOG[i] at 0x100 + 4*i, or 0 for an
offset not in the table. An offset outside the window gives 0 too, and no access reaches it (log 8). -/
def readRegister (s : State) (off : Nat) : Word :=
  match (registerTable s).lookup off with
  | some v => v
  | none =>
    if 0x100 ≤ off ∧ off < 0x100 + 4 * s.cfg.params.diagMax ∧ off % 4 = 0 then
      s.diagLog.getD ((off - 0x100) / 4) 0
    else 0

/-- The dispatch of a host write of `w` to CMD (R290): ignored while FAULTED (R303), else stored, and then the command
that `w` encodes, or Fault(ILLEGAL_CMD). -/
def writeCmd (w : Word) (s : State) : Host.Outcome State Fault Refusal :=
  if s.faulted then .next s
  else
    match decodeCmd w with
    | .ok i => exec i { s with cmd := w }
    | .error _ => .next ({ s with cmd := w }.raiseFault ⟨.illegalCmd, noKey⟩)

/-- A host write of `w` to a window offset (R20): CMD, A0, A1, A2 and IN_LEN take it; every other offset ignores it. -/
def writeRegister (off : Nat) (w : Word) (s : State) : Host.Outcome State Fault Refusal :=
  match off with
  | 0x000 => writeCmd w s
  | 0x004 => .next { s with a0 := w }
  | 0x008 => .next { s with a1 := w }
  | 0x00C => .next { s with a2 := w }
  | 0x010 => .next { s with inLen := w }
  | _ => .next s

/-- The size of the register window in bytes: offsets up to that of the last DIAG_LOG entry (R60). -/
def windowSize (P : Params) : Nat := 0x100 + 4 * P.diagMax

/-- A register access at bus address `addr` (R20, R60, R63): one aligned 32-bit word within the window. -/
def atRegister (addr : Nat) (width : AccessWidth) (s : State) (k : Nat → Host.Outcome State Fault Refusal) :
    Host.Outcome State Fault Refusal :=
  if addr < s.cfg.params.hostBase ∨ s.cfg.params.hostBase + windowSize s.cfg.params ≤ addr then .refused (.hostAddress addr)
  else if width ≠ .word ∨ (addr - s.cfg.params.hostBase) % 4 ≠ 0 then .refused (.hostWidth addr)
  else k (addr - s.cfg.params.hostBase)

/-! ### Host accesses -/

/-- A buffer access (R63): one byte below the buffer's size. -/
def atByte (sp : Space) (off : Nat) (s : State) (k : Host.Outcome State Fault Refusal) :
    Host.Outcome State Fault Refusal :=
  if off < spaceSize s.cfg.params sp then k else .refused (.hostBuffer off)

/-- A MODEL access (R63): one field of one entry with key < NKEYS. -/
def atEntry (k : Nat) (s : State) (r : Host.Outcome State Fault Refusal) : Host.Outcome State Fault Refusal :=
  if k < s.cfg.params.nkeys then r else .refused (.hostModel k)

/-- The `len` that a host write stores: TEXT_MAX for a greater value (R38). -/
def storedLen (P : Params) (v : Word) : Nat := if P.textMax < v.toNat then P.textMax else v.toNat

/-- The reset sequence (R340), between commands or in place of one (R341). The configuration is not touched, and the
host's later accesses and the last value it read are the host's. -/
def State.assertReset (s : State) : State := { State.resetWith s.cfg with host := s.host, hostData := s.hostData }

/-- One host access (R70). A read leaves its value in `hostData` and changes nothing else (R65). -/
def hostAccess (op : HostOp) (s : State) : Host.Outcome State Fault Refusal :=
  match op with
  | .regRead addr width => atRegister addr width s (fun off => .next { s with hostData := readRegister s off })
  | .regWrite addr width v => atRegister addr width s (fun off => writeRegister off v s)
  | .bufRead sp off => atByte sp off s (.next { s with hostData := (s.byteAt sp off).setWidth 32 })
  | .bufWrite sp off b => atByte sp off s (.next (s.writeBytes sp off [b]))
  | .valRead k => atEntry k s (.next { s with hostData := (s.entry k).val })
  | .valWrite k v => atEntry k s (.next (s.setEntry k { s.entry k with val := v }))
  | .lenRead k => atEntry k s (.next { s with hostData := BitVec.ofNat 32 (s.entry k).len })
  | .lenWrite k v => atEntry k s (.next (s.setEntry k { s.entry k with len := storedLen s.cfg.params v }))
  | .txtRead k i =>
    atEntry k s
      (if i < s.cfg.params.textMax then .next { s with hostData := (s.entry k).code i } else .refused (.hostModel k))
  | .txtWrite k i v =>
    atEntry k s
      (if i < s.cfg.params.textMax then
        .next (s.setEntry k { s.entry k with txt := writeCell 0#32 (s.entry k).txt i v })
       else .refused (.hostModel k))
  | .reset => .next s.assertReset

/-! ### A walk in progress -/

/-- One FieldSpec of a walk in progress (R222, R265): the one at FIDX, run if it is of the walk's part and skipped if
not. With none left the walk ends. -/
def walkStep (w : Walk) (s : State) : Host.Outcome State Fault Refusal :=
  match w.rest with
  | [] => .next { s with walk := none }
  | f :: rest =>
    match decodeField f with
    | .error _ => .refused .fieldUndecodable
    | .ok i =>
      if inPart i w.part then exec i { s with walk := some { w with rest := rest } }
      else .next { s with walk := some { w with rest := rest } }

/-- What one step does when the host's next access is `op`: a walk in progress goes on, since the block holds off every
host access until it ends (R66), but a reset abandons it (R341); with no walk the access is performed. -/
def stepAccess (op : HostOp) (rest : List HostOp) (s : State) : Host.Outcome State Fault Refusal :=
  match s.walk with
  | none => hostAccess op { s with host := rest }
  | some w => if op = .reset then .next { s with host := rest }.assertReset else walkStep w s

/-- What one step does. With no access from the host, a walk in progress goes on, and without one the block is idle and
keeps all state (R316). -/
def stepOnce (s : State) : Host.Outcome State Fault Refusal :=
  match s.host with
  | op :: rest => stepAccess op rest s
  | [] =>
    match s.walk with
    | some w => walkStep w s
    | none => .next s

/-! ### Placing an instruction -/

/-- The bus address of CMD (R20). -/
def cmdAddress (s : State) : Nat := s.cfg.params.hostBase

/-- The state in which the next step runs the command word `w`: the host's next access writes it to CMD. -/
def placeCommand (w : Word) (s : State) : State :=
  { s with walk := none, host := .regWrite (cmdAddress s) .word w :: s.host }

/-- The state in which the next step runs the FieldSpec `f`: an encode walk of its part has it at FIDX, and the host
makes no access, which could be a reset. -/
def placeField (f : FieldWords) (s : State) : State :=
  { s with walk := some ⟨.encode, (fieldPlace f).part.toNat, 0, [f]⟩, host := [] }

/-- The state in which the next step runs the instruction whose bits are `w`, read as `decodeTableWord` reads them. -/
def placeWord (nbits w : Nat) (s : State) : State :=
  match decodeTableWord nbits w with
  | none => placeCommand (BitVec.ofNat 32 w) s
  | some i => if i.isField then placeField (wordsOfNat w) s else placeCommand (BitVec.ofNat 32 w) s

end Sys2Proof.Machine
end

