-- ==== Sys2Proof/WellFormed.lean ====
section
/-! DEFINITION. Well-formedness: of an instruction's operands (10_state.md rule R45), of the parameters (00_scope.md
rule R7), and of formats, devices and configurations (R42 to R46). R47: a model admits only configurations that meet
these, and Machine/Construct.lean refuses any other; the run-time checks of R221 stand in the machine too (log 6). -/

namespace Sys2Proof.Machine

/-- The operands of an instruction are legal (R45, R84, R85). -/
def instrWf (P : Params) (i : Instr) : Bool := fieldOperandsLegal P i

/-- The parameter constraints of R7. -/
def paramsWf (P : Params) : Bool :=
  decide (1 ≤ P.bufSize) && decide (P.bufSize ≤ 65536) && decide (1 ≤ P.dataSize) && decide (P.dataSize ≤ 65536) &&
    decide (1 ≤ P.nkeys) && decide (P.nkeys ≤ 65535) && decide (20 ≤ P.textMax) && decide (P.textMax ≤ 255) &&
    decide (1 ≤ P.diagMax) && decide (P.diagMax ≤ 64)

/-- A schema entry is well-formed (R42): MIN <= DFLT <= MAX signed, or at most TEXT_MAX codes. -/
def schemaEntryWf (P : Params) (e : SchemaEntry) : Bool :=
  match e with
  | .int lo hi dflt => decide (lo.toInt ≤ dflt.toInt) && decide (dflt.toInt ≤ hi.toInt)
  | .text dtxt => decide (dtxt.length ≤ P.textMax)

/-- The defined keys stand in rising order. -/
def keysRise (ks : List Nat) : Bool :=
  match ks with
  | [] => true
  | [_] => true
  | a :: b :: ks => decide (a < b) && keysRise (b :: ks)

/-- A schema is well-formed (R41, R42): defined keys below NKEYS, each once, with well-formed entries. -/
def schemaWf (P : Params) (sc : List (Nat × SchemaEntry)) : Bool :=
  keysRise (sc.map Prod.fst) && sc.all (fun c => decide (c.1 < P.nkeys) && schemaEntryWf P c.2)

/-- The ranges of a format record (R43): H 1..32, RL 1..H, NF 0..65535. -/
def formatRanges (fmt : Format) : Bool :=
  decide (1 ≤ fmt.h) && decide (fmt.h ≤ 32) && decide (1 ≤ fmt.rl) && decide (fmt.rl ≤ fmt.h) &&
    decide (fmt.nf ≤ 65535)

/-- A format is well-formed (R43, R44): its ranges, and FW1 to FW10. -/
def formatWf (P : Params) (dev : Device) (fmt : Format) : Bool :=
  formatRanges fmt && (checkFormat P dev fmt).isNone

/-- The match of R260 compares header byte `i`: as part of the checked prefix, or as the version byte. -/
def checksByte (f : Format) (i : Nat) : Bool := decide (i < f.rl) || (f.ver && i == f.voff)

/-- No buffer matches both formats (R46): their lengths differ, or some byte that both compare must differ. This is the
condition itself, of which the three ways listed in R46 are cases (log 17; `distinguishable_iff`). -/
def distinguishable (f g : Format) : Bool :=
  f.total != g.total ||
    (List.range (min f.h g.h)).any (fun i => checksByte f i && checksByte g i && f.hdr.getD i 0 != g.hdr.getD i 0)

/-- The formats of a device are one, or two that are distinguishable (R41, R46). -/
def formatsDistinct (fmts : List Format) : Bool :=
  match fmts with
  | [_] => true
  | [f, g] => distinguishable f g
  | _ => false

/-- A device is well-formed (R41, R46). -/
def deviceWf (P : Params) (dev : Device) : Bool :=
  schemaWf P dev.schema && dev.fmts.all (formatWf P dev) && formatsDistinct dev.fmts

/-- A configuration is well-formed (R7, R44 to R47). -/
def configWf (c : Config) : Bool :=
  paramsWf c.params && decide (1 ≤ c.devs.length) && decide (c.devs.length ≤ 255) && c.devs.all (deviceWf c.params)

end Sys2Proof.Machine
end

