-- ==== Sys2Proof/Machine/Construct.lean ====
section
/-! DEFINITION. Building a model from a configuration: 10_state.md rule R47 and 70_reset_and_hazards.md rule R342 item 1. -/

namespace Sys2Proof.Machine

/-- The model of a block with configuration `cfg`, right after reset. A configuration that is not well-formed is refused
here, before there is a machine: R47, "refuses any other configuration when it is constructed", and
93_implementation_defined.md I13. -/
def construct (cfg : Config) : Host.Outcome State Fault Refusal :=
  if configWf cfg then .next (State.resetWith cfg) else .refused .illFormedConfig

end Sys2Proof.Machine
end

