-- ==== Sys2Proof/Safety.lean ====
section
/-! DEFINITION. What counts as a legal state and a safe run, in the terms the statements use: the invariant that every
step keeps, and the frames of what a command leaves unchanged. -/

namespace Sys2Proof.Machine

/-! ### The invariant -/

/-- A buffer in canonical form that lists no byte at or beyond its size (R30, R60). -/
def bufferOk (m : Memory) (size : Nat) : Prop := m.wf ∧ ∀ c ∈ m, c.1 < size

/-- An entry of the model store within its bounds (R35): `len` and every listed character code below TEXT_MAX. -/
def entryOk (P : Params) (e : Entry) : Prop :=
  e.len ≤ P.textMax ∧ cellsWf 0#32 e.txt ∧ ∀ c ∈ e.txt, c.1 < P.textMax

/-- A model store in canonical form that lists no key of NKEYS or above (R35, R60). -/
def modelOk (P : Params) (m : ModelStore) : Prop :=
  cellsWf Entry.zero m ∧ ∀ c ∈ m, c.1 < P.nkeys ∧ entryOk P c.2

/-- The legal states: what every step from such a state keeps. -/
structure State.Inv (s : State) : Prop where
  /-- The configuration is one that `construct` admits (R47). -/
  cfg_wf : configWf s.cfg = true
  /-- No walk stands at a step, because commands are atomic (R66). -/
  no_walk : s.walk = none
  ibuf_ok : bufferOk s.ibuf s.cfg.params.bufSize
  obuf_ok : bufferOk s.obuf s.cfg.params.bufSize
  dimg_ok : bufferOk s.dimg s.cfg.params.dataSize
  model_ok : modelOk s.cfg.params s.model
  /-- DIAG_LOG has DIAG_MAX entries (R20). -/
  diag_len : s.diagLog.length = s.cfg.params.diagMax
  /-- CURDEV is 0xFF or a device (R34). -/
  curdev_ok : s.curdev = 0xFF#8 ∨ s.curdev.toNat < s.cfg.devs.length
  /-- SHAPE is 0, 1 or 0xFFFFFFFF (R29). -/
  shape_ok : s.shape = 0 ∨ s.shape = 1 ∨ s.shape = 0xFFFFFFFF
  /-- OUT_LEN is a frame length that fits OBUF (R29, R44). -/
  out_len : s.outLen.toNat ≤ s.cfg.params.bufSize
  /-- Without a fault since reset, the fault registers hold their reset values (R28). -/
  unfaulted : s.faulted = false →
    s.faultCause = .none ∧ s.faultKey = 0 ∧ s.faultCmd = 0 ∧ s.result ≠ .fault
  /-- After a fault, RESULT, FAIL_CAUSE, CMD and the fault registers describe it until reset (R28, R302, R303). -/
  after_fault : s.faulted = true →
    s.faultCause ≠ .none ∧ s.faultCmd = s.cmd ∧ s.result = .fault
  /-- FAIL_CAUSE is not NONE exactly after FAILED (R25, R305). -/
  fail_cause : s.failCause ≠ .none ↔ s.result = .failed

/-! ### Frames -/

/-- From `s` to `t` a command has succeeded, and nothing but buffer bytes, RESULT and FAIL_CAUSE may differ. -/
def onlyBuffers (s t : State) : Prop :=
  t = { s with ibuf := t.ibuf, obuf := t.obuf, dimg := t.dimg, result := .success, failCause := .none }

/-- From `s` to `t` every buffer byte is unchanged but those of `sp` at `off .. off + n - 1`. -/
def bytesKeptOutside (s t : State) (sp : Space) (off n : Nat) : Prop :=
  ∀ (sp' : Space) (a : Nat), ¬(sp' = sp ∧ off ≤ a ∧ a < off + n) → t.byteAt sp' a = s.byteAt sp' a

/-- From `s` to `t` every model entry but that of `k` reads as before. -/
def entriesKeptBut (s t : State) (k : Nat) : Prop := ∀ k', k' ≠ k → t.entry k' = s.entry k'

/-- The entry of `k` has value `v`, and the text it had. -/
def valueStored (s t : State) (k : Nat) (v : Word) : Prop :=
  (t.entry k).val = v ∧ (t.entry k).len = (s.entry k).len ∧ ∀ i, (t.entry k).code i = (s.entry k).code i

/-- What an enumeration check of `code` records (R33, R172): nothing where the code passes; else DIAG_COUNT plus 1,
saturating, and DIAG_LOG at the old count if that is below DIAG_MAX. -/
def diagRecorded (s t : State) (code enumw : Word) (key : Key) : Prop :=
  if enumw.toNat % 65536 = 0 ∨ code.toNat < enumw.toNat % 65536 then
    t.diagCount = s.diagCount ∧ t.diagLog = s.diagLog
  else
    t.diagCount.toNat = min (s.diagCount.toNat + 1) 0xFFFFFFFF ∧
    t.diagLog =
      if s.diagCount.toNat < s.cfg.params.diagMax then
        s.diagLog.set s.diagCount.toNat (BitVec.ofNat 32 (code.toNat % 65536 * 65536 + key.toNat))
      else s.diagLog

/-- The code an enumeration check gives (R172): the code itself where it passes, and EFALL where it does not. -/
def enumResult (code enumw : Word) : Word :=
  if enumw.toNat % 65536 = 0 ∨ code.toNat < enumw.toNat % 65536 then code
  else BitVec.ofNat 32 (enumw.toNat / 65536)

/-- A command, as against a FieldSpec. -/
def isCommand (i : Instr) : Prop := i.isField = false

end Sys2Proof.Machine
end

