-- ==== Sys2Proof/Certificates/Slice0/Obligations.lean ====
section
/-! DEFINITION. The statements for the provers. Each docstring names the rule of spec/ it formalises. Numbers are
written out with Nat arithmetic where the rule gives a formula, so that a statement does not rest on the bit
operations of the model. -/

open Sys2Proof Sys2Proof.Machine

/-! ### Encoding and stepping -/

/-- 30_encoding.md R81, R89: the legal CMD words and what they encode, and no other word is legal. -/
def Obligations.OpcodeMapExact : Prop :=
  ∀ (w : Word) (i : Instr), decodeCmd w = .ok i ↔
    (w.toNat, i) ∈ [(0x01, Instr.init), (0x02, .recog), (0x03, .encode), (0x04, .decode), (0x05, .revise),
      (0x10, .nibx), (0x11, .nibc), (0x20, .bfpk), (0x21, .bfup), (0x30, .s14e), (0x31, .s14d), (0x32, .vele),
      (0x33, .veld), (0x34, .namee), (0x35, .named), (0x36, .enumchk), (0x37, .clamp), (0x40, .ckgen),
      (0x41, .ckchk)]

/-- R80, R81, R86, R87: decoding the words of any instruction gives that instruction, for every operand value. -/
def Obligations.DecodeEncodeRoundTrip : Prop :=
  ∀ i : Instr, decodeWords (encode i) = .ok i

/-- R80, R86, R87, R89: words that decode are the words of the instruction they decode to, so no bit is ignored. -/
def Obligations.DecodedWordsAreCanonical : Prop :=
  ∀ (ws : List Word) (i : Instr), decodeWords ws = .ok i → encode i = ws

/-- 95_test_vectors.md V9: FieldSpec words written out there decode to the FieldSpecs that its table names. -/
def Obligations.SampleWordsDecode : Prop :=
  decodeWords [0x00000041] = .ok .ckchk ∧
  decodeWords [0x00000101] = .error .reservedBits ∧
  decodeWords [0x00000103, 0x00000001, 0x00000000, 0x00000000] = .ok (.fspecS14 ⟨false, 0, 1, 1⟩ 0 0) ∧
  decodeWords [0x00000202, 0x00000003, 0x0000109C, 0x0003001B] =
    .ok (.fspecBits ⟨false, 0, 2, 3⟩ 0x109C 0x0003001B) ∧
  decodeWords [0x00000404, 0x00050005, 0x00000000, 0x00000000] = .ok (.fspecVel ⟨false, 0, 4, 5⟩ 5) ∧
  decodeWords [0x00000605, 0x00000006, 0x00000004, 0x00000000] = .ok (.fspecName ⟨false, 0, 6, 6⟩ 4) ∧
  decodeWords [0x00000710, 0x00000004, 0x00000000, 0x00000000] = .ok (.fspecRaw8 ⟨true, 0, 7, 4⟩ 0) ∧
  decodeWords [0x00000120, 0x00000000, 0x00000000, 0x00000000] = .ok (.fspecRaw8 ⟨false, 1, 1, 0⟩ 0)

/-- 46_control.md R290: when the host's next access writes a word to CMD that encodes a command, the block is not
FAULTED and no command runs, the step stores the word and runs the command. -/
def Obligations.StepRunsCommand : Prop :=
  ∀ (s : State) (w : Word) (i : Instr) (rest : List HostOp),
    s.walk = none → s.faulted = false →
    s.host = .regWrite s.cfg.params.hostBase .word w :: rest → decodeCmd w = .ok i →
    step s = exec i { s with host := rest, cmd := w }

/-- R222, R265, R316 and the model's own way to run one FieldSpec (log 4): with a walk in progress and no reset asserted,
the step runs the FieldSpec at FIDX if it is of the walk's part, skips it if it is not, and ends the walk when none is
left. With no walk and no access from the host, the block is idle and keeps all state. -/
def Obligations.StepRunsFieldSpec : Prop :=
  (∀ (s : State) (w : Walk) (fw : FieldWords) (rest : List FieldWords) (i : Instr) (f : FieldPlace),
    s.walk = some w → w.rest = fw :: rest → s.host.head? ≠ some .reset →
    decodeField fw = .ok i → i.place? = some f →
    step s =
      if f.part.toNat = w.part then exec i { s with walk := some { w with rest := rest } }
      else .next { s with walk := some { w with rest := rest } }) ∧
  (∀ (s : State) (w : Walk), s.walk = some w → w.rest = [] → s.host.head? ≠ some .reset →
    step s = .next { s with walk := none }) ∧
  ∀ s : State, s.walk = none → s.host = [] → step s = .next s

/-! ### Dispatch, faults and endings -/

/-- R89, R290, R302: a word that encodes no command raises ILLEGAL_CMD, and nothing but CMD and the six registers of
the fault entry changes. -/
def Obligations.IllegalCommandFaults : Prop :=
  ∀ (s : State) (w : Word) (rest : List HostOp),
    s.walk = none → s.faulted = false → s.host = .regWrite s.cfg.params.hostBase .word w :: rest →
    (∀ i, decodeCmd w ≠ .ok i) →
    step s = .next { s with
      host := rest, cmd := w, faulted := true, faultCause := .illegalCmd, faultKey := 0xFFFF, faultCmd := w,
      result := .fault, failCause := .none }

/-- 60_exceptions.md R303, 10_state.md R26, R28: while FAULTED a host write to CMD is ignored: it is not stored and starts
nothing. Whatever access the host makes, only reset clears FAULTED, and until then the fault registers and every result
of a command stay. -/
def Obligations.FaultedUntilReset : Prop :=
  (∀ (s : State) (w : Word) (rest : List HostOp),
    s.walk = none → s.faulted = true → s.host = .regWrite s.cfg.params.hostBase .word w :: rest →
    step s = .next { s with host := rest }) ∧
  (∀ s t : State, s.walk = none → s.faulted = true → s.host.head? ≠ some .reset → step s = .next t →
    t.faulted = true ∧ t.faultCause = s.faultCause ∧ t.faultKey = s.faultKey ∧ t.faultCmd = s.faultCmd ∧
    t.cmd = s.cmd ∧ t.result = s.result ∧ t.failCause = s.failCause ∧ t.rval = s.rval ∧ t.rval2 = s.rval2 ∧
    t.outLen = s.outLen ∧ t.shape = s.shape ∧ t.diagCount = s.diagCount ∧ t.diagLog = s.diagLog ∧
    t.curdev = s.curdev ∧ t.partsSeen = s.partsSeen) ∧
  ∀ (s : State) (rest : List HostOp), s.host = .reset :: rest → ∃ t, step s = .next t ∧ t.faulted = false

/-- R302, R12: a command that faults leaves exactly the state before it, with the six writes of the fault entry. -/
def Obligations.CommandFaultsArePrecise : Prop :=
  ∀ (i : Instr) (s t : State), isCommand i → s.faulted = false → exec i s = .next t → t.faulted = true →
    t = { s with
      faulted := true, faultCause := t.faultCause, faultKey := t.faultKey, faultCmd := s.cmd, result := .fault,
      failCause := .none } ∧
    t.faultCause ≠ .none ∧ t.faultCause ≠ .illegalCmd ∧ (t.faultCause ≠ .schema → t.faultCause ≠ .badField →
      t.faultKey = 0xFFFF)

/-- R290, R305, R24, R25: every command ends, with a fault entry or a normal ending. A normal ending touches no fault
register; it is SUCCESS for every command but DECODE; FAIL_CAUSE is NONE unless RESULT is FAILED. A command never
writes CMD, A0 to A2 or IN_LEN (R22, R23). -/
def Obligations.CommandEndsOnce : Prop :=
  ∀ (i : Instr) (s : State), isCommand i → ∃ t, exec i s = .next t ∧
    t.cmd = s.cmd ∧ t.a0 = s.a0 ∧ t.a1 = s.a1 ∧ t.a2 = s.a2 ∧ t.inLen = s.inLen ∧
    ((∃ f, t = s.raiseFault f) ∨
      (t.faulted = s.faulted ∧ t.faultCause = s.faultCause ∧ t.faultKey = s.faultKey ∧ t.faultCmd = s.faultCmd ∧
        t.result ≠ .none ∧ t.result ≠ .fault ∧ (i ≠ .decode → t.result = .success) ∧
        (t.result ≠ .failed → t.failCause = .none) ∧ (t.result = .failed → t.failCause ≠ .none)))

/-- R40, R69: no step changes the configuration, whether of a host access, a command or a FieldSpec. -/
def Obligations.ConfigurationNeverChanges : Prop :=
  ∀ s t : State, step s = .next t → t.cfg = s.cfg

/-- The invariant of Safety.lean (R20, R25, R28, R29, R30, R34, R35, R66, R302, R303): every step from a legal state
that answers a next state answers a legal one. The canonical form of the lists and the two fields of the model's own
are the model's choice (logs 2, 4 and 7). -/
def Obligations.InvariantKeptByStep : Prop :=
  ∀ s t : State, s.Inv → step s = .next t → t.Inv

/-- The reset state is legal, with the configuration of the model's choice (log 1) and with any well-formed one. -/
def Obligations.InvariantAtReset : Prop :=
  State.reset.Inv ∧ ∀ c : Config, configWf c = true → (State.resetWith c).Inv

/-- 10_state.md R48, R20, R31, R39, 70_reset_and_hazards.md R340, R341: what reset leaves, whatever the configuration,
and asserting reset, with or without a walk in progress, gives that state. The configuration is not touched. That reset is
one of the host's accesses and abandons a walk, and that the accesses the host has still to make and the value it last read
stay, is the model's choice (logs 2, 3 and 14). That `readRegister` gives 0 at an offset at or beyond 0x100 + 4*DIAG_MAX
too, where R60 ends the window and which no access reaches, is the model's choice (log 8). -/
def Obligations.ResetLeavesSpecValues : Prop :=
  (∀ c : Config,
    (∀ off : Nat, off ≠ 0x038 → off ≠ 0x040 → readRegister (State.resetWith c) off = 0) ∧
    readRegister (State.resetWith c) 0x038 = 0xFFFFFFFF ∧
    readRegister (State.resetWith c) 0x040 = 0x000000FF ∧
    (∀ (sp : Space) (a : Nat), (State.resetWith c).byteAt sp a = 0) ∧
    (∀ k : Nat, ((State.resetWith c).entry k).val = 0 ∧ ((State.resetWith c).entry k).len = 0 ∧
      ∀ i, ((State.resetWith c).entry k).code i = 0)) ∧
  ∀ (s : State) (rest : List HostOp), s.host = .reset :: rest →
    step s = .next { State.resetWith s.cfg with host := rest, hostData := s.hostData }

/-! ### The host's accesses -/

/-- R20, R24 to R26, R300: what an aligned word read of the window returns, and it changes nothing else. STATUS holds
FAULTED in bit 0 and DEV_VALID, CURDEV /= 0xFF, in bit 1. The window ends at 0x100 + 4*DIAG_MAX (R60). -/
def Obligations.RegisterWindowReads : Prop :=
  ∀ (s : State) (off : Nat) (rest : List HostOp),
    s.walk = none → off % 4 = 0 → off < 0x100 + 4 * s.cfg.params.diagMax →
    s.host = .regRead (s.cfg.params.hostBase + off) .word :: rest →
    ∃ v : Word, step s = .next { s with host := rest, hostData := v } ∧
      (off = 0x000 → v = s.cmd) ∧ (off = 0x004 → v = s.a0) ∧ (off = 0x008 → v = s.a1) ∧ (off = 0x00C → v = s.a2) ∧
      (off = 0x010 → v = s.inLen) ∧
      (off = 0x014 → v.toNat = match s.result with
        | .none => 0 | .success => 1 | .incomplete => 2 | .failed => 3 | .cancelled => 4 | .fault => 5) ∧
      (off = 0x018 → v.toNat = match s.failCause with
        | .none => 0 | .length => 1 | .header => 2 | .version => 3 | .checksum => 4 | .part => 5) ∧
      (off = 0x01C → v.toNat = (if s.faulted then 1 else 0) + (if s.curdev = 0xFF then 0 else 2)) ∧
      (off = 0x020 → v.toNat = match s.faultCause with
        | .none => 0 | .illegalCmd => 1 | .badArg => 2 | .bounds => 3 | .noDevice => 4 | .schema => 5
        | .badField => 6 | .unsupported => 7) ∧
      (off = 0x024 → v.toNat = s.faultKey.toNat) ∧ (off = 0x028 → v = s.faultCmd) ∧ (off = 0x02C → v = s.rval) ∧
      (off = 0x030 → v = s.rval2) ∧ (off = 0x034 → v = s.outLen) ∧ (off = 0x038 → v = s.shape) ∧
      (off = 0x03C → v = s.diagCount) ∧ (off = 0x040 → v.toNat = s.curdev.toNat) ∧
      (off = 0x044 → v.toNat = s.partsSeen.toNat) ∧
      (∀ i, i < s.cfg.params.diagMax → off = 0x100 + 4 * i → v = s.diagLog.getD i 0) ∧
      (0x044 < off → off < 0x100 → v = 0)

/-- R20, R65: a host write to A0, A1, A2 or IN_LEN only stores, and one to any other offset of the window but CMD
is ignored. The window ends at 0x100 + 4*DIAG_MAX (R60). -/
def Obligations.RegisterWindowWrites : Prop :=
  ∀ (s : State) (off : Nat) (v : Word) (rest : List HostOp),
    s.walk = none → off % 4 = 0 → off ≠ 0x000 → off < 0x100 + 4 * s.cfg.params.diagMax →
    s.host = .regWrite (s.cfg.params.hostBase + off) .word v :: rest →
    step s = .next { s with
      host := rest
      a0 := if off = 0x004 then v else s.a0
      a1 := if off = 0x008 then v else s.a1
      a2 := if off = 0x00C then v else s.a2
      inLen := if off = 0x010 then v else s.inLen }

/-- R38, R63, R65: a host write to one buffer byte, or to one field of one model entry, changes that and nothing else;
it is not checked against the schema, and a `len` above TEXT_MAX stores TEXT_MAX. A host read returns the value and
changes nothing else. -/
def Obligations.HostBufferAndModelAccesses : Prop :=
  (∀ (s : State) (rest : List HostOp), s.walk = none →
    (∀ sp off b, s.host = .bufWrite sp off b :: rest → off < spaceSize s.cfg.params sp →
      ∃ t, step s = .next t ∧ t.byteAt sp off = b ∧ bytesKeptOutside s t sp off 1 ∧
        t = { s with host := rest, ibuf := t.ibuf, obuf := t.obuf, dimg := t.dimg }) ∧
    (∀ k v, s.host = .valWrite k v :: rest → k < s.cfg.params.nkeys →
      ∃ t, step s = .next t ∧ valueStored s t k v ∧ entriesKeptBut s t k ∧
        t = { s with host := rest, model := t.model }) ∧
    (∀ k v, s.host = .lenWrite k v :: rest → k < s.cfg.params.nkeys →
      ∃ t, step s = .next t ∧ (t.entry k).val = (s.entry k).val ∧
        (t.entry k).len = min v.toNat s.cfg.params.textMax ∧ (∀ i, (t.entry k).code i = (s.entry k).code i) ∧
        entriesKeptBut s t k ∧ t = { s with host := rest, model := t.model }) ∧
    (∀ k i v, s.host = .txtWrite k i v :: rest → k < s.cfg.params.nkeys → i < s.cfg.params.textMax →
      ∃ t, step s = .next t ∧ (t.entry k).val = (s.entry k).val ∧ (t.entry k).len = (s.entry k).len ∧
        (∀ j, (t.entry k).code j = if j = i then v else (s.entry k).code j) ∧ entriesKeptBut s t k ∧
        t = { s with host := rest, model := t.model })) ∧
  ∀ (s : State) (rest : List HostOp), s.walk = none →
    (∀ sp off, s.host = .bufRead sp off :: rest → off < spaceSize s.cfg.params sp →
      ∃ v : Word, v.toNat = (s.byteAt sp off).toNat ∧ step s = .next { s with host := rest, hostData := v }) ∧
    (∀ k, s.host = .valRead k :: rest → k < s.cfg.params.nkeys →
      step s = .next { s with host := rest, hostData := (s.entry k).val }) ∧
    (∀ k, s.host = .lenRead k :: rest → k < s.cfg.params.nkeys →
      step s = .next { s with host := rest, hostData := BitVec.ofNat 32 (s.entry k).len }) ∧
    (∀ k i, s.host = .txtRead k i :: rest → k < s.cfg.params.nkeys → i < s.cfg.params.textMax →
      step s = .next { s with host := rest, hostData := (s.entry k).code i })

/-- The accesses that the model refuses. R63 and R35: a register access that is not one aligned word, a buffer access at or
beyond the size, a model access with key >= NKEYS. The model's reading: a register access below HOST_BASE, or at or beyond
the end of the window at 0x100 + 4*DIAG_MAX (R60), is refused (log 8), and so is an access to `txt[i]` with i >= TEXT_MAX
(log 15). -/
def Obligations.HostAccessRefusals : Prop :=
  ∀ (s : State) (op : HostOp) (rest : List HostOp), s.walk = none → s.host = op :: rest →
    ((∃ r, step s = .refused r) ↔
      match op with
      | .regRead a w =>
        a < s.cfg.params.hostBase ∨ s.cfg.params.hostBase + 0x100 + 4 * s.cfg.params.diagMax ≤ a ∨ w ≠ .word ∨
          (a - s.cfg.params.hostBase) % 4 ≠ 0
      | .regWrite a w _ =>
        a < s.cfg.params.hostBase ∨ s.cfg.params.hostBase + 0x100 + 4 * s.cfg.params.diagMax ≤ a ∨ w ≠ .word ∨
          (a - s.cfg.params.hostBase) % 4 ≠ 0
      | .bufRead sp off => spaceSize s.cfg.params sp ≤ off
      | .bufWrite sp off _ => spaceSize s.cfg.params sp ≤ off
      | .valRead k => s.cfg.params.nkeys ≤ k
      | .valWrite k _ => s.cfg.params.nkeys ≤ k
      | .lenRead k => s.cfg.params.nkeys ≤ k
      | .lenWrite k _ => s.cfg.params.nkeys ≤ k
      | .txtRead k i => s.cfg.params.nkeys ≤ k ∨ s.cfg.params.textMax ≤ i
      | .txtWrite k i _ => s.cfg.params.nkeys ≤ k ∨ s.cfg.params.textMax ≤ i
      | .reset => False)

/-! ### Primitive commands -/

/-- 00_scope.md R11, 30_encoding.md R83: `chk_bref`: reserved bits and space 3 raise BAD_ARG, then a range past the end
raises BOUNDS, and any other BREF gives its space and offset. -/
def Obligations.BrefCheckOrder : Prop :=
  ∀ (P : Params) (b : Word) (n : Nat),
    (b.toNat / 2 ^ 18 ≠ 0 ∨ b.toNat / 2 ^ 16 % 4 = 3 → chkBref P b n = .error ⟨.badArg, 0xFFFF⟩) ∧
    ∀ sp : Space, b.toNat / 2 ^ 18 = 0 →
      b.toNat / 2 ^ 16 % 4 = (match sp with | .ibuf => 0 | .obuf => 1 | .dimg => 2) →
      chkBref P b n =
        if (match sp with | .ibuf => P.bufSize | .obuf => P.bufSize | .dimg => P.dataSize) < b.toNat % 2 ^ 16 + n
        then .error ⟨.bounds, 0xFFFF⟩
        else .ok ⟨sp, b.toNat % 2 ^ 16⟩

/-- 40_nibble.md R120, R121: NIBX writes the high and then the low nibble of each source byte, read before any write,
and nothing else but RESULT and FAIL_CAUSE. -/
def Obligations.NibxExpandsBytes : Prop :=
  ∀ (s : State) (src dst : BufRef),
    chkBref s.cfg.params s.a0 s.a2.toNat = .ok src → chkBref s.cfg.params s.a1 (2 * s.a2.toNat) = .ok dst →
    ∃ t, exec .nibx s = .next t ∧ onlyBuffers s t ∧
      (∀ i, i < s.a2.toNat →
        (t.byteAt dst.sp (dst.off + 2 * i)).toNat = (s.byteAt src.sp (src.off + i)).toNat / 16 ∧
        (t.byteAt dst.sp (dst.off + 2 * i + 1)).toNat = (s.byteAt src.sp (src.off + i)).toNat % 16) ∧
      bytesKeptOutside s t dst.sp dst.off (2 * s.a2.toNat)

/-- R120, R123: NIBC joins the low nibbles of each source pair, read before any write, and writes nothing else but
RESULT and FAIL_CAUSE. -/
def Obligations.NibcJoinsPairs : Prop :=
  ∀ (s : State) (src dst : BufRef),
    chkBref s.cfg.params s.a0 (2 * s.a2.toNat) = .ok src → chkBref s.cfg.params s.a1 s.a2.toNat = .ok dst →
    ∃ t, exec .nibc s = .next t ∧ onlyBuffers s t ∧
      (∀ i, i < s.a2.toNat →
        (t.byteAt dst.sp (dst.off + i)).toNat =
          16 * ((s.byteAt src.sp (src.off + 2 * i)).toNat % 16) +
            (s.byteAt src.sp (src.off + 2 * i + 1)).toNat % 16) ∧
      bytesKeptOutside s t dst.sp dst.off s.a2.toNat

/-- R122: NIBX of n bytes to a region and then NIBC of that region gives the n bytes back, wherever NIBC puts them.
NIBC and then NIBX keeps the low nibble of each byte, so it is the identity only on a region of nibble bytes. -/
def Obligations.NibbleRoundTrip : Prop :=
  (∀ (s : State) (back : Word) (src mid dst : BufRef),
    chkBref s.cfg.params s.a0 s.a2.toNat = .ok src → chkBref s.cfg.params s.a1 (2 * s.a2.toNat) = .ok mid →
    chkBref s.cfg.params back s.a2.toNat = .ok dst →
    ∃ t u, exec .nibx s = .next t ∧ exec .nibc { t with a0 := s.a1, a1 := back } = .next u ∧
      ∀ i, i < s.a2.toNat → u.byteAt dst.sp (dst.off + i) = s.byteAt src.sp (src.off + i)) ∧
  (∀ (s : State) (back : Word) (src mid dst : BufRef),
    chkBref s.cfg.params s.a0 (2 * s.a2.toNat) = .ok src → chkBref s.cfg.params s.a1 s.a2.toNat = .ok mid →
    chkBref s.cfg.params back (2 * s.a2.toNat) = .ok dst →
    ∃ t u, exec .nibc s = .next t ∧ exec .nibx { t with a0 := s.a1, a1 := back } = .next u ∧
      (∀ i, i < 2 * s.a2.toNat →
        (u.byteAt dst.sp (dst.off + i)).toNat = (s.byteAt src.sp (src.off + i)).toNat % 16) ∧
      ((∀ i, i < 2 * s.a2.toNat → u.byteAt dst.sp (dst.off + i) = s.byteAt src.sp (src.off + i)) ↔
        ∀ i, i < 2 * s.a2.toNat → (s.byteAt src.sp (src.off + i)).toNat < 16))

/-- The fields of a GEOM word, from the bits of the word as a number (R84). -/
def geomNumbers (g : Nat) : Geom :=
  { sa := g % 8, wa := g / 8 % 16, two := decide (g / 128 % 2 = 1), sb := g / 256 % 8, wb := g / 2048 % 16
    ord := decide (g / 32768 % 2 = 1) }

/-- The legal values of a GEOM word, as a number (R84). -/
def geomConditions (g : Nat) : Prop :=
  g < 65536 ∧ 1 ≤ g / 8 % 16 ∧ g / 8 % 16 ≤ 8 ∧ g % 8 + g / 8 % 16 ≤ 8 ∧
    if g / 128 % 2 = 1 then
      1 ≤ g / 2048 % 16 ∧ g / 2048 % 16 ≤ 8 ∧ g / 256 % 8 + g / 2048 % 16 ≤ 8 ∧ g / 8 % 16 + g / 2048 % 16 ≤ 8
    else g / 256 % 8 = 0 ∧ g / 2048 % 16 = 0 ∧ g / 32768 % 2 = 0

/-- The two segments of a value as numbers (41_bitfield.md R140). -/
def segmentNumbers (G : Geom) (v : Nat) : Nat × Nat :=
  let u := v % 2 ^ G.width
  if G.two = false then (u, 0)
  else if G.ord = false then (u % 2 ^ G.wa, u / 2 ^ G.wa)
  else (u / 2 ^ G.wb, u % 2 ^ G.wb)

/-- The code in two bytes as a number (R143). -/
def segmentCode (G : Geom) (b0 b1 : Nat) : Nat :=
  let pa := b0 / 2 ^ G.sa % 2 ^ G.wa
  let pb := b1 / 2 ^ G.sb % 2 ^ G.wb
  if G.two = false then pa else if G.ord = false then pa + pb * 2 ^ G.wa else pb + pa * 2 ^ G.wb

/-- 30_encoding.md R84: the fields and the legal values of a GEOM word. 41_bitfield.md R140 to R142, R146: with a legal
GEOM, BFPK ORs the segments of A0 into byte N and, for a two-segment field, byte N+1, and writes nothing else but RESULT
and FAIL_CAUSE. -/
def Obligations.BfpkOrsSegments : Prop :=
  (∀ g : Word, geomOf g = geomNumbers g.toNat ∧ (geomLegal g = true ↔ geomConditions g.toNat)) ∧
  ∀ (s : State) (r : BufRef), geomLegal s.a2 = true →
    chkBref s.cfg.params s.a1 (if (geomOf s.a2).two then 2 else 1) = .ok r →
    ∃ t, exec .bfpk s = .next t ∧ onlyBuffers s t ∧
      (t.byteAt r.sp r.off).toNat =
        (s.byteAt r.sp r.off).toNat ||| (segmentNumbers (geomOf s.a2) s.a0.toNat).1 * 2 ^ (geomOf s.a2).sa ∧
      ((geomOf s.a2).two = true → (t.byteAt r.sp (r.off + 1)).toNat =
        (s.byteAt r.sp (r.off + 1)).toNat |||
          (segmentNumbers (geomOf s.a2) s.a0.toNat).2 * 2 ^ (geomOf s.a2).sb) ∧
      bytesKeptOutside s t r.sp r.off (if (geomOf s.a2).two then 2 else 1)

/-- R143, R144: BFUP puts the code of the field in RVAL, below 2^W, and writes nothing else but RESULT and
FAIL_CAUSE. -/
def Obligations.BfupExtractsCode : Prop :=
  ∀ (s : State) (r : BufRef), geomLegal s.a2 = true →
    chkBref s.cfg.params s.a1 (if (geomOf s.a2).two then 2 else 1) = .ok r →
    ∃ v : Word, exec .bfup s = .next { s with rval := v, result := .success, failCause := .none } ∧
      v.toNat = segmentCode (geomOf s.a2) (s.byteAt r.sp r.off).toNat (s.byteAt r.sp (r.off + 1)).toNat ∧
      v.toNat < 2 ^ (geomOf s.a2).width

/-- R145: BFPK and then BFUP at the same place gives the old code ORed with v & mask(W), which is v & mask(W) where the
segment bits were 0, and v itself where v < 2^W too. -/
def Obligations.BitFieldRoundTrip : Prop :=
  ∀ (s : State) (r : BufRef), geomLegal s.a2 = true →
    chkBref s.cfg.params s.a1 (if (geomOf s.a2).two then 2 else 1) = .ok r →
    ∃ o t u, exec .bfup s = .next o ∧ exec .bfpk s = .next t ∧ exec .bfup t = .next u ∧
      u.rval.toNat = o.rval.toNat ||| s.a0.toNat % 2 ^ (geomOf s.a2).width ∧
      (o.rval = 0 → u.rval.toNat = s.a0.toNat % 2 ^ (geomOf s.a2).width) ∧
      (o.rval = 0 → s.a0.toNat < 2 ^ (geomOf s.a2).width → u.rval = s.a0)

/-- 42_field_transform.md R160, R161, R163: S14E writes v[13:7] and v[6:0] of A0 in the order LSBF gives, and nothing else
but RESULT and FAIL_CAUSE. S14D joins the low 7 bits of two bytes in that order into RVAL, and writes nothing else but
RESULT and FAIL_CAUSE. -/
def Obligations.S14PairCommands : Prop :=
  (∀ (s : State) (r : BufRef), s.a2.toNat < 2 → chkBref s.cfg.params s.a1 2 = .ok r →
    ∃ t, exec .s14e s = .next t ∧ onlyBuffers s t ∧
      (s.a2 = 0 → (t.byteAt r.sp r.off).toNat = s.a0.toNat / 128 % 128 ∧
        (t.byteAt r.sp (r.off + 1)).toNat = s.a0.toNat % 128) ∧
      (s.a2 = 1 → (t.byteAt r.sp r.off).toNat = s.a0.toNat % 128 ∧
        (t.byteAt r.sp (r.off + 1)).toNat = s.a0.toNat / 128 % 128) ∧
      bytesKeptOutside s t r.sp r.off 2) ∧
  ∀ (s : State) (r : BufRef), s.a2.toNat < 2 → chkBref s.cfg.params s.a1 2 = .ok r →
    ∃ v : Word, exec .s14d s = .next { s with rval := v, result := .success, failCause := .none } ∧
      (s.a2 = 0 → v.toNat = 128 * ((s.byteAt r.sp r.off).toNat % 128) + (s.byteAt r.sp (r.off + 1)).toNat % 128) ∧
      (s.a2 = 1 → v.toNat = 128 * ((s.byteAt r.sp (r.off + 1)).toNat % 128) + (s.byteAt r.sp r.off).toNat % 128)

/-- R162: S14E and then S14D at the same place gives v & 0x3FFF; S14D and then S14E of its result writes each byte with
bit 7 dropped. -/
def Obligations.S14RoundTrip : Prop :=
  ∀ (s : State) (r : BufRef), s.a2.toNat < 2 → chkBref s.cfg.params s.a1 2 = .ok r →
    (∃ t u, exec .s14e s = .next t ∧ exec .s14d t = .next u ∧ u.rval.toNat = s.a0.toNat % 16384 ∧
      (s.a0.toNat ≤ 16383 → u.rval = s.a0)) ∧
    (∃ t u, exec .s14d s = .next t ∧ exec .s14e { t with a0 := t.rval } = .next u ∧
      (u.byteAt r.sp r.off).toNat = (s.byteAt r.sp r.off).toNat % 128 ∧
      (u.byteAt r.sp (r.off + 1)).toNat = (s.byteAt r.sp (r.off + 1)).toNat % 128)

/-- R164, R165, R167: VELE writes bit 0 of the flag in bit 7 and the low 7 bits of the value, and nothing else but RESULT
and FAIL_CAUSE. VELD splits a byte into RVAL and RVAL2, and writes nothing else but RESULT and FAIL_CAUSE. -/
def Obligations.VelByteCommands : Prop :=
  (∀ (s : State) (r : BufRef), chkBref s.cfg.params s.a1 1 = .ok r →
    ∃ t, exec .vele s = .next t ∧ onlyBuffers s t ∧
      (t.byteAt r.sp r.off).toNat = 128 * (s.a2.toNat % 2) + s.a0.toNat % 128 ∧
      bytesKeptOutside s t r.sp r.off 1) ∧
  ∀ (s : State) (r : BufRef), chkBref s.cfg.params s.a1 1 = .ok r →
    ∃ v f : Word, exec .veld s = .next { s with rval := v, rval2 := f, result := .success, failCause := .none } ∧
      v.toNat = (s.byteAt r.sp r.off).toNat % 128 ∧ f.toNat = (s.byteAt r.sp r.off).toNat / 128

/-- R166: VELE and then VELD gives the value and the flag back, for a value of 0..127 and a flag of 0 or 1; VELD and
then VELE of its results writes the byte back. -/
def Obligations.VelRoundTrip : Prop :=
  ∀ (s : State) (r : BufRef), chkBref s.cfg.params s.a1 1 = .ok r →
    (s.a0.toNat ≤ 127 → s.a2.toNat ≤ 1 →
      ∃ t u, exec .vele s = .next t ∧ exec .veld t = .next u ∧ u.rval = s.a0 ∧ u.rval2 = s.a2) ∧
    (∃ t u, exec .veld s = .next t ∧ exec .vele { t with a0 := t.rval, a2 := t.rval2 } = .next u ∧
      ∀ sp a, u.byteAt sp a = s.byteAt sp a)

/-- The conditions under which NAMEE and NAMED run (R169, R171): a legal XFNAME, a key below NKEYS, a BREF that fits, a
device, and a defined TEXT key. -/
def nameArgs (s : State) (r : BufRef) : Prop :=
  1 ≤ s.a2.toNat ∧ s.a2.toNat ≤ 63 ∧ s.a2.toNat ≤ s.cfg.params.textMax ∧
  s.a0.toNat < s.cfg.params.nkeys ∧ s.a0.toNat < 65536 ∧
  chkBref s.cfg.params s.a1 s.a2.toNat = .ok r ∧
  ∃ dev d, currentDevice s = .ok dev ∧ schemaAt dev s.a0.toNat = some (.text d)

/-- R168, R169: NAMEE writes N bytes: each printable code of the text as its low byte, and 0x20 for any other code and
beyond the text. It writes nothing else but RESULT and FAIL_CAUSE. -/
def Obligations.NameeWritesPaddedName : Prop :=
  ∀ (s : State) (r : BufRef), nameArgs s r →
    ∃ t, exec .namee s = .next t ∧ onlyBuffers s t ∧
      (∀ i, i < s.a2.toNat →
        (t.byteAt r.sp (r.off + i)).toNat =
          if i < (s.entry s.a0.toNat).len ∧ 0x20 ≤ ((s.entry s.a0.toNat).code i).toInt ∧
              ((s.entry s.a0.toNat).code i).toInt ≤ 0x7E then
            ((s.entry s.a0.toNat).code i).toNat % 256
          else 0x20) ∧
      bytesKeptOutside s t r.sp r.off s.a2.toNat

/-- R168, R171: NAMED stores the bytes up to the last one above 0x20 as the text of the key, with 0 for every code
beyond, and writes nothing else but RESULT and FAIL_CAUSE. -/
def Obligations.NamedReadsTrimmedName : Prop :=
  ∀ (s : State) (r : BufRef), nameArgs s r →
    ∃ t l, exec .named s = .next t ∧
      t = { s with model := t.model, result := .success, failCause := .none } ∧
      (t.entry s.a0.toNat).len = l ∧ l ≤ s.a2.toNat ∧
      (0 < l → 0x20 < (s.byteAt r.sp (r.off + (l - 1))).toNat) ∧
      (∀ i, l ≤ i → i < s.a2.toNat → (s.byteAt r.sp (r.off + i)).toNat ≤ 0x20) ∧
      (∀ i, ((t.entry s.a0.toNat).code i).toNat = if i < l then (s.byteAt r.sp (r.off + i)).toNat else 0) ∧
      (t.entry s.a0.toNat).val = (s.entry s.a0.toNat).val ∧ entriesKeptBut s t s.a0.toNat

/-- R170: a text whose codes are all printable and whose last code is not a space comes back from NAMEE and NAMED with
width N: whole when it has at most N codes, and else as its first N codes with the trailing spaces trimmed. A text
that ends in a space comes back shorter, and an unprintable code comes back as a space, or is trimmed. -/
def Obligations.NameRoundTrip : Prop :=
  (∀ (s : State) (r : BufRef), nameArgs s r →
    (∀ i, i < (s.entry s.a0.toNat).len →
      0x20 ≤ ((s.entry s.a0.toNat).code i).toInt ∧ ((s.entry s.a0.toNat).code i).toInt ≤ 0x7E) →
    (0 < (s.entry s.a0.toNat).len → (s.entry s.a0.toNat).code ((s.entry s.a0.toNat).len - 1) ≠ 0x20) →
    ∃ t u, exec .namee s = .next t ∧ exec .named t = .next u ∧
      (∀ i, i < (u.entry s.a0.toNat).len → (u.entry s.a0.toNat).code i = (s.entry s.a0.toNat).code i) ∧
      ((s.entry s.a0.toNat).len ≤ s.a2.toNat → (u.entry s.a0.toNat).len = (s.entry s.a0.toNat).len) ∧
      (s.a2.toNat < (s.entry s.a0.toNat).len →
        (u.entry s.a0.toNat).len ≤ s.a2.toNat ∧
        (0 < (u.entry s.a0.toNat).len →
          (s.entry s.a0.toNat).code ((u.entry s.a0.toNat).len - 1) ≠ 0x20) ∧
        ∀ i, (u.entry s.a0.toNat).len ≤ i → i < s.a2.toNat → (s.entry s.a0.toNat).code i = 0x20)) ∧
  ∀ (s : State) (r : BufRef), nameArgs s r →
    ∃ t u, exec .namee s = .next t ∧ exec .named t = .next u ∧
      (0 < (s.entry s.a0.toNat).len → (s.entry s.a0.toNat).len ≤ s.a2.toNat →
        (s.entry s.a0.toNat).code ((s.entry s.a0.toNat).len - 1) = 0x20 →
        (u.entry s.a0.toNat).len < (s.entry s.a0.toNat).len) ∧
      ∀ i, i < (s.entry s.a0.toNat).len → i < (u.entry s.a0.toNat).len →
        ¬(0x20 ≤ ((s.entry s.a0.toNat).code i).toInt ∧ ((s.entry s.a0.toNat).code i).toInt ≤ 0x7E) →
        (u.entry s.a0.toNat).code i = 0x20

/-- R173: ENUMCHK gives the code, or EFALL with a diagnostic for no key, in RVAL, and writes nothing else but
RESULT and FAIL_CAUSE. With an illegal ENUMW it raises BAD_ARG. -/
def Obligations.EnumchkSubstitutes : Prop :=
  decodeCmd 0x36 = .ok .enumchk ∧ ∀ s : State,
    ((s.a1 = 0 ∨ s.a1.toNat / 65536 < s.a1.toNat % 65536) →
      ∃ t, exec .enumchk s = .next t ∧
        t = { s with
          rval := enumResult s.a0 s.a1, diagCount := t.diagCount, diagLog := t.diagLog, result := .success,
          failCause := .none } ∧
        diagRecorded s t s.a0 s.a1 0xFFFF) ∧
    (s.a1 ≠ 0 → s.a1.toNat % 65536 ≤ s.a1.toNat / 65536 →
      exec .enumchk s = .next (s.raiseFault ⟨.badArg, 0xFFFF⟩))

/-- 00_scope.md R16, 42_field_transform.md R174: CLAMP puts v clamped to lo..hi, signed, in RVAL and writes nothing else
but RESULT and FAIL_CAUSE; with lo > hi it raises BAD_ARG. -/
def Obligations.ClampBoundsValue : Prop :=
  decodeCmd 0x37 = .ok .clamp ∧ ∀ s : State,
    (s.a1.toInt ≤ s.a2.toInt →
      ∃ v : Word, exec .clamp s = .next { s with rval := v, result := .success, failCause := .none } ∧
        v.toInt = max s.a1.toInt (min s.a0.toInt s.a2.toInt)) ∧
    (s.a2.toInt < s.a1.toInt → exec .clamp s = .next (s.raiseFault ⟨.badArg, 0xFFFF⟩))

/-- The sum of the unsigned bytes of a range (R15, R200). -/
def rangeSum (s : State) (sp : Space) (off n : Nat) : Nat :=
  ((List.range n).map (fun i => (s.byteAt sp (off + i)).toNat)).sum

/-- 43_checksum.md R200, R201: CKGEN writes the sum mod 128, taken before the write, to the destination byte and RVAL,
and nothing else but RESULT and FAIL_CAUSE. -/
def Obligations.CkgenWritesSum : Prop :=
  ∀ (s : State) (src dst : BufRef),
    chkBref s.cfg.params s.a0 s.a1.toNat = .ok src → chkBref s.cfg.params s.a2 1 = .ok dst →
    ∃ t, exec .ckgen s = .next t ∧
      t = { s with
        ibuf := t.ibuf, obuf := t.obuf, dimg := t.dimg, rval := t.rval, result := .success, failCause := .none } ∧
      (t.byteAt dst.sp dst.off).toNat = rangeSum s src.sp src.off s.a1.toNat % 128 ∧
      t.rval.toNat = rangeSum s src.sp src.off s.a1.toNat % 128 ∧
      bytesKeptOutside s t dst.sp dst.off 1

/-- R200, R203: CKCHK puts 1 in RVAL if the received byte is 0x7F or the sum mod 128, and 0 if not, and the sum mod 128
in RVAL2. It writes nothing else but RESULT and FAIL_CAUSE. -/
def Obligations.CkchkReportsValidity : Prop :=
  ∀ (s : State) (src rcv : BufRef),
    chkBref s.cfg.params s.a0 s.a1.toNat = .ok src → chkBref s.cfg.params s.a2 1 = .ok rcv →
    ∃ c : Word, c.toNat = rangeSum s src.sp src.off s.a1.toNat % 128 ∧
      exec .ckchk s = .next { s with
        rval := if (s.byteAt rcv.sp rcv.off).toNat = 0x7F ∨ (s.byteAt rcv.sp rcv.off).toNat = c.toNat then 1 else 0
        rval2 := c, result := .success, failCause := .none }

/-- R202, R204: for every byte range whose sum is a multiple of 128, CKGEN writes 0x00. When the received byte is 0x7F,
CKCHK accepts it, and the check of DECODE never ends it FAILED with CHECKSUM, whatever the summed bytes hold. -/
def Obligations.ChecksumLaws : Prop :=
  (∀ (s : State) (src dst : BufRef),
    chkBref s.cfg.params s.a0 s.a1.toNat = .ok src → chkBref s.cfg.params s.a2 1 = .ok dst →
    128 ∣ rangeSum s src.sp src.off s.a1.toNat →
    ∃ t, exec .ckgen s = .next t ∧ t.byteAt dst.sp dst.off = 0x00 ∧ t.rval = 0) ∧
  (∀ (s : State) (src rcv : BufRef),
    chkBref s.cfg.params s.a0 s.a1.toNat = .ok src → chkBref s.cfg.params s.a2 1 = .ok rcv →
    s.byteAt rcv.sp rcv.off = 0x7F →
    ∃ t, exec .ckchk s = .next t ∧ t.rval = 1) ∧
  ∀ s t : State, exec .decode s = .next t → t.result = .failed →
    (∀ (dev : Device) (j : Nat) (fmt : Format), currentDevice s = .ok dev → dev.fmts.length ≤ 2 →
      dev.fmts[j]? = some fmt → t.shape = BitVec.ofNat 32 j → s.byteAt .ibuf (fmt.total - 2) = 0x7F →
      t.failCause ≠ .checksum)

/-- R300, R301: the argument faults of the twelve primitive commands that take a BREF, in check order: an illegal GEOM,
XF14 or XFNAME, a NAMEE or NAMED key of NKEYS or above, the fault of the first BREF that fails, and for NAMEE and NAMED the
device and the schema. Each leaves the fault entry. (ENUMCHK and CLAMP take no BREF: EnumchkSubstitutes and
ClampBoundsValue state their faults.) -/
def Obligations.ArgumentFaultsInOrder : Prop :=
  (∀ s : State,
    (geomLegal s.a2 = false →
      exec .bfpk s = .next (s.raiseFault ⟨.badArg, 0xFFFF⟩) ∧ exec .bfup s = .next (s.raiseFault ⟨.badArg, 0xFFFF⟩)) ∧
    (2 ≤ s.a2.toNat →
      exec .s14e s = .next (s.raiseFault ⟨.badArg, 0xFFFF⟩) ∧ exec .s14d s = .next (s.raiseFault ⟨.badArg, 0xFFFF⟩)) ∧
    (∀ f, chkBref s.cfg.params s.a0 s.a2.toNat = .error f → exec .nibx s = .next (s.raiseFault f)) ∧
    (∀ r f, chkBref s.cfg.params s.a0 s.a2.toNat = .ok r →
      chkBref s.cfg.params s.a1 (2 * s.a2.toNat) = .error f → exec .nibx s = .next (s.raiseFault f)) ∧
    (∀ f, chkBref s.cfg.params s.a0 (2 * s.a2.toNat) = .error f → exec .nibc s = .next (s.raiseFault f)) ∧
    (∀ r f, chkBref s.cfg.params s.a0 (2 * s.a2.toNat) = .ok r →
      chkBref s.cfg.params s.a1 s.a2.toNat = .error f → exec .nibc s = .next (s.raiseFault f)) ∧
    (∀ f, geomLegal s.a2 = true → chkBref s.cfg.params s.a1 (if (geomOf s.a2).two then 2 else 1) = .error f →
      exec .bfpk s = .next (s.raiseFault f) ∧ exec .bfup s = .next (s.raiseFault f)) ∧
    (∀ f, s.a2.toNat < 2 → chkBref s.cfg.params s.a1 2 = .error f →
      exec .s14e s = .next (s.raiseFault f) ∧ exec .s14d s = .next (s.raiseFault f)) ∧
    (∀ f, chkBref s.cfg.params s.a1 1 = .error f →
      exec .vele s = .next (s.raiseFault f) ∧ exec .veld s = .next (s.raiseFault f)) ∧
    (∀ f, chkBref s.cfg.params s.a0 s.a1.toNat = .error f →
      exec .ckgen s = .next (s.raiseFault f) ∧ exec .ckchk s = .next (s.raiseFault f)) ∧
    (∀ r f, chkBref s.cfg.params s.a0 s.a1.toNat = .ok r → chkBref s.cfg.params s.a2 1 = .error f →
      exec .ckgen s = .next (s.raiseFault f) ∧ exec .ckchk s = .next (s.raiseFault f))) ∧
  ∀ (s : State) (i : Instr), i = .namee ∨ i = .named →
    ((s.a2.toNat = 0 ∨ 64 ≤ s.a2.toNat ∨ s.cfg.params.textMax < s.a2.toNat) →
      exec i s = .next (s.raiseFault ⟨.badArg, 0xFFFF⟩)) ∧
    (1 ≤ s.a2.toNat → s.a2.toNat ≤ 63 → s.a2.toNat ≤ s.cfg.params.textMax →
      (s.cfg.params.nkeys ≤ s.a0.toNat → exec i s = .next (s.raiseFault ⟨.badArg, 0xFFFF⟩)) ∧
      (s.a0.toNat < s.cfg.params.nkeys →
        (∀ f, chkBref s.cfg.params s.a1 s.a2.toNat = .error f → exec i s = .next (s.raiseFault f)) ∧
        (∀ r, chkBref s.cfg.params s.a1 s.a2.toNat = .ok r →
          (s.curdev = 0xFF → exec i s = .next (s.raiseFault ⟨.noDevice, 0xFFFF⟩)) ∧
          (∀ dev, currentDevice s = .ok dev → s.a0.toNat < 65536 →
            (∀ d, schemaAt dev s.a0.toNat ≠ some (.text d)) →
            exec i s = .next (s.raiseFault ⟨.schema, BitVec.ofNat 16 s.a0.toNat⟩)))))

/-! ### Device commands: selecting a device, recognizing a frame, clamping the model -/

/-- 46_control.md R292: INIT selects the device, gives every key its default or zero, clears PARTS_SEEN and DIAG_COUNT,
and writes nothing else but RESULT and FAIL_CAUSE. With A0 at or beyond NDEV it raises NO_DEVICE. -/
def Obligations.InitLoadsDefaults : Prop :=
  decodeCmd 0x01 = .ok .init ∧ ∀ s : State,
    (s.cfg.devs.length ≤ s.a0.toNat → exec .init s = .next (s.raiseFault ⟨.noDevice, 0xFFFF⟩)) ∧
    ∀ dev : Device, s.cfg.devs[s.a0.toNat]? = some dev →
      ∃ t, exec .init s = .next t ∧
        t = { s with
          curdev := t.curdev, model := t.model, partsSeen := 0, diagCount := 0, result := .success,
          failCause := .none } ∧
        (s.cfg.devs.length ≤ 255 → t.curdev.toNat = s.a0.toNat) ∧
        ∀ k : Nat,
          match (if k < s.cfg.params.nkeys then schemaAt dev k else none) with
          | some (.int _ _ dflt) =>
            (t.entry k).val = dflt ∧ (t.entry k).len = 0 ∧ ∀ i, (t.entry k).code i = 0
          | some (.text dtxt) =>
            (t.entry k).val = 0 ∧
            (dtxt.length ≤ s.cfg.params.textMax →
              (t.entry k).len = dtxt.length ∧ ∀ i, (t.entry k).code i = dtxt.getD i 0)
          | none => (t.entry k).val = 0 ∧ (t.entry k).len = 0 ∧ ∀ i, (t.entry k).code i = 0

/-- 46_control.md R295: with CURDEV = 0xFF the commands that need a device raise NO_DEVICE (NAMEE and NAMED once the
checks before it pass), and what the others do does not depend on CURDEV or on the configured devices. -/
def Obligations.DeviceNeeded : Prop :=
  (∀ (s : State) (i : Instr), s.curdev = 0xFF → i ∈ [Instr.recog, .encode, .decode, .revise] →
    exec i s = .next (s.raiseFault ⟨.noDevice, 0xFFFF⟩)) ∧
  (∀ (s : State) (i : Instr) (r : BufRef), s.curdev = 0xFF → i ∈ [Instr.namee, .named] →
    1 ≤ s.a2.toNat → s.a2.toNat ≤ 63 → s.a2.toNat ≤ s.cfg.params.textMax → s.a0.toNat < s.cfg.params.nkeys →
    chkBref s.cfg.params s.a1 s.a2.toNat = .ok r →
    exec i s = .next (s.raiseFault ⟨.noDevice, 0xFFFF⟩)) ∧
  ∀ (s : State) (i : Instr) (d : BitVec 8) (devs : List Device),
    i ∈ [Instr.nibx, .nibc, .bfpk, .bfup, .s14e, .s14d, .vele, .veld, .enumchk, .clamp, .ckgen, .ckchk] →
    ∃ t, exec i s = .next t ∧
      exec i { s with curdev := d, cfg := { s.cfg with devs := devs } } =
        .next { t with curdev := d, cfg := { s.cfg with devs := devs } }

/-- The length check of R260. -/
def frameHasLength (s : State) (fmt : Format) : Prop := s.inLen.toNat = fmt.total

/-- The header check of R260: the first RL bytes agree, but for the version byte. -/
def frameHasPrefix (s : State) (fmt : Format) : Prop :=
  ∀ i, i < fmt.rl → ¬(fmt.ver = true ∧ i = fmt.voff) → s.byteAt .ibuf i = fmt.hdr.getD i 0

/-- `match(Fmt)` of R260 is OK: the length, the header and the version byte. -/
def frameMatches (s : State) (fmt : Format) : Prop :=
  frameHasLength s fmt ∧ frameHasPrefix s fmt ∧
    (fmt.ver = true → s.byteAt .ibuf fmt.voff = fmt.hdr.getD fmt.voff 0)

/-- `recognize(Dev)` of R260 is `j`: format `j` matches and none before it does. -/
def firstMatch (s : State) (dev : Device) (j : Nat) (fmt : Format) : Prop :=
  dev.fmts[j]? = some fmt ∧ frameMatches s fmt ∧ ∀ g ∈ dev.fmts.take j, ¬frameMatches s g

/-- 45_decoder.md R260, R261: RECOG reports the first format that the frame in IBUF matches, or none, in RVAL and SHAPE,
and writes nothing else but RESULT and FAIL_CAUSE. Without a device it raises NO_DEVICE, and with a format that breaks
FW1 to FW6 it raises BAD_FIELD. -/
def Obligations.RecogReportsMatch : Prop :=
  decodeCmd 0x02 = .ok .recog ∧ ∀ s : State,
    (s.curdev = 0xFF → exec .recog s = .next (s.raiseFault ⟨.noDevice, 0xFFFF⟩)) ∧
    ∀ dev : Device, currentDevice s = .ok dev →
      ((∃ g ∈ dev.fmts, formatLevelOk s.cfg.params g = false) →
        exec .recog s = .next (s.raiseFault ⟨.badField, 0xFFFF⟩)) ∧
      ((∀ g ∈ dev.fmts, formatLevelOk s.cfg.params g = true) →
        (∀ j fmt, firstMatch s dev j fmt →
          exec .recog s = .next { s with
            rval := 1, shape := BitVec.ofNat 32 j, result := .success, failCause := .none }) ∧
        ((∀ g ∈ dev.fmts, ¬frameMatches s g) →
          exec .recog s = .next { s with
            rval := 0, shape := 0xFFFFFFFF, result := .success, failCause := .none }))

/-- What `revise` leaves of an entry (R270, R16): a defined INT key with MIN <= MAX has its value clamped, signed, and
keeps its text; any other entry is unchanged. -/
def entryRevised (P : Params) (dev : Device) (k : Nat) (before after : Entry) : Prop :=
  match (if k < P.nkeys then schemaAt dev k else none) with
  | some (.int lo hi _) =>
    after = { before with val := after.val } ∧
      (lo.toInt ≤ hi.toInt → after.val.toInt = max lo.toInt (min before.val.toInt hi.toInt))
  | some (.text _) => after = before
  | none => after = before

/-- 45_decoder.md R270: REVISE clamps every defined INT key to its range and writes nothing else but RESULT and
FAIL_CAUSE. Without a device it raises NO_DEVICE. -/
def Obligations.ReviseClampsIntKeys : Prop :=
  decodeCmd 0x05 = .ok .revise ∧ ∀ s : State,
    (s.curdev = 0xFF → exec .revise s = .next (s.raiseFault ⟨.noDevice, 0xFFFF⟩)) ∧
    ∀ dev : Device, currentDevice s = .ok dev →
      ∃ t, exec .revise s = .next t ∧ t = { s with model := t.model, result := .success, failCause := .none } ∧
        ∀ k, entryRevised s.cfg.params dev k (s.entry k) (t.entry k)

/-! ### The configuration check -/

/-- FW1 to FW6 of 10_state.md R44. -/
def formatConditions (P : Params) (fmt : Format) : Prop :=
  let pl := if fmt.mode = 1 then 2 * fmt.dlen else fmt.dlen
  fmt.hdr[0]? = some 0xF0 ∧
  (fmt.total = fmt.h + pl + (if fmt.ck then 1 else 0) + 1 ∧ fmt.total ≤ P.bufSize ∧ fmt.dlen ≤ P.dataSize ∧
    fmt.mode ≤ 1) ∧
  (if fmt.ck then fmt.h ≤ fmt.cks ∧ fmt.cks ≤ fmt.cke ∧ fmt.cke ≤ fmt.h + pl else fmt.cks = 0 ∧ fmt.cke = 0) ∧
  (if fmt.ver then fmt.voff < fmt.h else fmt.voff = 0) ∧
  (1 ≤ fmt.parts ∧ fmt.parts ≤ 8 ∧
    (1 < fmt.parts → fmt.recs = 1 ∧ fmt.rl ≤ fmt.poff ∧ fmt.poff < fmt.h ∧
      (fmt.ver = true → fmt.poff ≠ fmt.voff)) ∧
    (fmt.parts = 1 → fmt.poff = 0)) ∧
  (1 ≤ fmt.recs ∧ fmt.base + fmt.recs * fmt.stride ≤ fmt.dlen ∧ (1 < fmt.recs → 1 ≤ fmt.stride))

/-- The word-level conditions of R45 (with R84, R85 and R87), FW7 and FW8, on the numbers in the four words. -/
def fieldConditions (P : Params) (fmt : Format) (w : FieldWords) : Prop :=
  let kind := w.w0.toNat % 16
  let key := w.w0.toNat / 256 % 65536
  let off := w.w1.toNat % 65536
  let key2 := w.w1.toNat / 65536
  let param := w.w2.toNat
  let enumw := w.w3.toNat
  let span := if kind = 1 ∨ kind = 3 then 2 else if kind = 2 ∧ param / 128 % 2 = 1 then 2
    else if kind = 5 then param else 1
  w.w0.toNat < 2 ^ 24 ∧ kind ≤ 5 ∧ key < P.nkeys ∧ (if kind = 4 then key2 < P.nkeys else key2 = 0) ∧
  (if kind = 2 then geomConditions param else if kind = 3 then param ≤ 1
    else if kind = 5 then 1 ≤ param ∧ param ≤ 63 ∧ param ≤ P.textMax else param = 0) ∧
  (if kind ≤ 3 then enumw = 0 ∨ enumw / 65536 < enumw % 65536 else enumw = 0) ∧
  (if w.w0.toNat / 16 % 2 = 1 then off + span ≤ fmt.dlen
    else fmt.base + (fmt.recs - 1) * fmt.stride + off + span ≤ fmt.dlen ∧ (1 < fmt.recs → off + span ≤ fmt.stride)) ∧
  w.w0.toNat / 32 % 8 < fmt.parts

/-- The first key of the words that FW9 finds not defined, or not of the kind needed: KEY before KEY2. -/
def schemaFault (dev : Device) (w : FieldWords) : Option Nat :=
  let kind := w.w0.toNat % 16
  let key := w.w0.toNat / 256 % 65536
  let key2 := w.w1.toNat / 65536
  let isInt := fun k => match schemaAt dev k with | some (.int _ _ _) => true | _ => false
  let isText := fun k => match schemaAt dev k with | some (.text _) => true | _ => false
  if kind = 5 then (if isText key then none else some key)
  else if !isInt key then some key
  else if kind = 4 ∧ isInt key2 = false then some key2
  else none

/-- The words are a BITS FieldSpec of part `p` with a segment in DIMG byte `b` in some record: segment A stands in byte
`base(f, r)`, and segment B, where TWO = 1, in the byte after it (R84, R187, FW10). -/
def bitsTargetsByte (fmt : Format) (p b : Nat) (w : FieldWords) : Bool :=
  let place := fun r => (if w.w0.toNat / 16 % 2 = 1 then 0 else fmt.base + r * fmt.stride) + w.w1.toNat % 65536
  decide (w.w0.toNat % 16 = 2) && decide (w.w0.toNat / 32 % 8 = p) &&
    (List.range fmt.recs).any fun r =>
      decide (b = place r) || (decide (w.w2.toNat / 128 % 2 = 1) && decide (b = place r + 1))

/-- FW10: no DIMG byte is a segment target of more than 8 BITS FieldSpecs of one part. -/
def targetsBounded (fmt : Format) : Prop := ∀ p b, fmt.fields.countP (bitsTargetsByte fmt p b) ≤ 8

/-- The parameter constraints of R7. -/
def paramConditions (P : Params) : Prop :=
  (1 ≤ P.bufSize ∧ P.bufSize ≤ 65536) ∧ (1 ≤ P.dataSize ∧ P.dataSize ≤ 65536) ∧ (1 ≤ P.nkeys ∧ P.nkeys ≤ 65535) ∧
    (20 ≤ P.textMax ∧ P.textMax ≤ 255) ∧ 1 ≤ P.diagMax ∧ P.diagMax ≤ 64

/-- A schema of R41 and R42: keys below NKEYS, each once, MIN <= DFLT <= MAX, and at most TEXT_MAX codes. -/
def schemaConditions (P : Params) (sc : List (Nat × SchemaEntry)) : Prop :=
  sc.Pairwise (fun x y => x.1 < y.1) ∧ ∀ c ∈ sc, c.1 < P.nkeys ∧
    match c.2 with
    | .int lo hi d => lo.toInt ≤ d.toInt ∧ d.toInt ≤ hi.toInt
    | .text d => d.length ≤ P.textMax

/-- R46: no buffer matches both formats. -/
def toldApart (f g : Format) : Prop := ∀ s : State, ¬(frameMatches s f ∧ frameMatches s g)

/-- The three ways that R46 lists in which no buffer matches two formats. -/
def listedWays (f g : Format) : Prop :=
  f.total ≠ g.total ∨
    (∃ i, i < f.rl ∧ i < g.rl ∧ ¬(f.ver = true ∧ i = f.voff) ∧ ¬(g.ver = true ∧ i = g.voff) ∧
      f.hdr.getD i 0 ≠ g.hdr.getD i 0) ∨
    (f.ver = true ∧ g.ver = true ∧ f.voff = g.voff ∧ f.hdr.getD f.voff 0 ≠ g.hdr.getD g.voff 0)

/-- A well-formed configuration (R44 to R46), with the ranges of R7 and R41 to R43. -/
def configConditions (c : Config) : Prop :=
  paramConditions c.params ∧ (1 ≤ c.devs.length ∧ c.devs.length ≤ 255) ∧ ∀ dev ∈ c.devs,
    schemaConditions c.params dev.schema ∧
    (∀ fmt ∈ dev.fmts,
      (1 ≤ fmt.h ∧ fmt.h ≤ 32 ∧ 1 ≤ fmt.rl ∧ fmt.rl ≤ fmt.h ∧ fmt.nf ≤ 65535) ∧ formatConditions c.params fmt ∧
        (∀ w ∈ fmt.fields, fieldConditions c.params fmt w ∧ schemaFault dev w = none) ∧ targetsBounded fmt) ∧
    (dev.fmts.length = 1 ∨ ∃ f g, dev.fmts = [f, g] ∧ toldApart f g)

/-- 44_encoder.md R221: the first violation that the configuration check finds: FW1 to FW6; then each FieldSpec in table
order, its words before its keys; then FW10. 10_state.md R47, 70_reset_and_hazards.md R342: a model is built, in its reset
state, with a configuration that meets R44 to R46, and any other is refused when it is built. That the ranges of R7 and R41
to R43 count as conditions there is the model's reading (log 6), and so is that R46 asks for its condition itself, which
the three ways listed there imply (log 17). -/
def Obligations.ConfigurationCheckOrder : Prop :=
  (∀ c : Config,
    (configConditions c → construct c = .next (State.resetWith c)) ∧
    (¬configConditions c → construct c = .refused .illFormedConfig)) ∧
  (∀ f g : Format, listedWays f g → toldApart f g) ∧
  ∀ (P : Params) (dev : Device) (fmt : Format),
    (¬formatConditions P fmt → checkFormat P dev fmt = some ⟨.badField, 0xFFFF⟩) ∧
    (formatConditions P fmt →
      (∀ pre w post, fmt.fields = pre ++ w :: post →
        (∀ x ∈ pre, fieldConditions P fmt x ∧ schemaFault dev x = none) →
        (¬fieldConditions P fmt w →
          checkFormat P dev fmt = some ⟨.badField, BitVec.ofNat 16 (w.w0.toNat / 256)⟩) ∧
        (∀ k, fieldConditions P fmt w → schemaFault dev w = some k →
          checkFormat P dev fmt = some ⟨.schema, BitVec.ofNat 16 k⟩)) ∧
      ((∀ x ∈ fmt.fields, fieldConditions P fmt x ∧ schemaFault dev x = none) →
        (targetsBounded fmt → checkFormat P dev fmt = none) ∧
        (¬targetsBounded fmt → checkFormat P dev fmt = some ⟨.badField, 0xFFFF⟩)))

/-! ### FieldSpecs -/

/-- `base(f, sel)` of R187, given B + sel * S. -/
def placeOf (recBase : Nat) (f : FieldPlace) : Nat := (if f.scope then 0 else recBase) + f.off.toNat

/-- The byte that a padded name holds at index `i` (R168). -/
def paddedByte (e : Entry) (i : Nat) : Nat :=
  if i < e.len ∧ 0x20 ≤ (e.code i).toInt ∧ (e.code i).toInt ≤ 0x7E then (e.code i).toNat % 256 else 0x20

/-- A text `e` is read from `n` bytes at DIMG byte `q` (R168): up to the last byte above 0x20, and 0 beyond. -/
def trimmedText (t : State) (q n : Nat) (e : Entry) : Prop :=
  e.len ≤ n ∧ (0 < e.len → 0x20 < (t.byteAt .dimg (q + (e.len - 1))).toNat) ∧
    (∀ i, e.len ≤ i → i < n → (t.byteAt .dimg (q + i)).toNat ≤ 0x20) ∧
    ∀ i, (e.code i).toNat = if i < e.len then (t.byteAt .dimg (q + i)).toNat else 0

/-- The FieldSpec answers a next state in which only DIMG bytes `q .. q + n - 1` may differ. -/
def encodesBytes (s : State) (i : Instr) (q n : Nat) (bytes : State → Prop) : Prop :=
  ∃ t, exec i s = .next t ∧ t = { s with dimg := t.dimg } ∧ bytes t ∧ bytesKeptOutside s t .dimg q n

/-- R175, R177, R179, R181, R183, R185: the encode rules, run in an encode walk (log 4). Each writes only its own DIMG
bytes. -/
def Obligations.FieldSpecsEncode : Prop :=
  ∀ (s : State) (w : Walk) (f : FieldPlace), s.walk = some w → w.dir = .encode →
    f.key.toNat < s.cfg.params.nkeys →
    (∀ e, placeOf w.recBase f + 1 ≤ s.cfg.params.dataSize →
      encodesBytes s (.fspecRaw8 f e) (placeOf w.recBase f) 1 fun t =>
        (t.byteAt .dimg (placeOf w.recBase f)).toNat = (s.val f.key).toNat % 256) ∧
    (∀ e, placeOf w.recBase f + 2 ≤ s.cfg.params.dataSize →
      encodesBytes s (.fspecNib8 f e) (placeOf w.recBase f) 2 fun t =>
        (t.byteAt .dimg (placeOf w.recBase f)).toNat = (s.val f.key).toNat / 16 % 16 ∧
        (t.byteAt .dimg (placeOf w.recBase f + 1)).toNat = (s.val f.key).toNat % 16) ∧
    (∀ g e, geomLegal g = true →
      placeOf w.recBase f + (if (geomOf g).two then 2 else 1) ≤ s.cfg.params.dataSize →
      encodesBytes s (.fspecBits f g e) (placeOf w.recBase f) (if (geomOf g).two then 2 else 1) fun t =>
        (t.byteAt .dimg (placeOf w.recBase f)).toNat = (s.byteAt .dimg (placeOf w.recBase f)).toNat |||
          (segmentNumbers (geomOf g) (s.val f.key).toNat).1 * 2 ^ (geomOf g).sa ∧
        ((geomOf g).two = true → (t.byteAt .dimg (placeOf w.recBase f + 1)).toNat =
          (s.byteAt .dimg (placeOf w.recBase f + 1)).toNat |||
            (segmentNumbers (geomOf g) (s.val f.key).toNat).2 * 2 ^ (geomOf g).sb)) ∧
    (∀ x e, placeOf w.recBase f + 2 ≤ s.cfg.params.dataSize →
      encodesBytes s (.fspecS14 f x e) (placeOf w.recBase f) 2 fun t =>
        (t.byteAt .dimg (placeOf w.recBase f + x.toNat % 2)).toNat = (s.val f.key).toNat / 128 % 128 ∧
        (t.byteAt .dimg (placeOf w.recBase f + (1 - x.toNat % 2))).toNat = (s.val f.key).toNat % 128) ∧
    (∀ k2 : Key, k2.toNat < s.cfg.params.nkeys → placeOf w.recBase f + 1 ≤ s.cfg.params.dataSize →
      encodesBytes s (.fspecVel f k2) (placeOf w.recBase f) 1 fun t =>
        (t.byteAt .dimg (placeOf w.recBase f)).toNat =
          128 * ((s.val k2).toNat % 2) + (s.val f.key).toNat % 128) ∧
    (∀ x : Word, placeOf w.recBase f + x.toNat % 64 ≤ s.cfg.params.dataSize →
      encodesBytes s (.fspecName f x) (placeOf w.recBase f) (x.toNat % 64) fun t =>
        ∀ i, i < x.toNat % 64 →
          (t.byteAt .dimg (placeOf w.recBase f + i)).toNat = paddedByte (s.entry f.key.toNat) i)

/-- The FieldSpec answers a next state in which the value of its key is the code, after the enumeration check with its
diagnostic, and nothing else differs. -/
def decodesCode (s : State) (i : Instr) (key : Key) (code : Nat) (enumw : Word) : Prop :=
  ∃ t, exec i s = .next t ∧ t = { s with model := t.model, diagCount := t.diagCount, diagLog := t.diagLog } ∧
    valueStored s t key.toNat (enumResult (BitVec.ofNat 32 code) enumw) ∧ entriesKeptBut s t key.toNat ∧
    diagRecorded s t (BitVec.ofNat 32 code) enumw key

/-- R176, R178, R180, R182, R184, R186: the decode rules, run in a decode walk (log 4). Each writes only its own model
entries, and DIAG on a substitution. -/
def Obligations.FieldSpecsDecode : Prop :=
  ∀ (s : State) (w : Walk) (f : FieldPlace), s.walk = some w → w.dir = .decode →
    f.key.toNat < s.cfg.params.nkeys →
    (∀ e, placeOf w.recBase f + 1 ≤ s.cfg.params.dataSize →
      decodesCode s (.fspecRaw8 f e) f.key (s.byteAt .dimg (placeOf w.recBase f)).toNat e) ∧
    (∀ e, placeOf w.recBase f + 2 ≤ s.cfg.params.dataSize →
      decodesCode s (.fspecNib8 f e) f.key
        (16 * ((s.byteAt .dimg (placeOf w.recBase f)).toNat % 16) +
          (s.byteAt .dimg (placeOf w.recBase f + 1)).toNat % 16) e) ∧
    (∀ g e, geomLegal g = true →
      placeOf w.recBase f + (if (geomOf g).two then 2 else 1) ≤ s.cfg.params.dataSize →
      decodesCode s (.fspecBits f g e) f.key
        (segmentCode (geomOf g) (s.byteAt .dimg (placeOf w.recBase f)).toNat
          (s.byteAt .dimg (placeOf w.recBase f + 1)).toNat) e) ∧
    (∀ x e, placeOf w.recBase f + 2 ≤ s.cfg.params.dataSize →
      decodesCode s (.fspecS14 f x e) f.key
        (128 * ((s.byteAt .dimg (placeOf w.recBase f + x.toNat % 2)).toNat % 128) +
          (s.byteAt .dimg (placeOf w.recBase f + (1 - x.toNat % 2))).toNat % 128) e) ∧
    (∀ k2 : Key, k2.toNat < s.cfg.params.nkeys → placeOf w.recBase f + 1 ≤ s.cfg.params.dataSize →
      ∃ t, exec (.fspecVel f k2) s = .next t ∧ t = { s with model := t.model } ∧
        (t.val k2).toNat = (s.byteAt .dimg (placeOf w.recBase f)).toNat / 128 ∧
        (k2 ≠ f.key → (t.val f.key).toNat = (s.byteAt .dimg (placeOf w.recBase f)).toNat % 128) ∧
        (∀ k, (t.entry k).len = (s.entry k).len ∧ ∀ i, (t.entry k).code i = (s.entry k).code i) ∧
        ∀ k, k ≠ f.key.toNat → k ≠ k2.toNat → t.entry k = s.entry k) ∧
    (∀ x : Word, placeOf w.recBase f + x.toNat % 64 ≤ s.cfg.params.dataSize → x.toNat % 64 ≤ s.cfg.params.textMax →
      ∃ t, exec (.fspecName f x) s = .next t ∧ t = { s with model := t.model } ∧
        trimmedText s (placeOf w.recBase f) (x.toNat % 64) (t.entry f.key.toNat) ∧
        (t.val f.key) = s.val f.key ∧ entriesKeptBut s t f.key.toNat)

/-- The model's own (log 4): a FieldSpec outside ENCODE and DECODE is refused, and one in a walk that names a key or
DIMG bytes that do not exist stops with a fault. -/
def Obligations.FieldSpecStops : Prop :=
  ∀ (s : State) (i : Instr) (f : FieldPlace), i.place? = some f →
    (s.walk = none → exec i s = .refused .fieldOutsideWalk) ∧
    ∀ w : Walk, s.walk = some w →
      (s.cfg.params.nkeys ≤ f.key.toNat → exec i s = .fault (.modelRange f.key.toNat)) ∧
      (∀ k2 : Key, i = .fspecVel f k2 → f.key.toNat < s.cfg.params.nkeys → s.cfg.params.nkeys ≤ k2.toNat →
        exec i s = .fault (.modelRange k2.toNat)) ∧
      (f.key.toNat < s.cfg.params.nkeys → (∀ k2 : Key, i = .fspecVel f k2 → k2.toNat < s.cfg.params.nkeys) →
        s.cfg.params.dataSize < placeOf w.recBase f + fieldSpan i →
        exec i s = .fault (.dimgRange (placeOf w.recBase f)))

/-- The FieldSpec `i` at DIMG byte `q` touches bit `b` of DIMG byte `a`: the segments of a BITS field, and every bit of
the bytes of any other kind (R226). -/
def touchesBit (i : Instr) (q a b : Nat) : Prop :=
  match i with
  | .fspecBits _ g _ =>
    (a = q ∧ (geomOf g).sa ≤ b ∧ b < (geomOf g).sa + (geomOf g).wa) ∨
      ((geomOf g).two = true ∧ a = q + 1 ∧ (geomOf g).sb ≤ b ∧ b < (geomOf g).sb + (geomOf g).wb)
  | _ => q ≤ a ∧ a < q + fieldSpan i ∧ b < 8

/-- The words are a FieldSpec of part `p` that touches bit `b` of DIMG byte `a`. -/
def wordsTouch (p recBase : Nat) (w : FieldWords) (a b : Nat) : Prop :=
  ∃ i f, decodeField w = .ok i ∧ i.place? = some f ∧ f.part.toNat = p ∧ touchesBit i (placeOf recBase f) a b

/-- The FieldSpec writes key `k` on decode. -/
def writesKey (i : Instr) (k : Nat) : Prop :=
  (∃ f, i.place? = some f ∧ f.key.toNat = k) ∨ ∃ f k2, i = .fspecVel f k2 ∧ k2.toNat = k

/-- The words are a FieldSpec of part `p` that writes key `k` on decode. -/
def wordsWrite (p : Nat) (w : FieldWords) (k : Nat) : Prop :=
  ∃ i f, decodeField w = .ok i ∧ i.place? = some f ∧ f.part.toNat = p ∧ writesKey i k

/-! ### ENCODE -/

/-- The part index that ENCODE builds (R220, R230). -/
def partToEncode (s : State) (fmt : Format) : Nat := if 1 < fmt.parts then s.a1.toNat else 0

/-- Every check of ENCODE passes (R220). -/
def encodeReady (s : State) (dev : Device) (fmt : Format) : Prop :=
  currentDevice s = .ok dev ∧ dev.fmts[s.a0.toNat]? = some fmt ∧ checkFormat s.cfg.params dev fmt = none ∧
    fmt.recs = 1 ∧ partToEncode s fmt < fmt.parts

/-- 44_encoder.md R220, R223, R224, R225, R230, R205: ENCODE writes the header with the part byte, the payload in its
mode, the checksum and the terminator, sets OUT_LEN to L, and writes nothing else but DIMG[0..D-1], RESULT and
FAIL_CAUSE. -/
def Obligations.EncodeBuildsFrame : Prop :=
  ∀ (s : State) (dev : Device) (fmt : Format), encodeReady s dev fmt →
    ∃ t, exec .encode s = .next t ∧
      t = { s with obuf := t.obuf, dimg := t.dimg, outLen := t.outLen, result := .success, failCause := .none } ∧
      t.outLen = BitVec.ofNat 32 fmt.total ∧
      (∀ i, i < fmt.h → t.byteAt .obuf i =
        if 1 < fmt.parts ∧ i = fmt.poff then BitVec.ofNat 8 (partToEncode s fmt) else fmt.hdr.getD i 0) ∧
      (fmt.mode = 0 → ∀ i, i < fmt.dlen → t.byteAt .obuf (fmt.h + i) = t.byteAt .dimg i) ∧
      (fmt.mode = 1 → ∀ i, i < fmt.dlen →
        (t.byteAt .obuf (fmt.h + 2 * i)).toNat = (t.byteAt .dimg i).toNat / 16 ∧
        (t.byteAt .obuf (fmt.h + 2 * i + 1)).toNat = (t.byteAt .dimg i).toNat % 16) ∧
      (fmt.ck = true →
        (t.byteAt .obuf (fmt.total - 2)).toNat = rangeSum t .obuf fmt.cks (fmt.cke - fmt.cks) % 128) ∧
      t.byteAt .obuf (fmt.total - 1) = 0xF7 ∧
      (∀ a, fmt.total ≤ a → t.byteAt .obuf a = s.byteAt .obuf a) ∧
      ∀ a, fmt.dlen ≤ a → t.byteAt .dimg a = s.byteAt .dimg a

/-- R175 to R185, R222, R230: the data image of ENCODE. A bit that no FieldSpec of the part touches is 0. A FieldSpec of
the part whose bits no later one touches leaves the transform of its value there, and a BITS field needs also that no
earlier one touches its bits, because packing ORs (R146). -/
def Obligations.EncodePlacesFields : Prop :=
  ∀ (s t : State) (dev : Device) (fmt : Format), encodeReady s dev fmt → exec .encode s = .next t →
    (∀ a b, a < fmt.dlen → (∀ w ∈ fmt.fields, ¬wordsTouch (partToEncode s fmt) fmt.base w a b) →
      (t.byteAt .dimg a).getLsbD b = false) ∧
    ∀ pre w post i f, fmt.fields = pre ++ w :: post → decodeField w = .ok i → i.place? = some f →
      f.part.toNat = partToEncode s fmt →
      (∀ x ∈ post, ∀ a b, touchesBit i (placeOf fmt.base f) a b →
        ¬wordsTouch (partToEncode s fmt) fmt.base x a b) →
      match i with
      | .fspecRaw8 f _ => (t.byteAt .dimg (placeOf fmt.base f)).toNat = (s.val f.key).toNat % 256
      | .fspecNib8 f _ =>
        (t.byteAt .dimg (placeOf fmt.base f)).toNat = (s.val f.key).toNat / 16 % 16 ∧
        (t.byteAt .dimg (placeOf fmt.base f + 1)).toNat = (s.val f.key).toNat % 16
      | .fspecBits f g _ =>
        (∀ x ∈ pre, ∀ a b, touchesBit i (placeOf fmt.base f) a b →
          ¬wordsTouch (partToEncode s fmt) fmt.base x a b) →
        segmentCode (geomOf g) (t.byteAt .dimg (placeOf fmt.base f)).toNat
          (t.byteAt .dimg (placeOf fmt.base f + 1)).toNat = (s.val f.key).toNat % 2 ^ (geomOf g).width
      | .fspecS14 f x _ =>
        (t.byteAt .dimg (placeOf fmt.base f + x.toNat % 2)).toNat = (s.val f.key).toNat / 128 % 128 ∧
        (t.byteAt .dimg (placeOf fmt.base f + (1 - x.toNat % 2))).toNat = (s.val f.key).toNat % 128
      | .fspecVel f k2 =>
        (t.byteAt .dimg (placeOf fmt.base f)).toNat = 128 * ((s.val k2).toNat % 2) + (s.val f.key).toNat % 128
      | .fspecName f x => ∀ n, n < x.toNat % 64 →
        (t.byteAt .dimg (placeOf fmt.base f + n)).toNat = paddedByte (s.entry f.key.toNat) n
      | _ => False

/-- 44_encoder.md R229, R220, R221, 60_exceptions.md R301: the faults of ENCODE in check order: no device, the format
index, the configuration check, a bank format, the part index. -/
def Obligations.EncodeFaultsInOrder : Prop :=
  ∀ s : State,
    (s.curdev = 0xFF → exec .encode s = .next (s.raiseFault ⟨.noDevice, 0xFFFF⟩)) ∧
    ∀ dev : Device, currentDevice s = .ok dev →
      (dev.fmts.length ≤ s.a0.toNat → exec .encode s = .next (s.raiseFault ⟨.badArg, 0xFFFF⟩)) ∧
      ∀ fmt : Format, dev.fmts[s.a0.toNat]? = some fmt →
        (∀ f, checkFormat s.cfg.params dev fmt = some f → exec .encode s = .next (s.raiseFault f)) ∧
        (checkFormat s.cfg.params dev fmt = none →
          (1 < fmt.recs → exec .encode s = .next (s.raiseFault ⟨.unsupported, 0xFFFF⟩)) ∧
          (fmt.recs ≤ 1 → 1 < fmt.parts → fmt.parts ≤ s.a1.toNat →
            exec .encode s = .next (s.raiseFault ⟨.badArg, 0xFFFF⟩)))

/-- 44_encoder.md R228: encoding never reads IBUF, and never writes IBUF, the model store, CURDEV, PARTS_SEEN, DIAG, RVAL,
RVAL2 or SHAPE. Unless it faults, it writes only OBUF, DIMG, OUT_LEN and the result registers. -/
def Obligations.EncodeIgnoresInputBuffer : Prop :=
  ∀ (s : State) (m : Memory),
    ∃ t, exec .encode s = .next t ∧ exec .encode { s with ibuf := m } = .next { t with ibuf := m } ∧
      ((∃ f, t = s.raiseFault f) ∨
        t = { s with obuf := t.obuf, dimg := t.dimg, outLen := t.outLen, result := .success, failCause := .none })

/-! ### DECODE -/

/-- The current device is `dev`, and its formats pass the configuration check (R262). -/
def decodeReady (s : State) (dev : Device) : Prop :=
  currentDevice s = .ok dev ∧ ∀ g ∈ dev.fmts, checkFormat s.cfg.params dev g = none

/-- The checksum check of DECODE passes (R263 check 4). -/
def checksumAccepts (s : State) (fmt : Format) : Prop :=
  fmt.ck = true →
    (s.byteAt .ibuf (fmt.total - 2)).toNat = 0x7F ∨
      (s.byteAt .ibuf (fmt.total - 2)).toNat = rangeSum s .ibuf fmt.cks (fmt.cke - fmt.cks) % 128

/-- The part index of the frame in IBUF (R262). -/
def partInFrame (s : State) (fmt : Format) : Nat := if 1 < fmt.parts then (s.byteAt .ibuf fmt.poff).toNat else 0

/-- Every check of DECODE passes, with format `j` of the device, part `p` and record `sel` (R262, R263). -/
def decodeAccepts (s : State) (dev : Device) (j : Nat) (fmt : Format) (p sel : Nat) : Prop :=
  decodeReady s dev ∧ firstMatch s dev j fmt ∧ checksumAccepts s fmt ∧ p = partInFrame s fmt ∧ p < fmt.parts ∧
    (fmt.recs = 1 → sel = 0) ∧ (fmt.recs ≠ 1 → s.a0 ≠ 0xFFFFFFFF ∧ sel = s.a0.toNat ∧ sel < fmt.recs)

/-- 45_decoder.md R263, R260, R267, R221: how DECODE ends when a check fails, in check order: the configuration check of
each format, the length, the header, the version, the checksum, the part, the selection. Nothing else is written. -/
def Obligations.DecodeChecksInOrder : Prop :=
  ∀ (s : State) (dev : Device), currentDevice s = .ok dev →
    (∀ pre g post f, dev.fmts = pre ++ g :: post → (∀ x ∈ pre, checkFormat s.cfg.params dev x = none) →
      checkFormat s.cfg.params dev g = some f → exec .decode s = .next (s.raiseFault f)) ∧
    ((∀ g ∈ dev.fmts, checkFormat s.cfg.params dev g = none) →
      ((∀ g ∈ dev.fmts, ¬frameHasLength s g) →
        exec .decode s = .next { s with shape := 0xFFFFFFFF, result := .failed, failCause := .length }) ∧
      (∀ pre g post, dev.fmts = pre ++ g :: post → (∀ x ∈ pre, ¬frameHasLength s x) → frameHasLength s g →
        (∀ x ∈ dev.fmts, ¬frameMatches s x) →
        (¬frameHasPrefix s g →
          exec .decode s = .next { s with shape := 0xFFFFFFFF, result := .failed, failCause := .header }) ∧
        (frameHasPrefix s g →
          exec .decode s = .next { s with shape := 0xFFFFFFFF, result := .failed, failCause := .version })) ∧
      ∀ j fmt, firstMatch s dev j fmt →
        (¬checksumAccepts s fmt →
          exec .decode s = .next { s with
            shape := BitVec.ofNat 32 j, result := .failed, failCause := .checksum }) ∧
        (checksumAccepts s fmt →
          (fmt.parts ≤ partInFrame s fmt →
            exec .decode s = .next { s with
              shape := BitVec.ofNat 32 j, result := .failed, failCause := .part }) ∧
          (partInFrame s fmt < fmt.parts → fmt.recs ≠ 1 →
            (s.a0 = 0xFFFFFFFF →
              exec .decode s = .next { s with
                shape := BitVec.ofNat 32 j, result := .cancelled, failCause := .none }) ∧
            (s.a0 ≠ 0xFFFFFFFF → fmt.recs ≤ s.a0.toNat →
              exec .decode s = .next (s.raiseFault ⟨.badArg, 0xFFFF⟩)))))

/-- Every part of the format has been decoded once part `p` is (R268): PARTS_SEEN with bit `p` equals mask(M). -/
def patchComplete (s : State) (fmt : Format) (p : Nat) : Prop :=
  ∀ q, q < 8 → ((s.partsSeen.getLsbD q = true ∨ q = p) ↔ q < fmt.parts)

/-- R262, R264, R268, R269, R124: once every check passes, DECODE stages the payload into DIMG[0..D-1], records the part
and ends SUCCESS or INCOMPLETE. Besides the model and DIAG it writes nothing else. -/
def Obligations.DecodeLoadsFrame : Prop :=
  ∀ (s : State) (dev : Device) (j : Nat) (fmt : Format) (p sel : Nat), decodeAccepts s dev j fmt p sel →
    ∃ t, exec .decode s = .next t ∧
      t = { s with
        dimg := t.dimg, model := t.model, diagCount := t.diagCount, diagLog := t.diagLog, partsSeen := t.partsSeen
        shape := BitVec.ofNat 32 j, result := t.result, failCause := .none } ∧
      (fmt.mode = 0 → ∀ a, a < fmt.dlen → t.byteAt .dimg a = s.byteAt .ibuf (fmt.h + a)) ∧
      (fmt.mode = 1 → ∀ a, a < fmt.dlen → (t.byteAt .dimg a).toNat =
        16 * ((s.byteAt .ibuf (fmt.h + 2 * a)).toNat % 16) + (s.byteAt .ibuf (fmt.h + 2 * a + 1)).toNat % 16) ∧
      (∀ a, fmt.dlen ≤ a → t.byteAt .dimg a = s.byteAt .dimg a) ∧
      (fmt.parts ≤ 1 → t.result = .success ∧ t.partsSeen = s.partsSeen) ∧
      (1 < fmt.parts → patchComplete s fmt p → t.result = .success ∧ t.partsSeen = 0) ∧
      (1 < fmt.parts → ¬patchComplete s fmt p → t.result = .incomplete ∧
        ∀ q, q < 8 → (t.partsSeen.getLsbD q = true ↔ s.partsSeen.getLsbD q = true ∨ q = p))

/-- The key, the raw code and the ENUMW of a FieldSpec that decodes to a code, from the data image (R176, R178, R180,
R182). -/
def rawCode (t : State) (recBase : Nat) (i : Instr) : Option (Key × Nat × Word) :=
  let b := fun (f : FieldPlace) n => (t.byteAt .dimg (placeOf recBase f + n)).toNat
  match i with
  | .fspecRaw8 f e => some (f.key, b f 0, e)
  | .fspecNib8 f e => some (f.key, 16 * (b f 0 % 16) + b f 1 % 16, e)
  | .fspecBits f g e => some (f.key, segmentCode (geomOf g) (b f 0) (b f 1), e)
  | .fspecS14 f x e => some (f.key, 128 * (b f (x.toNat % 2) % 128) + b f (1 - x.toNat % 2) % 128, e)
  | _ => none

/-- `v` is the number `n` clamped to the range of INT key `k` (R16, R270). -/
def clampedTo (dev : Device) (k : Key) (n : Int) (v : Word) : Prop :=
  ∀ lo hi d, schemaAt dev k.toNat = some (.int lo hi d) → lo.toInt ≤ hi.toInt →
    v.toInt = max lo.toInt (min n hi.toInt)

/-- R265, R266, R270, R172, R274, R176 to R186: what DECODE leaves of the model, read off the data image. A key gets its
code after the enumeration check and the clamp, a flag and a value are split and clamped, and a name is trimmed; a later
FieldSpec of the part that writes the same key wins. A key that no FieldSpec of the part writes is only clamped. Whether
one writes it or not, an INT key keeps its text, a TEXT key its value, and an undefined key both. -/
def Obligations.DecodeLoadsValues : Prop :=
  ∀ (s t : State) (dev : Device) (j : Nat) (fmt : Format) (p sel : Nat), decodeAccepts s dev j fmt p sel →
    exec .decode s = .next t →
    (∀ k, (∀ w ∈ fmt.fields, ¬wordsWrite p w k) → entryRevised s.cfg.params dev k (s.entry k) (t.entry k)) ∧
    (∀ k, match schemaAt dev k with
      | some (.int _ _ _) => (t.entry k).len = (s.entry k).len ∧ ∀ n, (t.entry k).code n = (s.entry k).code n
      | some (.text _) => (t.entry k).val = (s.entry k).val
      | none => t.entry k = s.entry k) ∧
    ∀ pre w post i f, fmt.fields = pre ++ w :: post → decodeField w = .ok i → i.place? = some f →
      f.part.toNat = p →
      (∀ k c e, rawCode t (fmt.base + sel * fmt.stride) i = some (k, c, e) →
        (∀ x ∈ post, ¬wordsWrite p x k.toNat) →
        clampedTo dev k (enumResult (BitVec.ofNat 32 c) e).toInt (t.val k)) ∧
      (∀ k2, i = .fspecVel f k2 → (∀ x ∈ post, ¬wordsWrite p x k2.toNat) →
        clampedTo dev k2 ((t.byteAt .dimg (placeOf (fmt.base + sel * fmt.stride) f)).toNat / 128 : Nat)
          (t.val k2)) ∧
      (∀ k2, i = .fspecVel f k2 → k2 ≠ f.key → (∀ x ∈ post, ¬wordsWrite p x f.key.toNat) →
        clampedTo dev f.key ((t.byteAt .dimg (placeOf (fmt.base + sel * fmt.stride) f)).toNat % 128 : Nat)
          (t.val f.key)) ∧
      (∀ x, i = .fspecName f x → (∀ y ∈ post, ¬wordsWrite p y f.key.toNat) →
        trimmedText t (placeOf (fmt.base + sel * fmt.stride) f) (x.toNat % 64) (t.entry f.key.toNat))

/-- The DIAG_LOG words of a decode, in table order (R172, R264): one for each FieldSpec of the part whose code its
enumeration does not have. -/
def substitutions (t : State) (p recBase : Nat) (ws : List FieldWords) : List Word :=
  ws.filterMap fun w =>
    match decodeField w with
    | .error _ => none
    | .ok i =>
      match i.place?, rawCode t recBase i with
      | some f, some (k, c, e) =>
        if f.part.toNat = p ∧ e.toNat % 65536 ≠ 0 ∧ e.toNat % 65536 ≤ c then
          some (BitVec.ofNat 32 (c % 65536 * 65536 + k.toNat))
        else none
      | _, _ => none

/-- 45_decoder.md R264, 10_state.md R33: after a DECODE that decodes, DIAG_COUNT counts its own substitutions, saturating,
and DIAG_LOG lists them in the order they happened, up to DIAG_MAX; every other entry is as it was. -/
def Obligations.DecodeLogsSubstitutions : Prop :=
  ∀ (s t : State) (dev : Device) (j : Nat) (fmt : Format) (p sel : Nat), decodeAccepts s dev j fmt p sel →
    s.diagLog.length = s.cfg.params.diagMax → exec .decode s = .next t →
    let subs := substitutions t p (fmt.base + sel * fmt.stride) fmt.fields
    t.diagCount.toNat = min subs.length 0xFFFFFFFF ∧
    ∀ n, n < s.cfg.params.diagMax → n < 0xFFFFFFFF →
      t.diagLog.getD n 0 = if n < subs.length then subs.getD n 0 else s.diagLog.getD n 0

/-- 45_decoder.md R272: after a DECODE that ends SUCCESS or INCOMPLETE every defined INT key lies in its range; and with a
device, a configuration that passes the check and a selection in range, no frame content raises a fault. -/
def Obligations.DecodeLeavesKeysInRange : Prop :=
  (∀ (s t : State) (dev : Device) (k : Nat) (lo hi d : Word), currentDevice s = .ok dev →
    exec .decode s = .next t → t.result = .success ∨ t.result = .incomplete →
    k < s.cfg.params.nkeys → schemaAt dev k = some (.int lo hi d) → lo.toInt ≤ hi.toInt →
    lo.toInt ≤ (t.entry k).val.toInt ∧ (t.entry k).val.toInt ≤ hi.toInt) ∧
  ∀ (s : State) (dev : Device), decodeReady s dev →
    (∀ g ∈ dev.fmts, g.recs = 1 ∨ s.a0 = 0xFFFFFFFF ∨ s.a0.toNat < g.recs) →
    ∃ t, exec .decode s = .next t ∧ t.faulted = s.faulted ∧
      (t.result = .success ∨ t.result = .incomplete ∨ t.result = .failed ∨ t.result = .cancelled)

/-- 45_decoder.md R273: a DECODE that ends FAILED or CANCELLED, or raises a fault, leaves every model entry, DIMG,
DIAG_COUNT, DIAG_LOG and PARTS_SEEN unchanged, and every other buffer and register but SHAPE and those of its ending. -/
def Obligations.DecodeFailureChangesNothing : Prop :=
  ∀ s t : State, exec .decode s = .next t →
    t.result = .failed ∨ t.result = .cancelled ∨ t.result = .fault →
    t = { s with
      shape := t.shape, result := t.result, failCause := t.failCause, faulted := t.faulted
      faultCause := t.faultCause, faultKey := t.faultKey, faultCmd := t.faultCmd }

/-- 45_decoder.md R275: what DECODE does depends on IBUF[0..IN_LEN-1], IN_LEN, A0, CURDEV, PARTS_SEEN, the model store and
the configuration alone: the ending with its cause, SHAPE, the model store and PARTS_SEEN; the cause and the key of a fault;
and after a decode the data image, DIAG_COUNT and the DIAG_LOG entries below it. OBUF, OUT_LEN, RVAL, RVAL2 and the old
contents of DIMG and DIAG do not matter. -/
def Obligations.DecodeDependsOnInputs : Prop :=
  ∀ s₁ s₂ t₁ t₂ : State, configWf s₁.cfg = true → s₂.cfg = s₁.cfg → s₂.inLen = s₁.inLen → s₂.a0 = s₁.a0 →
    s₂.curdev = s₁.curdev → s₂.partsSeen = s₁.partsSeen → s₂.model = s₁.model →
    (∀ a, a < s₁.inLen.toNat → s₂.byteAt .ibuf a = s₁.byteAt .ibuf a) →
    exec .decode s₁ = .next t₁ → exec .decode s₂ = .next t₂ →
    t₂.result = t₁.result ∧ t₂.failCause = t₁.failCause ∧ t₂.model = t₁.model ∧ t₂.partsSeen = t₁.partsSeen ∧
    (t₁.result ≠ .fault → t₂.shape = t₁.shape) ∧
    (t₁.result = .fault → t₂.faultCause = t₁.faultCause ∧ t₂.faultKey = t₁.faultKey) ∧
    (t₁.result = .success ∨ t₁.result = .incomplete →
      t₂.diagCount = t₁.diagCount ∧
      (s₁.diagLog.length = s₁.cfg.params.diagMax → s₂.diagLog.length = s₁.cfg.params.diagMax →
        ∀ n, n < t₁.diagCount.toNat → n < s₁.cfg.params.diagMax → t₂.diagLog.getD n 0 = t₁.diagLog.getD n 0) ∧
      ∀ dev fmt a, currentDevice s₁ = .ok dev → dev.fmts[t₁.shape.toNat]? = some fmt → a < fmt.dlen →
        t₂.byteAt .dimg a = t₁.byteAt .dimg a)

/-! ### Whole-machine laws -/

/-- 10_state.md R29, R31, R34, R35: only the commands whose rules say so write RVAL, RVAL2, OUT_LEN, SHAPE, CURDEV,
PARTS_SEEN, DIAG, the buffers and the model store, and SHAPE stays 0, 1 or 0xFFFFFFFF in a well-formed configuration. -/
def Obligations.OnlyNamedCommandsWrite : Prop :=
  ∀ (i : Instr) (s t : State), isCommand i → exec i s = .next t →
    (i ∉ [Instr.bfup, .s14d, .veld, .enumchk, .clamp, .ckgen, .ckchk, .recog] → t.rval = s.rval) ∧
    (i ∉ [Instr.veld, .ckchk] → t.rval2 = s.rval2) ∧
    (i ≠ .encode → t.outLen = s.outLen) ∧
    (i ∉ [Instr.recog, .decode] → t.shape = s.shape) ∧
    (configWf s.cfg = true → s.shape ∈ [0, 1, 0xFFFFFFFF] → t.shape ∈ [0, 1, 0xFFFFFFFF]) ∧
    (i ≠ .init → t.curdev = s.curdev) ∧
    (i ∉ [Instr.init, .decode] → t.partsSeen = s.partsSeen) ∧
    (i ∉ [Instr.init, .decode, .enumchk] → t.diagCount = s.diagCount) ∧
    (i ∉ [Instr.decode, .enumchk] → t.diagLog = s.diagLog) ∧
    (i ∉ [Instr.init, .decode, .revise, .named] → t.model = s.model) ∧
    (i ∉ [Instr.nibx, .nibc, .bfpk, .s14e, .vele, .namee, .ckgen] → t.ibuf = s.ibuf) ∧
    (i ∉ [Instr.nibx, .nibc, .bfpk, .s14e, .vele, .namee, .ckgen, .encode] → t.obuf = s.obuf) ∧
    (i ∉ [Instr.nibx, .nibc, .bfpk, .s14e, .vele, .namee, .ckgen, .encode, .decode] → t.dimg = s.dimg)

/-- `u` is the state after ENCODE with the frame copied to IBUF, IN_LEN set to L, and A0 = 0 (R226, R271). -/
def frameCopied (t u : State) (fmt : Format) : Prop :=
  u = { t with ibuf := u.ibuf, inLen := BitVec.ofNat 32 fmt.total, a0 := 0 } ∧
    ∀ a, a < fmt.total → u.byteAt .ibuf a = t.byteAt .obuf a

/-- 45_decoder.md R271: in a well-formed configuration, RECOG recognizes the output of ENCODE of format s, with SHAPE = s.
It does not recognize a frame whose length is no format's L, or whose checked prefix or version byte differs from every
format of its length. -/
def Obligations.RecognizerAcceptsEncoded : Prop :=
  (∀ (s t u : State) (dev : Device) (fmt : Format), configWf s.cfg = true → encodeReady s dev fmt →
    exec .encode s = .next t → frameCopied t u fmt →
    ∃ v, exec .recog u = .next v ∧ v.rval = 1 ∧ v.shape = s.a0) ∧
  ∀ (s : State) (dev : Device), configWf s.cfg = true → currentDevice s = .ok dev →
    (∀ g ∈ dev.fmts, ¬frameMatches s g) → ∃ v, exec .recog s = .next v ∧ v.rval = 0

/-- The value of INT key `k` lies in its schema range. -/
def inSchemaRange (s : State) (dev : Device) (k : Key) : Prop :=
  ∀ lo hi d, schemaAt dev k.toNat = some (.int lo hi d) →
    lo.toInt ≤ (s.val k).toInt ∧ (s.val k).toInt ≤ hi.toInt

/-- Conditions (a), (b) and (d) of R226 on the values that a FieldSpec carries. -/
def carriesLegalValue (s : State) (dev : Device) (i : Instr) : Prop :=
  let intIn := fun (k : Key) (n : Nat) => (s.val k).toNat < n ∧ inSchemaRange s dev k
  let enumIn := fun (k : Key) (e : Word) => e.toNat % 65536 = 0 ∨ (s.val k).toNat < e.toNat % 65536
  match i with
  | .fspecRaw8 f e => intIn f.key 256 ∧ enumIn f.key e
  | .fspecNib8 f e => intIn f.key 256 ∧ enumIn f.key e
  | .fspecBits f g e => intIn f.key (2 ^ (geomOf g).width) ∧ enumIn f.key e
  | .fspecS14 f _ e => intIn f.key 16384 ∧ enumIn f.key e
  | .fspecVel f k2 => intIn f.key 128 ∧ intIn k2 2
  | .fspecName f x =>
    (s.entry f.key.toNat).len ≤ x.toNat % 64 ∧
    (∀ n, n < (s.entry f.key.toNat).len →
      0x20 ≤ ((s.entry f.key.toNat).code n).toInt ∧ ((s.entry f.key.toNat).code n).toInt ≤ 0x7E) ∧
    (0 < (s.entry f.key.toNat).len → (s.entry f.key.toNat).code ((s.entry f.key.toNat).len - 1) ≠ 0x20)
  | _ => False

/-- The values that a FieldSpec carries are the same in two states (R226). -/
def sameValues (s v : State) (i : Instr) : Prop :=
  match i with
  | .fspecRaw8 f _ => v.val f.key = s.val f.key
  | .fspecNib8 f _ => v.val f.key = s.val f.key
  | .fspecBits f _ _ => v.val f.key = s.val f.key
  | .fspecS14 f _ _ => v.val f.key = s.val f.key
  | .fspecVel f k2 => v.val f.key = s.val f.key ∧ v.val k2 = s.val k2
  | .fspecName f _ =>
    (v.entry f.key.toNat).len = (s.entry f.key.toNat).len ∧
    ∀ n, n < (s.entry f.key.toNat).len → (v.entry f.key.toNat).code n = (s.entry f.key.toNat).code n
  | _ => False

/-- 44_encoder.md R226, the model round trip: in a well-formed configuration, DECODE of the output of ENCODE gives back
every key that the part's FieldSpecs write, with the value it had, under the conditions (a) to (d) of the rule. Condition
(e) needs no premise, because R46 keeps two formats of a device from matching one frame. It ends SUCCESS for a single
part, and completes the part of a multi-part patch. Any other key is only clamped. -/
def Obligations.DecodeInvertsEncode : Prop :=
  ∀ (s t u : State) (dev : Device) (fmt : Format), configWf s.cfg = true → encodeReady s dev fmt →
    exec .encode s = .next t → frameCopied t u fmt →
    (∀ w ∈ fmt.fields, ∀ i f, decodeField w = .ok i → i.place? = some f → f.part.toNat = partToEncode s fmt →
      carriesLegalValue s dev i) →
    fmt.fields.Pairwise (fun w x =>
      (∀ a b, ¬(wordsTouch (partToEncode s fmt) fmt.base w a b ∧ wordsTouch (partToEncode s fmt) fmt.base x a b)) ∧
      ∀ k, ¬(wordsWrite (partToEncode s fmt) w k ∧ wordsWrite (partToEncode s fmt) x k)) →
    ∃ v, exec .decode u = .next v ∧
      (fmt.parts = 1 → v.result = .success) ∧
      (1 < fmt.parts → patchComplete s fmt (partToEncode s fmt) → v.result = .success ∧ v.partsSeen = 0) ∧
      (1 < fmt.parts → ¬patchComplete s fmt (partToEncode s fmt) →
        v.result = .incomplete ∧ v.partsSeen.getLsbD (partToEncode s fmt) = true) ∧
      (∀ w ∈ fmt.fields, ∀ i f, decodeField w = .ok i → i.place? = some f →
        f.part.toNat = partToEncode s fmt → sameValues s v i) ∧
      ∀ k, (∀ w ∈ fmt.fields, ¬wordsWrite (partToEncode s fmt) w k) →
        entryRevised s.cfg.params dev k (s.entry k) (v.entry k)
end

