-- ==== Sys2Proof/Laws/State.lean ====
section
/-! SUPPORT. What each named update of the state leaves in each field: one lemma per field per update, so that no later
proof unfolds a record update. -/

namespace Sys2Proof.Machine

/-! ### `State.setBuf` -/

@[simp] theorem State.setBuf_cmd (s : State) (sp : Space) (m : Memory) : (s.setBuf sp m).cmd = s.cmd := by cases sp <;> rfl
@[simp] theorem State.setBuf_a0 (s : State) (sp : Space) (m : Memory) : (s.setBuf sp m).a0 = s.a0 := by cases sp <;> rfl
@[simp] theorem State.setBuf_a1 (s : State) (sp : Space) (m : Memory) : (s.setBuf sp m).a1 = s.a1 := by cases sp <;> rfl
@[simp] theorem State.setBuf_a2 (s : State) (sp : Space) (m : Memory) : (s.setBuf sp m).a2 = s.a2 := by cases sp <;> rfl
@[simp] theorem State.setBuf_inLen (s : State) (sp : Space) (m : Memory) : (s.setBuf sp m).inLen = s.inLen := by cases sp <;> rfl
@[simp] theorem State.setBuf_result (s : State) (sp : Space) (m : Memory) : (s.setBuf sp m).result = s.result := by cases sp <;> rfl
@[simp] theorem State.setBuf_failCause (s : State) (sp : Space) (m : Memory) : (s.setBuf sp m).failCause = s.failCause := by cases sp <;> rfl
@[simp] theorem State.setBuf_faulted (s : State) (sp : Space) (m : Memory) : (s.setBuf sp m).faulted = s.faulted := by cases sp <;> rfl
@[simp] theorem State.setBuf_faultCause (s : State) (sp : Space) (m : Memory) : (s.setBuf sp m).faultCause = s.faultCause := by cases sp <;> rfl
@[simp] theorem State.setBuf_faultKey (s : State) (sp : Space) (m : Memory) : (s.setBuf sp m).faultKey = s.faultKey := by cases sp <;> rfl
@[simp] theorem State.setBuf_faultCmd (s : State) (sp : Space) (m : Memory) : (s.setBuf sp m).faultCmd = s.faultCmd := by cases sp <;> rfl
@[simp] theorem State.setBuf_rval (s : State) (sp : Space) (m : Memory) : (s.setBuf sp m).rval = s.rval := by cases sp <;> rfl
@[simp] theorem State.setBuf_rval2 (s : State) (sp : Space) (m : Memory) : (s.setBuf sp m).rval2 = s.rval2 := by cases sp <;> rfl
@[simp] theorem State.setBuf_outLen (s : State) (sp : Space) (m : Memory) : (s.setBuf sp m).outLen = s.outLen := by cases sp <;> rfl
@[simp] theorem State.setBuf_shape (s : State) (sp : Space) (m : Memory) : (s.setBuf sp m).shape = s.shape := by cases sp <;> rfl
@[simp] theorem State.setBuf_diagCount (s : State) (sp : Space) (m : Memory) : (s.setBuf sp m).diagCount = s.diagCount := by cases sp <;> rfl
@[simp] theorem State.setBuf_curdev (s : State) (sp : Space) (m : Memory) : (s.setBuf sp m).curdev = s.curdev := by cases sp <;> rfl
@[simp] theorem State.setBuf_partsSeen (s : State) (sp : Space) (m : Memory) : (s.setBuf sp m).partsSeen = s.partsSeen := by cases sp <;> rfl
@[simp] theorem State.setBuf_diagLog (s : State) (sp : Space) (m : Memory) : (s.setBuf sp m).diagLog = s.diagLog := by cases sp <;> rfl
@[simp] theorem State.setBuf_ibuf (s : State) (sp : Space) (m : Memory) : (s.setBuf sp m).ibuf = if sp = .ibuf then m else s.ibuf := by cases sp <;> rfl
@[simp] theorem State.setBuf_obuf (s : State) (sp : Space) (m : Memory) : (s.setBuf sp m).obuf = if sp = .obuf then m else s.obuf := by cases sp <;> rfl
@[simp] theorem State.setBuf_dimg (s : State) (sp : Space) (m : Memory) : (s.setBuf sp m).dimg = if sp = .dimg then m else s.dimg := by cases sp <;> rfl
@[simp] theorem State.setBuf_model (s : State) (sp : Space) (m : Memory) : (s.setBuf sp m).model = s.model := by cases sp <;> rfl
@[simp] theorem State.setBuf_cfg (s : State) (sp : Space) (m : Memory) : (s.setBuf sp m).cfg = s.cfg := by cases sp <;> rfl
@[simp] theorem State.setBuf_walk (s : State) (sp : Space) (m : Memory) : (s.setBuf sp m).walk = s.walk := by cases sp <;> rfl
@[simp] theorem State.setBuf_host (s : State) (sp : Space) (m : Memory) : (s.setBuf sp m).host = s.host := by cases sp <;> rfl
@[simp] theorem State.setBuf_hostData (s : State) (sp : Space) (m : Memory) : (s.setBuf sp m).hostData = s.hostData := by cases sp <;> rfl

/-! ### `State.writeBytes` -/

@[simp] theorem State.writeBytes_cmd (s : State) (sp : Space) (off : Nat) (bs : List Byte) : (s.writeBytes sp off bs).cmd = s.cmd := by cases sp <;> rfl
@[simp] theorem State.writeBytes_a0 (s : State) (sp : Space) (off : Nat) (bs : List Byte) : (s.writeBytes sp off bs).a0 = s.a0 := by cases sp <;> rfl
@[simp] theorem State.writeBytes_a1 (s : State) (sp : Space) (off : Nat) (bs : List Byte) : (s.writeBytes sp off bs).a1 = s.a1 := by cases sp <;> rfl
@[simp] theorem State.writeBytes_a2 (s : State) (sp : Space) (off : Nat) (bs : List Byte) : (s.writeBytes sp off bs).a2 = s.a2 := by cases sp <;> rfl
@[simp] theorem State.writeBytes_inLen (s : State) (sp : Space) (off : Nat) (bs : List Byte) : (s.writeBytes sp off bs).inLen = s.inLen := by cases sp <;> rfl
@[simp] theorem State.writeBytes_result (s : State) (sp : Space) (off : Nat) (bs : List Byte) : (s.writeBytes sp off bs).result = s.result := by cases sp <;> rfl
@[simp] theorem State.writeBytes_failCause (s : State) (sp : Space) (off : Nat) (bs : List Byte) : (s.writeBytes sp off bs).failCause = s.failCause := by cases sp <;> rfl
@[simp] theorem State.writeBytes_faulted (s : State) (sp : Space) (off : Nat) (bs : List Byte) : (s.writeBytes sp off bs).faulted = s.faulted := by cases sp <;> rfl
@[simp] theorem State.writeBytes_faultCause (s : State) (sp : Space) (off : Nat) (bs : List Byte) : (s.writeBytes sp off bs).faultCause = s.faultCause := by cases sp <;> rfl
@[simp] theorem State.writeBytes_faultKey (s : State) (sp : Space) (off : Nat) (bs : List Byte) : (s.writeBytes sp off bs).faultKey = s.faultKey := by cases sp <;> rfl
@[simp] theorem State.writeBytes_faultCmd (s : State) (sp : Space) (off : Nat) (bs : List Byte) : (s.writeBytes sp off bs).faultCmd = s.faultCmd := by cases sp <;> rfl
@[simp] theorem State.writeBytes_rval (s : State) (sp : Space) (off : Nat) (bs : List Byte) : (s.writeBytes sp off bs).rval = s.rval := by cases sp <;> rfl
@[simp] theorem State.writeBytes_rval2 (s : State) (sp : Space) (off : Nat) (bs : List Byte) : (s.writeBytes sp off bs).rval2 = s.rval2 := by cases sp <;> rfl
@[simp] theorem State.writeBytes_outLen (s : State) (sp : Space) (off : Nat) (bs : List Byte) : (s.writeBytes sp off bs).outLen = s.outLen := by cases sp <;> rfl
@[simp] theorem State.writeBytes_shape (s : State) (sp : Space) (off : Nat) (bs : List Byte) : (s.writeBytes sp off bs).shape = s.shape := by cases sp <;> rfl
@[simp] theorem State.writeBytes_diagCount (s : State) (sp : Space) (off : Nat) (bs : List Byte) : (s.writeBytes sp off bs).diagCount = s.diagCount := by cases sp <;> rfl
@[simp] theorem State.writeBytes_curdev (s : State) (sp : Space) (off : Nat) (bs : List Byte) : (s.writeBytes sp off bs).curdev = s.curdev := by cases sp <;> rfl
@[simp] theorem State.writeBytes_partsSeen (s : State) (sp : Space) (off : Nat) (bs : List Byte) : (s.writeBytes sp off bs).partsSeen = s.partsSeen := by cases sp <;> rfl
@[simp] theorem State.writeBytes_diagLog (s : State) (sp : Space) (off : Nat) (bs : List Byte) : (s.writeBytes sp off bs).diagLog = s.diagLog := by cases sp <;> rfl
@[simp] theorem State.writeBytes_model (s : State) (sp : Space) (off : Nat) (bs : List Byte) : (s.writeBytes sp off bs).model = s.model := by cases sp <;> rfl
@[simp] theorem State.writeBytes_cfg (s : State) (sp : Space) (off : Nat) (bs : List Byte) : (s.writeBytes sp off bs).cfg = s.cfg := by cases sp <;> rfl
@[simp] theorem State.writeBytes_walk (s : State) (sp : Space) (off : Nat) (bs : List Byte) : (s.writeBytes sp off bs).walk = s.walk := by cases sp <;> rfl
@[simp] theorem State.writeBytes_host (s : State) (sp : Space) (off : Nat) (bs : List Byte) : (s.writeBytes sp off bs).host = s.host := by cases sp <;> rfl
@[simp] theorem State.writeBytes_hostData (s : State) (sp : Space) (off : Nat) (bs : List Byte) : (s.writeBytes sp off bs).hostData = s.hostData := by cases sp <;> rfl

/-! ### `State.setEntry` -/

@[simp] theorem State.setEntry_cmd (s : State) (k : Nat) (e : Entry) : (s.setEntry k e).cmd = s.cmd := rfl
@[simp] theorem State.setEntry_a0 (s : State) (k : Nat) (e : Entry) : (s.setEntry k e).a0 = s.a0 := rfl
@[simp] theorem State.setEntry_a1 (s : State) (k : Nat) (e : Entry) : (s.setEntry k e).a1 = s.a1 := rfl
@[simp] theorem State.setEntry_a2 (s : State) (k : Nat) (e : Entry) : (s.setEntry k e).a2 = s.a2 := rfl
@[simp] theorem State.setEntry_inLen (s : State) (k : Nat) (e : Entry) : (s.setEntry k e).inLen = s.inLen := rfl
@[simp] theorem State.setEntry_result (s : State) (k : Nat) (e : Entry) : (s.setEntry k e).result = s.result := rfl
@[simp] theorem State.setEntry_failCause (s : State) (k : Nat) (e : Entry) : (s.setEntry k e).failCause = s.failCause := rfl
@[simp] theorem State.setEntry_faulted (s : State) (k : Nat) (e : Entry) : (s.setEntry k e).faulted = s.faulted := rfl
@[simp] theorem State.setEntry_faultCause (s : State) (k : Nat) (e : Entry) : (s.setEntry k e).faultCause = s.faultCause := rfl
@[simp] theorem State.setEntry_faultKey (s : State) (k : Nat) (e : Entry) : (s.setEntry k e).faultKey = s.faultKey := rfl
@[simp] theorem State.setEntry_faultCmd (s : State) (k : Nat) (e : Entry) : (s.setEntry k e).faultCmd = s.faultCmd := rfl
@[simp] theorem State.setEntry_rval (s : State) (k : Nat) (e : Entry) : (s.setEntry k e).rval = s.rval := rfl
@[simp] theorem State.setEntry_rval2 (s : State) (k : Nat) (e : Entry) : (s.setEntry k e).rval2 = s.rval2 := rfl
@[simp] theorem State.setEntry_outLen (s : State) (k : Nat) (e : Entry) : (s.setEntry k e).outLen = s.outLen := rfl
@[simp] theorem State.setEntry_shape (s : State) (k : Nat) (e : Entry) : (s.setEntry k e).shape = s.shape := rfl
@[simp] theorem State.setEntry_diagCount (s : State) (k : Nat) (e : Entry) : (s.setEntry k e).diagCount = s.diagCount := rfl
@[simp] theorem State.setEntry_curdev (s : State) (k : Nat) (e : Entry) : (s.setEntry k e).curdev = s.curdev := rfl
@[simp] theorem State.setEntry_partsSeen (s : State) (k : Nat) (e : Entry) : (s.setEntry k e).partsSeen = s.partsSeen := rfl
@[simp] theorem State.setEntry_diagLog (s : State) (k : Nat) (e : Entry) : (s.setEntry k e).diagLog = s.diagLog := rfl
@[simp] theorem State.setEntry_ibuf (s : State) (k : Nat) (e : Entry) : (s.setEntry k e).ibuf = s.ibuf := rfl
@[simp] theorem State.setEntry_obuf (s : State) (k : Nat) (e : Entry) : (s.setEntry k e).obuf = s.obuf := rfl
@[simp] theorem State.setEntry_dimg (s : State) (k : Nat) (e : Entry) : (s.setEntry k e).dimg = s.dimg := rfl
@[simp] theorem State.setEntry_model (s : State) (k : Nat) (e : Entry) : (s.setEntry k e).model = writeCell Entry.zero s.model k e := rfl
@[simp] theorem State.setEntry_cfg (s : State) (k : Nat) (e : Entry) : (s.setEntry k e).cfg = s.cfg := rfl
@[simp] theorem State.setEntry_walk (s : State) (k : Nat) (e : Entry) : (s.setEntry k e).walk = s.walk := rfl
@[simp] theorem State.setEntry_host (s : State) (k : Nat) (e : Entry) : (s.setEntry k e).host = s.host := rfl
@[simp] theorem State.setEntry_hostData (s : State) (k : Nat) (e : Entry) : (s.setEntry k e).hostData = s.hostData := rfl

/-! ### `State.setVal` -/

@[simp] theorem State.setVal_cmd (s : State) (k : Key) (v : Word) : (s.setVal k v).cmd = s.cmd := rfl
@[simp] theorem State.setVal_a0 (s : State) (k : Key) (v : Word) : (s.setVal k v).a0 = s.a0 := rfl
@[simp] theorem State.setVal_a1 (s : State) (k : Key) (v : Word) : (s.setVal k v).a1 = s.a1 := rfl
@[simp] theorem State.setVal_a2 (s : State) (k : Key) (v : Word) : (s.setVal k v).a2 = s.a2 := rfl
@[simp] theorem State.setVal_inLen (s : State) (k : Key) (v : Word) : (s.setVal k v).inLen = s.inLen := rfl
@[simp] theorem State.setVal_result (s : State) (k : Key) (v : Word) : (s.setVal k v).result = s.result := rfl
@[simp] theorem State.setVal_failCause (s : State) (k : Key) (v : Word) : (s.setVal k v).failCause = s.failCause := rfl
@[simp] theorem State.setVal_faulted (s : State) (k : Key) (v : Word) : (s.setVal k v).faulted = s.faulted := rfl
@[simp] theorem State.setVal_faultCause (s : State) (k : Key) (v : Word) : (s.setVal k v).faultCause = s.faultCause := rfl
@[simp] theorem State.setVal_faultKey (s : State) (k : Key) (v : Word) : (s.setVal k v).faultKey = s.faultKey := rfl
@[simp] theorem State.setVal_faultCmd (s : State) (k : Key) (v : Word) : (s.setVal k v).faultCmd = s.faultCmd := rfl
@[simp] theorem State.setVal_rval (s : State) (k : Key) (v : Word) : (s.setVal k v).rval = s.rval := rfl
@[simp] theorem State.setVal_rval2 (s : State) (k : Key) (v : Word) : (s.setVal k v).rval2 = s.rval2 := rfl
@[simp] theorem State.setVal_outLen (s : State) (k : Key) (v : Word) : (s.setVal k v).outLen = s.outLen := rfl
@[simp] theorem State.setVal_shape (s : State) (k : Key) (v : Word) : (s.setVal k v).shape = s.shape := rfl
@[simp] theorem State.setVal_diagCount (s : State) (k : Key) (v : Word) : (s.setVal k v).diagCount = s.diagCount := rfl
@[simp] theorem State.setVal_curdev (s : State) (k : Key) (v : Word) : (s.setVal k v).curdev = s.curdev := rfl
@[simp] theorem State.setVal_partsSeen (s : State) (k : Key) (v : Word) : (s.setVal k v).partsSeen = s.partsSeen := rfl
@[simp] theorem State.setVal_diagLog (s : State) (k : Key) (v : Word) : (s.setVal k v).diagLog = s.diagLog := rfl
@[simp] theorem State.setVal_ibuf (s : State) (k : Key) (v : Word) : (s.setVal k v).ibuf = s.ibuf := rfl
@[simp] theorem State.setVal_obuf (s : State) (k : Key) (v : Word) : (s.setVal k v).obuf = s.obuf := rfl
@[simp] theorem State.setVal_dimg (s : State) (k : Key) (v : Word) : (s.setVal k v).dimg = s.dimg := rfl
@[simp] theorem State.setVal_cfg (s : State) (k : Key) (v : Word) : (s.setVal k v).cfg = s.cfg := rfl
@[simp] theorem State.setVal_walk (s : State) (k : Key) (v : Word) : (s.setVal k v).walk = s.walk := rfl
@[simp] theorem State.setVal_host (s : State) (k : Key) (v : Word) : (s.setVal k v).host = s.host := rfl
@[simp] theorem State.setVal_hostData (s : State) (k : Key) (v : Word) : (s.setVal k v).hostData = s.hostData := rfl

/-! ### `State.setText` -/

@[simp] theorem State.setText_cmd (s : State) (k : Key) (codes : List Word) : (s.setText k codes).cmd = s.cmd := rfl
@[simp] theorem State.setText_a0 (s : State) (k : Key) (codes : List Word) : (s.setText k codes).a0 = s.a0 := rfl
@[simp] theorem State.setText_a1 (s : State) (k : Key) (codes : List Word) : (s.setText k codes).a1 = s.a1 := rfl
@[simp] theorem State.setText_a2 (s : State) (k : Key) (codes : List Word) : (s.setText k codes).a2 = s.a2 := rfl
@[simp] theorem State.setText_inLen (s : State) (k : Key) (codes : List Word) : (s.setText k codes).inLen = s.inLen := rfl
@[simp] theorem State.setText_result (s : State) (k : Key) (codes : List Word) : (s.setText k codes).result = s.result := rfl
@[simp] theorem State.setText_failCause (s : State) (k : Key) (codes : List Word) : (s.setText k codes).failCause = s.failCause := rfl
@[simp] theorem State.setText_faulted (s : State) (k : Key) (codes : List Word) : (s.setText k codes).faulted = s.faulted := rfl
@[simp] theorem State.setText_faultCause (s : State) (k : Key) (codes : List Word) : (s.setText k codes).faultCause = s.faultCause := rfl
@[simp] theorem State.setText_faultKey (s : State) (k : Key) (codes : List Word) : (s.setText k codes).faultKey = s.faultKey := rfl
@[simp] theorem State.setText_faultCmd (s : State) (k : Key) (codes : List Word) : (s.setText k codes).faultCmd = s.faultCmd := rfl
@[simp] theorem State.setText_rval (s : State) (k : Key) (codes : List Word) : (s.setText k codes).rval = s.rval := rfl
@[simp] theorem State.setText_rval2 (s : State) (k : Key) (codes : List Word) : (s.setText k codes).rval2 = s.rval2 := rfl
@[simp] theorem State.setText_outLen (s : State) (k : Key) (codes : List Word) : (s.setText k codes).outLen = s.outLen := rfl
@[simp] theorem State.setText_shape (s : State) (k : Key) (codes : List Word) : (s.setText k codes).shape = s.shape := rfl
@[simp] theorem State.setText_diagCount (s : State) (k : Key) (codes : List Word) : (s.setText k codes).diagCount = s.diagCount := rfl
@[simp] theorem State.setText_curdev (s : State) (k : Key) (codes : List Word) : (s.setText k codes).curdev = s.curdev := rfl
@[simp] theorem State.setText_partsSeen (s : State) (k : Key) (codes : List Word) : (s.setText k codes).partsSeen = s.partsSeen := rfl
@[simp] theorem State.setText_diagLog (s : State) (k : Key) (codes : List Word) : (s.setText k codes).diagLog = s.diagLog := rfl
@[simp] theorem State.setText_ibuf (s : State) (k : Key) (codes : List Word) : (s.setText k codes).ibuf = s.ibuf := rfl
@[simp] theorem State.setText_obuf (s : State) (k : Key) (codes : List Word) : (s.setText k codes).obuf = s.obuf := rfl
@[simp] theorem State.setText_dimg (s : State) (k : Key) (codes : List Word) : (s.setText k codes).dimg = s.dimg := rfl
@[simp] theorem State.setText_cfg (s : State) (k : Key) (codes : List Word) : (s.setText k codes).cfg = s.cfg := rfl
@[simp] theorem State.setText_walk (s : State) (k : Key) (codes : List Word) : (s.setText k codes).walk = s.walk := rfl
@[simp] theorem State.setText_host (s : State) (k : Key) (codes : List Word) : (s.setText k codes).host = s.host := rfl
@[simp] theorem State.setText_hostData (s : State) (k : Key) (codes : List Word) : (s.setText k codes).hostData = s.hostData := rfl

/-! ### `State.raiseFault` -/

@[simp] theorem State.raiseFault_cmd (s : State) (f : FaultRec) : (s.raiseFault f).cmd = s.cmd := rfl
@[simp] theorem State.raiseFault_a0 (s : State) (f : FaultRec) : (s.raiseFault f).a0 = s.a0 := rfl
@[simp] theorem State.raiseFault_a1 (s : State) (f : FaultRec) : (s.raiseFault f).a1 = s.a1 := rfl
@[simp] theorem State.raiseFault_a2 (s : State) (f : FaultRec) : (s.raiseFault f).a2 = s.a2 := rfl
@[simp] theorem State.raiseFault_inLen (s : State) (f : FaultRec) : (s.raiseFault f).inLen = s.inLen := rfl
@[simp] theorem State.raiseFault_result (s : State) (f : FaultRec) : (s.raiseFault f).result = .fault := rfl
@[simp] theorem State.raiseFault_failCause (s : State) (f : FaultRec) : (s.raiseFault f).failCause = .none := rfl
@[simp] theorem State.raiseFault_faulted (s : State) (f : FaultRec) : (s.raiseFault f).faulted = true := rfl
@[simp] theorem State.raiseFault_faultCause (s : State) (f : FaultRec) : (s.raiseFault f).faultCause = f.cause := rfl
@[simp] theorem State.raiseFault_faultKey (s : State) (f : FaultRec) : (s.raiseFault f).faultKey = f.key := rfl
@[simp] theorem State.raiseFault_faultCmd (s : State) (f : FaultRec) : (s.raiseFault f).faultCmd = s.cmd := rfl
@[simp] theorem State.raiseFault_rval (s : State) (f : FaultRec) : (s.raiseFault f).rval = s.rval := rfl
@[simp] theorem State.raiseFault_rval2 (s : State) (f : FaultRec) : (s.raiseFault f).rval2 = s.rval2 := rfl
@[simp] theorem State.raiseFault_outLen (s : State) (f : FaultRec) : (s.raiseFault f).outLen = s.outLen := rfl
@[simp] theorem State.raiseFault_shape (s : State) (f : FaultRec) : (s.raiseFault f).shape = s.shape := rfl
@[simp] theorem State.raiseFault_diagCount (s : State) (f : FaultRec) : (s.raiseFault f).diagCount = s.diagCount := rfl
@[simp] theorem State.raiseFault_curdev (s : State) (f : FaultRec) : (s.raiseFault f).curdev = s.curdev := rfl
@[simp] theorem State.raiseFault_partsSeen (s : State) (f : FaultRec) : (s.raiseFault f).partsSeen = s.partsSeen := rfl
@[simp] theorem State.raiseFault_diagLog (s : State) (f : FaultRec) : (s.raiseFault f).diagLog = s.diagLog := rfl
@[simp] theorem State.raiseFault_ibuf (s : State) (f : FaultRec) : (s.raiseFault f).ibuf = s.ibuf := rfl
@[simp] theorem State.raiseFault_obuf (s : State) (f : FaultRec) : (s.raiseFault f).obuf = s.obuf := rfl
@[simp] theorem State.raiseFault_dimg (s : State) (f : FaultRec) : (s.raiseFault f).dimg = s.dimg := rfl
@[simp] theorem State.raiseFault_model (s : State) (f : FaultRec) : (s.raiseFault f).model = s.model := rfl
@[simp] theorem State.raiseFault_cfg (s : State) (f : FaultRec) : (s.raiseFault f).cfg = s.cfg := rfl
@[simp] theorem State.raiseFault_walk (s : State) (f : FaultRec) : (s.raiseFault f).walk = s.walk := rfl
@[simp] theorem State.raiseFault_host (s : State) (f : FaultRec) : (s.raiseFault f).host = s.host := rfl
@[simp] theorem State.raiseFault_hostData (s : State) (f : FaultRec) : (s.raiseFault f).hostData = s.hostData := rfl

/-! ### `State.finish` -/

@[simp] theorem State.finish_cmd (s : State) (r : ResultCode) (c : FailCause) : (s.finish r c).cmd = s.cmd := rfl
@[simp] theorem State.finish_a0 (s : State) (r : ResultCode) (c : FailCause) : (s.finish r c).a0 = s.a0 := rfl
@[simp] theorem State.finish_a1 (s : State) (r : ResultCode) (c : FailCause) : (s.finish r c).a1 = s.a1 := rfl
@[simp] theorem State.finish_a2 (s : State) (r : ResultCode) (c : FailCause) : (s.finish r c).a2 = s.a2 := rfl
@[simp] theorem State.finish_inLen (s : State) (r : ResultCode) (c : FailCause) : (s.finish r c).inLen = s.inLen := rfl
@[simp] theorem State.finish_result (s : State) (r : ResultCode) (c : FailCause) : (s.finish r c).result = r := rfl
@[simp] theorem State.finish_failCause (s : State) (r : ResultCode) (c : FailCause) : (s.finish r c).failCause = c := rfl
@[simp] theorem State.finish_faulted (s : State) (r : ResultCode) (c : FailCause) : (s.finish r c).faulted = s.faulted := rfl
@[simp] theorem State.finish_faultCause (s : State) (r : ResultCode) (c : FailCause) : (s.finish r c).faultCause = s.faultCause := rfl
@[simp] theorem State.finish_faultKey (s : State) (r : ResultCode) (c : FailCause) : (s.finish r c).faultKey = s.faultKey := rfl
@[simp] theorem State.finish_faultCmd (s : State) (r : ResultCode) (c : FailCause) : (s.finish r c).faultCmd = s.faultCmd := rfl
@[simp] theorem State.finish_rval (s : State) (r : ResultCode) (c : FailCause) : (s.finish r c).rval = s.rval := rfl
@[simp] theorem State.finish_rval2 (s : State) (r : ResultCode) (c : FailCause) : (s.finish r c).rval2 = s.rval2 := rfl
@[simp] theorem State.finish_outLen (s : State) (r : ResultCode) (c : FailCause) : (s.finish r c).outLen = s.outLen := rfl
@[simp] theorem State.finish_shape (s : State) (r : ResultCode) (c : FailCause) : (s.finish r c).shape = s.shape := rfl
@[simp] theorem State.finish_diagCount (s : State) (r : ResultCode) (c : FailCause) : (s.finish r c).diagCount = s.diagCount := rfl
@[simp] theorem State.finish_curdev (s : State) (r : ResultCode) (c : FailCause) : (s.finish r c).curdev = s.curdev := rfl
@[simp] theorem State.finish_partsSeen (s : State) (r : ResultCode) (c : FailCause) : (s.finish r c).partsSeen = s.partsSeen := rfl
@[simp] theorem State.finish_diagLog (s : State) (r : ResultCode) (c : FailCause) : (s.finish r c).diagLog = s.diagLog := rfl
@[simp] theorem State.finish_ibuf (s : State) (r : ResultCode) (c : FailCause) : (s.finish r c).ibuf = s.ibuf := rfl
@[simp] theorem State.finish_obuf (s : State) (r : ResultCode) (c : FailCause) : (s.finish r c).obuf = s.obuf := rfl
@[simp] theorem State.finish_dimg (s : State) (r : ResultCode) (c : FailCause) : (s.finish r c).dimg = s.dimg := rfl
@[simp] theorem State.finish_model (s : State) (r : ResultCode) (c : FailCause) : (s.finish r c).model = s.model := rfl
@[simp] theorem State.finish_cfg (s : State) (r : ResultCode) (c : FailCause) : (s.finish r c).cfg = s.cfg := rfl
@[simp] theorem State.finish_walk (s : State) (r : ResultCode) (c : FailCause) : (s.finish r c).walk = s.walk := rfl
@[simp] theorem State.finish_host (s : State) (r : ResultCode) (c : FailCause) : (s.finish r c).host = s.host := rfl
@[simp] theorem State.finish_hostData (s : State) (r : ResultCode) (c : FailCause) : (s.finish r c).hostData = s.hostData := rfl

/-! ### `State.succeed` -/

@[simp] theorem State.succeed_cmd (s : State) : (s.succeed).cmd = s.cmd := rfl
@[simp] theorem State.succeed_a0 (s : State) : (s.succeed).a0 = s.a0 := rfl
@[simp] theorem State.succeed_a1 (s : State) : (s.succeed).a1 = s.a1 := rfl
@[simp] theorem State.succeed_a2 (s : State) : (s.succeed).a2 = s.a2 := rfl
@[simp] theorem State.succeed_inLen (s : State) : (s.succeed).inLen = s.inLen := rfl
@[simp] theorem State.succeed_result (s : State) : (s.succeed).result = .success := rfl
@[simp] theorem State.succeed_failCause (s : State) : (s.succeed).failCause = .none := rfl
@[simp] theorem State.succeed_faulted (s : State) : (s.succeed).faulted = s.faulted := rfl
@[simp] theorem State.succeed_faultCause (s : State) : (s.succeed).faultCause = s.faultCause := rfl
@[simp] theorem State.succeed_faultKey (s : State) : (s.succeed).faultKey = s.faultKey := rfl
@[simp] theorem State.succeed_faultCmd (s : State) : (s.succeed).faultCmd = s.faultCmd := rfl
@[simp] theorem State.succeed_rval (s : State) : (s.succeed).rval = s.rval := rfl
@[simp] theorem State.succeed_rval2 (s : State) : (s.succeed).rval2 = s.rval2 := rfl
@[simp] theorem State.succeed_outLen (s : State) : (s.succeed).outLen = s.outLen := rfl
@[simp] theorem State.succeed_shape (s : State) : (s.succeed).shape = s.shape := rfl
@[simp] theorem State.succeed_diagCount (s : State) : (s.succeed).diagCount = s.diagCount := rfl
@[simp] theorem State.succeed_curdev (s : State) : (s.succeed).curdev = s.curdev := rfl
@[simp] theorem State.succeed_partsSeen (s : State) : (s.succeed).partsSeen = s.partsSeen := rfl
@[simp] theorem State.succeed_diagLog (s : State) : (s.succeed).diagLog = s.diagLog := rfl
@[simp] theorem State.succeed_ibuf (s : State) : (s.succeed).ibuf = s.ibuf := rfl
@[simp] theorem State.succeed_obuf (s : State) : (s.succeed).obuf = s.obuf := rfl
@[simp] theorem State.succeed_dimg (s : State) : (s.succeed).dimg = s.dimg := rfl
@[simp] theorem State.succeed_model (s : State) : (s.succeed).model = s.model := rfl
@[simp] theorem State.succeed_cfg (s : State) : (s.succeed).cfg = s.cfg := rfl
@[simp] theorem State.succeed_walk (s : State) : (s.succeed).walk = s.walk := rfl
@[simp] theorem State.succeed_host (s : State) : (s.succeed).host = s.host := rfl
@[simp] theorem State.succeed_hostData (s : State) : (s.succeed).hostData = s.hostData := rfl

/-! ### `State.logSubstitution` -/

@[simp] theorem State.logSubstitution_cmd (s : State) (c : Word) (k : Key) : (s.logSubstitution c k).cmd = s.cmd := rfl
@[simp] theorem State.logSubstitution_a0 (s : State) (c : Word) (k : Key) : (s.logSubstitution c k).a0 = s.a0 := rfl
@[simp] theorem State.logSubstitution_a1 (s : State) (c : Word) (k : Key) : (s.logSubstitution c k).a1 = s.a1 := rfl
@[simp] theorem State.logSubstitution_a2 (s : State) (c : Word) (k : Key) : (s.logSubstitution c k).a2 = s.a2 := rfl
@[simp] theorem State.logSubstitution_inLen (s : State) (c : Word) (k : Key) : (s.logSubstitution c k).inLen = s.inLen := rfl
@[simp] theorem State.logSubstitution_result (s : State) (c : Word) (k : Key) : (s.logSubstitution c k).result = s.result := rfl
@[simp] theorem State.logSubstitution_failCause (s : State) (c : Word) (k : Key) : (s.logSubstitution c k).failCause = s.failCause := rfl
@[simp] theorem State.logSubstitution_faulted (s : State) (c : Word) (k : Key) : (s.logSubstitution c k).faulted = s.faulted := rfl
@[simp] theorem State.logSubstitution_faultCause (s : State) (c : Word) (k : Key) : (s.logSubstitution c k).faultCause = s.faultCause := rfl
@[simp] theorem State.logSubstitution_faultKey (s : State) (c : Word) (k : Key) : (s.logSubstitution c k).faultKey = s.faultKey := rfl
@[simp] theorem State.logSubstitution_faultCmd (s : State) (c : Word) (k : Key) : (s.logSubstitution c k).faultCmd = s.faultCmd := rfl
@[simp] theorem State.logSubstitution_rval (s : State) (c : Word) (k : Key) : (s.logSubstitution c k).rval = s.rval := rfl
@[simp] theorem State.logSubstitution_rval2 (s : State) (c : Word) (k : Key) : (s.logSubstitution c k).rval2 = s.rval2 := rfl
@[simp] theorem State.logSubstitution_outLen (s : State) (c : Word) (k : Key) : (s.logSubstitution c k).outLen = s.outLen := rfl
@[simp] theorem State.logSubstitution_shape (s : State) (c : Word) (k : Key) : (s.logSubstitution c k).shape = s.shape := rfl
@[simp] theorem State.logSubstitution_curdev (s : State) (c : Word) (k : Key) : (s.logSubstitution c k).curdev = s.curdev := rfl
@[simp] theorem State.logSubstitution_partsSeen (s : State) (c : Word) (k : Key) : (s.logSubstitution c k).partsSeen = s.partsSeen := rfl
@[simp] theorem State.logSubstitution_ibuf (s : State) (c : Word) (k : Key) : (s.logSubstitution c k).ibuf = s.ibuf := rfl
@[simp] theorem State.logSubstitution_obuf (s : State) (c : Word) (k : Key) : (s.logSubstitution c k).obuf = s.obuf := rfl
@[simp] theorem State.logSubstitution_dimg (s : State) (c : Word) (k : Key) : (s.logSubstitution c k).dimg = s.dimg := rfl
@[simp] theorem State.logSubstitution_model (s : State) (c : Word) (k : Key) : (s.logSubstitution c k).model = s.model := rfl
@[simp] theorem State.logSubstitution_cfg (s : State) (c : Word) (k : Key) : (s.logSubstitution c k).cfg = s.cfg := rfl
@[simp] theorem State.logSubstitution_walk (s : State) (c : Word) (k : Key) : (s.logSubstitution c k).walk = s.walk := rfl
@[simp] theorem State.logSubstitution_host (s : State) (c : Word) (k : Key) : (s.logSubstitution c k).host = s.host := rfl
@[simp] theorem State.logSubstitution_hostData (s : State) (c : Word) (k : Key) : (s.logSubstitution c k).hostData = s.hostData := rfl

/-! ### `State.enumFix` -/

@[simp] theorem State.enumFix_cmd (s : State) (c e : Word) (k : Key) : (s.enumFix c e k).cmd = s.cmd := by unfold State.enumFix; split <;> rfl
@[simp] theorem State.enumFix_a0 (s : State) (c e : Word) (k : Key) : (s.enumFix c e k).a0 = s.a0 := by unfold State.enumFix; split <;> rfl
@[simp] theorem State.enumFix_a1 (s : State) (c e : Word) (k : Key) : (s.enumFix c e k).a1 = s.a1 := by unfold State.enumFix; split <;> rfl
@[simp] theorem State.enumFix_a2 (s : State) (c e : Word) (k : Key) : (s.enumFix c e k).a2 = s.a2 := by unfold State.enumFix; split <;> rfl
@[simp] theorem State.enumFix_inLen (s : State) (c e : Word) (k : Key) : (s.enumFix c e k).inLen = s.inLen := by unfold State.enumFix; split <;> rfl
@[simp] theorem State.enumFix_result (s : State) (c e : Word) (k : Key) : (s.enumFix c e k).result = s.result := by unfold State.enumFix; split <;> rfl
@[simp] theorem State.enumFix_failCause (s : State) (c e : Word) (k : Key) : (s.enumFix c e k).failCause = s.failCause := by unfold State.enumFix; split <;> rfl
@[simp] theorem State.enumFix_faulted (s : State) (c e : Word) (k : Key) : (s.enumFix c e k).faulted = s.faulted := by unfold State.enumFix; split <;> rfl
@[simp] theorem State.enumFix_faultCause (s : State) (c e : Word) (k : Key) : (s.enumFix c e k).faultCause = s.faultCause := by unfold State.enumFix; split <;> rfl
@[simp] theorem State.enumFix_faultKey (s : State) (c e : Word) (k : Key) : (s.enumFix c e k).faultKey = s.faultKey := by unfold State.enumFix; split <;> rfl
@[simp] theorem State.enumFix_faultCmd (s : State) (c e : Word) (k : Key) : (s.enumFix c e k).faultCmd = s.faultCmd := by unfold State.enumFix; split <;> rfl
@[simp] theorem State.enumFix_rval (s : State) (c e : Word) (k : Key) : (s.enumFix c e k).rval = s.rval := by unfold State.enumFix; split <;> rfl
@[simp] theorem State.enumFix_rval2 (s : State) (c e : Word) (k : Key) : (s.enumFix c e k).rval2 = s.rval2 := by unfold State.enumFix; split <;> rfl
@[simp] theorem State.enumFix_outLen (s : State) (c e : Word) (k : Key) : (s.enumFix c e k).outLen = s.outLen := by unfold State.enumFix; split <;> rfl
@[simp] theorem State.enumFix_shape (s : State) (c e : Word) (k : Key) : (s.enumFix c e k).shape = s.shape := by unfold State.enumFix; split <;> rfl
@[simp] theorem State.enumFix_curdev (s : State) (c e : Word) (k : Key) : (s.enumFix c e k).curdev = s.curdev := by unfold State.enumFix; split <;> rfl
@[simp] theorem State.enumFix_partsSeen (s : State) (c e : Word) (k : Key) : (s.enumFix c e k).partsSeen = s.partsSeen := by unfold State.enumFix; split <;> rfl
@[simp] theorem State.enumFix_ibuf (s : State) (c e : Word) (k : Key) : (s.enumFix c e k).ibuf = s.ibuf := by unfold State.enumFix; split <;> rfl
@[simp] theorem State.enumFix_obuf (s : State) (c e : Word) (k : Key) : (s.enumFix c e k).obuf = s.obuf := by unfold State.enumFix; split <;> rfl
@[simp] theorem State.enumFix_dimg (s : State) (c e : Word) (k : Key) : (s.enumFix c e k).dimg = s.dimg := by unfold State.enumFix; split <;> rfl
@[simp] theorem State.enumFix_model (s : State) (c e : Word) (k : Key) : (s.enumFix c e k).model = s.model := by unfold State.enumFix; split <;> rfl
@[simp] theorem State.enumFix_cfg (s : State) (c e : Word) (k : Key) : (s.enumFix c e k).cfg = s.cfg := by unfold State.enumFix; split <;> rfl
@[simp] theorem State.enumFix_walk (s : State) (c e : Word) (k : Key) : (s.enumFix c e k).walk = s.walk := by unfold State.enumFix; split <;> rfl
@[simp] theorem State.enumFix_host (s : State) (c e : Word) (k : Key) : (s.enumFix c e k).host = s.host := by unfold State.enumFix; split <;> rfl
@[simp] theorem State.enumFix_hostData (s : State) (c e : Word) (k : Key) : (s.enumFix c e k).hostData = s.hostData := by unfold State.enumFix; split <;> rfl

end Sys2Proof.Machine
end

