-- ==== Sys2Proof/Laws/Memory.lean ====
section
/-! SUPPORT. The laws of sparse storage, of byte memory and of the model store: what a read after a write gives, that
every operation keeps the canonical form, and that equal contents are equal data. -/

namespace Sys2Proof.Machine

/-! ### Sparse storage -/

section Cells

variable {α : Type} {d : α} {m n : List (Nat × α)} {a b : Nat} {v : α}

@[simp] theorem readCell_nil : readCell d [] a = d := rfl

theorem readCell_eraseCell : readCell d (eraseCell m a) b = if b = a then d else readCell d m b := by
  induction m with
  | nil => simp [eraseCell]
  | cons c m ih =>
    obtain ⟨k, w⟩ := c
    by_cases hk : k = a
    · subst hk
      simp only [eraseCell, List.filter_cons, ne_eq, not_true_eq_false, decide_false, Bool.false_eq_true, if_false,
        readCell] at ih ⊢
      rw [ih]
      by_cases hb : b = k
      · simp [hb]
      · simp [hb, Ne.symm hb]
    · simp only [eraseCell, List.filter_cons, ne_eq, hk, not_false_eq_true, decide_true, if_true, readCell] at ih ⊢
      rw [ih]
      by_cases hb : k = b
      · simp [hb, show ¬b = a from hb ▸ hk]
      · simp [hb]

theorem readCell_of_not_mem (h : ∀ c ∈ m, c.1 ≠ a) : readCell d m a = d := by
  induction m with
  | nil => rfl
  | cons c m ih =>
    obtain ⟨k, w⟩ := c
    have hk : k ≠ a := h (k, w) (List.mem_cons_self ..)
    simp only [readCell, hk, if_false]
    exact ih (fun c hc => h c (List.mem_cons_of_mem _ hc))

theorem readCell_insertCell (h : ∀ c ∈ m, c.1 ≠ a) :
    readCell d (insertCell m a v) b = if b = a then v else readCell d m b := by
  induction m with
  | nil =>
    by_cases hb : b = a
    · simp [insertCell, readCell, hb]
    · simp [insertCell, readCell, hb, Ne.symm hb]
  | cons c m ih =>
    obtain ⟨k, w⟩ := c
    have hk : k ≠ a := h (k, w) (List.mem_cons_self ..)
    have ih := ih (fun c hc => h c (List.mem_cons_of_mem _ hc))
    by_cases hlt : a < k
    · by_cases hb : b = a
      · simp [insertCell, hlt, readCell, hb]
      · simp [insertCell, hlt, readCell, hb, Ne.symm hb]
    · by_cases hb : k = b
      · subst hb
        simp [insertCell, hlt, readCell, hk]
      · simp [insertCell, hlt, readCell, hb, ih]

theorem mem_eraseCell {c : Nat × α} : c ∈ eraseCell m a ↔ c ∈ m ∧ c.1 ≠ a := by simp [eraseCell]

theorem mem_insertCell {c : Nat × α} : c ∈ insertCell m a v ↔ c = (a, v) ∨ c ∈ m := by
  induction m with
  | nil => simp [insertCell]
  | cons e m ih =>
    obtain ⟨k, w⟩ := e
    by_cases hlt : a < k
    · simp [insertCell, hlt]
    · simp only [insertCell, hlt, if_false, List.mem_cons, ih]
      tauto

theorem insertCell_rises (h : m.Pairwise (fun x y => x.1 < y.1)) (ha : ∀ c ∈ m, c.1 ≠ a) :
    (insertCell m a v).Pairwise (fun x y => x.1 < y.1) := by
  induction m with
  | nil => simp [insertCell]
  | cons e m ih =>
    obtain ⟨k, w⟩ := e
    rw [List.pairwise_cons] at h
    have hk : k ≠ a := ha (k, w) (List.mem_cons_self ..)
    by_cases hlt : a < k
    · simp only [insertCell, hlt, if_true, List.pairwise_cons, List.mem_cons]
      refine ⟨?_, h.1, h.2⟩
      rintro c (rfl | hc)
      · exact hlt
      · exact hlt.trans (h.1 c hc)
    · simp only [insertCell, hlt, if_false, List.pairwise_cons]
      refine ⟨fun c hc => ?_, ih h.2 (fun c hc => ha c (List.mem_cons_of_mem _ hc))⟩
      rcases mem_insertCell.mp hc with rfl | hc
      · exact lt_of_le_of_ne (not_lt.mp hlt) hk
      · exact h.1 c hc

variable [DecidableEq α]

/-- What a read gives after a write, for every storage and every place. -/
theorem readCell_writeCell : readCell d (writeCell d m a v) b = if b = a then v else readCell d m b := by
  unfold writeCell
  split
  · rename_i hv
    rw [readCell_eraseCell, hv]
  · rw [readCell_insertCell (fun c hc => (mem_eraseCell.mp hc).2), readCell_eraseCell]
    split <;> rfl

@[simp] theorem readCell_writeCell_same : readCell d (writeCell d m a v) a = v := by simp [readCell_writeCell]

theorem readCell_writeCell_ne (h : b ≠ a) : readCell d (writeCell d m a v) b = readCell d m b := by
  simp [readCell_writeCell, h]

/-- Every entry after a write is the one written, or stood before at another place. -/
theorem mem_writeCell {c : Nat × α} (h : c ∈ writeCell d m a v) : c = (a, v) ∨ (c ∈ m ∧ c.1 ≠ a) := by
  unfold writeCell at h
  split at h
  · exact .inr (mem_eraseCell.mp h)
  · rcases mem_insertCell.mp h with h | h
    · exact .inl h
    · exact .inr (mem_eraseCell.mp h)

theorem eraseCell_wf (h : cellsWf d m) : cellsWf d (eraseCell m a) :=
  ⟨h.1.filter _, fun c hc => h.2 c (mem_eraseCell.mp hc).1⟩

/-- A write keeps the canonical form. -/
theorem writeCell_wf (h : cellsWf d m) : cellsWf d (writeCell d m a v) := by
  refine ⟨?_, fun c hc => ?_⟩
  · unfold writeCell
    split
    · exact (eraseCell_wf h).1
    · exact insertCell_rises (eraseCell_wf h).1 (fun c hc => (mem_eraseCell.mp hc).2)
  · unfold writeCell at hc
    split at hc
    · exact (eraseCell_wf h).2 c hc
    · rename_i hv
      rcases mem_insertCell.mp hc with rfl | hc
      · exact hv
      · exact (eraseCell_wf h).2 c hc

theorem cellsWf_nil : cellsWf d ([] : List (Nat × α)) := by simp [cellsWf]

theorem readCell_of_mem (h : cellsWf d m) {c : Nat × α} (hc : c ∈ m) : readCell d m c.1 = c.2 := by
  induction m with
  | nil => cases hc
  | cons e m ih =>
    obtain ⟨k, w⟩ := e
    have h' := List.pairwise_cons.mp h.1
    rcases List.mem_cons.mp hc with rfl | hc
    · simp [readCell]
    · have : k ≠ c.1 := (h'.1 c hc).ne
      simp only [readCell, this, if_false]
      exact ih ⟨h'.2, fun c hc => h.2 c (List.mem_cons_of_mem _ hc)⟩ hc

/-- An entry of canonical storage stands where a read does not give what an unlisted place holds. -/
theorem mem_iff_readCell (h : cellsWf d m) {c : Nat × α} : c ∈ m ↔ readCell d m c.1 = c.2 ∧ c.2 ≠ d := by
  refine ⟨fun hc => ⟨readCell_of_mem h hc, h.2 c hc⟩, fun ⟨hr, hd⟩ => ?_⟩
  by_contra hc
  by_cases hk : ∃ e ∈ m, e.1 = c.1
  · obtain ⟨e, he, hek⟩ := hk
    have := readCell_of_mem h he
    rw [hek, hr] at this
    exact hc (by rwa [show c = e from Prod.ext hek.symm this])
  · exact hd (by rw [← hr]; exact readCell_of_not_mem (fun e he h => hk ⟨e, he, h⟩))

/-- Equal contents are equal data. -/
theorem cells_ext (hm : cellsWf d m) (hn : cellsWf d n) (h : ∀ a, readCell d m a = readCell d n a) : m = n := by
  have : m.Perm n := by
    have nodup : ∀ {l : List (Nat × α)}, cellsWf d l → l.Nodup := fun hl => hl.1.imp (fun h e => h.ne (congrArg Prod.fst e))
    refine (List.perm_ext_iff_of_nodup (nodup hm) (nodup hn)).mpr (fun c => ?_)
    rw [mem_iff_readCell hm, mem_iff_readCell hn, h]
  exact this.eq_of_pairwise (fun _ _ _ _ h h' => absurd h h'.asymm) hm.1 hn.1

end Cells

/-! ### Byte memory -/

theorem Memory.read_write (m : Memory) (a : Nat) (b : Byte) (x : Nat) :
    (m.write a b).read x = if x = a then b else m.read x := readCell_writeCell

theorem Memory.write_wf {m : Memory} (h : m.wf) (a : Nat) (b : Byte) : (m.write a b).wf := writeCell_wf h

/-- Equal memories are equal data. -/
theorem Memory.ext_of_wf {m n : Memory} (hm : m.wf) (hn : n.wf) (h : ∀ a, m.read a = n.read a) : m = n :=
  cells_ext hm hn h

@[simp] theorem Memory.read_nil (a : Nat) : Memory.read [] a = 0 := rfl

/-- What a read gives after a range has been written. -/
theorem Memory.read_writeBytes (m : Memory) (off : Nat) (bs : List Byte) (x : Nat) :
    (m.writeBytes off bs).read x = if off ≤ x ∧ x < off + bs.length then bs.getD (x - off) 0 else m.read x := by
  induction bs generalizing m off with
  | nil => simp [Memory.writeBytes, show ¬(off ≤ x ∧ x < off) by omega]
  | cons b bs ih =>
    rw [Memory.writeBytes, ih, Memory.read_write]
    by_cases h : x = off
    · subst h
      simp
    · by_cases h' : off + 1 ≤ x
      · obtain ⟨i, rfl⟩ := Nat.exists_eq_add_of_le h'
        simp [show off + 1 + i - off = i + 1 by omega, show off ≤ off + 1 + i by omega, h,
          show (off + 1 + i < off + 1 + bs.length) = (off + 1 + i < off + (bs.length + 1)) by
            apply propext; omega]
      · simp [show ¬off + 1 ≤ x from h', show ¬off ≤ x by omega, h]

theorem Memory.writeBytes_wf {m : Memory} (h : m.wf) (off : Nat) (bs : List Byte) : (m.writeBytes off bs).wf := by
  induction bs generalizing m off with
  | nil => exact h
  | cons b bs ih => exact ih (Memory.write_wf h off b) (off + 1)

/-- A range written below a bound leaves the memory below it. -/
theorem Memory.writeBytes_below {m : Memory} {n : Nat} (h : ∀ c ∈ m, c.1 < n) (off : Nat) (bs : List Byte)
    (hb : off + bs.length ≤ n) : ∀ c ∈ m.writeBytes off bs, c.1 < n := by
  induction bs generalizing m off with
  | nil => exact h
  | cons b bs ih =>
    have hl : (b :: bs).length = bs.length + 1 := rfl
    refine ih (fun c hc => ?_) (off + 1) (by omega)
    rcases mem_writeCell hc with rfl | ⟨hc, -⟩
    · show off < n
      omega
    · exact h c hc

theorem bufferOk_writeBytes {m : Memory} {n : Nat} (h : bufferOk m n) (off : Nat) (bs : List Byte)
    (hb : off + bs.length ≤ n) : bufferOk (m.writeBytes off bs) n :=
  ⟨Memory.writeBytes_wf h.1 off bs, Memory.writeBytes_below h.2 off bs hb⟩

theorem bufferOk_nil (n : Nat) : bufferOk [] n := ⟨cellsWf_nil, by simp⟩

@[simp] theorem Memory.readBytes_length (m : Memory) (off n : Nat) : (m.readBytes off n).length = n := by
  simp [Memory.readBytes]

theorem Memory.readBytes_getD (m : Memory) (off n i : Nat) :
    (m.readBytes off n).getD i 0 = if i < n then m.read (off + i) else 0 := by
  by_cases h : i < n
  · simp [Memory.readBytes, h, List.getD_eq_getElem?_getD]
  · simp [Memory.readBytes, h, List.getD_eq_getElem?_getD]

/-! ### Buffers of a state -/

@[simp] theorem State.buf_setBuf (s : State) (sp sp' : Space) (m : Memory) :
    (s.setBuf sp m).buf sp' = if sp' = sp then m else s.buf sp' := by cases sp <;> cases sp' <;> rfl

@[simp] theorem State.readBytes_length (s : State) (sp : Space) (off n : Nat) :
    (s.readBytes sp off n).length = n := Memory.readBytes_length ..

theorem State.readBytes_getD (s : State) (sp : Space) (off n i : Nat) :
    (s.readBytes sp off n).getD i 0 = if i < n then s.byteAt sp (off + i) else 0 := Memory.readBytes_getD ..

/-- What a buffer byte reads as after a range of one buffer has been written. -/
theorem State.byteAt_writeBytes (s : State) (sp : Space) (off : Nat) (bs : List Byte) (sp' : Space) (a : Nat) :
    (s.writeBytes sp off bs).byteAt sp' a =
      if sp' = sp ∧ off ≤ a ∧ a < off + bs.length then bs.getD (a - off) 0 else s.byteAt sp' a := by
  unfold State.byteAt State.writeBytes
  rw [State.buf_setBuf]
  by_cases h : sp' = sp
  · subst h
    simp [Memory.read_writeBytes]
  · simp [h]

/-- What every state update leaves of the buffers. -/
theorem State.byteAt_congr {s t : State} (hi : t.ibuf = s.ibuf) (ho : t.obuf = s.obuf) (hd : t.dimg = s.dimg)
    (sp : Space) (a : Nat) : t.byteAt sp a = s.byteAt sp a := by
  unfold State.byteAt
  cases sp
  · exact congrArg (fun m => Memory.read m a) hi
  · exact congrArg (fun m => Memory.read m a) ho
  · exact congrArg (fun m => Memory.read m a) hd

/-- A write to a buffer changes that buffer alone. -/
theorem State.writeBytes_eq (s : State) (sp : Space) (off : Nat) (bs : List Byte) :
    s.writeBytes sp off bs = { s with
      ibuf := (s.writeBytes sp off bs).ibuf, obuf := (s.writeBytes sp off bs).obuf
      dimg := (s.writeBytes sp off bs).dimg } := by cases sp <;> rfl

/-- A write to DIMG changes DIMG alone. -/
theorem State.writeBytes_dimg_eq (s : State) (off : Nat) (bs : List Byte) :
    s.writeBytes .dimg off bs = { s with dimg := s.dimg.writeBytes off bs } := rfl

/-- A write to OBUF changes OBUF alone. -/
theorem State.writeBytes_obuf_eq (s : State) (off : Nat) (bs : List Byte) :
    s.writeBytes .obuf off bs = { s with obuf := s.obuf.writeBytes off bs } := rfl

/-! ### The model store -/

theorem State.entry_setEntry (s : State) (k : Nat) (e : Entry) (k' : Nat) :
    (s.setEntry k e).entry k' = if k' = k then e else s.entry k' := readCell_writeCell

theorem State.entry_congr {s t : State} (h : t.model = s.model) (k : Nat) : t.entry k = s.entry k := by
  unfold State.entry
  rw [h]

theorem State.entry_setVal (s : State) (k : Key) (v : Word) (k' : Nat) :
    (s.setVal k v).entry k' = if k' = k.toNat then { s.entry k' with val := v } else s.entry k' := by
  unfold State.setVal
  rw [State.entry_setEntry]
  split
  · rename_i h
    rw [h]
  · rfl

theorem State.val_setVal (s : State) (k k' : Key) (v : Word) :
    (s.setVal k v).val k' = if k' = k then v else s.val k' := by
  unfold State.val
  rw [State.entry_setVal]
  by_cases h : k' = k
  · simp [h]
  · simp [h, BitVec.toNat_inj]

theorem textCells_read (i : Nat) (codes : List Word) (j : Nat) :
    readCell 0#32 (textCells i codes) j = if i ≤ j then codes.getD (j - i) 0 else 0 := by
  induction codes generalizing i with
  | nil => simp [textCells]
  | cons c cs ih =>
    by_cases h : i = j
    · subst h
      by_cases hc : c = 0#32
      · simp [textCells, hc, ih, show ¬i + 1 ≤ i by omega]
      · simp [textCells, hc, readCell]
    · have key : (if i + 1 ≤ j then cs.getD (j - (i + 1)) 0 else 0) = if i ≤ j then (c :: cs).getD (j - i) 0 else 0 := by
        by_cases h' : i + 1 ≤ j
        · obtain ⟨n, rfl⟩ := Nat.exists_eq_add_of_le h'
          simp [show i + 1 + n - i = n + 1 by omega, show i ≤ i + 1 + n by omega]
        · simp [h', show ¬i ≤ j by omega]
      by_cases hc : c = 0#32
      · simp only [textCells, hc, if_true]
        rw [ih, key, hc]
      · simp only [textCells, hc, if_false, readCell, h]
        rw [ih, key]

theorem mem_textCells {i : Nat} {codes : List Word} {c : Nat × Word} (h : c ∈ textCells i codes) :
    i ≤ c.1 ∧ c.1 < i + codes.length ∧ c.2 ≠ 0 := by
  induction codes generalizing i with
  | nil => cases h
  | cons x cs ih =>
    by_cases hx : x = 0#32
    · simp only [textCells, hx, if_true] at h
      have := ih h
      simp only [List.length_cons]
      exact ⟨by omega, by omega, this.2.2⟩
    · simp only [textCells, hx, if_false] at h
      rcases List.mem_cons.mp h with rfl | h
      · exact ⟨Nat.le_refl _, by simp, hx⟩
      · have := ih h
        simp only [List.length_cons]
        exact ⟨by omega, by omega, this.2.2⟩

theorem textCells_wf (i : Nat) (codes : List Word) : cellsWf 0#32 (textCells i codes) := by
  refine ⟨?_, fun c hc => (mem_textCells hc).2.2⟩
  induction codes generalizing i with
  | nil => simp [textCells]
  | cons x cs ih =>
    by_cases hx : x = 0#32
    · simp only [textCells, hx, if_true]
      exact ih _
    · simp only [textCells, hx, if_false, List.pairwise_cons]
      exact ⟨fun c hc => Nat.lt_of_succ_le (mem_textCells hc).1, ih _⟩

@[simp] theorem Entry.withText_val (e : Entry) (n : Nat) (codes : List Word) : (e.withText n codes).val = e.val := rfl

@[simp] theorem Entry.withText_len (e : Entry) (n : Nat) (codes : List Word) :
    (e.withText n codes).len = min n codes.length := by simp [Entry.withText]

/-- The codes of a written text: those kept, and 0 beyond. -/
theorem Entry.code_withText (e : Entry) (n : Nat) (codes : List Word) (i : Nat) :
    (e.withText n codes).code i = if i < n then codes.getD i 0 else 0 := by
  unfold Entry.code Entry.withText
  rw [textCells_read]
  by_cases h : i < n
  · simp [h, List.getD_eq_getElem?_getD]
  · simp [h, List.getD_eq_getElem?_getD]

theorem entryOk_withText (P : Params) (e : Entry) (codes : List Word) : entryOk P (e.withText P.textMax codes) := by
  refine ⟨by simp, textCells_wf _ _, fun c hc => ?_⟩
  have := (mem_textCells hc).2.1
  simp at this
  omega

theorem entryOk_zero (P : Params) : entryOk P Entry.zero := by simp [entryOk, Entry.zero, cellsWf]

/-- The entry of any key of a legal model store is within its bounds. -/
theorem entryOk_entry {P : Params} {m : ModelStore} (h : modelOk P m) (k : Nat) :
    entryOk P (readCell Entry.zero m k) := by
  by_cases hk : readCell Entry.zero m k = Entry.zero
  · rw [hk]
    exact entryOk_zero P
  · exact (h.2 (k, _) ((mem_iff_readCell h.1).mpr ⟨rfl, hk⟩)).2

/-- Writing an entry within its bounds at a key below NKEYS keeps a model store legal. -/
theorem modelOk_writeCell {P : Params} {m : ModelStore} (h : modelOk P m) {k : Nat} (hk : k < P.nkeys) {e : Entry}
    (he : entryOk P e) : modelOk P (writeCell Entry.zero m k e) := by
  refine ⟨writeCell_wf h.1, fun c hc => ?_⟩
  rcases mem_writeCell hc with rfl | ⟨hc, -⟩
  · exact ⟨hk, he⟩
  · exact h.2 c hc

theorem modelOk_nil (P : Params) : modelOk P [] := ⟨cellsWf_nil, by simp⟩

/-! ### Reset -/

/-- The memories of the reset state have the canonical form. -/
theorem reset_memory_wf : State.reset.ibuf.wf ∧ State.reset.obuf.wf ∧ State.reset.dimg.wf := by decide

end Sys2Proof.Machine
end

