-- ==== Sys2Proof/Laws/Ops.lean ====
section
/-! SUPPORT. One lemma per shared operation that says once everything it can do: the checks of the commands, the current
device, the enumeration check, the clamp, the byte transforms, the revise pass, the defaults of INIT; the construction of a
model; when two formats are told apart; and an access to the register window. -/

namespace Sys2Proof.Machine

/-! ### Construction -/

/-- Everything that building a model can answer (R47): the reset state for a well-formed configuration, and a refusal for
any other. -/
theorem construct_cases (c : Config) :
    (configWf c = true ∧ construct c = .next (State.resetWith c)) ∨
      (configWf c = false ∧ construct c = .refused .illFormedConfig) := by
  cases h : configWf c <;> simp [construct, h]

/-- A model that is built stands in the reset state of a well-formed configuration. -/
theorem construct_eq_next {c : Config} {s : State} :
    construct c = .next s ↔ configWf c = true ∧ s = State.resetWith c := by
  rcases construct_cases c with ⟨h, e⟩ | ⟨h, e⟩ <;> simp [h, e, eq_comm]

/-! ### Telling two formats apart -/

/-- What a match is (R260): the length, and every header byte that the format compares. -/
theorem matchFormat_eq_none {f : Format} {s : State} :
    matchFormat f s = .none ↔
      s.inLen.toNat = f.total ∧ ∀ i, checksByte f i = true → s.byteAt .ibuf i = f.hdr.getD i 0 := by
  have hh : headerMatches f s = true ↔
      ∀ i, i < f.rl → (f.ver = true ∧ i = f.voff) ∨ s.byteAt .ibuf i = f.hdr.getD i 0 := by
    simp [headerMatches]
  have hv : versionMatches f s = true ↔ (f.ver = true → s.byteAt .ibuf f.voff = f.hdr.getD f.voff 0) := by
    cases h : f.ver <;> simp [versionMatches, h]
  have hc : (headerMatches f s = true ∧ versionMatches f s = true) ↔
      ∀ i, checksByte f i = true → s.byteAt .ibuf i = f.hdr.getD i 0 := by
    rw [hh, hv]
    simp only [checksByte, Bool.or_eq_true, decide_eq_true_eq, Bool.and_eq_true, beq_iff_eq]
    constructor
    · rintro ⟨h, v⟩ i (hi | ⟨hver, rfl⟩)
      · rcases h i hi with ⟨hver, rfl⟩ | h
        · exact v hver
        · exact h
      · exact v hver
    · intro h
      exact ⟨fun i hi => .inr (h i (.inl hi)), fun hver => h _ (.inr ⟨hver, rfl⟩)⟩
  rw [← hc]
  unfold matchFormat
  by_cases hl : s.inLen.toNat = f.total <;> cases headerMatches f s <;> cases versionMatches f s <;> simp [hl]

/-- The bytes a format compares stand in its header, where RL and VOFF are in range (R43, FW4). -/
theorem lt_of_checksByte {f : Format} (hr : f.rl ≤ f.h) (hv : f.ver = true → f.voff < f.h) {i : Nat}
    (h : checksByte f i = true) : i < f.h := by
  simp only [checksByte, Bool.or_eq_true, decide_eq_true_eq, Bool.and_eq_true, beq_iff_eq] at h
  rcases h with h | ⟨h, rfl⟩
  · omega
  · exact hv h

/-- `distinguishable` is the condition of R46: no frame in IBUF matches both formats. -/
theorem distinguishable_iff {f g : Format} (hf : f.rl ≤ f.h) (hg : g.rl ≤ g.h)
    (hfv : f.ver = true → f.voff < f.h) (hgv : g.ver = true → g.voff < g.h) (hl : f.total < 2 ^ 32) :
    distinguishable f g = true ↔ ∀ s : State, ¬(matchFormat f s = .none ∧ matchFormat g s = .none) := by
  simp only [matchFormat_eq_none, distinguishable, Bool.or_eq_true, bne_iff_ne, List.any_eq_true, List.mem_range,
    Bool.and_eq_true]
  constructor
  · rintro (h | ⟨i, -, ⟨hi, hj⟩, h⟩) s ⟨⟨lf, bf⟩, lg, bg⟩
    · exact h (lf.symm.trans lg)
    · exact h ((bf i hi).symm.trans (bg i hj))
  · intro h
    by_contra hn
    simp only [not_or, not_not, not_exists, not_and] at hn
    let bs := (List.range (f.h + g.h)).map fun i => if checksByte f i then f.hdr.getD i 0 else g.hdr.getD i 0
    let s : State := { State.reset with inLen := BitVec.ofNat 32 f.total }
    have hb : ∀ i, i < f.h + g.h → (s.writeBytes .ibuf 0 bs).byteAt .ibuf i =
        if checksByte f i then f.hdr.getD i 0 else g.hdr.getD i 0 := by
      intro i hi
      simp [State.byteAt_writeBytes, bs, hi, List.getD_eq_getElem?_getD]
    have hlen : (s.writeBytes .ibuf 0 bs).inLen.toNat = f.total := by
      simp only [State.writeBytes, State.setBuf, s, BitVec.toNat_ofNat]
      omega
    refine h (s.writeBytes .ibuf 0 bs) ⟨⟨hlen, fun i hi => ?_⟩, hlen.trans hn.1, fun i hi => ?_⟩
    · have := lt_of_checksByte hf hfv hi
      rw [hb i (by omega), if_pos hi]
    · have hig := lt_of_checksByte hg hgv hi
      rw [hb i (by omega)]
      split
      · rename_i hif
        have := lt_of_checksByte hf hfv hif
        exact hn.2 i (by omega) ⟨hif, hi⟩
      · rfl

/-! ### The register window -/

/-- Everything that a register access can answer (R60, R63): what the block does at the offset, for one aligned word of
the window, and a refusal for any other access. -/
theorem atRegister_cases (addr : Nat) (width : AccessWidth) (s : State)
    (k : Nat → Host.Outcome State Fault Refusal) :
    (s.cfg.params.hostBase ≤ addr ∧ addr < s.cfg.params.hostBase + windowSize s.cfg.params ∧ width = .word ∧
        (addr - s.cfg.params.hostBase) % 4 = 0 ∧ atRegister addr width s k = k (addr - s.cfg.params.hostBase)) ∨
      atRegister addr width s k = .refused (.hostAddress addr) ∨
      atRegister addr width s k = .refused (.hostWidth addr) := by
  unfold atRegister
  split
  · exact .inr (.inl rfl)
  · split
    · exact .inr (.inr rfl)
    · rename_i ha hw
      simp only [not_or, not_lt, not_le, not_not, ne_eq] at ha hw
      exact .inl ⟨ha.1, ha.2, hw.1, hw.2, rfl⟩

/-! ### Checks in order -/

section Checks

variable {α β : Type}

@[simp] theorem ok_bind (a : α) (f : α → Except FaultRec β) : ((Except.ok a : Except FaultRec α) >>= f) = f a := rfl

@[simp] theorem error_bind (e : FaultRec) (f : α → Except FaultRec β) :
    ((Except.error e : Except FaultRec α) >>= f) = .error e := rfl

/-- A sequence of checks ends well exactly when each part does. -/
theorem bind_eq_ok {x : Except FaultRec α} {f : α → Except FaultRec β} {r : β} :
    (x >>= f) = .ok r ↔ ∃ a, x = .ok a ∧ f a = .ok r := by
  cases x with
  | error e => simp
  | ok a => simp

/-- A sequence of checks raises what its first failing part raises. -/
theorem bind_eq_error {x : Except FaultRec α} {f : α → Except FaultRec β} {e : FaultRec} :
    (x >>= f) = .error e ↔ x = .error e ∨ ∃ a, x = .ok a ∧ f a = .error e := by
  cases x with
  | error e => simp
  | ok a => simp

end Checks

theorem need_eq_ok {c : Bool} {f : FaultRec} {u : Unit} : need c f = .ok u ↔ c = true := by
  unfold need
  split <;> simp_all

theorem need_eq_error {c : Bool} {f g : FaultRec} : need c f = .error g ↔ c = false ∧ f = g := by
  unfold need
  split <;> simp_all

@[simp] theorem need_true (f : FaultRec) : need true f = .ok () := rfl

@[simp] theorem need_false (f : FaultRec) : need false f = .error f := rfl

theorem noViolation_eq_ok {v : Option FaultRec} {u : Unit} : noViolation v = .ok u ↔ v = none := by
  cases v <;> simp [noViolation]

theorem noViolation_eq_error {v : Option FaultRec} {f : FaultRec} : noViolation v = .error f ↔ v = some f := by
  cases v <;> simp [noViolation]

@[simp] theorem conclude_ok (s t : State) : conclude s (.ok t) = .next t := rfl

@[simp] theorem conclude_error (s : State) (f : FaultRec) : conclude s (.error f) = .next (s.raiseFault f) := rfl

/-- A command always answers a next state: the one its rule ends with, or the fault entry. -/
theorem conclude_eq_next {s t : State} {r : Except FaultRec State} :
    conclude s r = .next t ↔ r = .ok t ∨ ∃ f, r = .error f ∧ t = s.raiseFault f := by
  cases r with
  | ok u => simp
  | error f => simp [eq_comm]

/-- What `chk_bref` accepts (R11, R83). -/
theorem chkBref_eq_ok {P : Params} {b : Word} {n : Nat} {r : BufRef} :
    chkBref P b n = .ok r ↔
      bitsAt b 18 14 = 0 ∧ spaceOf (bitsAt b 16 2) = some r.sp ∧ r.off = bitsAt b 0 16 ∧
        r.off + n ≤ spaceSize P r.sp := by
  unfold chkBref
  obtain ⟨rs, ro⟩ := r
  split
  · simp_all
  · split
    · simp_all
    · rename_i sp hsp
      split
      · simp only [reduceCtorEq, hsp, Option.some.injEq, false_iff, not_and, not_le]
        rintro - rfl rfl
        assumption
      · simp only [Except.ok.injEq, BufRef.mk.injEq, hsp, Option.some.injEq]
        constructor
        · rintro ⟨rfl, rfl⟩
          exact ⟨by omega, rfl, rfl, by omega⟩
        · rintro ⟨-, rfl, rfl, -⟩
          exact ⟨rfl, rfl⟩

/-- What `chk_bref` raises (R11). -/
theorem chkBref_error {P : Params} {b : Word} {n : Nat} {f : FaultRec} (h : chkBref P b n = .error f) :
    f = badArg ∨ f = ⟨.bounds, noKey⟩ := by
  unfold chkBref at h
  split at h
  · exact .inl (by simpa [badArg, eq_comm] using h)
  · split at h
    · exact .inl (by simpa [badArg, eq_comm] using h)
    · split at h
      · exact .inr (by simpa [eq_comm] using h)
      · cases h

/-- A range that `chk_bref` accepts lies in its space. -/
theorem chkBref_bound {P : Params} {b : Word} {n : Nat} {r : BufRef} (h : chkBref P b n = .ok r) :
    r.off + n ≤ spaceSize P r.sp := (chkBref_eq_ok.mp h).2.2.2

/-! ### The current device -/

theorem currentDevice_eq_ok {s : State} {dev : Device} :
    currentDevice s = .ok dev ↔ s.curdev ≠ 0xFF#8 ∧ s.cfg.devs[s.curdev.toNat]? = some dev := by
  unfold currentDevice
  split
  · simp_all
  · split <;> simp_all

theorem currentDevice_eq_error {s : State} {f : FaultRec} :
    currentDevice s = .error f ↔
      f = noDevice ∧ (s.curdev = 0xFF#8 ∨ s.cfg.devs[s.curdev.toNat]? = none) := by
  unfold currentDevice
  by_cases h : s.curdev = 0xFF#8
  · simp [h, eq_comm]
  · cases hd : s.cfg.devs[s.curdev.toNat]? <;> simp [h, eq_comm]

theorem currentDevice_congr {s t : State} (hd : t.curdev = s.curdev) (hc : t.cfg = s.cfg) :
    currentDevice t = currentDevice s := by
  unfold currentDevice
  rw [hd, hc]

/-! ### Operand formats -/

theorem bitsAt_eq (v : Word) (lo w : Nat) : bitsAt v lo w = v.toNat / 2 ^ lo % 2 ^ w := by
  simp [bitsAt, BitVec.extractLsb'_toNat, Nat.shiftRight_eq_div_pow]

theorem ecount_eq (e : Word) : ecount e = e.toNat % 65536 := by simp [ecount, bitsAt_eq]

theorem efall_eq (e : Word) : efall e = e.toNat / 65536 := by
  have := e.isLt
  rw [efall, bitsAt_eq]
  omega

theorem xfnameN_eq (x : Word) : xfnameN x = x.toNat % 64 := by simp [xfnameN, bitsAt_eq]

theorem xf14Lsbf_eq (x : Word) : xf14Lsbf x = decide (x.toNat % 2 = 1) := by
  simp [xf14Lsbf, BitVec.getLsbD, Nat.testBit_zero]

/-- A legal GEOM: one or two segments of 1 to 8 bits, each inside its byte, of at most 8 bits together (R84). -/
theorem geomLegal_bounds {g : Word} (h : geomLegal g = true) :
    1 ≤ (geomOf g).wa ∧ (geomOf g).sa + (geomOf g).wa ≤ 8 ∧ (geomOf g).sb + (geomOf g).wb ≤ 8 ∧
      (geomOf g).wa + (geomOf g).wb ≤ 8 ∧
      (if (geomOf g).two then 1 ≤ (geomOf g).wb
        else (geomOf g).sb = 0 ∧ (geomOf g).wb = 0 ∧ (geomOf g).ord = false) := by
  unfold geomLegal at h
  by_cases ht : (geomOf g).two
  · simp only [ht, if_true, Bool.and_eq_true, beq_iff_eq, decide_eq_true_eq] at h ⊢
    omega
  · simp only [ht, Bool.false_eq_true, if_false, Bool.and_eq_true, beq_iff_eq, decide_eq_true_eq,
      Bool.not_eq_true'] at h ⊢
    refine ⟨by omega, by omega, by omega, by omega, by omega, by omega, h.2.2⟩

/-! ### Enumeration check and clamp -/

theorem enumPasses_eq (code enumw : Word) :
    enumPasses code enumw = decide (enumw.toNat % 65536 = 0 ∨ code.toNat < enumw.toNat % 65536) := by
  simp [enumPasses, ecount_eq, Bool.decide_or, beq_eq_decide]

/-- The code that the enumeration check gives (R172). -/
theorem enumCode_eq (code enumw : Word) : enumCode code enumw = enumResult code enumw := by
  simp [enumCode, enumResult, enumPasses_eq, efall_eq]

/-- What the enumeration check records (R172, R33). -/
theorem diagRecorded_enumFix (s : State) (code enumw : Word) (key : Key) :
    diagRecorded s (s.enumFix code enumw key) code enumw key := by
  unfold diagRecorded State.enumFix
  rw [enumPasses_eq]
  by_cases h : enumw.toNat % 65536 = 0 ∨ code.toNat < enumw.toNat % 65536
  · simp [h]
  · simp only [h, if_false, decide_false, Bool.false_eq_true, State.logSubstitution]
    refine ⟨?_, ?_⟩
    · have := s.diagCount.isLt
      split
      · rename_i hc
        rw [hc]
        rfl
      · rename_i hc
        have hc : s.diagCount.toNat ≠ 0xFFFFFFFF := fun h => hc (BitVec.eq_of_toNat_eq h)
        rw [BitVec.toNat_add]
        rw [show (1 : Word).toNat = 1 from rfl]
        omega
    · have : diagWord code key = BitVec.ofNat 32 (code.toNat % 65536 * 65536 + key.toNat) := by
        apply BitVec.eq_of_toNat_eq
        have hk := key.isLt
        simp only [diagWord, BitVec.toNat_append, BitVec.extractLsb'_toNat, BitVec.toNat_ofNat, Nat.shiftRight_zero]
        rw [← Nat.shiftLeft_add_eq_or_of_lt hk, Nat.shiftLeft_eq]
        omega
      rw [this]

/-- An enumeration check changes DIAG_COUNT and DIAG_LOG alone. -/
theorem enumFix_eq (s : State) (code enumw : Word) (key : Key) :
    s.enumFix code enumw key = { s with
      diagCount := (s.enumFix code enumw key).diagCount, diagLog := (s.enumFix code enumw key).diagLog } := by
  unfold State.enumFix
  split <;> rfl

/-- `clamp` of R16 as numbers. -/
theorem clampWord_toInt {v lo hi : Word} (h : lo.toInt ≤ hi.toInt) :
    (clampWord v lo hi).toInt = max lo.toInt (min v.toInt hi.toInt) := by
  unfold clampWord
  split
  · omega
  · split <;> omega

/-- Clamping twice to the same range is clamping once. -/
theorem clampWord_idem {v lo hi : Word} (h : lo.toInt ≤ hi.toInt) :
    clampWord (clampWord v lo hi) lo hi = clampWord v lo hi := by
  apply BitVec.eq_of_toInt_eq
  rw [clampWord_toInt h, clampWord_toInt h]
  omega

/-! ### Byte transforms -/

@[simp] theorem nibHi_toNat (b : Byte) : (nibHi b).toNat = b.toNat / 16 := by
  have : ∀ b : Byte, (nibHi b).toNat = b.toNat / 16 := by decide
  exact this b

@[simp] theorem nibLo_toNat (b : Byte) : (nibLo b).toNat = b.toNat % 16 := by
  have : ∀ b : Byte, (nibLo b).toNat = b.toNat % 16 := by decide
  exact this b

theorem nibJoin_toNat (h l : Byte) : (nibJoin h l).toNat = 16 * (h.toNat % 16) + l.toNat % 16 := by
  have hh : (h &&& 0xF#8).toNat = h.toNat % 16 := nibLo_toNat h
  have hl : (l &&& 0xF#8).toNat = l.toNat % 16 := nibLo_toNat l
  unfold nibJoin
  rw [BitVec.toNat_or, BitVec.toNat_shiftLeft, hh, hl, Nat.shiftLeft_eq,
    Nat.mod_eq_of_lt (show h.toNat % 16 * 2 ^ 4 < 2 ^ 8 by omega), ← Nat.shiftLeft_eq,
    ← Nat.shiftLeft_add_eq_or_of_lt (show l.toNat % 16 < 2 ^ 4 by omega), Nat.shiftLeft_eq]
  omega

@[simp] theorem nibExpand_length (bs : List Byte) : (nibExpand bs).length = 2 * bs.length := by
  induction bs with
  | nil => rfl
  | cons b bs ih => simp [nibExpand, ih]; omega

/-- The nibble bytes of a list: the high one first (R120). -/
theorem nibExpand_getD (bs : List Byte) (i : Nat) :
    (nibExpand bs).getD (2 * i) 0 = nibHi (bs.getD i 0) ∧ (nibExpand bs).getD (2 * i + 1) 0 = nibLo (bs.getD i 0) := by
  induction bs generalizing i with
  | nil => constructor <;> simp [nibExpand, nibHi, nibLo]
  | cons b bs ih =>
    cases i with
    | zero => exact ⟨rfl, rfl⟩
    | succ i => exact ih i

theorem nibCompress_getD (bs : List Byte) (i : Nat) (h : 2 * i + 1 < bs.length) :
    (nibCompress bs).getD i 0 = nibJoin (bs.getD (2 * i) 0) (bs.getD (2 * i + 1) 0) := by
  induction bs using nibCompress.induct generalizing i with
  | case1 a b bs ih =>
    cases i with
    | zero => rfl
    | succ i => exact ih i (by simp only [List.length_cons] at h; omega)
  | case2 bs hbs =>
    match bs, hbs, h with
    | [], _, h => simp at h
    | [_], _, h => simp only [List.length_singleton] at h; omega
    | a :: b :: bs, hbs, _ => exact absurd rfl (hbs a b bs)

theorem nibCompress_length (bs : List Byte) : (nibCompress bs).length = bs.length / 2 := by
  induction bs using nibCompress.induct with
  | case1 a b bs ih => simp only [nibCompress, List.length_cons, ih]; omega
  | case2 bs hbs =>
    match bs, hbs with
    | [], _ => rfl
    | [_], _ => simp [nibCompress]
    | a :: b :: bs, hbs => exact absurd rfl (hbs a b bs)

theorem and_7F_toNat (v : Word) : (v &&& 0x7F#32).toNat = v.toNat % 128 := by
  rw [BitVec.toNat_and]
  exact Nat.and_two_pow_sub_one_eq_mod v.toNat 7

@[simp] theorem s14Msb_toNat (v : Word) : (s14Msb v).toNat = v.toNat / 128 % 128 := by
  unfold s14Msb
  rw [BitVec.toNat_setWidth, and_7F_toNat, BitVec.toNat_ushiftRight, Nat.shiftRight_eq_div_pow]
  omega

@[simp] theorem s14Lsb_toNat (v : Word) : (s14Lsb v).toNat = v.toNat % 128 := by
  unfold s14Lsb
  rw [BitVec.toNat_setWidth, and_7F_toNat]
  omega

theorem byte_and_7F_toNat (b : Byte) : (b &&& 0x7F#8).toNat = b.toNat % 128 := by
  rw [BitVec.toNat_and]
  exact Nat.and_two_pow_sub_one_eq_mod b.toNat 7

theorem s14Join_toNat (m l : Byte) : (s14Join m l).toNat = 128 * (m.toNat % 128) + l.toNat % 128 := by
  unfold s14Join
  rw [BitVec.toNat_or, BitVec.toNat_shiftLeft, BitVec.toNat_setWidth, BitVec.toNat_setWidth, byte_and_7F_toNat,
    byte_and_7F_toNat, Nat.shiftLeft_eq,
    Nat.mod_eq_of_lt (show m.toNat % 128 < 2 ^ 32 by omega), Nat.mod_eq_of_lt (show l.toNat % 128 < 2 ^ 32 by omega),
    Nat.mod_eq_of_lt (show m.toNat % 128 * 2 ^ 7 < 2 ^ 32 by omega), ← Nat.shiftLeft_eq,
    ← Nat.shiftLeft_add_eq_or_of_lt (show l.toNat % 128 < 2 ^ 7 by omega), Nat.shiftLeft_eq]
  omega

theorem velByte_toNat (flag value : Word) : (velByte flag value).toNat = 128 * (flag.toNat % 2) + value.toNat % 128 := by
  unfold velByte
  rw [BitVec.toNat_setWidth, BitVec.toNat_or, and_7F_toNat, BitVec.toNat_shiftLeft, Nat.shiftLeft_eq]
  have h : flag.toNat * 2 ^ 7 % 2 ^ 32 = (flag.toNat % 2 ^ 25) <<< 7 := by rw [Nat.shiftLeft_eq]; omega
  rw [h, ← Nat.shiftLeft_add_eq_or_of_lt (show value.toNat % 128 < 2 ^ 7 by omega), Nat.shiftLeft_eq]
  omega

@[simp] theorem velFlag_toNat (b : Byte) : (velFlag b).toNat = b.toNat / 128 := by
  have := b.isLt
  unfold velFlag
  rw [BitVec.toNat_setWidth, BitVec.toNat_ushiftRight, Nat.shiftRight_eq_div_pow]
  omega

@[simp] theorem velValue_toNat (b : Byte) : (velValue b).toNat = b.toNat % 128 := by
  unfold velValue
  rw [BitVec.toNat_setWidth, byte_and_7F_toNat]
  omega

theorem ckSum_toNat (bs : List Byte) : (ckSum bs).toNat = byteSum bs % 128 := by
  unfold ckSum
  rw [BitVec.toNat_ofNat]
  omega

theorem ckValid_iff (recv computed : Byte) : ckValid recv computed = true ↔ recv = 0x7F#8 ∨ recv = computed := by
  simp [ckValid]

@[simp] theorem nameEnc_length (e : Entry) (n : Nat) : (nameEnc e n).length = n := by simp [nameEnc]

theorem nameDec_length_le (bs : List Byte) : (nameDec bs).length ≤ bs.length := by
  have := (List.dropWhile_sublist (l := bs.reverse) (fun b => decide (b.toNat ≤ 0x20))).length_le
  simpa [nameDec] using this

/-! ### The revise pass and the defaults of INIT -/

/-- Revising one key changes the model store alone. -/
theorem reviseKey_eq (dev : Device) (k : Nat) (s : State) : reviseKey dev k s = { s with model := (reviseKey dev k s).model } := by
  unfold reviseKey
  split
  · split <;> rfl
  · rfl
  · rfl

/-- The revise pass changes the model store alone. -/
theorem reviseKeys_eq (dev : Device) (ks : List Nat) (s : State) :
    reviseKeys dev ks s = { s with model := (reviseKeys dev ks s).model } := by
  induction ks generalizing s with
  | nil => rfl
  | cons k ks ih =>
    rw [reviseKeys, ih, reviseKey_eq]

theorem revise_eq (dev : Device) (s : State) : revise dev s = { s with model := (revise dev s).model } :=
  reviseKeys_eq ..

/-- The entry that revising one key leaves of any key. -/
theorem reviseKey_entry (dev : Device) (k : Nat) (s : State) (k' : Nat) :
    (reviseKey dev k s).entry k' =
      match (if k' = k ∧ k' < s.cfg.params.nkeys then schemaAt dev k' else none) with
      | some (.int lo hi _) => { s.entry k' with val := clampWord (s.entry k').val lo hi }
      | some (.text _) => s.entry k'
      | none => s.entry k' := by
  by_cases hk : k' = k
  · subst hk
    unfold reviseKey
    cases hs : schemaAt dev k' with
    | none => simp
    | some e =>
      cases e with
      | text d => by_cases hn : k' < s.cfg.params.nkeys <;> simp [hn]
      | int lo hi d =>
        by_cases hn : k' < s.cfg.params.nkeys
        · simp [hn, State.entry_setEntry]
        · simp [hn]
  · simp only [hk, false_and, if_false]
    unfold reviseKey
    split
    · split
      · simp [State.entry_setEntry, hk]
      · rfl
    · rfl
    · rfl

/-- Writing the defaults of the listed keys: what any key then holds (R292). -/
theorem initModel_read (P : Params) (dev : Device) (ks : List Nat) (k : Nat) :
    readCell Entry.zero (initModel P dev ks) k =
      match (if k ∈ ks ∧ k < P.nkeys then schemaAt dev k else none) with
      | some e => initEntry P e
      | none => Entry.zero := by
  induction ks with
  | nil => simp [initModel]
  | cons j ks ih =>
    by_cases hkj : k = j
    · subst hkj
      unfold initModel
      cases hs : schemaAt dev k with
      | none => simp only [ih, hs]; simp
      | some e =>
        by_cases hn : k < P.nkeys
        · simp [hn]
        · simp only [hn, if_false, ih]; simp
    · simp only [List.mem_cons, hkj, false_or]
      unfold initModel
      cases hs : schemaAt dev j with
      | none => exact ih
      | some e =>
        by_cases hn : j < P.nkeys
        · simp only [hn, if_true, readCell_writeCell_ne hkj]
          exact ih
        · simp only [hn, if_false]
          exact ih

/-- A defined key is one of the listed keys. -/
theorem mem_of_schemaAt {dev : Device} {k : Nat} {e : SchemaEntry} (h : schemaAt dev k = some e) :
    k ∈ dev.schema.map Prod.fst := by
  unfold schemaAt at h
  obtain ⟨l₁, l₂, heq, -⟩ := List.lookup_eq_some_iff.mp h
  rw [heq]
  simp

end Sys2Proof.Machine
end

