-- ==== Sys2Proof/Laws/Fields.lean ====
section
/-! SUPPORT. What a FieldSpec can do: the frames of the kind rules and of the walk, the meaning of one FieldSpec run on its
own, the numbers behind a bit field, and what a passed configuration check gives. -/

namespace Sys2Proof.Machine

/-! ### Bit fields as numbers -/

theorem and_maskWord_toNat (v : Word) {w : Nat} (h : w < 32) : (v &&& maskWord w).toNat = v.toNat % 2 ^ w := by
  have : 2 ^ w < 2 ^ 32 := Nat.pow_lt_pow_right (by omega) h
  rw [BitVec.toNat_and, maskWord, BitVec.toNat_ofNat, Nat.mod_eq_of_lt (by omega), Nat.and_two_pow_sub_one_eq_mod]

theorem segmentOf_toNat (b : Byte) (shift : Nat) {w : Nat} (h : w < 32) :
    (segmentOf b shift w).toNat = b.toNat / 2 ^ shift % 2 ^ w := by
  have := b.isLt
  unfold segmentOf
  rw [and_maskWord_toNat _ h, BitVec.toNat_ushiftRight, BitVec.toNat_setWidth, Nat.shiftRight_eq_div_pow,
    Nat.mod_eq_of_lt (show b.toNat < 2 ^ 32 by omega)]

/-- Two parts that do not meet, ORed into one word. -/
theorem or_shiftLeft_toNat (lo hi : Word) {i j : Nat} (hl : lo.toNat < 2 ^ i) (hh : hi.toNat < 2 ^ j)
    (h : i + j ≤ 32) : (lo ||| (hi <<< i)).toNat = lo.toNat + hi.toNat * 2 ^ i := by
  have hb : hi.toNat * 2 ^ i < 2 ^ 32 :=
    calc hi.toNat * 2 ^ i < 2 ^ j * 2 ^ i := Nat.mul_lt_mul_of_pos_right hh (Nat.two_pow_pos i)
      _ = 2 ^ (i + j) := by rw [← Nat.pow_add, Nat.add_comm]
      _ ≤ 2 ^ 32 := Nat.pow_le_pow_right (by omega) h
  rw [BitVec.toNat_or, BitVec.toNat_shiftLeft, Nat.shiftLeft_eq, Nat.mod_eq_of_lt hb, Nat.lor_comm, ← Nat.shiftLeft_eq,
    ← Nat.shiftLeft_add_eq_or_of_lt hl, Nat.shiftLeft_eq, Nat.add_comm]

/-! ### What a passed configuration check gives -/

/-- A format that passes the check of R221: FW1 to FW6, no violation in any FieldSpec, FW10. -/
theorem checkFormat_eq_none {P : Params} {dev : Device} {fmt : Format} :
    checkFormat P dev fmt = none ↔
      formatLevelOk P fmt = true ∧ (∀ w ∈ fmt.fields, fieldViolation P dev fmt w = none) ∧ fw10 fmt = true := by
  unfold checkFormat checkFormatLevel
  by_cases h : formatLevelOk P fmt
  · simp only [h, if_true, true_and]
    cases hf : fmt.fields.findSome? (fieldViolation P dev fmt) with
    | none =>
      have := List.findSome?_eq_none_iff.mp hf
      simp only [ite_eq_left_iff, reduceCtorEq, imp_false, Bool.not_eq_true]
      exact ⟨fun hw => ⟨this, by simpa using hw⟩, fun hw => by simpa using hw.2⟩
    | some v =>
      obtain ⟨w, hw, hv⟩ := List.exists_of_findSome?_eq_some hf
      simp only [reduceCtorEq, false_iff, not_and]
      intro hall
      rw [hall w hw] at hv
      cases hv
  · simp [h]

/-- The words of a FieldSpec without a violation: they decode, to a FieldSpec with legal operands and defined keys whose
bytes fit (R45, FW7 to FW9). -/
theorem fieldViolation_eq_none {P : Params} {dev : Device} {fmt : Format} {w : FieldWords}
    (h : fieldViolation P dev fmt w = none) :
    ∃ i f, decodeField w = .ok i ∧ i.place? = some f ∧ fieldOperandsLegal P i = true ∧ fieldFits fmt i f = true ∧
      f.part.toNat < fmt.parts ∧ schemaViolation dev i = none := by
  unfold fieldViolation fieldWordsOk at h
  cases hd : decodeField w with
  | error e => simp [hd] at h
  | ok i =>
    cases hp : i.place? with
    | none => simp [hd, hp] at h
    | some f =>
      simp only [hd, hp, Bool.and_eq_true, decide_eq_true_eq] at h
      split at h
      · rename_i hc
        exact ⟨i, f, rfl, hp, hc.1.1, hc.1.2, hc.2, h⟩
      · cases h

/-! ### Frames of the kind rules and of the walk -/

/-- An encode rule changes DIMG alone. -/
theorem encodeFieldAt_eq (i : Instr) (b : Nat) (s : State) :
    encodeFieldAt i b s = { s with dimg := (encodeFieldAt i b s).dimg } := by
  cases i
  case fspecBits f g e =>
    simp only [encodeFieldAt, encodeBits, bfPack]
    split <;> rfl
  all_goals rfl

/-- Storing a decoded code changes the model store, DIAG_COUNT and DIAG_LOG alone. -/
theorem storeCode_eq (key : Key) (e c : Word) (s : State) :
    storeCode key e c s = { s with
      model := (storeCode key e c s).model, diagCount := (storeCode key e c s).diagCount
      diagLog := (storeCode key e c s).diagLog } := by
  unfold storeCode
  rw [enumFix_eq]
  rfl

/-- A decode rule changes the model store, DIAG_COUNT and DIAG_LOG alone. -/
theorem decodeFieldAt_eq (i : Instr) (b : Nat) (s : State) :
    decodeFieldAt i b s = { s with
      model := (decodeFieldAt i b s).model, diagCount := (decodeFieldAt i b s).diagCount
      diagLog := (decodeFieldAt i b s).diagLog } := by
  cases i
  case fspecRaw8 => exact storeCode_eq ..
  case fspecNib8 => exact storeCode_eq ..
  case fspecBits => exact storeCode_eq ..
  case fspecS14 => exact storeCode_eq ..
  all_goals rfl

/-- The walk of ENCODE changes DIMG alone. -/
theorem walkFields_encode_eq (p b : Nat) (ws : List FieldWords) (s : State) :
    walkFields .encode p b ws s = { s with dimg := (walkFields .encode p b ws s).dimg } := by
  induction ws generalizing s with
  | nil => rfl
  | cons w ws ih =>
    have hw : walkField .encode p b w s = { s with dimg := (walkField .encode p b w s).dimg } := by
      unfold walkField
      split
      · rfl
      · split
        · exact encodeFieldAt_eq ..
        · rfl
    rw [walkFields, ih, hw]

/-- The walk of DECODE changes the model store, DIAG_COUNT and DIAG_LOG alone. -/
theorem walkFields_decode_eq (p b : Nat) (ws : List FieldWords) (s : State) :
    walkFields .decode p b ws s = { s with
      model := (walkFields .decode p b ws s).model, diagCount := (walkFields .decode p b ws s).diagCount
      diagLog := (walkFields .decode p b ws s).diagLog } := by
  induction ws generalizing s with
  | nil => rfl
  | cons w ws ih =>
    have hw : walkField .decode p b w s = { s with
        model := (walkField .decode p b w s).model, diagCount := (walkField .decode p b w s).diagCount
        diagLog := (walkField .decode p b w s).diagLog } := by
      unfold walkField
      split
      · rfl
      · split
        · exact decodeFieldAt_eq ..
        · rfl
    rw [walkFields, ih, hw]

theorem walkFields_append (dir : WalkDir) (p b : Nat) (vs ws : List FieldWords) (s : State) :
    walkFields dir p b (vs ++ ws) s = walkFields dir p b ws (walkFields dir p b vs s) := by
  induction vs generalizing s with
  | nil => rfl
  | cons v vs ih => exact ih _

/-- An encode rule leaves every byte outside its own DIMG bytes. -/
theorem encodeFieldAt_byteAt (i : Instr) (f : FieldPlace) (hf : i.place? = some f) (b : Nat) (s : State) (sp : Space)
    (a : Nat) (h : ¬(sp = .dimg ∧ fieldBase b f ≤ a ∧ a < fieldBase b f + fieldSpan i)) :
    (encodeFieldAt i b s).byteAt sp a = s.byteAt sp a := by
  have out : ∀ bs : List Byte, bs.length = fieldSpan i →
      (s.writeBytes .dimg (fieldBase b f) bs).byteAt sp a = s.byteAt sp a := by
    intro bs hl
    rw [State.byteAt_writeBytes, hl, if_neg h]
  cases i <;> simp only [Instr.place?, reduceCtorEq, Option.some.injEq] at hf <;> subst hf
  case fspecRaw8 => exact out _ rfl
  case fspecNib8 => exact out _ rfl
  case fspecBits g e =>
    simp only [encodeFieldAt, encodeBits, bfPack]
    by_cases ht : (geomOf g).two
    · simp only [ht, if_true]
      exact out _ (by simp [fieldSpan, Geom.span, ht])
    · simp only [ht, Bool.false_eq_true, if_false]
      exact out _ (by simp [fieldSpan, Geom.span, ht])
  case fspecS14 x e => exact out _ (by unfold s14Bytes; split <;> rfl)
  case fspecVel => exact out _ rfl
  case fspecName x => exact out _ (by simp [fieldSpan])

/-! ### One FieldSpec on its own -/

/-- Everything a FieldSpec run on its own can answer when it goes on (log 4). -/
theorem runKind_eq_next {f : FieldPlace} {keys : List Key} {span : Nat} {enc dec : Nat → State → State} {s t : State} :
    runKind f keys span enc dec s = .next t ↔
      ∃ w, s.walk = some w ∧ (∀ k ∈ keys, k.toNat < s.cfg.params.nkeys) ∧
        fieldBase w.recBase f + span ≤ s.cfg.params.dataSize ∧
        t = (match w.dir with
          | .encode => enc (fieldBase w.recBase f) s
          | .decode => dec (fieldBase w.recBase f) s) := by
  unfold runKind
  cases hw : s.walk with
  | none => simp
  | some w =>
    simp only [Option.some.injEq, exists_eq_left']
    cases hk : keys.find? (fun k => decide (s.cfg.params.nkeys ≤ k.toNat)) with
    | some k =>
      have hm := List.mem_of_find?_eq_some hk
      have hp : s.cfg.params.nkeys ≤ k.toNat := by simpa using List.find?_some hk
      simp only [reduceCtorEq, false_iff, not_and]
      intro hall
      exact absurd (hall k hm) (not_lt.mpr hp)
    | none =>
      have hall : ∀ k ∈ keys, k.toNat < s.cfg.params.nkeys := by simpa using List.find?_eq_none.mp hk
      by_cases hb : s.cfg.params.dataSize < fieldBase w.recBase f + span
      · simp [hb, show ¬fieldBase w.recBase f + span ≤ s.cfg.params.dataSize by omega]
      · simp only [hb, if_false, show fieldBase w.recBase f + span ≤ s.cfg.params.dataSize by omega, true_and]
        cases w.dir <;> simp only [Host.Outcome.next.injEq, eq_comm] <;> exact ⟨fun h => ⟨hall, h⟩, fun h => h.2⟩

end Sys2Proof.Machine
end

