-- ==== Sys2Proof/Laws/PerInstr.lean ====
section
/-! SUPPORT. The statements made per instruction: the width of an encoding. A command is one word, and a FieldSpec is four
words (30_encoding.md rules R80 and R86). -/

namespace Sys2Proof.Laws

/-- The encoding of the instruction has the width its format gives: one word for CMD32, four for a FieldSpec. -/
def EncodingWidth.Statement (i : Instr) : Prop := (encode i).length = if i.isField then 4 else 1

theorem EncodingWidth.init : EncodingWidth.Statement .init := rfl
theorem EncodingWidth.recog : EncodingWidth.Statement .recog := rfl
theorem EncodingWidth.encode : EncodingWidth.Statement .encode := rfl
theorem EncodingWidth.decode : EncodingWidth.Statement .decode := rfl
theorem EncodingWidth.revise : EncodingWidth.Statement .revise := rfl
theorem EncodingWidth.nibx : EncodingWidth.Statement .nibx := rfl
theorem EncodingWidth.nibc : EncodingWidth.Statement .nibc := rfl
theorem EncodingWidth.bfpk : EncodingWidth.Statement .bfpk := rfl
theorem EncodingWidth.bfup : EncodingWidth.Statement .bfup := rfl
theorem EncodingWidth.s14e : EncodingWidth.Statement .s14e := rfl
theorem EncodingWidth.s14d : EncodingWidth.Statement .s14d := rfl
theorem EncodingWidth.vele : EncodingWidth.Statement .vele := rfl
theorem EncodingWidth.veld : EncodingWidth.Statement .veld := rfl
theorem EncodingWidth.namee : EncodingWidth.Statement .namee := rfl
theorem EncodingWidth.named : EncodingWidth.Statement .named := rfl
theorem EncodingWidth.enumchk : EncodingWidth.Statement .enumchk := rfl
theorem EncodingWidth.clamp : EncodingWidth.Statement .clamp := rfl
theorem EncodingWidth.ckgen : EncodingWidth.Statement .ckgen := rfl
theorem EncodingWidth.ckchk : EncodingWidth.Statement .ckchk := rfl
theorem EncodingWidth.fspecRaw8 (f : FieldPlace) (e : Word) : EncodingWidth.Statement (.fspecRaw8 f e) := rfl
theorem EncodingWidth.fspecNib8 (f : FieldPlace) (e : Word) : EncodingWidth.Statement (.fspecNib8 f e) := rfl
theorem EncodingWidth.fspecBits (f : FieldPlace) (g e : Word) : EncodingWidth.Statement (.fspecBits f g e) := rfl
theorem EncodingWidth.fspecS14 (f : FieldPlace) (x e : Word) : EncodingWidth.Statement (.fspecS14 f x e) := rfl
theorem EncodingWidth.fspecVel (f : FieldPlace) (k : Key) : EncodingWidth.Statement (.fspecVel f k) := rfl
theorem EncodingWidth.fspecName (f : FieldPlace) (x : Word) : EncodingWidth.Statement (.fspecName f x) := rfl

end Sys2Proof.Laws
end

