-- ==== Sys2Proof/Tests/Slice0.lean ====
section
/-! SUPPORT. Tests: the decoding of words written out from the spec's encodings, an ill-formed term for each check of
WellFormed.lean, one small step for each instruction with the result that 95_test_vectors.md or the instruction's own
example gives, and for each statement with hypotheses a state and operands that meet them. -/

-- Elaborating the kernel-evaluated tests one after another keeps the check inside its memory limit.
set_option Elab.async false

namespace Sys2Proof.Tests

open Sys2Proof.Machine

/-! ### Decoding (30_encoding.md R81, R86, R87; words from 95_test_vectors.md V9 and V20 to V34) -/

theorem test_decode_init : decodeWords [0x00000001] = .ok .init := by decide
theorem test_decode_recog : decodeWords [0x00000002] = .ok .recog := by decide
theorem test_decode_encode : decodeWords [0x00000003] = .ok .encode := by decide
theorem test_decode_decode : decodeWords [0x00000004] = .ok .decode := by decide
theorem test_decode_revise : decodeWords [0x00000005] = .ok .revise := by decide
theorem test_decode_nibx : decodeWords [0x00000010] = .ok .nibx := by decide
theorem test_decode_nibc : decodeWords [0x00000011] = .ok .nibc := by decide
theorem test_decode_bfpk : decodeWords [0x00000020] = .ok .bfpk := by decide
theorem test_decode_bfup : decodeWords [0x00000021] = .ok .bfup := by decide
theorem test_decode_s14e : decodeWords [0x00000030] = .ok .s14e := by decide
theorem test_decode_s14d : decodeWords [0x00000031] = .ok .s14d := by decide
theorem test_decode_vele : decodeWords [0x00000032] = .ok .vele := by decide
theorem test_decode_veld : decodeWords [0x00000033] = .ok .veld := by decide
theorem test_decode_namee : decodeWords [0x00000034] = .ok .namee := by decide
theorem test_decode_named : decodeWords [0x00000035] = .ok .named := by decide
theorem test_decode_enumchk : decodeWords [0x00000036] = .ok .enumchk := by decide
theorem test_decode_clamp : decodeWords [0x00000037] = .ok .clamp := by decide
theorem test_decode_ckgen : decodeWords [0x00000040] = .ok .ckgen := by decide
theorem test_decode_ckchk : decodeWords [0x00000041] = .ok .ckchk := by decide
-- W0: KIND 3:0, SCOPE 4, PART 7:5, KEY 23:8. W1: OFF 15:0, KEY2 31:16.
theorem test_decode_raw8 : decodeWords [0x00ABCDF0, 0x00001234, 0, 0x0003001B] =
    .ok (.fspecRaw8 ⟨true, 7, 0xABCD, 0x1234⟩ 0x0003001B) := by decide
theorem test_decode_nib8 : decodeWords [0x000002A1, 0x00000007, 0, 0] =
    .ok (.fspecNib8 ⟨false, 5, 2, 7⟩ 0) := by decide
theorem test_decode_bits : decodeWords [0x00000202, 0x00000003, 0x0000109C, 0x0003001B] =
    .ok (.fspecBits ⟨false, 0, 2, 3⟩ 0x109C 0x0003001B) := by decide
theorem test_decode_s14 : decodeWords [0x00000113, 0x00000001, 1, 0] =
    .ok (.fspecS14 ⟨true, 0, 1, 1⟩ 1 0) := by decide
theorem test_decode_vel : decodeWords [0x00000404, 0x00050006, 0, 0] =
    .ok (.fspecVel ⟨false, 0, 4, 6⟩ 5) := by decide
theorem test_decode_name : decodeWords [0x00000605, 0x00000006, 4, 0] =
    .ok (.fspecName ⟨false, 0, 6, 6⟩ 4) := by decide
-- Rejections by name (R89, R45, 93_implementation_defined.md X1, X2, X7).
theorem test_reject_opcode : decodeWords [0x00000006] = .error .illegalOpcode := by decide
theorem test_reject_upper : decodeWords [0x00010003] = .error .reservedBits := by decide
theorem test_reject_kind : decodeWords [0x00000006, 0, 0, 0] = .error .reservedKind := by decide
theorem test_reject_w0 : decodeWords [0x01000000, 0, 0, 0] = .error .reservedBits := by decide
theorem test_reject_key2 : decodeWords [0x00000000, 0x00010000, 0, 0] = .error .key2NotZero := by decide
theorem test_reject_param : decodeWords [0x00000004, 0, 1, 0] = .error .paramNotZero := by decide
theorem test_reject_enumw : decodeWords [0x00000005, 0, 4, 1] = .error .enumwNotZero := by decide
theorem test_reject_count : decodeWords [1, 1] = .error .wordCount := by decide

/-! ### Well-formedness: an ill-formed term for each check -/

/-- A record field of part 0. -/
def placeAt (key : Key) (off : BitVec 16) : FieldPlace := ⟨false, 0, key, off⟩

theorem test_wf_key : instrWf Params.default (.fspecRaw8 (placeAt 8192 0) 0) = false := by decide
theorem test_wf_key2 : instrWf Params.default (.fspecVel (placeAt 4 0) 8192) = false := by decide
theorem test_wf_enumw : instrWf Params.default (.fspecNib8 (placeAt 4 0) 0x001B001B) = false := by decide
theorem test_wf_geom : instrWf Params.default (.fspecBits (placeAt 4 0) 0x109D 0) = true ∧
    instrWf Params.default (.fspecBits (placeAt 4 0) 0x0000002E 0) = false := by decide
theorem test_wf_xf14 : instrWf Params.default (.fspecS14 (placeAt 4 0) 2 0) = false := by decide
theorem test_wf_xfname : instrWf Params.default (.fspecName (placeAt 6 0) 0) = false := by decide
theorem test_wf_params : paramsWf Params.default = true ∧ paramsWf { Params.default with textMax := 19 } = false ∧
    paramsWf { Params.default with nkeys := 65536 } = false ∧
    paramsWf { Params.default with diagMax := 65 } = false := by decide
theorem test_wf_schema_range : schemaEntryWf Params.default (.int 0 127 128) = false := by decide
theorem test_wf_schema_text : schemaEntryWf Params.default (.text (List.replicate 65 0)) = false := by decide
theorem test_wf_schema_key : schemaWf Params.default [(8192, .int 0 1 0)] = false := by decide
theorem test_wf_schema_order : keysRise [1, 1] = false := by decide
theorem test_wf_ranges : formatRanges { Config.toySingle with rl := 4 } = false := by decide
theorem test_wf_fw1 : fw1 { Config.toySingle with hdr := [0xF1, 0x7D, 0x01] } = false := by decide
theorem test_wf_fw2 : fw2 Params.default { Config.toySingle with total := 14 } = false := by decide
theorem test_wf_fw3 : fw3 { Config.toySingle with cks := 2 } = false := by decide
theorem test_wf_fw4 : fw4 { Config.toySingle with voff := 3 } = false := by decide
theorem test_wf_fw5 : fw5 { Config.duoParts with poff := 2 } = false := by decide
theorem test_wf_fw6 : fw6 { Config.toyBank with stride := 0 } = false := by decide
theorem test_wf_fw7 : fieldWordsOk Params.default Config.toySingle ⟨0x00000000, 0x0000000A, 0, 0⟩ = false := by decide
theorem test_wf_fw8 : fieldWordsOk Params.default Config.toySingle ⟨0x00000020, 0, 0, 0⟩ = false := by decide
theorem test_wf_fw9 :
    schemaViolation ⟨Config.toySchema, []⟩ (.fspecName (placeAt 0 0) 4) = some ⟨.schema, 0⟩ := by decide
theorem test_wf_fw10 : fw10 { Config.toySingle with
    fields := List.replicate 9 ⟨0x00000002, 0, 0x08, 0⟩ } = false := by decide
theorem test_wf_distinct : formatsDistinct [Config.toySingle, Config.toySingle] = false := by decide
-- R46: no buffer matches a version byte 0x01 and a checked header byte 0x05 at one offset.
theorem test_wf_distinct_version : formatsDistinct
    [Config.toySingle, { Config.toySingle with hdr := [0xF0, 0x7D, 0x05], rl := 3, ver := false, voff := 0 }] = true := by
  decide
theorem test_wf_config : configWf { Config.v9 with devs := [] } = false := by decide

-- 10_state.md R47: State.reset is the model built with V9, and an ill-formed configuration is refused.
theorem test_construct_reset : construct Config.v9 = .next State.reset :=
  construct_eq_next.mpr ⟨by decide +kernel, rfl⟩
theorem test_construct_refuses : construct { Config.v9 with devs := [] } = .refused .illFormedConfig :=
  if_neg (by decide)

/-! ### Small states -/

/-- The reset state with the three arguments. -/
def withArgs (a0 a1 a2 : Word) : State := { State.reset with a0 := a0, a1 := a1, a2 := a2 }

/-- A BREF of IBUF, OBUF and DIMG (R83). -/
def ibufRef (off : Nat) : Word := BitVec.ofNat 32 off
def obufRef (off : Nat) : Word := BitVec.ofNat 32 (0x10000 + off)
def dimgRef (off : Nat) : Word := BitVec.ofNat 32 (0x20000 + off)

/-- The state with bytes written to a buffer from an offset on. -/
def withBytes (sp : Space) (off : Nat) (bs : List Byte) (s : State) : State := s.writeBytes sp off bs

/-- The next state of an answer, or the reset state. -/
def after (o : Host.Outcome State Fault Refusal) : State :=
  match o with
  | .next t => t
  | .fault _ => State.reset
  | .refused _ => State.reset

/-- An answer is a next state. -/
def goesOn (o : Host.Outcome State Fault Refusal) : Bool :=
  match o with
  | .next _ => true
  | .fault _ => false
  | .refused _ => false

/-- An answer that goes on is its next state. -/
theorem eq_after {o : Host.Outcome State Fault Refusal} (h : goesOn o = true) : o = .next (after o) := by
  cases o <;> simp_all [goesOn, after]

/-- TOY selected, with the values of 95_test_vectors.md V10: vol 100, tune 300, wave 20, oct 2, lvl 0x55, "Ab". -/
def toyModel : State :=
  let s := after (exec .init State.reset)
  let s := (((s.setVal 0 100).setVal 1 300).setVal 2 20).setVal 3 2
  (s.setVal 4 0x55).setText 6 [0x41, 0x62]

/-- The TOY frame of V10. -/
def toyFrame : List Byte :=
  [0xF0, 0x7D, 0x01, 0x64, 0x02, 0x2C, 0x40, 0x0A, 0x55, 0x41, 0x62, 0x20, 0x20, 0x14, 0xF7]

/-- TOY selected, with a frame in IBUF and its length in IN_LEN. -/
def toyWithFrame (bs : List Byte) : State :=
  { (after (exec .init State.reset)).writeBytes .ibuf 0 bs with inLen := BitVec.ofNat 32 bs.length }

/-! ### One step for each instruction -/

-- 46_control.md R292, example.
theorem test_init_defaults : let t := after (exec .init State.reset)
    t.curdev = 0 ∧ t.val 0 = 100 ∧ t.val 1 = 8192 ∧ (t.entry 6).len = 4 ∧ (t.entry 6).code 0 = 0x49 := by decide +kernel
theorem test_init_no_device : (after (exec .init (withArgs 2 0 0))).faultCause = .noDevice := by decide +kernel
-- V13.
theorem test_recog_toy : let t := after (exec .recog (toyWithFrame toyFrame))
    t.rval = 1 ∧ t.shape = 0 := by decide +kernel
theorem test_recog_short : let t := after (exec .recog { toyWithFrame toyFrame with inLen := 14 })
    t.rval = 1 ∧ t.shape = 1 := by decide +kernel
-- V10.
theorem test_encode_toy : let t := after (exec .encode toyModel)
    t.readBytes .obuf 0 15 = toyFrame ∧ t.outLen = 15 := by decide +kernel
theorem test_encode_bank : (after (exec .encode { toyModel with a0 := 1 })).faultCause = .unsupported := by
  decide +kernel
-- V12.
theorem test_decode_corrupted :
    let t := after (exec .decode (toyWithFrame
      [0xF0, 0x7D, 0x01, 0x64, 0x02, 0x2C, 0x70, 0x0B, 0x55, 0x41, 0x62, 0x20, 0x20, 0x7F, 0xF7]))
    t.result = .success ∧ t.val 2 = 3 ∧ t.diagCount = 1 ∧ t.diagLog.getD 0 0 = 0x001F0002 ∧ t.val 3 = 2 := by
  decide +kernel
-- V16: a byte of the summed range changed.
theorem test_decode_checksum :
    let t := after (exec .decode ((toyWithFrame toyFrame).writeBytes .ibuf 3 [0x65]))
    t.result = .failed ∧ t.failCause = .checksum ∧ t.val 0 = 100 := by decide +kernel
-- 45_decoder.md R270, example.
theorem test_revise_clamps : let t := after (exec .revise ((after (exec .init State.reset)).setVal 2 40))
    t.val 2 = 26 ∧ t.val 0 = 100 := by decide +kernel
-- 40_nibble.md R121, example.
theorem test_nibx : (after (exec .nibx (withBytes .ibuf 0 [0xA5, 0x00, 0xFF]
      (withArgs (ibufRef 0) (obufRef 0) 3)))).readBytes .obuf 0 6 = [0x0A, 0x05, 0, 0, 0x0F, 0x0F] := by decide +kernel
-- R123: source bytes above 0x0F are masked.
theorem test_nibc : (after (exec .nibc (withBytes .obuf 0 [0x1A, 0x25]
      (withArgs (obufRef 0) (dimgRef 0) 1)))).readBytes .dimg 0 1 = [0xA5] := by decide +kernel
-- 41_bitfield.md R142, R147, examples.
theorem test_bfpk : (after (exec .bfpk (withArgs 27 (dimgRef 3) 0x109C))).readBytes .dimg 3 2 = [0x30, 0x03] := by
  decide +kernel
theorem test_bfpk_high_first : (after (exec .bfpk (withArgs 27 (dimgRef 3) 0x9D90))).readBytes .dimg 3 2 =
    [0x03, 0x60] := by decide +kernel
-- R144, example.
theorem test_bfup : (after (exec .bfup (withBytes .dimg 3 [0x70, 0x03]
      (withArgs 0 (dimgRef 3) 0x109C)))).rval = 31 := by decide +kernel
-- 42_field_transform.md R161 (V24): LSBF = 1 puts the low bits first.
theorem test_s14e : (after (exec .s14e (withArgs 300 (dimgRef 0) 1))).readBytes .dimg 0 2 = [0x2C, 0x02] := by
  decide +kernel
-- R163: bit 7 of each byte is ignored.
theorem test_s14d : (after (exec .s14d (withBytes .dimg 0 [0x82, 0xAC] (withArgs 0 (dimgRef 0) 0)))).rval = 300 := by
  decide +kernel
-- R164, R183, R184, examples.
theorem test_vele : (after (exec .vele (withArgs 0x55 (dimgRef 0) 1))).readBytes .dimg 0 1 = [0xD5] := by decide +kernel
theorem test_veld : let t := after (exec .veld (withBytes .dimg 0 [0xD5] (withArgs 0 (dimgRef 0) 0)))
    t.rval = 85 ∧ t.rval2 = 1 := by decide +kernel
-- V4: an unprintable code, and a text longer than the width.
theorem test_namee : (after (exec .namee { toyModel.setText 6 [0x4E, 0x7F, 0x6D, 0x65, 0x4E] with
      a0 := 6, a1 := dimgRef 0, a2 := 4 })).readBytes .dimg 0 4 = [0x4E, 0x20, 0x6D, 0x65] := by decide +kernel
-- V4: trailing bytes up to 0x20 are trimmed.
theorem test_named : let t := after (exec .named (withBytes .dimg 0 [0x4E, 0x20, 0x6D, 0x20]
      { toyModel with a0 := 6, a1 := dimgRef 0, a2 := 4 }))
    (t.entry 6).len = 3 ∧ (t.entry 6).code 2 = 0x6D ∧ (t.entry 6).code 3 = 0 := by decide +kernel
-- R173, example.
theorem test_enumchk : let t := after (exec .enumchk (withArgs 31 0x0003001B 0))
    t.rval = 3 ∧ t.diagCount = 1 ∧ t.diagLog.getD 0 0 = 0x001FFFFF := by decide +kernel
-- R174: comparisons are signed.
theorem test_clamp : (after (exec .clamp (withArgs 0xFFFFFFFF 0 127))).rval = 0 := by decide +kernel
theorem test_clamp_fault : (after (exec .clamp (withArgs 0 1 0))).faultCause = .badArg := by decide +kernel
-- 43_checksum.md R201, R203, examples.
theorem test_ckgen : let t := after (exec .ckgen (withBytes .dimg 0 [0x40, 0x41]
      (withArgs (dimgRef 0) 2 (dimgRef 2))))
    t.byteAt .dimg 2 = 0x01 ∧ t.rval = 1 := by decide +kernel
theorem test_ckchk : let t := after (exec .ckchk (withBytes .ibuf 3 [0x10, 0x20, 0xB0]
      (withArgs (ibufRef 3) 2 (ibufRef 5))))
    t.rval = 0 ∧ t.rval2 = 0x30 := by decide +kernel

/-- TOY with a walk in progress. -/
def inWalk (dir : WalkDir) (s : State) : State := { s with walk := some ⟨dir, 0, 0, []⟩ }

-- R175 to R186, examples: each encode rule on the values of `toyModel`, each decode rule on bytes in DIMG.
theorem test_raw8_encode : (after (exec (.fspecRaw8 (placeAt 0 2) 0) (inWalk .encode toyModel))).byteAt .dimg 2 = 0x64 := by
  decide +kernel
theorem test_raw8_decode : (after (exec (.fspecRaw8 (placeAt 0 2) 0)
    (inWalk .decode (withBytes .dimg 2 [0xFF] toyModel)))).val 0 = 255 := by decide +kernel
theorem test_nib8_encode : (after (exec (.fspecNib8 (placeAt 0 0) 0)
    (inWalk .encode (toyModel.setVal 0 0x1A5)))).readBytes .dimg 0 2 = [0x0A, 0x05] := by decide +kernel
theorem test_nib8_decode : (after (exec (.fspecNib8 (placeAt 0 0) 0)
    (inWalk .decode (withBytes .dimg 0 [0x0A, 0x05] toyModel)))).val 0 = 165 := by decide +kernel
theorem test_bits_encode : (after (exec (.fspecBits (placeAt 2 3) 0x109C 0x0003001B)
    (inWalk .encode toyModel))).readBytes .dimg 3 2 = [0x40, 0x02] := by decide +kernel
theorem test_bits_decode : let t := after (exec (.fspecBits (placeAt 2 3) 0x109C 0x0003001B)
      (inWalk .decode (withBytes .dimg 3 [0x70, 0x03] toyModel)))
    t.val 2 = 3 ∧ t.diagLog.getD 0 0 = 0x001F0002 := by decide +kernel
theorem test_s14_encode : (after (exec (.fspecS14 (placeAt 1 1) 0 0)
    (inWalk .encode toyModel))).readBytes .dimg 1 2 = [0x02, 0x2C] := by decide +kernel
theorem test_s14_decode : (after (exec (.fspecS14 (placeAt 1 1) 1 0)
    (inWalk .decode (withBytes .dimg 1 [0x2C, 0x02] toyModel)))).val 1 = 300 := by decide +kernel
theorem test_vel_encode : (after (exec (.fspecVel (placeAt 4 5) 5)
    (inWalk .encode (toyModel.setVal 5 1)))).byteAt .dimg 5 = 0xD5 := by decide +kernel
theorem test_vel_decode : let t := after (exec (.fspecVel (placeAt 4 5) 4)
      (inWalk .decode (withBytes .dimg 5 [0xD5] toyModel)))
    t.val 4 = 1 := by decide +kernel
theorem test_name_encode : (after (exec (.fspecName (placeAt 6 6) 4)
    (inWalk .encode toyModel))).readBytes .dimg 6 4 = [0x41, 0x62, 0x20, 0x20] := by decide +kernel
theorem test_name_decode : let t := after (exec (.fspecName (placeAt 6 6) 4)
      (inWalk .decode (withBytes .dimg 6 [0x4E, 0x20, 0x6D, 0x00] toyModel)))
    (t.entry 6).len = 3 ∧ (t.entry 6).code 0 = 0x4E := by decide +kernel

/-! ### Placing an instruction, and the step that runs it -/

theorem test_step_runs_clamp : (after (step ({ State.reset with a0 := 200, a2 := 127 }.withFetchWord 32 0x37))).rval =
    127 := by decide +kernel
theorem test_step_runs_raw8 : goesOn (step (State.reset.withFetchWord 128 0x000100000000)) = true := by decide +kernel
-- V34: an illegal word.
theorem test_step_illegal : let t := after (step (State.reset.withFetchWord 32 0x01000001))
    t.faultCause = .illegalCmd ∧ t.faultCmd = 0x01000001 ∧ t.cmd = 0x01000001 := by decide +kernel

/-! ### States and operands that meet the hypotheses of each statement -/

/-- The reset state with the host's next accesses. -/
def withHost (ops : List HostOp) (s : State) : State := { s with host := ops }

/-- TOY selected, and a configuration of one device of one DIRECT format with the FieldSpecs given. -/
def oneFormat (fields : List FieldWords) : Format :=
  { hdr := [0xF0, 0x7D], rl := 2, ver := false, voff := 0, total := 7, mode := 0, dlen := 4, ck := false, cks := 0
    cke := 0, recs := 1, stride := 0, base := 0, parts := 1, poff := 0, fields := fields }

/-- The device of `oneFormat`. -/
def oneDevice (fields : List FieldWords) : Device :=
  { schema := [(0, .int 0 255 0), (1, .int 0 255 0), (2, .text [])], fmts := [oneFormat fields] }

/-- The device of `oneFormat` selected, with its frame of zeros in IBUF. -/
def oneState (fields : List FieldWords) : State :=
  { State.resetWith ⟨Params.default, [oneDevice fields]⟩ with
    curdev := 0, inLen := 7, ibuf := [(0, 0xF0), (1, 0x7D)] }

/-- One FieldSpec of each kind, at DIMG byte 1. -/
def raw8Words : FieldWords := ⟨0x00000000, 0x00000001, 0, 0⟩
def nib8Words : FieldWords := ⟨0x00000001, 0x00000001, 0, 0⟩
def bitsWords : FieldWords := ⟨0x00000002, 0x00000001, 0x109C, 0⟩
def s14Words : FieldWords := ⟨0x00000003, 0x00000001, 1, 0⟩
def velWords : FieldWords := ⟨0x00000004, 0x00010001, 0, 0⟩
def nameWords : FieldWords := ⟨0x00000205, 0x00000001, 3, 0⟩

theorem witness_DecodedWordsAreCanonical : decodeWords [0x41] = .ok .ckchk ∧
    decodeWords [0x00000404, 0x00050005, 0, 0] = .ok (.fspecVel (placeAt 4 5) 5) := by decide

theorem witness_StepRunsCommand : ∃ s : State, s.walk = none ∧ s.faulted = false ∧
    s.host = [.regWrite s.cfg.params.hostBase .word 0x37] ∧ decodeCmd 0x37 = .ok .clamp :=
  ⟨withHost [.regWrite 0 .word 0x37] State.reset, by decide +kernel⟩

theorem witness_StepRunsFieldSpec_run : ∃ (s : State) (w : Walk), s.walk = some w ∧ w.rest = [raw8Words] ∧
    s.host.head? ≠ some .reset ∧ decodeField raw8Words = .ok (.fspecRaw8 (placeAt 0 1) 0) ∧
    (placeAt 0 1).part.toNat = w.part :=
  ⟨{ State.reset with walk := some ⟨.encode, 0, 0, [raw8Words]⟩ }, ⟨.encode, 0, 0, [raw8Words]⟩, by decide +kernel⟩

theorem witness_StepRunsFieldSpec_skip : ∃ (s : State) (w : Walk), s.walk = some w ∧ w.rest = [raw8Words] ∧
    s.host.head? ≠ some .reset ∧ decodeField raw8Words = .ok (.fspecRaw8 (placeAt 0 1) 0) ∧
    (placeAt 0 1).part.toNat ≠ w.part :=
  ⟨{ State.reset with walk := some ⟨.encode, 1, 0, [raw8Words]⟩ }, ⟨.encode, 1, 0, [raw8Words]⟩, by decide +kernel⟩

theorem witness_StepRunsFieldSpec_ends : ∃ (s : State) (w : Walk), s.walk = some w ∧ w.rest = [] ∧
    s.host.head? ≠ some .reset ∧ State.reset.walk = none ∧ State.reset.host = [] :=
  ⟨inWalk .encode State.reset, ⟨.encode, 0, 0, []⟩, by decide +kernel⟩

theorem witness_IllegalCommandFaults : (∀ i, decodeCmd 0x00000100 ≠ .ok i) ∧ (∀ i, decodeCmd 0x42 ≠ .ok i) ∧
    ∃ s : State, s.walk = none ∧ s.faulted = false ∧ s.host = [.regWrite s.cfg.params.hostBase .word 0x100] := by
  have h : ∀ i, decodeCmd 0x00000100 = .ok i → Except.error DecodeError.reservedBits = .ok i := fun _ h => h
  have h' : ∀ i, decodeCmd 0x42 = .ok i → Except.error DecodeError.illegalOpcode = .ok i := fun _ h => h
  exact ⟨fun i hi => (by cases h i hi), fun i hi => (by cases h' i hi),
    withHost [.regWrite 0 .word 0x100] State.reset, by decide +kernel⟩

theorem witness_FaultedUntilReset : ∃ s : State, s.walk = none ∧ s.faulted = true ∧
    s.host = [.regWrite s.cfg.params.hostBase .word 1, .reset] ∧ s.host.head? ≠ some .reset ∧
    step s = .next (after (step s)) ∧ (after (step s)).host = [.reset] :=
  ⟨withHost [.regWrite 0 .word 1, .reset] (after (exec .encode State.reset)), by decide +kernel, by decide +kernel,
    by decide +kernel, by decide +kernel, eq_after (by decide +kernel), by decide +kernel⟩

theorem witness_CommandFaultsArePrecise : ∃ t, isCommand .encode ∧ State.reset.faulted = false ∧
    exec .encode State.reset = .next t ∧ t.faulted = true ∧ isCommand .init :=
  ⟨after (exec .encode State.reset), rfl, rfl, eq_after (by decide +kernel), by decide +kernel, rfl⟩

theorem witness_ConfigurationNeverChanges : step State.reset = .next State.reset := rfl

/-- TOY selected, with the model at zero, is a legal state. -/
theorem witness_inv : { State.reset with curdev := 0 }.Inv where
  cfg_wf := by decide +kernel
  no_walk := rfl
  ibuf_ok := bufferOk_nil _
  obuf_ok := bufferOk_nil _
  dimg_ok := bufferOk_nil _
  model_ok := modelOk_nil _
  diag_len := by decide +kernel
  curdev_ok := by decide +kernel
  shape_ok := by decide +kernel
  out_len := by decide +kernel
  unfaulted := by decide +kernel
  after_fault := by decide +kernel
  fail_cause := by decide +kernel

theorem witness_InvariantKeptByStep : ∃ s t : State, s.Inv ∧ step s = .next t :=
  ⟨_, _, witness_inv, rfl⟩

theorem witness_InvariantAtReset : configWf Config.v9 = true := by decide +kernel

theorem witness_ResetLeavesSpecValues : (withHost [.reset] toyModel).host = [HostOp.reset] := rfl

theorem witness_RegisterWindowReads (off : Nat) (h : off ∈ [0x000, 0x044, 0x048, 0x0FC, 0x100, 0x13C]) : ∃ s : State,
    s.walk = none ∧ off % 4 = 0 ∧ off < 0x100 + 4 * s.cfg.params.diagMax ∧
    s.host = [.regRead (s.cfg.params.hostBase + off) .word] := by
  refine ⟨withHost [.regRead (0 + off) .word] State.reset, rfl, ?_⟩
  revert off
  decide +kernel

theorem witness_RegisterWindowWrites (off : Nat) (h : off ∈ [0x004, 0x010, 0x014, 0x13C]) : ∃ s : State,
    s.walk = none ∧ off % 4 = 0 ∧ off ≠ 0x000 ∧ off < 0x100 + 4 * s.cfg.params.diagMax ∧
    s.host = [.regWrite (s.cfg.params.hostBase + off) .word 0xFFFFFFFF] := by
  refine ⟨withHost [.regWrite (0 + off) .word 0xFFFFFFFF] State.reset, rfl, ?_⟩
  revert off
  decide +kernel

-- 20_memory.md R60: the window ends after DIAG_LOG[15]. 95_test_vectors.md: within it, an unlisted offset reads 0.
theorem test_window_end : step (withHost [.regRead 0x140 .word] State.reset) = .refused (.hostAddress 0x140) := rfl
theorem test_window_unlisted :
    step (withHost [.regRead 0x048 .word] { State.reset with hostData := 7 }) = .next State.reset := rfl

theorem witness_HostBufferAndModelAccesses : State.reset.walk = none ∧ 4095 < spaceSize State.reset.cfg.params .dimg ∧
    8191 < State.reset.cfg.params.nkeys ∧ 63 < State.reset.cfg.params.textMax ∧
    (withHost [.bufWrite .dimg 4095 0xFF] State.reset).host = [HostOp.bufWrite .dimg 4095 0xFF] ∧
    (withHost [.txtWrite 8191 63 1] State.reset).host = [HostOp.txtWrite 8191 63 1] := by decide +kernel

theorem witness_HostAccessRefusals (op : HostOp) : ∃ s : State, s.walk = none ∧ s.host = [op] :=
  ⟨withHost [op] State.reset, rfl, rfl⟩

theorem witness_BrefCheckOrder : (0x00030000#32).toNat / 2 ^ 16 % 4 = 3 ∧ (0x00040000#32).toNat / 2 ^ 18 ≠ 0 ∧
    (dimgRef 4095).toNat / 2 ^ 18 = 0 ∧ (dimgRef 4095).toNat / 2 ^ 16 % 4 = 2 := by decide +kernel

theorem witness_NibxExpandsBytes : ∃ s : State, ∃ src dst : BufRef,
    chkBref s.cfg.params s.a0 s.a2.toNat = .ok src ∧ chkBref s.cfg.params s.a1 (2 * s.a2.toNat) = .ok dst :=
  ⟨withArgs (ibufRef 4093) (obufRef 4090) 3, ⟨.ibuf, 4093⟩, ⟨.obuf, 4090⟩, by decide +kernel⟩

theorem witness_NibcJoinsPairs : ∃ s : State, ∃ src dst : BufRef,
    chkBref s.cfg.params s.a0 (2 * s.a2.toNat) = .ok src ∧ chkBref s.cfg.params s.a1 s.a2.toNat = .ok dst :=
  ⟨withArgs (obufRef 4090) (dimgRef 4093) 3, ⟨.obuf, 4090⟩, ⟨.dimg, 4093⟩, by decide +kernel⟩

theorem witness_NibbleRoundTrip : ∃ s : State, ∃ src mid dst : BufRef,
    chkBref s.cfg.params s.a0 (2 * s.a2.toNat) = .ok src ∧ chkBref s.cfg.params s.a1 s.a2.toNat = .ok mid ∧
    chkBref s.cfg.params (ibufRef 0) (2 * s.a2.toNat) = .ok dst ∧ chkBref s.cfg.params s.a0 s.a2.toNat = .ok src ∧
    chkBref s.cfg.params s.a1 (2 * s.a2.toNat) = .ok mid ∧ chkBref s.cfg.params (ibufRef 0) s.a2.toNat = .ok dst ∧
    (s.byteAt src.sp src.off).toNat = 15 :=
  ⟨withBytes .obuf 0 [0x0F] (withArgs (obufRef 0) (dimgRef 0) 2), ⟨.obuf, 0⟩, ⟨.dimg, 0⟩, ⟨.ibuf, 0⟩,
    by decide +kernel⟩

theorem witness_BitFieldCommands : ∃ s : State, ∃ r : BufRef, geomLegal s.a2 = true ∧
    chkBref s.cfg.params s.a1 (if (geomOf s.a2).two then 2 else 1) = .ok r ∧ s.a0.toNat < 2 ^ (geomOf s.a2).width ∧
    (after (exec .bfup s)).rval = 0 :=
  ⟨withArgs 31 (dimgRef 4094) 0x109C, ⟨.dimg, 4094⟩, by decide +kernel⟩

theorem witness_S14Commands (x : Word) (h : x ∈ [0, 1]) : ∃ s : State, ∃ r : BufRef, s.a2 = x ∧ s.a2.toNat < 2 ∧
    chkBref s.cfg.params s.a1 2 = .ok r ∧ s.a0.toNat = 16383 := by
  refine ⟨withArgs 16383 (dimgRef 4094) x, ⟨.dimg, 4094⟩, rfl, ?_⟩
  simp only [List.mem_cons, List.not_mem_nil, or_false] at h
  rcases h with rfl | rfl <;> decide +kernel

theorem witness_VelCommands : ∃ s : State, ∃ r : BufRef, chkBref s.cfg.params s.a1 1 = .ok r ∧ s.a0.toNat ≤ 127 ∧
    s.a2.toNat ≤ 1 :=
  ⟨withArgs 127 (dimgRef 4095) 1, ⟨.dimg, 4095⟩, by decide +kernel⟩

/-- TOY with "Ab" and the arguments of a name command of width 4 at the end of DIMG. -/
def nameState (n : Word) : State := { toyModel with a0 := 6, a1 := dimgRef (4096 - n.toNat), a2 := n }

theorem witness_NameCommands (n : Word) (h : n ∈ [1, 2, 63]) : nameArgs (nameState n) ⟨.dimg, 4096 - n.toNat⟩ := by
  have hd : currentDevice (nameState n) = .ok ⟨Config.toySchema, [Config.toySingle, Config.toyBank]⟩ := rfl
  simp only [List.mem_cons, List.not_mem_nil, or_false] at h
  refine ⟨?_, ?_, ?_, ?_, ?_, ?_, _, [0x49, 0x6E, 0x69, 0x74], hd, rfl⟩ <;> clear hd <;>
    rcases h with rfl | rfl | rfl <;> decide +kernel

theorem witness_NameRoundTrip : (∀ i, i < ((nameState 1).entry 6).len →
      0x20 ≤ (((nameState 1).entry 6).code i).toInt ∧ (((nameState 1).entry 6).code i).toInt ≤ 0x7E) ∧
    ((nameState 1).entry 6).code (((nameState 1).entry 6).len - 1) ≠ 0x20 ∧ (nameState 1).a0.toNat = 6 ∧
    (nameState 1).a2.toNat < ((nameState 1).entry 6).len := by decide +kernel

theorem witness_NameRoundTrip_spaces : (((nameState 2).setText 6 [0x7F, 0x20]).entry 6).len = 2 ∧
    (((nameState 2).setText 6 [0x7F, 0x20]).entry 6).code 1 = 0x20 ∧
    ¬(((((nameState 2).setText 6 [0x7F, 0x20]).entry 6).code 0).toInt ≤ 0x7E) := by decide +kernel

theorem witness_EnumchkSubstitutes : (0x001A001B#32).toNat / 65536 < (0x001A001B#32).toNat % 65536 ∧
    (0x001B001B#32 ≠ 0 ∧ (0x001B001B#32).toNat % 65536 ≤ (0x001B001B#32).toNat / 65536) := by decide

theorem witness_ClampBoundsValue : (0xFFFFFFFF#32).toInt ≤ (0#32).toInt ∧ (0#32).toInt < (1#32).toInt := by decide

theorem witness_CkgenAndCkchk : ∃ s : State, ∃ src dst : BufRef,
    chkBref s.cfg.params s.a0 s.a1.toNat = .ok src ∧ chkBref s.cfg.params s.a2 1 = .ok dst ∧
    128 ∣ rangeSum s src.sp src.off s.a1.toNat ∧ s.byteAt dst.sp dst.off = 0x7F :=
  ⟨withBytes .dimg 0 [0x40, 0x40, 0x7F] (withArgs (dimgRef 0) 2 (dimgRef 2)), ⟨.dimg, 0⟩, ⟨.dimg, 2⟩,
    by decide +kernel⟩

/-- DUO format 0 with a checksum byte over its one payload byte. -/
def duoSummed : Format := { Config.duoParts with total := 7, ck := true, cks := 4, cke := 5 }

/-- A frame of part 2, which `duoSummed` has not, with 0x7F for the checksum (R204): it fails, with SHAPE = 0. -/
def duoSummedState : State :=
  { State.resetWith ⟨Params.default, [⟨[(0, .int 0 255 0), (1, .int 0 255 0)], [duoSummed]⟩]⟩ with
    curdev := 0, inLen := 7
    ibuf := [(0, 0xF0), (1, 0x7D), (2, 0x02), (3, 0x02), (4, 0x11), (5, 0x7F), (6, 0xF7)] }

theorem witness_ChecksumLaws : ∃ s t : State, ∃ dev fmt, exec .decode s = .next t ∧ t.result = .failed ∧
    currentDevice s = .ok dev ∧ dev.fmts.length ≤ 2 ∧ dev.fmts[0]? = some fmt ∧ t.shape = BitVec.ofNat 32 0 ∧
    s.byteAt .ibuf (fmt.total - 2) = 0x7F ∧ fmt.ck = true :=
  ⟨duoSummedState, _, _, duoSummed, eq_after (by decide +kernel), by decide +kernel, rfl, by decide +kernel, rfl,
    by decide +kernel, by decide +kernel, rfl⟩

theorem witness_ArgumentFaultsInOrder : geomLegal 0 = false ∧ 2 ≤ (2#32).toNat ∧
    chkBref Params.default (dimgRef 4096) 1 = .error ⟨.bounds, 0xFFFF⟩ ∧
    chkBref Params.default (ibufRef 0) 1 = .ok ⟨.ibuf, 0⟩ ∧ geomLegal 0x109C = true ∧
    chkBref Params.default (dimgRef 4095) 2 = .error ⟨.bounds, 0xFFFF⟩ ∧ 64 ≤ (64#32).toNat ∧
    State.reset.cfg.params.nkeys ≤ (8192#32).toNat ∧ (7#32).toNat < State.reset.cfg.params.nkeys ∧
    State.reset.curdev = 0xFF ∧ (∀ d, schemaAt ⟨Config.toySchema, []⟩ 7 ≠ some (.text d)) := by
  refine ⟨by decide, by decide, by decide, by decide, by decide, by decide, by decide, by decide, by decide,
    by decide, fun d => ?_⟩
  rw [show schemaAt ⟨Config.toySchema, []⟩ 7 = some (.int 0 15 0) from by decide]
  simp

theorem witness_InitLoadsDefaults : ∃ dev, (withArgs 1 0 0).cfg.devs[(withArgs 1 0 0).a0.toNat]? = some dev ∧
    (withArgs 2 0 0).cfg.devs.length ≤ (withArgs 2 0 0).a0.toNat := ⟨_, rfl, by decide +kernel⟩

theorem witness_DeviceNeeded : State.reset.curdev = 0xFF ∧
    (let s : State := { nameState 4 with curdev := 0xFF }
     1 ≤ s.a2.toNat ∧ s.a2.toNat ≤ 63 ∧ s.a2.toNat ≤ s.cfg.params.textMax ∧ s.a0.toNat < s.cfg.params.nkeys ∧
     chkBref s.cfg.params s.a1 s.a2.toNat = .ok ⟨.dimg, 4092⟩) := by decide +kernel

/-- The first format of TOY matches its frame. -/
theorem witness_firstMatch : ∃ dev, currentDevice (toyWithFrame toyFrame) = .ok dev ∧
    (∀ g ∈ dev.fmts, formatLevelOk (toyWithFrame toyFrame).cfg.params g = true) ∧
    firstMatch (toyWithFrame toyFrame) dev 0 Config.toySingle := by
  refine ⟨⟨Config.toySchema, [Config.toySingle, Config.toyBank]⟩, rfl, by decide +kernel, rfl, ?_, by simp⟩
  unfold frameMatches frameHasLength frameHasPrefix
  decide +kernel

theorem witness_RecogReportsMatch_none : ∀ g ∈ [Config.toySingle, Config.toyBank],
    ¬frameMatches { toyWithFrame toyFrame with inLen := 13 } g := by
  unfold frameMatches frameHasLength frameHasPrefix
  decide +kernel

theorem witness_RecogReportsMatch_fault : ∃ s : State, ∃ dev, currentDevice s = .ok dev ∧
    ∃ g ∈ dev.fmts, formatLevelOk s.cfg.params g = false :=
  ⟨{ State.resetWith ⟨Params.default, [⟨[], [{ oneFormat [] with total := 8 }]⟩]⟩ with curdev := 0 }, _, rfl, _,
    List.mem_singleton.mpr rfl, by decide +kernel⟩

theorem witness_ReviseClampsIntKeys : ∃ dev, currentDevice toyModel = .ok dev ∧ State.reset.curdev = 0xFF :=
  ⟨_, rfl, rfl⟩

theorem witness_ConfigurationCheckOrder : formatConditions Params.default (oneFormat []) ∧
    ¬formatConditions Params.default { oneFormat [] with total := 8 } ∧
    (fieldConditions Params.default (oneFormat []) raw8Words ∧ schemaFault (oneDevice []) raw8Words = none) ∧
    ¬fieldConditions Params.default (oneFormat []) ⟨0x00000000, 0x00000004, 0, 0⟩ ∧
    (fieldConditions Params.default (oneFormat []) ⟨0x00000004, 0x00020003, 0, 0⟩ ∧
      schemaFault (oneDevice []) ⟨0x00000004, 0x00020003, 0, 0⟩ = some 2) ∧
    targetsBounded (oneFormat (List.replicate 8 bitsWords)) ∧
    ¬targetsBounded (oneFormat (List.replicate 9 bitsWords)) := by
  refine ⟨?_, ?_, ⟨?_, ?_⟩, ?_, ⟨?_, ?_⟩, fun p b => List.countP_le_length, fun h => absurd (h 0 2) ?_⟩ <;>
    (try dsimp only [formatConditions, fieldConditions, geomConditions]) <;> decide +kernel

/-- FW10 says nothing of a table of at most 8 FieldSpecs. -/
theorem targetsBounded_of_length {fmt : Format} (h : fmt.fields.length ≤ 8) : targetsBounded fmt :=
  fun _ _ => List.countP_le_length.trans h

theorem witness_ConfigurationCheckOrder_admitted : configConditions Config.v9 := by
  refine ⟨by dsimp only [paramConditions]; decide, by decide, ?_⟩
  intro dev hdev
  simp only [Config.v9, List.mem_cons, List.not_mem_nil, or_false] at hdev
  refine ⟨?_, fun fmt hfmt => ?_, ?_⟩
  · rcases hdev with rfl | rfl <;>
      simp only [schemaConditions, Config.toySchema, List.forall_mem_cons, List.not_mem_nil, false_implies,
        implies_true, and_true] <;>
      decide
  · rcases hdev with rfl | rfl <;> simp only [List.mem_cons, List.not_mem_nil, or_false] at hfmt <;>
      rcases hfmt with rfl | rfl <;> refine ⟨by decide, ?_, ?_, targetsBounded_of_length (by decide)⟩ <;>
      dsimp only [formatConditions, fieldConditions, geomConditions] <;> decide +kernel
  · rcases hdev with rfl | rfl
    · exact .inr ⟨_, _, rfl, fun s h => absurd (h.1.1.symm.trans h.2.1) (by decide)⟩
    · exact .inl rfl

theorem witness_ConfigurationCheckOrder_listed : listedWays Config.toySingle Config.toyBank ∧
    listedWays Config.toySingle { Config.toySingle with hdr := [0xF0, 0x7E, 0x01] } ∧
    listedWays Config.toySingle { Config.toySingle with hdr := [0xF0, 0x7D, 0x02] } :=
  ⟨.inl (by decide), .inr (.inl ⟨1, by decide⟩), .inr (.inr (by decide))⟩

theorem witness_ConfigurationCheckOrder_refused : ¬configConditions { Config.v9 with devs := [] } :=
  fun h => absurd h.2.1.1 (by decide)

theorem witness_FieldSpecs (dir : WalkDir) : ∃ (s : State) (w : Walk) (f : FieldPlace), s.walk = some w ∧ w.dir = dir ∧
    f.key.toNat < s.cfg.params.nkeys ∧ placeOf w.recBase f + 2 ≤ s.cfg.params.dataSize ∧
    placeOf w.recBase f + (4#32).toNat % 64 ≤ s.cfg.params.dataSize ∧ (4#32).toNat % 64 ≤ s.cfg.params.textMax ∧
    geomLegal 0x109C = true :=
  ⟨inWalk dir toyModel, ⟨dir, 0, 0, []⟩, placeAt 8191 4092, by cases dir <;> decide +kernel⟩

theorem witness_FieldSpecStops : (Instr.fspecVel (placeAt 0 4096) 8192).place? = some (placeAt 0 4096) ∧
    toyModel.walk = none ∧ (inWalk .encode toyModel).walk = some ⟨.encode, 0, 0, []⟩ ∧
    toyModel.cfg.params.nkeys ≤ (placeAt 8192 0).key.toNat ∧ (placeAt 0 0).key.toNat < toyModel.cfg.params.nkeys ∧
    toyModel.cfg.params.nkeys ≤ (8192 : Key).toNat ∧
    toyModel.cfg.params.dataSize < placeOf 0 (placeAt 0 4096) + fieldSpan (.fspecRaw8 (placeAt 0 4096) 0) := by
  decide +kernel

/-- ENCODE of `oneFormat` with one FieldSpec of each kind, with no other that could touch its bits. -/
theorem witness_EncodePlacesFields (w : FieldWords)
    (hw : w ∈ [raw8Words, nib8Words, bitsWords, s14Words, velWords, nameWords]) :
    encodeReady (oneState [w]) (oneDevice [w]) (oneFormat [w]) ∧
    exec .encode (oneState [w]) = .next (after (exec .encode (oneState [w]))) ∧
    (oneFormat [w]).fields = [] ++ w :: [] ∧
    ∃ i f, decodeField w = .ok i ∧ i.place? = some f ∧ f.part.toNat = partToEncode (oneState [w]) (oneFormat [w]) := by
  have hd : ∀ x, currentDevice (oneState [x]) = .ok (oneDevice [x]) := fun _ => rfl
  have hf : ∀ x, (oneDevice [x]).fmts[(oneState [x]).a0.toNat]? = some (oneFormat [x]) := fun _ => rfl
  refine ⟨⟨hd w, hf w, ?_, rfl, show 0 < 1 from Nat.one_pos⟩, eq_after ?_, rfl, ?_⟩
  · revert w
    decide +kernel
  · revert w
    decide +kernel
  · simp only [List.mem_cons, List.not_mem_nil, or_false] at hw
    rcases hw with rfl | rfl | rfl | rfl | rfl | rfl <;> exact ⟨_, _, rfl, rfl, rfl⟩

theorem witness_EncodeBuildsFrame_part : encodeReady
    { (after (exec .init (withArgs 1 0 0))) with a0 := 0, a1 := 1 }
    { schema := [(0, .int 0 255 0), (1, .int 0 255 0)], fmts := [Config.duoParts] } Config.duoParts :=
  ⟨rfl, rfl, by decide +kernel, rfl, by decide +kernel⟩

/-- TOY format 0 in NIBBLIZED mode (R32), of one record. -/
def toyNibbled : Format := { Config.toySingle with mode := 1, total := 25, cke := 23 }

theorem witness_EncodeBuildsFrame_modes :
    (encodeReady toyModel ⟨Config.toySchema, [Config.toySingle, Config.toyBank]⟩ Config.toySingle ∧
      Config.toySingle.ck = true ∧ Config.toySingle.mode = 0) ∧
    (encodeReady { State.resetWith ⟨Params.default, [⟨Config.toySchema, [toyNibbled]⟩]⟩ with curdev := 0 }
        ⟨Config.toySchema, [toyNibbled]⟩ toyNibbled ∧
      toyNibbled.ck = true ∧ toyNibbled.mode = 1 ∧ 0 < toyNibbled.dlen) :=
  ⟨⟨⟨rfl, rfl, by decide +kernel, rfl, by decide +kernel⟩, rfl, rfl⟩,
    ⟨rfl, rfl, by decide +kernel, rfl, by decide +kernel⟩, rfl, rfl, by decide⟩

theorem witness_EncodeFaultsInOrder : ∃ dev, currentDevice toyModel = .ok dev ∧ dev.fmts.length ≤ 2 ∧
    dev.fmts[1]? = some Config.toyBank ∧ checkFormat toyModel.cfg.params dev Config.toyBank = none ∧
    1 < Config.toyBank.recs ∧ 1 < Config.duoParts.parts ∧ Config.duoParts.parts ≤ (2#32).toNat ∧
    checkFormat Params.default dev { Config.toySingle with total := 16 } = some ⟨.badField, 0xFFFF⟩ :=
  ⟨_, rfl, by decide, rfl, by decide +kernel, by decide, by decide, by decide, by decide +kernel⟩

/-- TOY with the bank frame of V14 of two records and a selection. -/
def bankState (sel : Word) : State :=
  { toyWithFrame [0xF0, 0x7D, 0x01, 0x02, 0x0A, 0x04, 0x0B, 0x01, 0x02, 0x03, 0x04, 0x00, 0x05, 0xF7] with a0 := sel }

/-- DUO with the frame of part `p` in IBUF. -/
def duoState (p : Byte) : State :=
  { (after (exec .init (withArgs 1 0 0))).writeBytes .ibuf 0 [0xF0, 0x7D, 0x02, p, 0x11, 0xF7] with inLen := 6 }

/-- The checks of DECODE pass on the single frame, on record 1 of the bank frame, and on part 1 of DUO. -/
theorem witness_DecodeAccepts :
    decodeAccepts (toyWithFrame toyFrame) ⟨Config.toySchema, [Config.toySingle, Config.toyBank]⟩ 0 Config.toySingle 0 0 ∧
    decodeAccepts (bankState 1) ⟨Config.toySchema, [Config.toySingle, Config.toyBank]⟩ 1 Config.toyBank 0 1 ∧
    decodeAccepts (duoState 1) ⟨[(0, .int 0 255 0), (1, .int 0 255 0)], [Config.duoParts]⟩ 0 Config.duoParts 1 0 := by
  unfold decodeAccepts decodeReady firstMatch frameMatches frameHasLength frameHasPrefix checksumAccepts
  refine ⟨⟨⟨rfl, ?_⟩, ⟨rfl, ?_⟩, ?_⟩, ⟨⟨rfl, ?_⟩, ⟨rfl, ?_⟩, ?_⟩, ⟨rfl, ?_⟩, ⟨rfl, ?_⟩, ?_⟩ <;> decide +kernel

theorem witness_DecodeChecksInOrder :
    (∀ g ∈ [Config.toySingle, Config.toyBank], ¬frameHasLength { toyWithFrame toyFrame with inLen := 0 } g) ∧
    (frameHasLength ((toyWithFrame toyFrame).writeBytes .ibuf 1 [0]) Config.toySingle ∧
      ¬frameHasPrefix ((toyWithFrame toyFrame).writeBytes .ibuf 1 [0]) Config.toySingle) ∧
    (frameHasPrefix ((toyWithFrame toyFrame).writeBytes .ibuf 2 [0]) Config.toySingle ∧
      ¬frameMatches ((toyWithFrame toyFrame).writeBytes .ibuf 2 [0]) Config.toySingle) ∧
    ¬checksumAccepts ((toyWithFrame toyFrame).writeBytes .ibuf 13 [0x94]) Config.toySingle ∧
    Config.duoParts.parts ≤ partInFrame (duoState 2) Config.duoParts ∧ Config.toyBank.recs ≠ 1 ∧
    Config.toyBank.recs ≤ (2#32).toNat := by
  unfold frameMatches frameHasLength frameHasPrefix checksumAccepts
  decide +kernel

/-- PARTS_SEEN completes, and does not complete, the two parts of DUO (R268). -/
theorem witness_DecodeLoadsFrame : patchComplete { duoState 1 with partsSeen := 1 } Config.duoParts 1 ∧
    ¬patchComplete (duoState 1) Config.duoParts 1 := by
  unfold patchComplete
  decide +kernel

theorem witness_DecodeLoadsValues (w : FieldWords)
    (hw : w ∈ [raw8Words, nib8Words, bitsWords, s14Words, velWords, nameWords]) :
    decodeAccepts (oneState [w]) (oneDevice [w]) 0 (oneFormat [w]) 0 0 ∧
    exec .decode (oneState [w]) = .next (after (exec .decode (oneState [w]))) ∧
    (oneState [w]).diagLog.length = (oneState [w]).cfg.params.diagMax ∧
    (oneFormat [w]).fields = [] ++ w :: [] ∧
    ∃ i f, decodeField w = .ok i ∧ i.place? = some f ∧ f.part.toNat = 0 := by
  have hd : ∀ x, currentDevice (oneState [x]) = .ok (oneDevice [x]) := fun _ => rfl
  refine ⟨⟨⟨hd w, ?_⟩, ⟨rfl, ?_, by simp⟩, ?_, rfl, show 0 < 1 from Nat.one_pos, fun _ => rfl,
    fun h => absurd rfl h⟩, eq_after ?_, rfl, rfl,
    ?_⟩
  · revert w
    decide +kernel
  · unfold frameMatches frameHasLength frameHasPrefix
    revert w
    decide +kernel
  · intro h
    cases h
  · revert w
    decide +kernel
  · simp only [List.mem_cons, List.not_mem_nil, or_false] at hw
    rcases hw with rfl | rfl | rfl | rfl | rfl | rfl <;> exact ⟨_, _, rfl, rfl, rfl⟩

theorem witness_EncodePlacesFields_untouched (a b : Nat) : ∀ w ∈ (oneFormat []).fields, ¬wordsTouch 0 0 w a b :=
  fun _ h => absurd h (List.not_mem_nil)

theorem witness_DecodeLoadsValues_other (k : Nat) : ∀ w ∈ (oneFormat []).fields, ¬wordsWrite 0 w k :=
  fun _ h => absurd h (List.not_mem_nil)

theorem witness_DecodeLeavesKeysInRange : ∃ s t : State, ∃ dev, currentDevice s = .ok dev ∧ exec .decode s = .next t ∧
    t.result = .success ∧ 2 < s.cfg.params.nkeys ∧ schemaAt dev 2 = some (.int 0 26 0) ∧
    (∀ g ∈ dev.fmts, checkFormat s.cfg.params dev g = none) ∧
    ∀ g ∈ dev.fmts, g.recs = 1 ∨ s.a0 = 0xFFFFFFFF ∨ s.a0.toNat < g.recs :=
  ⟨bankState 1, _, _, rfl, eq_after (by decide +kernel), by decide +kernel, by decide +kernel, rfl, by decide +kernel,
    by decide +kernel⟩

theorem witness_DecodeFailureChangesNothing :
    (after (exec .decode { toyWithFrame toyFrame with inLen := 0 })).result = .failed ∧
    (after (exec .decode (bankState 0xFFFFFFFF))).result = .cancelled ∧
    (after (exec .decode (bankState 2))).result = .fault ∧
    goesOn (exec .decode (bankState 2)) = true := by decide +kernel

theorem witness_DecodeDependsOnInputs : ∃ s₁ s₂ : State, configWf s₁.cfg = true ∧ s₂.cfg = s₁.cfg ∧
    s₂.inLen = s₁.inLen ∧ s₂.a0 = s₁.a0 ∧ s₂.curdev = s₁.curdev ∧ s₂.partsSeen = s₁.partsSeen ∧ s₂.model = s₁.model ∧
    (∀ a, a < s₁.inLen.toNat → s₂.byteAt .ibuf a = s₁.byteAt .ibuf a) ∧ s₂.dimg ≠ s₁.dimg ∧
    (after (exec .decode s₁)).result = .success ∧ goesOn (exec .decode s₂) = true :=
  ⟨toyWithFrame toyFrame, (toyWithFrame toyFrame).writeBytes .dimg 3 [0xFF], by decide +kernel⟩

/-- The other endings of DECODE that R275 speaks of: a fault, and a decode with a substitution in the log. -/
theorem witness_DecodeDependsOnInputs_endings :
    (after (exec .decode (bankState 2))).result = .fault ∧
    (let s := (toyWithFrame toyFrame).writeBytes .ibuf 6 [0x70, 0x0B]
     let t := after (exec .decode (s.writeBytes .ibuf 13 [0x7F]))
     t.result = .success ∧ 0 < t.diagCount.toNat ∧ s.diagLog.length = s.cfg.params.diagMax) := by decide +kernel

theorem witness_OnlyNamedCommandsWrite : isCommand .nibx ∧ goesOn (exec .nibx State.reset) = true ∧
    configWf State.reset.cfg = true ∧ State.reset.shape ∈ [0, 1, 0xFFFFFFFF] := by
  refine ⟨rfl, by decide +kernel, by decide +kernel, by decide +kernel⟩

/-- DUO part 0 encoded, with the frame copied to IBUF. -/
def duoEncoded : State := after (exec .encode { (after (exec .init (withArgs 1 0 0))) with a0 := 0 })

/-- The state of R226 and R271 after ENCODE of DUO part 0. -/
def duoCopied : State := { duoEncoded with ibuf := duoEncoded.obuf, inLen := 6, a0 := 0 }

/-- The FieldSpecs of DUO. -/
theorem duo_fields : decodeField ⟨0x00000000, 0, 0, 0⟩ = .ok (.fspecRaw8 ⟨false, 0, 0, 0⟩ 0) ∧
    decodeField ⟨0x00000120, 0, 0, 0⟩ = .ok (.fspecRaw8 ⟨false, 1, 1, 0⟩ 0) := by decide

theorem witness_RecognizerAcceptsEncoded :
    let s : State := { (after (exec .init (withArgs 1 0 0))) with a0 := 0 }
    configWf s.cfg = true ∧ encodeReady s ⟨[(0, .int 0 255 0), (1, .int 0 255 0)], [Config.duoParts]⟩ Config.duoParts ∧
    exec .encode s = .next duoEncoded ∧ frameCopied duoEncoded duoCopied Config.duoParts :=
  ⟨by decide +kernel, ⟨rfl, rfl, by decide +kernel, rfl, by decide +kernel⟩, eq_after (by decide +kernel),
    rfl, fun _ _ => rfl⟩

theorem witness_DecodeInvertsEncode :
    let s : State := { (after (exec .init (withArgs 1 0 0))) with a0 := 0 }
    let dev : Device := ⟨[(0, .int 0 255 0), (1, .int 0 255 0)], [Config.duoParts]⟩
    (configWf s.cfg = true ∧ encodeReady s dev Config.duoParts ∧ exec .encode s = .next duoEncoded ∧
      frameCopied duoEncoded duoCopied Config.duoParts) ∧
    (∀ w ∈ Config.duoParts.fields, ∀ i f, decodeField w = .ok i → i.place? = some f →
      f.part.toNat = partToEncode s Config.duoParts → carriesLegalValue s dev i) ∧
    Config.duoParts.fields.Pairwise (fun w x =>
      (∀ a b, ¬(wordsTouch (partToEncode s Config.duoParts) 0 w a b ∧
        wordsTouch (partToEncode s Config.duoParts) 0 x a b)) ∧
      ∀ k, ¬(wordsWrite (partToEncode s Config.duoParts) w k ∧ wordsWrite (partToEncode s Config.duoParts) x k)) := by
  intro s dev
  have hp : partToEncode s Config.duoParts = 0 := by decide +kernel
  rw [hp]
  have other : ∀ {i f}, decodeField ⟨0x00000120, 0, 0, 0⟩ = .ok i → i.place? = some f → f.part.toNat ≠ 0 := by
    intro i f hi hf
    rw [duo_fields.2] at hi
    cases hi
    cases hf
    decide
  refine ⟨witness_RecognizerAcceptsEncoded, ?_, ?_⟩
  · intro w hw i f hi hf h0
    simp only [Config.duoParts, List.mem_cons, List.not_mem_nil, or_false] at hw
    rcases hw with rfl | rfl
    · rw [duo_fields.1] at hi
      cases hi
      refine ⟨⟨by decide +kernel, ?_⟩, by decide⟩
      intro lo hi d h
      rw [show schemaAt dev (0 : Key).toNat = some (.int 0 255 0) from rfl] at h
      cases h
      decide +kernel
    · exact absurd h0 (other hi hf)
  · simp only [Config.duoParts, List.pairwise_cons, List.mem_singleton, forall_eq, List.not_mem_nil, false_implies,
      implies_true, List.Pairwise.nil, and_true]
    exact ⟨fun a b h => by obtain ⟨_, i, f, hi, hf, h0, _⟩ := h; exact other hi hf h0,
      fun k h => by obtain ⟨_, i, f, hi, hf, h0, _⟩ := h; exact other hi hf h0⟩

end Sys2Proof.Tests
end

section
/-! The operations that 00_scope.md states: `chk_bref` (R11) in terms of the numbers in a BREF, and `clamp` (R16) as the
CLAMP command applies it. -/

namespace Sys2Proof.Proofs

open Sys2Proof.Machine

/-! ### The fields of a BREF (R83) and `chk_bref` (R11) -/

theorem bref_reserved_eq (b : Word) : bitsAt b 18 14 = b.toNat / 2 ^ 18 := by
  have := b.isLt
  rw [bitsAt_eq]
  omega

theorem bref_space_eq (b : Word) : bitsAt b 16 2 = b.toNat / 2 ^ 16 % 4 := bitsAt_eq b 16 2

theorem bref_offset_eq (b : Word) : bitsAt b 0 16 = b.toNat % 2 ^ 16 := by
  rw [bitsAt_eq, Nat.pow_zero, Nat.div_one]

theorem chkBref_of_reserved_bits {P : Params} {b : Word} {n : Nat} (hres : b.toNat / 2 ^ 18 ≠ 0) :
    chkBref P b n = .error badArg := by
  rw [← bref_reserved_eq] at hres
  exact if_pos hres

/-- With the reserved bits 0 and a space that SP names, only the bounds are left to check. -/
theorem chkBref_of_spaceOf {P : Params} {b : Word} {n : Nat} {sp : Space} (hres : b.toNat / 2 ^ 18 = 0)
    (hsp : spaceOf (b.toNat / 2 ^ 16 % 4) = some sp) :
    chkBref P b n =
      if spaceSize P sp < b.toNat % 2 ^ 16 + n then .error ⟨.bounds, noKey⟩ else .ok ⟨sp, b.toNat % 2 ^ 16⟩ := by
  rw [← bref_reserved_eq] at hres
  rw [← bref_space_eq] at hsp
  simp only [chkBref, hres, hsp, bref_offset_eq, ne_eq, not_true_eq_false, if_false, gt_iff_lt]

/-- The reserved space raises BAD_ARG, as the reserved bits do. -/
theorem chkBref_of_space_three {P : Params} {b : Word} {n : Nat} (hsp : b.toNat / 2 ^ 16 % 4 = 3) :
    chkBref P b n = .error badArg := by
  by_cases hres : b.toNat / 2 ^ 18 = 0
  · rw [← bref_reserved_eq] at hres
    rw [← bref_space_eq] at hsp
    simp only [chkBref, hres, hsp, spaceOf, ne_eq, not_true_eq_false, if_false, badArg]
  · exact chkBref_of_reserved_bits hres

/-- Settles O19, by the order of the checks in `chk_bref`: reserved bits, space, bounds. -/
theorem brefCheckOrder : Obligations.BrefCheckOrder := by
  intro P b n
  refine ⟨?_, fun sp hres hsp => ?_⟩
  · rintro (hres | hsp)
    · exact chkBref_of_reserved_bits hres
    · exact chkBref_of_space_three hsp
  · cases sp <;> exact chkBref_of_spaceOf hres (by rw [hsp]; rfl)

/-! ### CLAMP (R16, R174) -/

theorem exec_clamp (s : State) : exec .clamp s = conclude s (clampRule s) := rfl

theorem exec_clamp_of_le {s : State} (h : s.a1.toInt ≤ s.a2.toInt) :
    exec .clamp s = .next { s with rval := clampWord s.a0 s.a1 s.a2 }.succeed := by
  rw [exec_clamp, clampRule, decide_eq_true h, need_true, ok_bind]
  exact conclude_ok ..

theorem exec_clamp_of_lt {s : State} (h : s.a2.toInt < s.a1.toInt) :
    exec .clamp s = .next (s.raiseFault badArg) := by
  rw [exec_clamp, clampRule, decide_eq_false (not_le.mpr h), need_false, error_bind, conclude_error]

/-- Settles O34, by the one check of CLAMP and the value of `clampWord` as numbers. -/
theorem clampBoundsValue : Obligations.ClampBoundsValue := by
  refine ⟨rfl, fun s => ⟨fun hle => ?_, exec_clamp_of_lt⟩⟩
  exact ⟨clampWord s.a0 s.a1 s.a2, exec_clamp_of_le hle, clampWord_toInt hle⟩

end Sys2Proof.Proofs
end

section
/-! The host's accesses (10_state.md R20, 20_memory.md R63, R65) and reset (R48, R340): a step with no walk in progress
performs the host's next access, and the window, a buffer byte or a model entry answers it. -/

namespace Sys2Proof.Proofs

open Sys2Proof.Machine

/-! ### A step that performs an access -/

theorem step_of_host {s : State} {op : HostOp} {rest : List HostOp} (hw : s.walk = none) (hh : s.host = op :: rest) :
    step s = hostAccess op { s with host := rest } := by
  simp only [step, stepOnce, stepAccess, hh, hw]

theorem step_of_idle {s : State} (hw : s.walk = none) (hh : s.host = []) : step s = .next s := by
  simp only [step, stepOnce, hh, hw]

theorem atRegister_window {s : State} {off : Nat} (k : Nat → Host.Outcome State Fault Refusal) (ha : off % 4 = 0)
    (hoff : off < windowSize s.cfg.params) : atRegister (s.cfg.params.hostBase + off) .word s k = k off := by
  simp [atRegister, ha, hoff]

theorem atByte_of_lt {sp : Space} {off : Nat} {s : State} (k : Host.Outcome State Fault Refusal)
    (h : off < spaceSize s.cfg.params sp) : atByte sp off s k = k := if_pos h

theorem atEntry_of_lt {k : Nat} {s : State} (r : Host.Outcome State Fault Refusal) (h : k < s.cfg.params.nkeys) :
    atEntry k s r = r := if_pos h

theorem hostAccess_regRead {s : State} {off : Nat} (ha : off % 4 = 0) (hoff : off < windowSize s.cfg.params) :
    hostAccess (.regRead (s.cfg.params.hostBase + off) .word) s = .next { s with hostData := readRegister s off } := by
  rw [hostAccess, atRegister_window _ ha hoff]

theorem hostAccess_regWrite {s : State} {off : Nat} (v : Word) (ha : off % 4 = 0)
    (hoff : off < windowSize s.cfg.params) :
    hostAccess (.regWrite (s.cfg.params.hostBase + off) .word v) s = writeRegister off v s := by
  rw [hostAccess, atRegister_window _ ha hoff]

/-! ### Reading the window (R20) -/

theorem readRegister_of_lookup {s : State} {off : Nat} {v : Word} (h : (registerTable s).lookup off = some v) :
    readRegister s off = v := by
  simp only [readRegister, h]

/-- Beyond PARTS_SEEN the window holds DIAG_LOG at 0x100 and 0 elsewhere. -/
theorem readRegister_above {s : State} {off : Nat} (h : 0x044 < off) :
    readRegister s off =
      if 0x100 ≤ off ∧ off < 0x100 + 4 * s.cfg.params.diagMax ∧ off % 4 = 0 then s.diagLog.getD ((off - 0x100) / 4) 0
      else 0 := by
  have hnone : (registerTable s).lookup off = none := by
    rw [List.lookup_eq_none_iff]
    intro e he
    have hle : e.1 ≤ 0x044 := by
      have hall : ∀ k ∈ (registerTable s).map Prod.fst, k ≤ 0x044 := by
        show ∀ k ∈ (registerTable State.reset).map Prod.fst, k ≤ 0x044
        decide
      exact hall _ (List.mem_map_of_mem he)
    exact bne_iff_ne.mpr (by omega)
  simp only [readRegister, hnone]

theorem readRegister_diagLog {s : State} {i : Nat} (h : i < s.cfg.params.diagMax) :
    readRegister s (0x100 + 4 * i) = s.diagLog.getD i 0 := by
  rw [readRegister_above (by omega), if_pos (by omega), Nat.add_sub_cancel_left, Nat.mul_div_cancel_left i (by decide)]

theorem readRegister_unlisted {s : State} {off : Nat} (h : 0x044 < off) (h' : off < 0x100) :
    readRegister s off = 0 := by
  rw [readRegister_above h, if_neg (by omega)]

theorem statusWord_toNat (s : State) :
    s.statusWord.toNat = (if s.faulted then 1 else 0) + (if s.curdev = 0xFF then 0 else 2) := by
  unfold State.statusWord State.devValid
  by_cases hd : s.curdev = 0xFF#8 <;> cases s.faulted <;> simp [hd]

/-- Settles O15: the value is `readRegister` of the offset, register by register. -/
theorem registerWindowReads : Obligations.RegisterWindowReads := by
  intro s off rest hw ha hoff hh
  refine ⟨readRegister s off, ?_, ?_⟩
  · rw [step_of_host hw hh]
    exact hostAccess_regRead (s := { s with host := rest }) ha hoff
  · refine ⟨?cmd, ?a0, ?a1, ?a2, ?inLen, ?result, ?failCause, ?status, ?faultCause, ?faultKey, ?faultCmd, ?rval, ?rval2,
      ?outLen, ?shape, ?diagCount, ?curdev, ?partsSeen, ?diagLog, readRegister_unlisted⟩
    case diagLog =>
      rintro i hi rfl
      exact readRegister_diagLog hi
    all_goals rintro rfl
    case result =>
      rw [readRegister_of_lookup (v := s.result.word) rfl]
      cases s.result <;> rfl
    case failCause =>
      rw [readRegister_of_lookup (v := s.failCause.word) rfl]
      cases s.failCause <;> rfl
    case faultCause =>
      rw [readRegister_of_lookup (v := s.faultCause.word) rfl]
      cases s.faultCause <;> rfl
    case status => exact statusWord_toNat s
    case faultKey =>
      rw [readRegister_of_lookup (v := s.faultKey.setWidth 32) rfl]
      exact BitVec.toNat_setWidth_of_le (by decide)
    case curdev =>
      rw [readRegister_of_lookup (v := s.curdev.setWidth 32) rfl]
      exact BitVec.toNat_setWidth_of_le (by decide)
    case partsSeen =>
      rw [readRegister_of_lookup (v := s.partsSeen.setWidth 32) rfl]
      exact BitVec.toNat_setWidth_of_le (by decide)
    all_goals exact readRegister_of_lookup rfl

/-! ### Writing the window (R20, R65) -/

/-- A write anywhere but at CMD stores into at most one argument register. -/
theorem writeRegister_of_ne_zero {off : Nat} (h : off ≠ 0x000) (v : Word) (s : State) :
    writeRegister off v s = .next { s with
      a0 := if off = 0x004 then v else s.a0
      a1 := if off = 0x008 then v else s.a1
      a2 := if off = 0x00C then v else s.a2
      inLen := if off = 0x010 then v else s.inLen } := by
  unfold writeRegister
  split
  · exact absurd rfl h
  · rfl
  · rfl
  · rfl
  · rfl
  · rename_i h0 h1 h2 h3
    rw [if_neg h0, if_neg h1, if_neg h2, if_neg h3]

/-- Settles O16: the access reaches the window, where a write beside CMD only stores. -/
theorem registerWindowWrites : Obligations.RegisterWindowWrites := by
  intro s off v rest hw ha hne hoff hh
  rw [step_of_host hw hh]
  exact (hostAccess_regWrite (s := { s with host := rest }) v ha hoff).trans (writeRegister_of_ne_zero hne v _)

/-! ### Buffer bytes and model entries (R38, R63) -/

/-- A host write to an entry replaces that entry and keeps every other. -/
theorem entriesKeptBut_setEntry (s : State) (rest : List HostOp) (k : Nat) (e : Entry) :
    entriesKeptBut s (State.setEntry { s with host := rest } k e) k := fun k' hk' => by
  rw [State.entry_setEntry, if_neg hk']
  rfl

theorem entry_setEntry_same (s : State) (k : Nat) (e : Entry) : (s.setEntry k e).entry k = e := by
  rw [State.entry_setEntry, if_pos rfl]

theorem storedLen_eq (P : Params) (v : Word) : storedLen P v = min v.toNat P.textMax := by
  unfold storedLen
  split <;> omega

/-- Writing one byte gives that byte, and keeps every other byte of the three buffers. -/
theorem byteAt_writeByte (s : State) (rest : List HostOp) (sp : Space) (off : Nat) (b : Byte) :
    (State.writeBytes { s with host := rest } sp off [b]).byteAt sp off = b ∧
      bytesKeptOutside s (State.writeBytes { s with host := rest } sp off [b]) sp off 1 := by
  refine ⟨?_, fun sp' a h => ?_⟩
  · simp [State.byteAt_writeBytes]
  · rw [State.byteAt_writeBytes, List.length_singleton, if_neg h]
    exact State.byteAt_congr rfl rfl rfl sp' a

/-- Settles O17: each access reaches one byte or one entry, which the laws of storage describe. -/
theorem hostBufferAndModelAccesses : Obligations.HostBufferAndModelAccesses := by
  refine ⟨fun s rest hw => ⟨fun sp off b hh hoff => ?_, fun k v hh hk => ?_, fun k v hh hk => ?_,
    fun k i v hh hk hi => ?_⟩, fun s rest hw => ⟨fun sp off hh hoff => ?_, fun k hh hk => ?_, fun k hh hk => ?_,
    fun k i hh hk hi => ?_⟩⟩
  all_goals rw [step_of_host hw hh]
  · obtain ⟨hsame, hkept⟩ := byteAt_writeByte s rest sp off b
    exact ⟨_, atByte_of_lt _ hoff, hsame, hkept, State.writeBytes_eq ..⟩
  · refine ⟨_, atEntry_of_lt _ hk, ?_, entriesKeptBut_setEntry _ _ _ _, rfl⟩
    rw [valueStored, entry_setEntry_same]
    exact ⟨rfl, rfl, fun _ => rfl⟩
  · refine ⟨_, atEntry_of_lt _ hk, ?_, ?_, ?_, entriesKeptBut_setEntry _ _ _ _, rfl⟩ <;> rw [entry_setEntry_same]
    · rfl
    · exact storedLen_eq ..
    · exact fun _ => rfl
  · refine ⟨_, (atEntry_of_lt _ hk).trans (if_pos hi), ?_, ?_, fun j => ?_, entriesKeptBut_setEntry _ _ _ _, rfl⟩ <;>
      rw [entry_setEntry_same]
    · rfl
    · rfl
    · exact readCell_writeCell
  · exact ⟨_, BitVec.toNat_setWidth_of_le (by decide), atByte_of_lt _ hoff⟩
  · exact atEntry_of_lt _ hk
  · exact atEntry_of_lt _ hk
  · exact (atEntry_of_lt _ hk).trans (if_pos hi)

/-! ### Reset (R48, R340) -/

/-- The registers of the reset state, which no configuration changes: 0 but for SHAPE and CURDEV. -/
theorem registerTable_resetWith (c : Config) :
    ∀ e ∈ registerTable (State.resetWith c), e.1 ≠ 0x038 → e.1 ≠ 0x040 → e.2 = 0 := by
  show ∀ e ∈ registerTable State.reset, e.1 ≠ 0x038 → e.1 ≠ 0x040 → e.2 = 0
  decide

theorem readRegister_resetWith (c : Config) {off : Nat} (hshape : off ≠ 0x038) (hcurdev : off ≠ 0x040) :
    readRegister (State.resetWith c) off = 0 := by
  unfold readRegister
  split
  · rename_i v hv
    obtain ⟨l₁, l₂, hl, -⟩ := List.lookup_eq_some_iff.mp hv
    exact registerTable_resetWith c (off, v) (by simp [hl]) hshape hcurdev
  · split
    · simp only [State.resetWith, List.getD_eq_getElem?_getD, List.getElem?_replicate]
      split <;> rfl
    · rfl

theorem step_of_reset {s : State} {rest : List HostOp} (hh : s.host = .reset :: rest) :
    step s = .next { State.resetWith s.cfg with host := rest, hostData := s.hostData } := by
  cases hw : s.walk with
  | none => exact step_of_host hw hh
  | some w => simp only [step, stepOnce, stepAccess, hh, hw, if_true, State.assertReset]

/-- Settles O14: the reset values register by register, and the step that asserts reset with or without a walk. -/
theorem resetLeavesSpecValues : Obligations.ResetLeavesSpecValues := by
  refine ⟨fun c => ⟨fun off => readRegister_resetWith c, rfl, rfl, fun sp a => ?_, fun k => ⟨rfl, rfl, fun i => rfl⟩⟩,
    fun s rest => step_of_reset⟩
  cases sp <;> rfl

end Sys2Proof.Proofs
end

section
/-! What a command can do (46_control.md R290, 60_exceptions.md R302, R305): every one of the 19 commands ends in a fault
that names a cause, or in one of the effects listed here. What a command leaves unchanged follows from the list. -/

namespace Sys2Proof.Proofs

open Sys2Proof.Machine

/-! ### How a sequence of checks ends -/

/-- A rule ends in a value with the property `Q`, or raises a fault that names a cause. -/
def Ends {α : Type} (x : Except FaultRec α) (Q : α → Prop) : Prop :=
  match x with
  | .ok a => Q a
  | .error f => f.cause ≠ .none

theorem Ends.pure {α : Type} {Q : α → Prop} {a : α} (h : Q a) : Ends (Pure.pure a) Q := h

theorem Ends.bind {α β : Type} {x : Except FaultRec α} {f : α → Except FaultRec β} {P : α → Prop} {Q : β → Prop}
    (hx : Ends x P) (hf : ∀ a, P a → Ends (f a) Q) : Ends (x >>= f) Q := by
  cases x with
  | error e => exact hx
  | ok a => exact hf a hx

/-- A check whose faults all name a cause ends in the value it answers. -/
theorem ends_of_error {α : Type} {x : Except FaultRec α} (h : ∀ f, x = .error f → f.cause ≠ .none) :
    Ends x (fun a => x = .ok a) := by
  cases x with
  | error e => exact h e rfl
  | ok a => exact rfl

theorem need_ends (c : Bool) {f : FaultRec} (hf : f.cause ≠ .none) : Ends (need c f) (fun _ => c = true) := by
  cases c with
  | false => exact hf
  | true => exact rfl

theorem badArg_cause : badArg.cause ≠ .none := by decide

theorem chkBref_ends (P : Params) (b : Word) (n : Nat) :
    Ends (chkBref P b n) (fun r => r.off + n ≤ spaceSize P r.sp) := by
  cases h : chkBref P b n with
  | ok r => exact chkBref_bound h
  | error f => rcases chkBref_error h with rfl | rfl <;> exact FaultCause.noConfusion

theorem currentDevice_ends (s : State) : Ends (currentDevice s) (fun dev => currentDevice s = .ok dev) :=
  ends_of_error fun f hf => by
    rw [(currentDevice_eq_error.mp hf).1]
    exact FaultCause.noConfusion

theorem noViolation_ends {v : Option FaultRec} (h : ∀ f, v = some f → f.cause ≠ .none) :
    Ends (noViolation v) (fun _ => v = none) := by
  cases v with
  | none => exact rfl
  | some f => exact h f rfl

/-! ### The configuration checks name a cause (R221) -/

theorem checkFormatLevel_cause {P : Params} {fmt : Format} {f : FaultRec} (h : checkFormatLevel P fmt = some f) :
    f.cause ≠ .none := by
  unfold checkFormatLevel at h
  split at h <;> cases h
  exact FaultCause.noConfusion

theorem schemaViolation_cause {dev : Device} {i : Instr} {f : FaultRec} (h : schemaViolation dev i = some f) :
    f.cause = .schema := by
  cases i <;> simp only [schemaViolation, reduceCtorEq] at h
  case fspecVel => split at h <;> [skip; split at h] <;> cases h <;> rfl
  all_goals split at h <;> cases h; rfl

theorem fieldViolation_cause {P : Params} {dev : Device} {fmt : Format} {w : FieldWords} {f : FaultRec}
    (h : fieldViolation P dev fmt w = some f) : f.cause ≠ .none := by
  unfold fieldViolation at h
  split at h
  · split at h
    · cases h
    · rw [schemaViolation_cause h]
      exact FaultCause.noConfusion
  · cases h
    exact FaultCause.noConfusion

theorem checkFormat_cause {P : Params} {dev : Device} {fmt : Format} {f : FaultRec}
    (h : checkFormat P dev fmt = some f) : f.cause ≠ .none := by
  unfold checkFormat at h
  split at h
  · rename_i v hv
    cases h
    exact checkFormatLevel_cause hv
  · split at h
    · rename_i v hv
      cases h
      obtain ⟨w, -, hw⟩ := List.exists_of_findSome?_eq_some hv
      exact fieldViolation_cause hw
    · split at h <;> cases h
      exact FaultCause.noConfusion

/-- The check of all formats of a device, as RECOG and DECODE make it, ends with no violation in any of them. -/
theorem noViolation_findSome_ends {fmts : List Format} {check : Format → Option FaultRec}
    (h : ∀ fmt f, check fmt = some f → f.cause ≠ .none) :
    Ends (noViolation (fmts.findSome? check)) (fun _ => ∀ fmt ∈ fmts, check fmt = none) := by
  cases hv : fmts.findSome? check with
  | none => exact List.findSome?_eq_none_iff.mp hv
  | some f =>
    obtain ⟨fmt, -, hf⟩ := List.exists_of_findSome?_eq_some hv
    exact h fmt f hf

/-! ### The effects -/

/-- Everything that a command leaves behind when it does not fault: the command and the state after it. -/
inductive CommandEffect (s : State) : Instr → State → Prop
  /-- One range inside a buffer is written. -/
  | bytes {i : Instr} (hi : i ∈ [Instr.nibx, .nibc, .bfpk, .s14e, .vele, .namee]) (sp : Space) (off : Nat)
      (bs : List Byte) (hb : off + bs.length ≤ spaceSize s.cfg.params sp) :
      CommandEffect s i (s.writeBytes sp off bs).succeed
  | checksum (sp : Space) (off : Nat) (b : Byte) (v : Word) (hb : off + 1 ≤ spaceSize s.cfg.params sp) :
      CommandEffect s .ckgen { s.writeBytes sp off [b] with rval := v }.succeed
  | value {i : Instr} (hi : i ∈ [Instr.bfup, .s14d, .clamp]) (v : Word) :
      CommandEffect s i { s with rval := v }.succeed
  | values {i : Instr} (hi : i ∈ [Instr.veld, .ckchk]) (v w : Word) :
      CommandEffect s i { s with rval := v, rval2 := w }.succeed
  | code (code enumw v : Word) : CommandEffect s .enumchk { s.enumFix code enumw noKey with rval := v }.succeed
  | text (key : Key) (codes : List Word) (hk : key.toNat < s.cfg.params.nkeys) :
      CommandEffect s .named (s.setText key codes).succeed
  | defaults (dev : Device) (hd : s.cfg.devs[s.a0.toNat]? = some dev) :
      CommandEffect s .init
        { s with
          curdev := s.a0.setWidth 8, model := initModel s.cfg.params dev (dev.schema.map Prod.fst), partsSeen := 0
          diagCount := 0 }.succeed
  | recognition (dev : Device) (hd : currentDevice s = .ok dev) (v : Word) :
      CommandEffect s .recog { s with rval := v, shape := shapeWord (recognize dev s) }.succeed
  | revision (dev : Device) (hd : currentDevice s = .ok dev) : CommandEffect s .revise (revise dev s).succeed
  | frame (dev : Device) (fmt : Format) (hf : checkFormat s.cfg.params dev fmt = none) (p : Nat) :
      CommandEffect s .encode (buildFrame fmt p s).succeed
  /-- DECODE ends FAILED or CANCELLED. -/
  | noDecode (dev : Device) (hd : currentDevice s = .ok dev) (r : ResultCode) (c : FailCause)
      (hr : r = .failed ∧ c ≠ .none ∨ r = .cancelled ∧ c = .none) :
      CommandEffect s .decode ({ s with shape := shapeWord (recognize dev s) }.finish r c)
  | decoded (dev : Device) (hd : currentDevice s = .ok dev) (j : Nat) (hj : recognize dev s = some j) (fmt : Format)
      (hf : checkFormat s.cfg.params dev fmt = none) (p sel : Nat) :
      CommandEffect s .decode (decodeFrame dev j fmt p sel s)

/-! ### The rule of each command ends in its effect -/

theorem initRule_ends (s : State) : Ends (initRule s) (CommandEffect s .init) := by
  unfold initRule
  split
  · exact FaultCause.noConfusion
  · rename_i dev hd
    exact CommandEffect.defaults dev hd

theorem recogRule_ends (s : State) : Ends (recogRule s) (CommandEffect s .recog) :=
  (currentDevice_ends s).bind fun dev hd =>
    (noViolation_findSome_ends fun _ _ => checkFormatLevel_cause).bind fun _ _ => .pure (.recognition dev hd _)

theorem reviseRule_ends (s : State) : Ends (reviseRule s) (CommandEffect s .revise) :=
  (currentDevice_ends s).bind fun dev hd => .pure (.revision dev hd)

theorem nibxRule_ends (s : State) : Ends (nibxRule s) (CommandEffect s .nibx) :=
  (chkBref_ends ..).bind fun _ _ => (chkBref_ends ..).bind fun dst hdst =>
    .pure (.bytes (by simp) dst.sp dst.off _ (by simpa using hdst))

theorem nibcRule_ends (s : State) : Ends (nibcRule s) (CommandEffect s .nibc) :=
  (chkBref_ends ..).bind fun _ _ => (chkBref_ends ..).bind fun dst hdst =>
    .pure (.bytes (by simp) dst.sp dst.off _ (by simpa [nibCompress_length] using hdst))

/-- Packing a bit field writes its one or two bytes. -/
theorem bfPack_eq_writeBytes (sp : Space) (off : Nat) (G : Geom) (v : Word) (s : State) :
    ∃ bs : List Byte, bs.length = G.span ∧ bfPack sp off G v s = s.writeBytes sp off bs := by
  unfold bfPack Geom.span
  split
  · exact ⟨_, rfl, rfl⟩
  · exact ⟨_, rfl, rfl⟩

theorem bfpkRule_ends (s : State) : Ends (bfpkRule s) (CommandEffect s .bfpk) :=
  (need_ends _ badArg_cause).bind fun _ _ => (chkBref_ends ..).bind fun r hr => by
    obtain ⟨bs, hlen, heq⟩ := bfPack_eq_writeBytes r.sp r.off (geomOf s.a2) s.a0 s
    rw [heq]
    exact .pure (.bytes (by simp) r.sp r.off bs (hlen ▸ hr))

theorem bfupRule_ends (s : State) : Ends (bfupRule s) (CommandEffect s .bfup) :=
  (need_ends _ badArg_cause).bind fun _ _ => (chkBref_ends ..).bind fun _ _ => .pure (.value (by simp) _)

theorem s14Bytes_length (lsbf : Bool) (v : Word) : (s14Bytes lsbf v).length = 2 := by
  cases lsbf <;> rfl

theorem s14eRule_ends (s : State) : Ends (s14eRule s) (CommandEffect s .s14e) :=
  (need_ends _ badArg_cause).bind fun _ _ => (chkBref_ends ..).bind fun r hr =>
    .pure (.bytes (by simp) r.sp r.off _ (by rwa [s14Bytes_length]))

theorem s14dRule_ends (s : State) : Ends (s14dRule s) (CommandEffect s .s14d) :=
  (need_ends _ badArg_cause).bind fun _ _ => (chkBref_ends ..).bind fun _ _ => .pure (.value (by simp) _)

theorem veleRule_ends (s : State) : Ends (veleRule s) (CommandEffect s .vele) :=
  (chkBref_ends ..).bind fun r hr => .pure (.bytes (by simp) r.sp r.off _ hr)

theorem veldRule_ends (s : State) : Ends (veldRule s) (CommandEffect s .veld) :=
  (chkBref_ends ..).bind fun _ _ => .pure (.values (by simp) _ _)

theorem nameChecks_ends (s : State) :
    Ends (nameChecks s) fun r =>
      s.a0.toNat < s.cfg.params.nkeys ∧ r.off + xfnameN s.a2 ≤ spaceSize s.cfg.params r.sp :=
  (need_ends _ badArg_cause).bind fun _ _ => (need_ends _ badArg_cause).bind fun _ hk =>
    (chkBref_ends ..).bind fun r hr => (currentDevice_ends s).bind fun dev _ => by
      cases schemaAt dev (bitsAt s.a0 0 16) with
      | none => exact FaultCause.noConfusion
      | some e =>
        cases e with
        | int => exact FaultCause.noConfusion
        | text => exact ⟨of_decide_eq_true hk, hr⟩

theorem nameeRule_ends (s : State) : Ends (nameeRule s) (CommandEffect s .namee) :=
  (nameChecks_ends s).bind fun r hr => .pure (.bytes (by simp) r.sp r.off _ (by simpa using hr.2))

theorem namedRule_ends (s : State) : Ends (namedRule s) (CommandEffect s .named) :=
  (nameChecks_ends s).bind fun _ hr => .pure (.text _ _ (by
    have hkey : (s.a0.extractLsb' 0 16).toNat ≤ s.a0.toNat := by
      rw [BitVec.extractLsb'_toNat]
      exact Nat.mod_le ..
    exact hkey.trans_lt hr.1))

theorem enumchkRule_ends (s : State) : Ends (enumchkRule s) (CommandEffect s .enumchk) :=
  (need_ends _ badArg_cause).bind fun _ _ => .pure (.code _ _ _)

theorem clampRule_ends (s : State) : Ends (clampRule s) (CommandEffect s .clamp) :=
  (need_ends _ badArg_cause).bind fun _ _ => .pure (.value (by simp) _)

theorem ckgenRule_ends (s : State) : Ends (ckgenRule s) (CommandEffect s .ckgen) :=
  (chkBref_ends ..).bind fun _ _ => (chkBref_ends ..).bind fun dst hdst =>
    .pure (.checksum dst.sp dst.off _ _ hdst)

theorem ckchkRule_ends (s : State) : Ends (ckchkRule s) (CommandEffect s .ckchk) :=
  (chkBref_ends ..).bind fun _ _ => (chkBref_ends ..).bind fun _ _ => .pure (.values (by simp) _ _)

theorem encodeChecks_ends (s : State) :
    Ends (encodeChecks s) fun fmt => ∃ dev, checkFormat s.cfg.params dev fmt = none :=
  (currentDevice_ends s).bind fun dev _ => by
    cases dev.fmts[s.a0.toNat]? with
    | none => exact badArg_cause
    | some fmt =>
      exact (noViolation_ends fun _ => checkFormat_cause).bind fun _ hf =>
        (need_ends _ FaultCause.noConfusion).bind fun _ _ => (need_ends _ badArg_cause).bind fun _ _ => .pure ⟨dev, hf⟩

theorem encodeRule_ends (s : State) : Ends (encodeRule s) (CommandEffect s .encode) :=
  (encodeChecks_ends s).bind fun fmt hfmt => by
    obtain ⟨dev, hf⟩ := hfmt
    exact .pure (.frame dev fmt hf _)

/-- With no format that matches, some check failed, so DECODE has a cause to name (R260). -/
theorem failCauseOf_ne_none {dev : Device} {s : State} (h : recognize dev s = none) : failCauseOf dev s ≠ .none := by
  unfold recognize at h
  rw [List.findIdx?_eq_none_iff] at h
  unfold failCauseOf
  cases hc : (dev.fmts.map fun fmt => matchFormat fmt s).find? (fun c => c != .length) with
  | none => exact FailCause.noConfusion
  | some c =>
    obtain ⟨fmt, hmem, rfl⟩ := List.mem_map.mp (List.mem_of_find?_eq_some hc)
    simpa using h fmt hmem

/-- A recognized index is the index of a format. -/
theorem recognize_lt {dev : Device} {s : State} {j : Nat} (h : recognize dev s = some j) : j < dev.fmts.length :=
  (List.findIdx?_eq_some_iff_getElem.mp h).1

/-- What the checks of DECODE give when none of them faults (R262, R263). -/
def decodeCheckOk (s : State) (dev : Device) (c : DecodeCheck) : Prop :=
  match c with
  | .failed cause shape => cause ≠ .none ∧ shape = shapeWord (recognize dev s)
  | .cancelled shape => shape = shapeWord (recognize dev s)
  | .pass j fmt _ _ => recognize dev s = some j ∧ fmt ∈ dev.fmts

theorem frameChecks_ends {dev : Device} {s : State} {j : Nat} {fmt : Format} (hj : recognize dev s = some j)
    (hfmt : fmt ∈ dev.fmts) : Ends (frameChecks j fmt s) (decodeCheckOk s dev) := by
  have hshape : shapeWord (some j) = shapeWord (recognize dev s) := by rw [hj]
  unfold frameChecks
  split
  · exact ⟨FailCause.noConfusion, hshape⟩
  · split
    · exact ⟨FailCause.noConfusion, hshape⟩
    · split
      · exact ⟨hj, hfmt⟩
      · split
        · exact hshape
        · split
          · exact badArg_cause
          · exact ⟨hj, hfmt⟩

theorem decodeChecks_ends (s : State) :
    Ends (decodeChecks s) fun r =>
      currentDevice s = .ok r.1 ∧ (∀ fmt ∈ r.1.fmts, checkFormat s.cfg.params r.1 fmt = none) ∧
        decodeCheckOk s r.1 r.2 :=
  (currentDevice_ends s).bind fun dev hd => (noViolation_findSome_ends fun _ _ => checkFormat_cause).bind fun _ hf => by
    split
    · rename_i hn
      exact .pure ⟨hd, hf, failCauseOf_ne_none hn, by rw [hn]⟩
    · rename_i j hj
      rw [List.getElem?_eq_getElem (recognize_lt hj)]
      exact (frameChecks_ends hj (List.getElem_mem _)).bind fun c hc => .pure ⟨hd, hf, hc⟩

theorem decodeRule_ends (s : State) : Ends (decodeRule s) (CommandEffect s .decode) :=
  (decodeChecks_ends s).bind fun r hr => by
    obtain ⟨dev, c⟩ := r
    dsimp only at hr
    obtain ⟨hd, hf, hc⟩ := hr
    cases c with
    | failed cause shape =>
      obtain ⟨hcause, rfl⟩ := hc
      exact .pure (.noDecode dev hd .failed cause (.inl ⟨rfl, hcause⟩))
    | cancelled shape =>
      obtain rfl := hc
      exact .pure (.noDecode dev hd .cancelled .none (.inr ⟨rfl, rfl⟩))
    | pass j fmt p sel =>
      obtain ⟨hj, hfmt⟩ := hc
      exact .pure (.decoded dev hd j hj fmt (hf fmt hfmt) p sel)

/-! ### The inversion -/

/-- A command answers the state its rule ends with, or the fault entry with the cause that a check named. -/
theorem conclude_next_of_ends {s t : State} {r : Except FaultRec State} {Q : State → Prop} (hr : Ends r Q)
    (h : conclude s r = .next t) : Q t ∨ ∃ f, f.cause ≠ .none ∧ t = s.raiseFault f := by
  rcases conclude_eq_next.mp h with rfl | ⟨f, rfl, rfl⟩
  · exact .inl hr
  · exact .inr ⟨f, hr, rfl⟩

/-- Everything that a command can do: its effect, or the fault entry with a cause. -/
theorem exec_command_cases {i : Instr} {s t : State} (hi : isCommand i) (h : exec i s = .next t) :
    CommandEffect s i t ∨ ∃ f, f.cause ≠ .none ∧ t = s.raiseFault f := by
  cases i with
  | init => exact conclude_next_of_ends (initRule_ends s) h
  | recog => exact conclude_next_of_ends (recogRule_ends s) h
  | encode => exact conclude_next_of_ends (encodeRule_ends s) h
  | decode => exact conclude_next_of_ends (decodeRule_ends s) h
  | revise => exact conclude_next_of_ends (reviseRule_ends s) h
  | nibx => exact conclude_next_of_ends (nibxRule_ends s) h
  | nibc => exact conclude_next_of_ends (nibcRule_ends s) h
  | bfpk => exact conclude_next_of_ends (bfpkRule_ends s) h
  | bfup => exact conclude_next_of_ends (bfupRule_ends s) h
  | s14e => exact conclude_next_of_ends (s14eRule_ends s) h
  | s14d => exact conclude_next_of_ends (s14dRule_ends s) h
  | vele => exact conclude_next_of_ends (veleRule_ends s) h
  | veld => exact conclude_next_of_ends (veldRule_ends s) h
  | namee => exact conclude_next_of_ends (nameeRule_ends s) h
  | named => exact conclude_next_of_ends (namedRule_ends s) h
  | enumchk => exact conclude_next_of_ends (enumchkRule_ends s) h
  | clamp => exact conclude_next_of_ends (clampRule_ends s) h
  | ckgen => exact conclude_next_of_ends (ckgenRule_ends s) h
  | ckchk => exact conclude_next_of_ends (ckchkRule_ends s) h
  | fspecRaw8 => cases hi
  | fspecNib8 => cases hi
  | fspecBits => cases hi
  | fspecS14 => cases hi
  | fspecVel => cases hi
  | fspecName => cases hi

/-! ### What the larger effects leave unchanged -/

/-- Building a frame changes OBUF, DIMG and OUT_LEN alone. -/
theorem buildFrame_eq (fmt : Format) (p : Nat) (s : State) :
    buildFrame fmt p s = { s with
      obuf := (buildFrame fmt p s).obuf, dimg := (buildFrame fmt p s).dimg, outLen := BitVec.ofNat 32 fmt.total } := by
  have hheader (s : State) : encodeHeader fmt p s =
      { s with obuf := (encodeHeader fmt p s).obuf, dimg := (encodeHeader fmt p s).dimg } := by
    unfold encodeHeader
    split <;> rfl
  have hpayload (s : State) : stagePayload fmt s = { s with obuf := (stagePayload fmt s).obuf } := rfl
  have htail (s : State) : encodeTail fmt s = { s with obuf := (encodeTail fmt s).obuf } := by
    unfold encodeTail
    split <;> rfl
  unfold buildFrame
  rw [htail, hpayload, walkFields_encode_eq, hheader]

/-- Decoding a frame changes DIMG, the model store, the log, PARTS_SEEN and SHAPE, and ends with a result and no cause. -/
theorem decodeFrame_eq (dev : Device) (j : Nat) (fmt : Format) (p sel : Nat) (s : State) :
    decodeFrame dev j fmt p sel s = { s with
      dimg := (decodeFrame dev j fmt p sel s).dimg, model := (decodeFrame dev j fmt p sel s).model
      diagCount := (decodeFrame dev j fmt p sel s).diagCount, diagLog := (decodeFrame dev j fmt p sel s).diagLog
      partsSeen := (decodeFrame dev j fmt p sel s).partsSeen, shape := shapeWord (some j)
      result := decodeResult fmt p s.partsSeen, failCause := .none } := by
  unfold decodeFrame
  dsimp only
  rw [revise_eq, walkFields_decode_eq]
  rfl

theorem decodeResult_cases (fmt : Format) (p : Nat) (seen : BitVec 8) :
    decodeResult fmt p seen = .success ∨ decodeResult fmt p seen = .incomplete := by
  unfold decodeResult
  split
  · exact .inr rfl
  · exact .inl rfl

/-! ### SHAPE (R29) -/

/-- The current device is one of the configuration. -/
theorem mem_of_currentDevice {s : State} {dev : Device} (hd : currentDevice s = .ok dev) : dev ∈ s.cfg.devs :=
  List.mem_of_getElem? (currentDevice_eq_ok.mp hd).2

theorem deviceWf_of_mem {c : Config} (hc : configWf c = true) {dev : Device} (hd : dev ∈ c.devs) :
    deviceWf c.params dev = true := by
  simp only [configWf, Bool.and_eq_true, List.all_eq_true] at hc
  exact hc.2 dev hd

/-- A well-formed device has at most two formats (R41). -/
theorem fmts_length_le_two {P : Params} {dev : Device} (h : deviceWf P dev = true) : dev.fmts.length ≤ 2 := by
  simp only [deviceWf, Bool.and_eq_true] at h
  have hfmts := h.2
  unfold formatsDistinct at hfmts
  split at hfmts
  · rename_i hf
    simp [hf]
  · rename_i hf
    simp [hf]
  · cases hfmts

theorem shapeWord_recognize_mem {s : State} (hc : configWf s.cfg = true) {dev : Device}
    (hd : currentDevice s = .ok dev) : shapeWord (recognize dev s) ∈ [0, 1, 0xFFFFFFFF] := by
  have hlen := fmts_length_le_two (deviceWf_of_mem hc (mem_of_currentDevice hd))
  cases hj : recognize dev s with
  | none => simp [shapeWord]
  | some j =>
    have hlt := recognize_lt hj
    have hj01 : j = 0 ∨ j = 1 := by omega
    rcases hj01 with rfl | rfl <;> simp [shapeWord]

/-- A command keeps SHAPE or sets it to what the recognizer gives for the current device. -/
theorem CommandEffect.shape_cases {s t : State} {i : Instr} (h : CommandEffect s i t) :
    t.shape = s.shape ∨ ∃ dev, currentDevice s = .ok dev ∧ t.shape = shapeWord (recognize dev s) := by
  cases h with
  | recognition dev hd v => exact .inr ⟨dev, hd, rfl⟩
  | noDecode dev hd r c hr => exact .inr ⟨dev, hd, rfl⟩
  | decoded dev hd j hj fmt hf p sel => exact .inr ⟨dev, hd, by rw [hj]; rfl⟩
  | frame dev fmt hf p => exact .inl (by rw [buildFrame_eq]; rfl)
  | revision dev hd => exact .inl (by rw [revise_eq]; rfl)
  | _ => exact .inl (by simp)

theorem CommandEffect.shape_mem {s t : State} {i : Instr} (h : CommandEffect s i t) (hc : configWf s.cfg = true)
    (hs : s.shape ∈ [0, 1, 0xFFFFFFFF]) : t.shape ∈ [0, 1, 0xFFFFFFFF] := by
  rcases h.shape_cases with heq | ⟨dev, hd, heq⟩ <;> rw [heq]
  · exact hs
  · exact shapeWord_recognize_mem hc hd

/-! ### The writers of each register, buffer and of the model store -/

/-- Settles O58: the effect of each command, or the fault entry, which writes none of these. -/
theorem onlyNamedCommandsWrite : Obligations.OnlyNamedCommandsWrite := by
  intro i s t hi h
  rcases exec_command_cases hi h with he | ⟨f, -, rfl⟩
  · have hshape := he.shape_mem
    cases he with
    | bytes hi =>
      simp only [List.mem_cons, List.not_mem_nil, or_false] at hi
      rcases hi with rfl | rfl | rfl | rfl | rfl | rfl <;> simp
    | value hi =>
      simp only [List.mem_cons, List.not_mem_nil, or_false] at hi
      rcases hi with rfl | rfl | rfl <;> simp
    | values hi =>
      simp only [List.mem_cons, List.not_mem_nil, or_false] at hi
      rcases hi with rfl | rfl <;> simp
    | checksum => simp
    | code => simp
    | text => simp
    | defaults => simp
    | recognition => simpa using hshape
    | revision =>
      rw [revise_eq]
      simp
    | frame =>
      rw [buildFrame_eq]
      simp
    | noDecode => simpa using hshape
    | decoded =>
      rw [decodeFrame_eq] at hshape ⊢
      simpa using hshape
  · simp

end Sys2Proof.Proofs
end

section
/-! The invariant of Safety.lean: reset meets it, and every step keeps it. It is cut into what bounds the stored data, which
the shared operations keep one by one, and what ties RESULT, FAIL_CAUSE and the fault registers together, which only an
ending or a fault writes (60_exceptions.md R302, R305). -/

namespace Sys2Proof.Proofs

open Sys2Proof.Machine

/-! ### The two parts of the invariant -/

/-- The stored data stand within the bounds that the configuration `c` gives: the part of `State.Inv` that does not
speak of how the last command ended. -/
structure DataOk (c : Config) (s : State) : Prop where
  cfg_eq : s.cfg = c
  no_walk : s.walk = none
  ibuf_ok : bufferOk s.ibuf c.params.bufSize
  obuf_ok : bufferOk s.obuf c.params.bufSize
  dimg_ok : bufferOk s.dimg c.params.dataSize
  model_ok : modelOk c.params s.model
  diag_len : s.diagLog.length = c.params.diagMax
  curdev_ok : s.curdev = 0xFF#8 ∨ s.curdev.toNat < c.devs.length
  shape_ok : s.shape ∈ [0, 1, 0xFFFFFFFF]
  out_len : s.outLen.toNat ≤ c.params.bufSize

/-- RESULT, FAIL_CAUSE and the fault registers agree on how the last command ended (R25, R28). -/
structure StatusOk (s : State) : Prop where
  unfaulted : s.faulted = false → s.faultCause = .none ∧ s.faultKey = 0 ∧ s.faultCmd = 0 ∧ s.result ≠ .fault
  after_fault : s.faulted = true → s.faultCause ≠ .none ∧ s.faultCmd = s.cmd ∧ s.result = .fault
  fail_cause : s.failCause ≠ .none ↔ s.result = .failed

theorem inv_iff {s : State} : s.Inv ↔ configWf s.cfg = true ∧ DataOk s.cfg s ∧ StatusOk s := by
  constructor
  · intro h
    exact ⟨h.cfg_wf, { h with cfg_eq := rfl, shape_ok := by simpa using h.shape_ok }, { h with }⟩
  · rintro ⟨hc, hd, hs⟩
    exact { hd, hs with cfg_wf := hc, shape_ok := by simpa using hd.shape_ok }

/-- The form in which a step shows the invariant: the configuration is the one before it. -/
theorem inv_of_dataOk {c : Config} {t : State} (hc : configWf c = true) (hd : DataOk c t) (hs : StatusOk t) : t.Inv := by
  obtain rfl := hd.cfg_eq
  exact inv_iff.mpr ⟨hc, hd, hs⟩

/-! ### Reset -/

theorem inv_resetWith {c : Config} (hc : configWf c = true) : (State.resetWith c).Inv where
  cfg_wf := hc
  no_walk := rfl
  ibuf_ok := bufferOk_nil _
  obuf_ok := bufferOk_nil _
  dimg_ok := bufferOk_nil _
  model_ok := modelOk_nil _
  diag_len := List.length_replicate
  curdev_ok := .inl rfl
  shape_ok := .inr (.inr rfl)
  out_len := Nat.zero_le _
  unfaulted := fun _ => ⟨rfl, rfl, rfl, ResultCode.noConfusion⟩
  after_fault := fun h => Bool.noConfusion h
  fail_cause := ⟨fun h => absurd rfl h, fun h => ResultCode.noConfusion h⟩

/-- Settles O13: what reset leaves is empty or 0, and the configuration of V9 is well-formed. -/
theorem invariantAtReset : Obligations.InvariantAtReset :=
  ⟨inv_resetWith (by decide), fun _ hc => inv_resetWith hc⟩

/-! ### What each operation keeps of the data -/

section Data

variable {c : Config} {s : State}

theorem DataOk.writeBytes (h : DataOk c s) {sp : Space} {off : Nat} {bs : List Byte}
    (hb : off + bs.length ≤ spaceSize c.params sp) : DataOk c (s.writeBytes sp off bs) := by
  cases sp with
  | ibuf => exact { h with ibuf_ok := bufferOk_writeBytes h.ibuf_ok off bs hb }
  | obuf => exact { h with obuf_ok := bufferOk_writeBytes h.obuf_ok off bs hb }
  | dimg => exact { h with dimg_ok := bufferOk_writeBytes h.dimg_ok off bs hb }

theorem DataOk.setEntry (h : DataOk c s) {k : Nat} {e : Entry} (hk : k < c.params.nkeys)
    (he : entryOk c.params e) : DataOk c (s.setEntry k e) :=
  { h with model_ok := modelOk_writeCell h.model_ok hk he }

theorem DataOk.entry (h : DataOk c s) (k : Nat) : entryOk c.params (s.entry k) := entryOk_entry h.model_ok k

theorem DataOk.setValue (h : DataOk c s) {k : Nat} (hk : k < c.params.nkeys) (v : Word) :
    DataOk c (s.setEntry k { s.entry k with val := v }) :=
  h.setEntry hk (h.entry k)

theorem DataOk.setText (h : DataOk c s) {k : Key} (hk : k.toNat < c.params.nkeys) (codes : List Word) :
    DataOk c (s.setText k codes) := by
  obtain rfl := h.cfg_eq
  exact h.setEntry hk (entryOk_withText ..)

theorem DataOk.enumFix (h : DataOk c s) (code enumw : Word) (key : Key) : DataOk c (s.enumFix code enumw key) := by
  unfold State.enumFix
  split
  · exact h
  · refine { h with diag_len := ?_ }
    simp only [State.logSubstitution]
    split
    · exact List.length_set.trans h.diag_len
    · exact h.diag_len

theorem DataOk.storeCode (h : DataOk c s) {key : Key} (hk : key.toNat < c.params.nkeys) (enumw code : Word) :
    DataOk c (storeCode key enumw code s) :=
  (h.enumFix code enumw key).setValue hk _

theorem DataOk.finish (h : DataOk c s) (r : ResultCode) (f : FailCause) : DataOk c (s.finish r f) := { h with }

theorem DataOk.raiseFault (h : DataOk c s) (f : FaultRec) : DataOk c (s.raiseFault f) := { h with }

/-! ### The walks of ENCODE and DECODE -/

/-- An encode rule writes the DIMG bytes of its FieldSpec. -/
theorem encodeFieldAt_eq_writeBytes {i : Instr} {f : FieldPlace} (hf : i.place? = some f) (b : Nat) (s : State) :
    ∃ bs : List Byte, bs.length = fieldSpan i ∧ encodeFieldAt i b s = s.writeBytes .dimg (fieldBase b f) bs := by
  cases i <;> simp only [Instr.place?, reduceCtorEq, Option.some.injEq] at hf <;> subst hf
  case fspecRaw8 => exact ⟨_, rfl, rfl⟩
  case fspecNib8 => exact ⟨_, rfl, rfl⟩
  case fspecBits => exact bfPack_eq_writeBytes ..
  case fspecS14 => exact ⟨_, s14Bytes_length .., rfl⟩
  case fspecVel => exact ⟨_, rfl, rfl⟩
  case fspecName => exact ⟨_, nameEnc_length .., rfl⟩

theorem DataOk.encodeFieldAt (h : DataOk c s) {i : Instr} {f : FieldPlace} (hf : i.place? = some f) {b : Nat}
    (hb : fieldBase b f + fieldSpan i ≤ c.params.dataSize) : DataOk c (encodeFieldAt i b s) := by
  obtain ⟨bs, hlen, heq⟩ := encodeFieldAt_eq_writeBytes hf b s
  rw [heq]
  exact h.writeBytes (hlen ▸ hb)

/-- A decode rule writes entries of keys below NKEYS, and the log. -/
theorem DataOk.decodeFieldAt (h : DataOk c s) {i : Instr} (hi : fieldOperandsLegal c.params i = true) (b : Nat) :
    DataOk c (decodeFieldAt i b s) := by
  cases i <;> simp only [fieldOperandsLegal, Bool.and_eq_true, decide_eq_true_eq] at hi
  case fspecRaw8 => exact h.storeCode hi.1 ..
  case fspecNib8 => exact h.storeCode hi.1 ..
  case fspecBits => exact h.storeCode hi.1.1 ..
  case fspecS14 => exact h.storeCode hi.1.1 ..
  case fspecVel => exact (h.setValue hi.1 _).setValue hi.2 _
  case fspecName => exact h.setText hi.1 _
  all_goals exact h

theorem DataOk.walkFields (h : DataOk c s) {dir : WalkDir} {p b : Nat} {ws : List FieldWords}
    (hw : ∀ w ∈ ws, ∀ s, DataOk c s → DataOk c (walkField dir p b w s)) : DataOk c (walkFields dir p b ws s) := by
  induction ws generalizing s with
  | nil => exact h
  | cons w ws ih =>
    exact ih (hw w List.mem_cons_self s h) fun v hv => hw v (List.mem_cons_of_mem w hv)

/-- The lengths that FW2 and FW5 fix: the parts of a frame add up within BUF_SIZE, and the data image fits DIMG. -/
theorem formatLevelOk_bounds {P : Params} {fmt : Format} (h : formatLevelOk P fmt = true) :
    fmt.h + payloadLen fmt + 1 ≤ fmt.total ∧ fmt.total ≤ P.bufSize ∧ fmt.dlen ≤ P.dataSize ∧
      (1 < fmt.parts → fmt.poff < fmt.h) := by
  simp only [formatLevelOk, fw2, fw5, Bool.and_eq_true, beq_iff_eq, decide_eq_true_eq] at h
  obtain ⟨⟨⟨⟨⟨-, ⟨⟨htotal, hbuf⟩, hdata⟩, -⟩, -⟩, -⟩, -, hparts⟩, -⟩ := h
  refine ⟨by omega, hbuf, hdata, fun hm => ?_⟩
  simp only [hm, if_true, Bool.and_eq_true, decide_eq_true_eq] at hparts
  exact hparts.1.2

/-- The bytes of a FieldSpec in record 0 fit DIMG (FW7). -/
theorem fieldBase_add_span_le {P : Params} {fmt : Format} (hl : formatLevelOk P fmt = true) {i : Instr} {f : FieldPlace}
    (hf : fieldFits fmt i f = true) : fieldBase fmt.base f + fieldSpan i ≤ P.dataSize := by
  obtain ⟨-, -, hdata, -⟩ := formatLevelOk_bounds hl
  unfold fieldFits at hf
  unfold fieldBase
  split at hf
  · rename_i hs
    rw [if_pos hs]
    exact (of_decide_eq_true hf).trans hdata
  · rename_i hs
    rw [if_neg hs]
    simp only [Bool.and_eq_true, decide_eq_true_eq] at hf
    have hfits := hf.1
    omega

theorem DataOk.walkField_encode (h : DataOk c s) {dev : Device} {fmt : Format} {w : FieldWords}
    (hl : formatLevelOk c.params fmt = true) (hw : fieldViolation c.params dev fmt w = none) (p : Nat) :
    DataOk c (walkField .encode p fmt.base w s) := by
  obtain ⟨i, f, hdec, hplace, -, hfits, -⟩ := fieldViolation_eq_none hw
  simp only [walkField, hdec]
  split
  · exact h.encodeFieldAt hplace (fieldBase_add_span_le hl hfits)
  · exact h

theorem DataOk.walkField_decode (h : DataOk c s) {dev : Device} {fmt : Format} {w : FieldWords}
    (hw : fieldViolation c.params dev fmt w = none) (p b : Nat) : DataOk c (walkField .decode p b w s) := by
  obtain ⟨i, f, hdec, -, hlegal, -⟩ := fieldViolation_eq_none hw
  simp only [walkField, hdec]
  split
  · exact h.decodeFieldAt hlegal b
  · exact h

/-! ### ENCODE -/

section Encode

variable {fmt : Format} (hl : formatLevelOk c.params fmt = true)
include hl

theorem DataOk.encodeHeader (h : DataOk c s) (p : Nat) : DataOk c (encodeHeader fmt p s) := by
  obtain ⟨htotal, hbuf, hdata, hpoff⟩ := formatLevelOk_bounds hl
  have hhdr : fmt.hdr.length = fmt.h := rfl
  have hzero : DataOk c (s.writeBytes .obuf 0 (List.replicate fmt.total 0)) :=
    h.writeBytes (by simpa [spaceSize] using hbuf)
  have himage := hzero.writeBytes (sp := .dimg) (off := 0) (bs := List.replicate fmt.dlen 0)
    (by simpa [spaceSize] using hdata)
  have hheader := himage.writeBytes (sp := .obuf) (off := 0) (bs := fmt.hdr) (by simp only [spaceSize]; omega)
  unfold Machine.encodeHeader
  split
  · rename_i hm
    have hp := hpoff hm
    exact hheader.writeBytes (by simp only [spaceSize, List.length_singleton]; omega)
  · exact hheader

theorem DataOk.stagePayload (h : DataOk c s) : DataOk c (stagePayload fmt s) := by
  obtain ⟨htotal, hbuf, -, -⟩ := formatLevelOk_bounds hl
  have hlen : (if fmt.mode = 0 then s.readBytes .dimg 0 fmt.dlen else nibExpand (s.readBytes .dimg 0 fmt.dlen)).length =
      payloadLen fmt := by
    unfold payloadLen
    split <;> simp
  exact h.writeBytes (by simp only [spaceSize, hlen]; omega)

theorem DataOk.encodeTail (h : DataOk c s) : DataOk c (encodeTail fmt s) := by
  obtain ⟨htotal, hbuf, -, -⟩ := formatLevelOk_bounds hl
  have hlast {t : State} (ht : DataOk c t) : DataOk c (t.writeBytes .obuf (fmt.total - 1) [0xF7]) :=
    ht.writeBytes (by simp only [spaceSize, List.length_singleton]; omega)
  unfold Machine.encodeTail
  split
  · exact hlast (h.writeBytes (by simp only [spaceSize, List.length_singleton]; omega))
  · exact hlast h

end Encode

theorem DataOk.buildFrame (h : DataOk c s) {dev : Device} {fmt : Format}
    (hf : checkFormat c.params dev fmt = none) (p : Nat) : DataOk c (buildFrame fmt p s) := by
  obtain ⟨hl, hfields, -⟩ := checkFormat_eq_none.mp hf
  have hwalk : DataOk c (Machine.walkFields .encode p fmt.base fmt.fields (Machine.encodeHeader fmt p s)) :=
    (h.encodeHeader hl p).walkFields fun w hw _ ht => ht.walkField_encode hl (hfields w hw) p
  obtain ⟨-, hbuf, -⟩ := formatLevelOk_bounds hl
  refine { (hwalk.stagePayload hl).encodeTail hl with out_len := ?_ }
  exact (BitVec.toNat_ofNat ..).trans_le ((Nat.mod_le ..).trans hbuf)

/-! ### REVISE, INIT and DECODE -/

theorem DataOk.reviseKey (h : DataOk c s) (dev : Device) (k : Nat) : DataOk c (reviseKey dev k s) := by
  unfold Machine.reviseKey
  split
  · split
    · rename_i hk
      exact h.setValue (h.cfg_eq ▸ hk) _
    · exact h
  · exact h
  · exact h

theorem DataOk.reviseKeys (h : DataOk c s) (dev : Device) (ks : List Nat) : DataOk c (reviseKeys dev ks s) := by
  induction ks generalizing s with
  | nil => exact h
  | cons k ks ih => exact ih (h.reviseKey dev k)

theorem DataOk.revise (h : DataOk c s) (dev : Device) : DataOk c (revise dev s) := h.reviseKeys ..

theorem entryOk_initEntry (P : Params) (e : SchemaEntry) : entryOk P (initEntry P e) := by
  cases e with
  | int => exact ⟨Nat.zero_le _, cellsWf_nil, by simp [initEntry]⟩
  | text => exact entryOk_withText ..

theorem modelOk_initModel (P : Params) (dev : Device) (ks : List Nat) : modelOk P (initModel P dev ks) := by
  induction ks with
  | nil => exact modelOk_nil P
  | cons k ks ih =>
    unfold initModel
    split
    · split
      · rename_i hk
        exact modelOk_writeCell ih hk (entryOk_initEntry ..)
      · exact ih
    · exact ih

/-- Staging a frame writes D bytes of DIMG, in both modes (R264). -/
theorem DataOk.stageIn (h : DataOk c s) {fmt : Format} (hl : formatLevelOk c.params fmt = true) :
    DataOk c (stageIn fmt s) := by
  obtain ⟨-, -, hdata, -⟩ := formatLevelOk_bounds hl
  refine h.writeBytes ?_
  split
  · simpa [spaceSize] using hdata
  · simpa [spaceSize, nibCompress_length] using hdata

theorem DataOk.decodeFrame (h : DataOk c s) {dev : Device} {fmt : Format} (hf : checkFormat c.params dev fmt = none)
    {j : Nat} (hj : shapeWord (some j) ∈ [0, 1, 0xFFFFFFFF]) (p sel : Nat) :
    DataOk c (decodeFrame dev j fmt p sel s) := by
  obtain ⟨hl, hfields, -⟩ := checkFormat_eq_none.mp hf
  have hzero : DataOk c { s with diagCount := 0 } := { h with }
  have hwalk := (hzero.stageIn hl).walkFields (dir := .decode) (p := p) (b := fmt.base + sel * fmt.stride) (ws := fmt.fields)
    fun w hw _ ht => ht.walkField_decode (hfields w hw) ..
  have hparts : DataOk c
      { Machine.walkFields .decode p (fmt.base + sel * fmt.stride) fmt.fields
          (Machine.stageIn fmt { s with diagCount := 0 }) with
        partsSeen := nextParts fmt p s.partsSeen } := { hwalk with }
  have hrevised := hparts.revise dev
  exact { hrevised with shape_ok := hj }

/-! ### Every command -/

theorem DataOk.of_commandEffect (h : DataOk c s) (hc : configWf c = true) {i : Instr} {t : State}
    (he : CommandEffect s i t) : DataOk c t := by
  have hshape := fun hcfg => he.shape_mem hcfg h.shape_ok
  obtain rfl := h.cfg_eq
  have hshape := hshape hc
  cases he with
  | bytes hi sp off bs hb => exact (h.writeBytes hb).finish ..
  | checksum sp off b v hb => exact { h.writeBytes hb with }
  | value hi v => exact { h with }
  | values hi v w => exact { h with }
  | code code enumw v => exact { h.enumFix code enumw noKey with }
  | text key codes hk => exact (h.setText hk codes).finish ..
  | defaults dev hd =>
    obtain ⟨hlt, -⟩ := List.getElem?_eq_some_iff.mp hd
    refine { h with model_ok := modelOk_initModel .., curdev_ok := .inr ?_ }
    exact (BitVec.toNat_setWidth ..).trans_lt ((Nat.mod_le ..).trans_lt hlt)
  | recognition dev hd v => exact { h with shape_ok := hshape }
  | revision dev hd => exact (h.revise dev).finish ..
  | frame dev fmt hf p => exact (h.buildFrame hf p).finish ..
  | noDecode dev hd r f hr => exact { h with shape_ok := hshape }
  | decoded dev hd j hj fmt hf p sel =>
    exact h.decodeFrame hf (hj ▸ shapeWord_recognize_mem hc hd) p sel

end Data

/-! ### How a command ends -/

theorem StatusOk.raiseFault (s : State) {f : FaultRec} (hf : f.cause ≠ .none) : StatusOk (s.raiseFault f) where
  unfaulted := fun h => Bool.noConfusion h
  after_fault := fun _ => ⟨hf, rfl, rfl⟩
  fail_cause := ⟨fun h => absurd rfl h, fun h => ResultCode.noConfusion h⟩

/-- A command that does not fault leaves the fault registers, and RESULT and FAIL_CAUSE agree after it (R25, R305). -/
theorem CommandEffect.ending {s t : State} {i : Instr} (h : CommandEffect s i t) :
    t.faulted = s.faulted ∧ t.faultCause = s.faultCause ∧ t.faultKey = s.faultKey ∧ t.faultCmd = s.faultCmd ∧
      t.result ≠ .fault ∧ (t.failCause ≠ .none ↔ t.result = .failed) := by
  cases h with
  | revision dev hd =>
    rw [revise_eq]
    simp
  | frame dev fmt hf p =>
    rw [buildFrame_eq]
    simp
  | noDecode dev hd r c hr => rcases hr with ⟨rfl, hc⟩ | ⟨rfl, rfl⟩ <;> simp [*]
  | decoded dev hd j hj fmt hf p sel =>
    rw [decodeFrame_eq]
    rcases decodeResult_cases fmt p s.partsSeen with hr | hr <;> simp [hr]
  | _ => simp

theorem StatusOk.of_commandEffect {s t : State} {i : Instr} (h : StatusOk s) (hf : s.faulted = false)
    (he : CommandEffect s i t) : StatusOk t := by
  obtain ⟨hfaulted, hcause, hkey, hcmd, hresult, hfail⟩ := he.ending
  obtain ⟨hcause', hkey', hcmd', -⟩ := h.unfaulted hf
  exact ⟨fun _ => ⟨hcause.trans hcause', hkey.trans hkey', hcmd.trans hcmd', hresult⟩,
    fun ht => absurd (hfaulted.symm.trans ht) (by simp [hf]), hfail⟩

/-- A command started in an unfaulted legal state ends in a legal state. -/
theorem inv_of_exec {s t : State} {i : Instr} (h : s.Inv) (hf : s.faulted = false) (hi : isCommand i)
    (he : exec i s = .next t) : t.Inv := by
  obtain ⟨hc, hd, hs⟩ := inv_iff.mp h
  rcases exec_command_cases hi he with heff | ⟨f, hcause, rfl⟩
  · exact inv_of_dataOk hc (hd.of_commandEffect hc heff) (hs.of_commandEffect hf heff)
  · exact inv_of_dataOk hc (hd.raiseFault f) (StatusOk.raiseFault s hcause)

/-! ### Host accesses -/

theorem isCommand_of_decodeCmd {w : Word} {i : Instr} (h : decodeCmd w = .ok i) : isCommand i := by
  unfold decodeCmd at h
  split at h
  · cases h
  · split at h
    · rename_i j hj
      cases h
      obtain ⟨l₁, l₂, hl, -⟩ := List.lookup_eq_some_iff.mp hj
      have hall : ∀ e ∈ opcodeMap, e.2.isField = false := by decide
      exact hall (w.extractLsb' 0 8, i) (by simp [hl])
    · cases h

theorem inv_of_writeCmd {s t : State} {w : Word} (h : s.Inv) (he : writeCmd w s = .next t) : t.Inv := by
  unfold writeCmd at he
  split at he
  · cases he
    exact h
  · rename_i hf
    have hf : s.faulted = false := eq_false_of_ne_true hf
    have hstored : ({ s with cmd := w } : State).Inv := { h with after_fault := fun hf' => absurd hf' (by simp [hf]) }
    split at he
    · rename_i i hi
      exact inv_of_exec hstored hf (isCommand_of_decodeCmd hi) he
    · cases he
      obtain ⟨hc, hd, -⟩ := inv_iff.mp hstored
      exact inv_of_dataOk hc (hd.raiseFault _) (StatusOk.raiseFault _ FaultCause.noConfusion)

theorem inv_of_writeRegister {s t : State} {off : Nat} {v : Word} (h : s.Inv) (he : writeRegister off v s = .next t) :
    t.Inv := by
  by_cases h0 : off = 0
  · subst h0
    exact inv_of_writeCmd h he
  · rw [writeRegister_of_ne_zero h0] at he
    cases he
    exact { h with }

theorem atByte_eq_next {sp : Space} {off : Nat} {s t : State} {k : Host.Outcome State Fault Refusal} :
    atByte sp off s k = .next t ↔ off < spaceSize s.cfg.params sp ∧ k = .next t := by
  unfold atByte
  split <;> simp_all

theorem atEntry_eq_next {k : Nat} {s t : State} {r : Host.Outcome State Fault Refusal} :
    atEntry k s r = .next t ↔ k < s.cfg.params.nkeys ∧ r = .next t := by
  unfold atEntry
  split <;> simp_all

theorem atRegister_eq_next {addr : Nat} {width : AccessWidth} {s t : State}
    {k : Nat → Host.Outcome State Fault Refusal} (h : atRegister addr width s k = .next t) :
    ∃ off, k off = .next t := by
  rcases atRegister_cases addr width s k with ⟨-, -, -, -, heq⟩ | heq | heq <;> rw [heq] at h
  · exact ⟨_, h⟩
  · cases h
  · cases h

/-- A host write to an entry keeps a legal state legal where the entry written is within its bounds. -/
theorem inv_setEntry {s : State} (h : s.Inv) {k : Nat} {e : Entry} (hk : k < s.cfg.params.nkeys)
    (he : entryOk s.cfg.params e) : (s.setEntry k e).Inv :=
  { h with model_ok := modelOk_writeCell h.model_ok hk he }

theorem inv_of_hostAccess {op : HostOp} {s t : State} (h : s.Inv) (he : hostAccess op s = .next t) : t.Inv := by
  have hentry (k : Nat) : entryOk s.cfg.params (s.entry k) := entryOk_entry h.model_ok k
  cases op with
  | regRead addr width =>
    rw [hostAccess] at he
    obtain ⟨off, he⟩ := atRegister_eq_next he
    cases he
    exact { h with }
  | regWrite addr width v =>
    rw [hostAccess] at he
    obtain ⟨off, he⟩ := atRegister_eq_next he
    exact inv_of_writeRegister h he
  | bufRead sp off =>
    obtain ⟨-, he⟩ := atByte_eq_next.mp he
    cases he
    exact { h with }
  | bufWrite sp off b =>
    obtain ⟨hoff, he⟩ := atByte_eq_next.mp he
    cases he
    obtain ⟨hc, hd, hs⟩ := inv_iff.mp h
    refine inv_of_dataOk hc (hd.writeBytes hoff) ?_
    rw [State.writeBytes_eq]
    exact { hs with }
  | valRead k =>
    obtain ⟨-, he⟩ := atEntry_eq_next.mp he
    cases he
    exact { h with }
  | valWrite k v =>
    obtain ⟨hk, he⟩ := atEntry_eq_next.mp he
    cases he
    exact inv_setEntry h hk (hentry k)
  | lenRead k =>
    obtain ⟨-, he⟩ := atEntry_eq_next.mp he
    cases he
    exact { h with }
  | lenWrite k v =>
    obtain ⟨hk, he⟩ := atEntry_eq_next.mp he
    cases he
    obtain ⟨-, hwf, hbound⟩ := hentry k
    exact inv_setEntry h hk ⟨by simp [storedLen_eq], hwf, hbound⟩
  | txtRead k i =>
    obtain ⟨-, he⟩ := atEntry_eq_next.mp he
    split at he <;> cases he
    exact { h with }
  | txtWrite k i v =>
    obtain ⟨hk, he⟩ := atEntry_eq_next.mp he
    split at he <;> cases he
    rename_i hi
    obtain ⟨hlen, hwf, hbound⟩ := hentry k
    refine inv_setEntry h hk ⟨hlen, writeCell_wf hwf, fun c hc => ?_⟩
    rcases mem_writeCell hc with rfl | ⟨hc, -⟩
    · exact hi
    · exact hbound c hc
  | reset =>
    cases he
    exact { inv_resetWith h.cfg_wf with }

/-- Settles O12: a legal state has no walk in progress, so a step is idle or performs one access of the host. -/
theorem invariantKeptByStep : Obligations.InvariantKeptByStep := by
  intro s t h he
  cases hh : s.host with
  | nil =>
    rw [step_of_idle h.no_walk hh] at he
    cases he
    exact h
  | cons op rest =>
    rw [step_of_host h.no_walk hh] at he
    have hrest : ({ s with host := rest } : State).Inv := { h with }
    exact inv_of_hostAccess hrest he

end Sys2Proof.Proofs
end

section
/-! When a FieldSpec run on its own stops (log 4): outside a walk it is refused, and in a walk a key of NKEYS or above, or
DIMG bytes past DATA_SIZE, stop it with a fault. -/

namespace Sys2Proof.Proofs

open Sys2Proof.Machine

/-! ### Where `runKind` stops -/

section RunKind

variable {f : FieldPlace} {keys : List Key} {span : Nat} {enc dec : Nat → State → State} {s : State}

theorem runKind_of_no_walk (hw : s.walk = none) : runKind f keys span enc dec s = .refused .fieldOutsideWalk := by
  simp only [runKind, hw]

/-- The first key of NKEYS or above is the one that the fault names. -/
theorem runKind_of_key {w : Walk} (hw : s.walk = some w) {k : Key} {before after : List Key}
    (hkeys : keys = before ++ k :: after) (hbefore : ∀ k' ∈ before, k'.toNat < s.cfg.params.nkeys)
    (hk : s.cfg.params.nkeys ≤ k.toNat) : runKind f keys span enc dec s = .fault (.modelRange k.toNat) := by
  have hfind : keys.find? (fun k => decide (s.cfg.params.nkeys ≤ k.toNat)) = some k := by
    rw [List.find?_eq_some_iff_append]
    exact ⟨decide_eq_true hk, before, after, hkeys, fun k' hk' => by simpa using hbefore k' hk'⟩
  simp only [runKind, hw, hfind]

theorem runKind_of_bytes {w : Walk} (hw : s.walk = some w) (hkeys : ∀ k ∈ keys, k.toNat < s.cfg.params.nkeys)
    (hb : s.cfg.params.dataSize < fieldBase w.recBase f + span) :
    runKind f keys span enc dec s = .fault (.dimgRange (fieldBase w.recBase f)) := by
  have hfind : keys.find? (fun k => decide (s.cfg.params.nkeys ≤ k.toNat)) = none := by
    simpa using hkeys
  simp only [runKind, hw, hfind, hb, if_true]

end RunKind

/-! ### The keys that a FieldSpec names -/

/-- KEY, and KEY2 after it in a VEL, of a FieldSpec at `f`. -/
def keysNamed (i : Instr) (f : FieldPlace) : List Key :=
  match i with
  | .fspecVel _ k2 => [f.key, k2]
  | _ => [f.key]

theorem keysNamed_eq_cons (i : Instr) (f : FieldPlace) : ∃ after, keysNamed i f = f.key :: after := by
  cases i <;> exact ⟨_, rfl⟩

theorem mem_keysNamed {i : Instr} {f : FieldPlace} (hf : i.place? = some f) {k : Key} (h : k ∈ keysNamed i f) :
    k = f.key ∨ i = .fspecVel f k := by
  cases i with
  | fspecVel g k2 =>
    cases hf
    simpa [keysNamed, eq_comm] using h
  | _ => exact .inl (List.mem_singleton.mp h)

/-- A FieldSpec runs the rule of its kind over the keys it names and the bytes of its span. -/
theorem exec_field {i : Instr} {f : FieldPlace} (hf : i.place? = some f) (s : State) :
    ∃ enc dec, exec i s = runKind f (keysNamed i f) (fieldSpan i) enc dec s := by
  cases i <;> simp only [Instr.place?, reduceCtorEq, Option.some.injEq] at hf <;> subst hf <;> exact ⟨_, _, rfl⟩

theorem placeOf_eq_fieldBase (b : Nat) (f : FieldPlace) : placeOf b f = fieldBase b f := by
  unfold placeOf fieldBase
  split
  · exact Nat.zero_add _
  · rfl

/-- Settles O46: every kind is `runKind` over its keys and its span, which stops in the order walk, keys, bytes. -/
theorem fieldSpecStops : Obligations.FieldSpecStops := by
  intro s i f hf
  obtain ⟨enc, dec, hexec⟩ := exec_field hf s
  rw [hexec]
  refine ⟨runKind_of_no_walk, fun w hw => ⟨fun hk => ?_, ?_, fun hk hk2 hb => ?_⟩⟩
  · obtain ⟨after, hkeys⟩ := keysNamed_eq_cons i f
    exact runKind_of_key (before := []) hw hkeys (by simp) hk
  · rintro k2 rfl hk hk2
    exact runKind_of_key (before := [f.key]) (after := []) hw rfl (by simpa using hk) hk2
  · rw [placeOf_eq_fieldBase] at hb ⊢
    refine runKind_of_bytes hw (fun k hmem => ?_) hb
    rcases mem_keysNamed hf hmem with rfl | rfl
    · exact hk
    · exact hk2 k rfl

end Sys2Proof.Proofs
end

section
/-! No step changes the configuration (10_state.md R40, 20_memory.md R69). A command answers its effect or the fault entry,
and a FieldSpec answers its encode or decode rule; neither writes `cfg`, nor does any other access of the host. -/

namespace Sys2Proof.Proofs

open Sys2Proof.Machine

/-! ### Commands -/

theorem CommandEffect.cfg_eq {s t : State} {i : Instr} (h : CommandEffect s i t) : t.cfg = s.cfg := by
  cases h with
  | revision dev hd => rw [revise_eq, State.succeed_cfg]
  | frame dev fmt hf p => rw [buildFrame_eq, State.succeed_cfg]
  | decoded dev hd j hj fmt hf p sel => rw [decodeFrame_eq]
  | _ => simp

theorem cfg_of_exec_command {i : Instr} {s t : State} (hi : isCommand i) (h : exec i s = .next t) : t.cfg = s.cfg := by
  rcases exec_command_cases hi h with heff | ⟨f, -, rfl⟩
  · exact heff.cfg_eq
  · exact State.raiseFault_cfg s f

/-! ### FieldSpecs -/

/-- The two rules that a FieldSpec hands to `runKind` are those that the walks of ENCODE and DECODE apply. -/
theorem exec_field_rules {i : Instr} {f : FieldPlace} (hf : i.place? = some f) (s : State) :
    ∃ enc dec, exec i s = runKind f (keysNamed i f) (fieldSpan i) enc dec s ∧
      ∀ b t, enc (fieldBase b f) t = encodeFieldAt i b t ∧ dec (fieldBase b f) t = decodeFieldAt i b t := by
  cases i <;> simp only [Instr.place?, reduceCtorEq, Option.some.injEq] at hf <;> subst hf <;>
    exact ⟨_, _, rfl, fun _ _ => ⟨rfl, rfl⟩⟩

/-- Where a FieldSpec run on its own goes on, it has applied its encode or its decode rule, as the walk asks. -/
theorem exec_field_cases {i : Instr} {f : FieldPlace} {s t : State} (hf : i.place? = some f) (h : exec i s = .next t) :
    ∃ w, s.walk = some w ∧
      (w.dir = .encode ∧ t = encodeFieldAt i w.recBase s ∨ w.dir = .decode ∧ t = decodeFieldAt i w.recBase s) := by
  obtain ⟨enc, dec, hexec, hrules⟩ := exec_field_rules hf s
  rw [hexec] at h
  obtain ⟨w, hw, -, -, rfl⟩ := runKind_eq_next.mp h
  obtain ⟨henc, hdec⟩ := hrules w.recBase s
  refine ⟨w, hw, ?_⟩
  cases w.dir with
  | encode => exact .inl ⟨rfl, henc⟩
  | decode => exact .inr ⟨rfl, hdec⟩

theorem cfg_of_exec_field {i : Instr} {f : FieldPlace} {s t : State} (hf : i.place? = some f)
    (h : exec i s = .next t) : t.cfg = s.cfg := by
  obtain ⟨w, -, ⟨-, rfl⟩ | ⟨-, rfl⟩⟩ := exec_field_cases hf h
  · rw [encodeFieldAt_eq]
  · rw [decodeFieldAt_eq]

theorem cfg_of_exec {i : Instr} {s t : State} (h : exec i s = .next t) : t.cfg = s.cfg := by
  cases hf : i.place? with
  | none => exact cfg_of_exec_command (by simp [isCommand, Instr.isField, hf]) h
  | some f => exact cfg_of_exec_field hf h

/-! ### Host accesses and the walk in progress -/

theorem cfg_of_writeCmd {w : Word} {s t : State} (h : writeCmd w s = .next t) : t.cfg = s.cfg := by
  unfold writeCmd at h
  split at h
  · cases h
    rfl
  · split at h
    · exact cfg_of_exec (s := { s with cmd := w }) h
    · cases h
      rfl

theorem cfg_of_writeRegister {off : Nat} {v : Word} {s t : State} (h : writeRegister off v s = .next t) :
    t.cfg = s.cfg := by
  by_cases h0 : off = 0
  · subst h0
    exact cfg_of_writeCmd h
  · rw [writeRegister_of_ne_zero h0] at h
    cases h
    rfl

/-- If the outcome is a next state, it carries the configuration of `s`. -/
def KeepsCfg (s : State) (o : Host.Outcome State Fault Refusal) : Prop := ∀ t, o = .next t → t.cfg = s.cfg

section KeepsCfg

variable {s : State} {o : Host.Outcome State Fault Refusal}

theorem KeepsCfg.next {t : State} (h : t.cfg = s.cfg) : KeepsCfg s (.next t) := fun _ ht => by
  cases ht
  exact h

theorem KeepsCfg.atRegister {addr : Nat} {width : AccessWidth} {k : Nat → Host.Outcome State Fault Refusal}
    (hk : ∀ off, KeepsCfg s (k off)) : KeepsCfg s (atRegister addr width s k) := fun t ht => by
  obtain ⟨off, hoff⟩ := atRegister_eq_next ht
  exact hk off t hoff

theorem KeepsCfg.atByte {sp : Space} {off : Nat} (ho : KeepsCfg s o) : KeepsCfg s (atByte sp off s o) :=
  fun t ht => ho t (atByte_eq_next.mp ht).2

theorem KeepsCfg.atEntry {k : Nat} (ho : KeepsCfg s o) : KeepsCfg s (atEntry k s o) :=
  fun t ht => ho t (atEntry_eq_next.mp ht).2

theorem KeepsCfg.ite_refused {c : Prop} [Decidable c] {r : Refusal} (ho : KeepsCfg s o) :
    KeepsCfg s (if c then o else .refused r) := fun t ht => by
  split at ht
  · exact ho t ht
  · cases ht

end KeepsCfg

theorem hostAccess_keepsCfg (op : HostOp) (s : State) : KeepsCfg s (hostAccess op s) := by
  cases op with
  | regRead addr width => exact .atRegister fun off => .next (t := { s with hostData := readRegister s off }) rfl
  | regWrite addr width v => exact .atRegister fun _ _ => cfg_of_writeRegister
  | bufRead sp off => exact .atByte (.next rfl)
  | bufWrite sp off b => exact .atByte (.next (State.writeBytes_cfg ..))
  | valRead k => exact .atEntry (.next rfl)
  | valWrite k v => exact .atEntry (.next (State.setEntry_cfg ..))
  | lenRead k => exact .atEntry (.next rfl)
  | lenWrite k v => exact .atEntry (.next (State.setEntry_cfg ..))
  | txtRead k i => exact .atEntry (.ite_refused (.next rfl))
  | txtWrite k i v => exact .atEntry (.ite_refused (.next (State.setEntry_cfg ..)))
  | reset => exact .next rfl

theorem cfg_of_walkStep {w : Walk} {s t : State} (h : walkStep w s = .next t) : t.cfg = s.cfg := by
  unfold walkStep at h
  split at h
  · cases h
    rfl
  · rename_i fw rest _
    split at h
    · cases h
    · split at h
      · exact cfg_of_exec (s := { s with walk := some { w with rest := rest } }) h
      · cases h
        rfl

/-- A walk in progress holds off every access of the host but reset. -/
theorem step_of_walk {s : State} {w : Walk} (hw : s.walk = some w) (hr : s.host.head? ≠ some .reset) :
    step s = walkStep w s := by
  cases hh : s.host with
  | nil => simp only [step, stepOnce, hh, hw]
  | cons op rest =>
    have hop : op ≠ .reset := by simpa [hh] using hr
    simp only [step, stepOnce, stepAccess, hh, hw, if_neg hop]

/-- Settles O11: a step is idle, an access of the host, a reset or a FieldSpec of a walk, and each keeps `cfg`. -/
theorem configurationNeverChanges : Obligations.ConfigurationNeverChanges := by
  intro s t h
  cases hw : s.walk with
  | none =>
    cases hh : s.host with
    | nil =>
      rw [step_of_idle hw hh] at h
      cases h
      rfl
    | cons op rest =>
      rw [step_of_host hw hh] at h
      exact hostAccess_keepsCfg op { s with host := rest } t h
  | some w =>
    by_cases hr : s.host.head? = some .reset
    · obtain ⟨rest, hh⟩ := List.head?_eq_some_iff.mp hr
      rw [step_of_reset hh] at h
      cases h
      rfl
    · rw [step_of_walk hw hr] at h
      exact cfg_of_walkStep h

end Sys2Proof.Proofs
end

section
/-! Which accesses of the host are refused (10_state.md R35, 20_memory.md R60, R63): the checks of the access itself, and
nothing else, because a command that the access starts ends in a next state (46_control.md R290). -/

namespace Sys2Proof.Proofs

open Sys2Proof.Machine

/-! ### Commands are not refused -/

theorem conclude_next (s : State) (r : Except FaultRec State) : ∃ t, conclude s r = .next t := by
  cases r with
  | ok t => exact ⟨t, conclude_ok s t⟩
  | error f => exact ⟨_, conclude_error s f⟩

/-- Every command runs a rule to its conclusion. -/
theorem exec_command_eq_conclude {i : Instr} (hi : isCommand i) (s : State) : ∃ r, exec i s = conclude s r := by
  cases i with
  | fspecRaw8 => cases hi
  | fspecNib8 => cases hi
  | fspecBits => cases hi
  | fspecS14 => cases hi
  | fspecVel => cases hi
  | fspecName => cases hi
  | _ => exact ⟨_, rfl⟩

theorem exec_command_next {i : Instr} (hi : isCommand i) (s : State) : ∃ t, exec i s = .next t := by
  obtain ⟨r, hr⟩ := exec_command_eq_conclude hi s
  rw [hr]
  exact conclude_next s r

theorem writeCmd_next (w : Word) (s : State) : ∃ t, writeCmd w s = .next t := by
  unfold writeCmd
  split
  · exact ⟨_, rfl⟩
  · split
    · rename_i i hi
      exact exec_command_next (isCommand_of_decodeCmd hi) _
    · exact ⟨_, rfl⟩

theorem writeRegister_next (off : Nat) (v : Word) (s : State) : ∃ t, writeRegister off v s = .next t := by
  by_cases h0 : off = 0
  · subst h0
    exact writeCmd_next v s
  · exact ⟨_, writeRegister_of_ne_zero h0 v s⟩

/-! ### The checks of an access -/

/-- The model gives the outcome no meaning. -/
def Refuses (o : Host.Outcome State Fault Refusal) : Prop := ∃ r, o = .refused r

@[simp] theorem refuses_refused (r : Refusal) : Refuses (.refused r) := ⟨r, rfl⟩

@[simp] theorem not_refuses_next (t : State) : ¬Refuses (.next t) := fun ⟨_, h⟩ => by cases h

theorem not_refuses_writeRegister (off : Nat) (v : Word) (s : State) : ¬Refuses (writeRegister off v s) := by
  obtain ⟨t, ht⟩ := writeRegister_next off v s
  rw [ht]
  exact not_refuses_next t

theorem refuses_ite {c : Prop} [Decidable c] {o : Host.Outcome State Fault Refusal} {r : Refusal} :
    Refuses (if c then o else .refused r) ↔ ¬c ∨ Refuses o := by
  by_cases hc : c <;> simp [hc]

theorem refuses_atByte {sp : Space} {off : Nat} {s : State} {o : Host.Outcome State Fault Refusal} :
    Refuses (atByte sp off s o) ↔ spaceSize s.cfg.params sp ≤ off ∨ Refuses o :=
  refuses_ite.trans (or_congr_left not_lt)

theorem refuses_atEntry {k : Nat} {s : State} {o : Host.Outcome State Fault Refusal} :
    Refuses (atEntry k s o) ↔ s.cfg.params.nkeys ≤ k ∨ Refuses o :=
  refuses_ite.trans (or_congr_left not_lt)

/-- Reading or writing `txt[i]`: the check on the key, and then the one on the index (log 15). -/
theorem refuses_atEntry_code {k i : Nat} {s t : State} {r : Refusal} :
    Refuses (atEntry k s (if i < s.cfg.params.textMax then .next t else .refused r)) ↔
      s.cfg.params.nkeys ≤ k ∨ s.cfg.params.textMax ≤ i := by
  rw [refuses_atEntry, refuses_ite, not_lt, or_iff_left (not_refuses_next t)]

/-- A register access whose meaning never refuses is refused outside the window, and where it is not one aligned word. -/
theorem refuses_atRegister {addr : Nat} {width : AccessWidth} {s : State} {k : Nat → Host.Outcome State Fault Refusal}
    (hk : ∀ off, ¬Refuses (k off)) :
    Refuses (atRegister addr width s k) ↔
      addr < s.cfg.params.hostBase ∨ s.cfg.params.hostBase + 0x100 + 4 * s.cfg.params.diagMax ≤ addr ∨
        width ≠ .word ∨ (addr - s.cfg.params.hostBase) % 4 ≠ 0 := by
  rw [Nat.add_assoc, ← or_assoc]
  unfold atRegister
  by_cases haddr : addr < s.cfg.params.hostBase ∨ s.cfg.params.hostBase + windowSize s.cfg.params ≤ addr
  · rw [if_pos haddr]
    exact iff_of_true (refuses_refused _) (.inl haddr)
  · rw [if_neg haddr, ← windowSize, or_iff_right haddr]
    by_cases hword : width ≠ .word ∨ (addr - s.cfg.params.hostBase) % 4 ≠ 0
    · rw [if_pos hword]
      exact iff_of_true (refuses_refused _) hword
    · rw [if_neg hword]
      exact iff_of_false (hk _) hword

/-- Settles O18: each access is refused by its own checks only, since what it performs answers a next state. -/
theorem hostAccessRefusals : Obligations.HostAccessRefusals := by
  intro s op rest hw hh
  rw [step_of_host hw hh]
  cases op with
  | regRead a w => exact refuses_atRegister fun _ => not_refuses_next _
  | regWrite a w v => exact refuses_atRegister fun off => not_refuses_writeRegister off v _
  | bufRead sp off => exact refuses_atByte.trans (or_iff_left (not_refuses_next _))
  | bufWrite sp off b => exact refuses_atByte.trans (or_iff_left (not_refuses_next _))
  | valRead k => exact refuses_atEntry.trans (or_iff_left (not_refuses_next _))
  | valWrite k v => exact refuses_atEntry.trans (or_iff_left (not_refuses_next _))
  | lenRead k => exact refuses_atEntry.trans (or_iff_left (not_refuses_next _))
  | lenWrite k v => exact refuses_atEntry.trans (or_iff_left (not_refuses_next _))
  | txtRead k i => exact refuses_atEntry_code
  | txtWrite k i v => exact refuses_atEntry_code
  | reset => exact iff_of_false (not_refuses_next _) id

end Sys2Proof.Proofs
end

section
/-! Decoding and encoding (30_encoding.md R80, R81, R86, R87, R89). A CMD word decodes exactly when the opcode map lists it;
the words of a FieldSpec are cut into their fields and put together again as numbers. -/

namespace Sys2Proof.Proofs

open Sys2Proof.Machine

/-! ### The CMD word (R80, R81) -/

theorem lookup_opcodeMap_eq_some {opc : BitVec 8} {i : Instr} :
    opcodeMap.lookup opc = some i ↔ (opc, i) ∈ opcodeMap := by
  constructor
  · intro h
    obtain ⟨l₁, l₂, hl, -⟩ := List.lookup_eq_some_iff.mp h
    simp [hl]
  · have hall : ∀ e ∈ opcodeMap, opcodeMap.lookup e.1 = some e.2 := by decide
    exact hall (opc, i)

/-- A word with CMD[31:8] = 0 is its low byte OPC. -/
theorem upper_eq_zero_iff (w : Word) : w.extractLsb' 8 24 = 0 ↔ w = (w.extractLsb' 0 8).setWidth 32 := by
  rw [← BitVec.toNat_inj, ← BitVec.toNat_inj, BitVec.toNat_setWidth_of_le (by decide), BitVec.extractLsb'_toNat,
    BitVec.extractLsb'_toNat, Nat.shiftRight_eq_div_pow, Nat.shiftRight_zero]
  have := w.isLt
  show w.toNat / 2 ^ 8 % 2 ^ 24 = 0 ↔ _
  omega

/-- The words that are commands: an OPC of the map with CMD[31:8] = 0 (R81). -/
theorem decodeCmd_eq_ok {w : Word} {i : Instr} :
    decodeCmd w = .ok i ↔ ∃ opc, (opc, i) ∈ opcodeMap ∧ w = opc.setWidth 32 := by
  have hcase : decodeCmd w = .ok i ↔ w.extractLsb' 8 24 = 0 ∧ (w.extractLsb' 0 8, i) ∈ opcodeMap := by
    rw [← lookup_opcodeMap_eq_some]
    unfold decodeCmd
    by_cases hup : w.extractLsb' 8 24 = 0#24
    · cases opcodeMap.lookup (w.extractLsb' 0 8) <;> simp [hup]
    · simp [hup]
  rw [hcase, upper_eq_zero_iff]
  constructor
  · exact fun ⟨hw, hm⟩ => ⟨_, hm, hw⟩
  · rintro ⟨opc, hm, rfl⟩
    have hopc : (opc.setWidth 32).extractLsb' 0 8 = opc := by
      rw [BitVec.extractLsb'_setWidth_of_le (by decide)]
      exact BitVec.extractLsb'_eq_self
    rw [hopc]
    exact ⟨rfl, hm⟩

theorem encode_of_mem_opcodeMap {opc : BitVec 8} {i : Instr} (h : (opc, i) ∈ opcodeMap) :
    encode i = [opc.setWidth 32] := by
  have hall : ∀ e ∈ opcodeMap, encode e.2 = [e.1.setWidth 32] := by decide
  exact hall (opc, i) h

/-- Every command has an opcode (R81). -/
theorem exists_opcode {i : Instr} (hi : isCommand i) : ∃ opc, (opc, i) ∈ opcodeMap := by
  have hmem : i ∈ opcodeMap.map Prod.snd := by
    cases i
    case fspecRaw8 | fspecNib8 | fspecBits | fspecS14 | fspecVel | fspecName => cases hi
    all_goals decide
  obtain ⟨⟨opc, _⟩, he, rfl⟩ := List.mem_map.mp hmem
  exact ⟨opc, he⟩

theorem decodeWords_encode_command {i : Instr} (hi : isCommand i) : decodeWords (encode i) = .ok i := by
  obtain ⟨opc, hm⟩ := exists_opcode hi
  rw [encode_of_mem_opcodeMap hm]
  exact decodeCmd_eq_ok.mpr ⟨opc, hm, rfl⟩

theorem encode_of_decodeCmd {w : Word} {i : Instr} (h : decodeCmd w = .ok i) : encode i = [w] := by
  obtain ⟨opc, hm, rfl⟩ := decodeCmd_eq_ok.mp h
  exact encode_of_mem_opcodeMap hm

/-- Settles O1: the words that `decodeCmd_eq_ok` describes are the opcodes of the map as numbers. -/
theorem opcodeMapExact : Obligations.OpcodeMapExact := by
  intro w i
  rw [decodeCmd_eq_ok]
  show _ ↔ (w.toNat, i) ∈ opcodeMap.map fun e => (e.1.toNat, e.2)
  simp only [List.mem_map, Prod.mk.injEq, Prod.exists]
  constructor
  · rintro ⟨opc, hm, rfl⟩
    exact ⟨opc, i, hm, (BitVec.toNat_setWidth_of_le (by decide)).symm, rfl⟩
  · rintro ⟨opc, _, hm, hw, rfl⟩
    exact ⟨opc, hm, BitVec.eq_of_toNat_eq (hw.symm.trans (BitVec.toNat_setWidth_of_le (by decide)).symm)⟩

/-! ### The words W0 and W1 of a FieldSpec (R86) -/

theorem append_toNat {m n : Nat} (x : BitVec m) (y : BitVec n) : (x ++ y).toNat = x.toNat * 2 ^ n + y.toNat := by
  rw [BitVec.toNat_append, ← Nat.shiftLeft_add_eq_or_of_lt y.isLt, Nat.shiftLeft_eq]

theorem encodeW0_toNat (kind : BitVec 4) (f : FieldPlace) :
    (encodeW0 kind f).toNat = f.key.toNat * 256 + f.part.toNat * 32 + f.scope.toNat * 16 + kind.toNat := by
  unfold encodeW0
  simp only [append_toNat, BitVec.toNat_ofBool, BitVec.toNat_ofNat]
  omega

theorem encodeW1_toNat (key2 : Key) (f : FieldPlace) : (encodeW1 key2 f).toNat = key2.toNat * 65536 + f.off.toNat :=
  append_toNat ..

theorem encodeW0_reserved (kind : BitVec 4) (f : FieldPlace) : (encodeW0 kind f).extractLsb' 24 8 = 0#8 := by
  apply BitVec.eq_of_toNat_eq
  rw [BitVec.extractLsb'_toNat, encodeW0_toNat, Nat.shiftRight_eq_div_pow, BitVec.toNat_ofNat]
  have := f.key.isLt
  have := f.part.isLt
  have := f.scope.toNat_le
  have := kind.isLt
  omega

theorem encodeW0_kind (kind : BitVec 4) (f : FieldPlace) : (encodeW0 kind f).extractLsb' 0 4 = kind := by
  apply BitVec.eq_of_toNat_eq
  rw [BitVec.extractLsb'_toNat, encodeW0_toNat, Nat.shiftRight_eq_div_pow]
  have := kind.isLt
  omega

/-- The place fields of a FieldSpec are read back from its words. -/
theorem fieldPlace_encode (kind : BitVec 4) (key2 : Key) (f : FieldPlace) (param enumw : Word) :
    fieldPlace ⟨encodeW0 kind f, encodeW1 key2 f, param, enumw⟩ = f := by
  obtain ⟨scope, part, key, off⟩ := f
  have hscope := scope.toNat_le
  unfold fieldPlace FieldWords.key
  congr 1
  · rw [Bool.eq_iff_iff, ← Bool.toNat_eq_one, ← Bool.toNat_eq_one, BitVec.getLsbD, Nat.toNat_testBit, encodeW0_toNat]
    dsimp only
    omega
  all_goals
    apply BitVec.eq_of_toNat_eq
    simp only [BitVec.extractLsb'_toNat, encodeW0_toNat, encodeW1_toNat, Nat.shiftRight_eq_div_pow]
    omega

theorem fieldKey2_encode (w0 : Word) (key2 : Key) (f : FieldPlace) (param enumw : Word) :
    fieldKey2 ⟨w0, encodeW1 key2 f, param, enumw⟩ = key2 := by
  apply BitVec.eq_of_toNat_eq
  have := key2.isLt
  have := f.off.isLt
  simp only [fieldKey2, BitVec.extractLsb'_toNat, encodeW1_toNat, Nat.shiftRight_eq_div_pow]
  omega

/-- W0 holds nothing but KIND and the place fields where its reserved bits are 0. -/
theorem encodeW0_fieldPlace {w : FieldWords} {kind : Nat} (hres : w.w0.extractLsb' 24 8 = 0#8)
    (hkind : (w.w0.extractLsb' 0 4).toNat = kind) : encodeW0 (BitVec.ofNat 4 kind) (fieldPlace w) = w.w0 := by
  apply BitVec.eq_of_toNat_eq
  have hres := congrArg BitVec.toNat hres
  have hlt := w.w0.isLt
  rw [encodeW0_toNat, ← hkind, BitVec.ofNat_toNat, BitVec.setWidth_eq]
  simp only [fieldPlace, FieldWords.key, BitVec.getLsbD, Nat.toNat_testBit, BitVec.extractLsb'_toNat,
    Nat.shiftRight_eq_div_pow, BitVec.toNat_ofNat] at hres ⊢
  omega

/-- W1 holds nothing but KEY2 and OFF. -/
theorem encodeW1_fieldPlace {w : FieldWords} {key2 : Key} (hkey2 : fieldKey2 w = key2) :
    encodeW1 key2 (fieldPlace w) = w.w1 := by
  apply BitVec.eq_of_toNat_eq
  have := w.w1.isLt
  rw [encodeW1_toNat, ← hkey2]
  simp only [fieldPlace, fieldKey2, BitVec.extractLsb'_toNat, Nat.shiftRight_eq_div_pow]
  omega

/-! ### The kinds of FieldSpec (R87) -/

theorem needKey2Zero_eq_ok {f : FieldWords} {i j : Instr} :
    needKey2Zero f j = .ok i ↔ fieldKey2 f = 0#16 ∧ j = i := by
  unfold needKey2Zero
  split <;> simp_all

theorem needParamZero_eq_ok {f : FieldWords} {r : Except DecodeError Instr} {i : Instr} :
    needParamZero f r = .ok i ↔ f.w2 = 0#32 ∧ r = .ok i := by
  unfold needParamZero
  split <;> simp_all

theorem needEnumwZero_eq_ok {f : FieldWords} {r : Except DecodeError Instr} {i : Instr} :
    needEnumwZero f r = .ok i ↔ f.w3 = 0#32 ∧ r = .ok i := by
  unfold needEnumwZero
  split <;> simp_all

/-- The words of a FieldSpec decode by their KIND, and pass the checks that their kind makes. -/
theorem decodeWords_encode_field {i : Instr} (hi : i.isField = true) : decodeWords (encode i) = .ok i := by
  cases i
  case fspecRaw8 | fspecNib8 | fspecBits | fspecS14 | fspecVel | fspecName =>
    simp [encode, decodeWords, decodeField, encodeW0_reserved, encodeW0_kind, needParamZero_eq_ok, needEnumwZero_eq_ok,
      needKey2Zero_eq_ok, fieldPlace_encode, fieldKey2_encode]
  all_goals cases hi

theorem encode_of_decodeField {w : FieldWords} {i : Instr} (h : decodeField w = .ok i) :
    encode i = [w.w0, w.w1, w.w2, w.w3] := by
  unfold decodeField at h
  split at h
  · cases h
  · rename_i hres
    have hw0 {kind : Nat} := encodeW0_fieldPlace (kind := kind) (not_not.mp hres)
    split at h <;>
      simp only [needParamZero_eq_ok, needKey2Zero_eq_ok, needEnumwZero_eq_ok, Except.ok.injEq, reduceCtorEq] at h <;>
      rename_i hkind
    case h_1 | h_2 =>
      obtain ⟨hparam, hkey2, rfl⟩ := h
      simp [encode, hw0 hkind, encodeW1_fieldPlace hkey2, hparam]
    case h_3 | h_4 =>
      obtain ⟨hkey2, rfl⟩ := h
      simp [encode, hw0 hkind, encodeW1_fieldPlace hkey2]
    case h_5 =>
      obtain ⟨hparam, henumw, rfl⟩ := h
      simp [encode, hw0 hkind, encodeW1_fieldPlace rfl, hparam, henumw]
    case h_6 =>
      obtain ⟨henumw, hkey2, rfl⟩ := h
      simp [encode, hw0 hkind, encodeW1_fieldPlace hkey2, henumw]

/-- Settles O2: a command by the opcode map, a FieldSpec by its fields. -/
theorem decodeEncodeRoundTrip : Obligations.DecodeEncodeRoundTrip := by
  intro i
  cases hi : i.isField with
  | false => exact decodeWords_encode_command hi
  | true => exact decodeWords_encode_field hi

/-- Settles O3: one word is a command of the opcode map, four words are the fields of a FieldSpec. -/
theorem decodedWordsAreCanonical : Obligations.DecodedWordsAreCanonical := by
  intro ws i h
  unfold decodeWords at h
  split at h
  · exact encode_of_decodeCmd h
  · exact encode_of_decodeField h
  · cases h

/-- Settles O4: all but one of the lists of words are encodings, which the round trip decodes. -/
theorem sampleWordsDecode : Obligations.SampleWordsDecode :=
  ⟨decodeEncodeRoundTrip .ckchk, rfl, decodeEncodeRoundTrip (.fspecS14 ⟨false, 0, 1, 1⟩ 0 0),
    decodeEncodeRoundTrip (.fspecBits ⟨false, 0, 2, 3⟩ 0x109C 0x0003001B),
    decodeEncodeRoundTrip (.fspecVel ⟨false, 0, 4, 5⟩ 5), decodeEncodeRoundTrip (.fspecName ⟨false, 0, 6, 6⟩ 4),
    decodeEncodeRoundTrip (.fspecRaw8 ⟨true, 0, 7, 4⟩ 0), decodeEncodeRoundTrip (.fspecRaw8 ⟨false, 1, 1, 0⟩ 0)⟩

end Sys2Proof.Proofs
end

section
/-! The dispatch of a CMD write (46_control.md R290): the word is stored, and one that encodes no command raises the fault
ILLEGAL_CMD (30_encoding.md R89). -/

namespace Sys2Proof.Proofs

open Sys2Proof.Machine

/-- A host write to CMD with no walk in progress is the dispatch of the word. -/
theorem step_of_cmdWrite {s : State} {w : Word} {rest : List HostOp} (hw : s.walk = none)
    (hh : s.host = .regWrite s.cfg.params.hostBase .word w :: rest) : step s = writeCmd w { s with host := rest } := by
  rw [step_of_host hw hh]
  exact hostAccess_regWrite (s := { s with host := rest }) (off := 0) w rfl (by simp [windowSize])

theorem writeCmd_of_no_command {s : State} {w : Word} (hf : s.faulted = false) (hdec : ∀ i, decodeCmd w ≠ .ok i) :
    writeCmd w s = .next (State.raiseFault { s with cmd := w } ⟨.illegalCmd, noKey⟩) := by
  unfold writeCmd
  cases hw : decodeCmd w with
  | ok i => exact absurd hw (hdec i)
  | error e => simp [hf]

/-- Settles O7: the step is the dispatch of the word, which finds no command and raises the fault. -/
theorem illegalCommandFaults : Obligations.IllegalCommandFaults := by
  intro s w rest hw hf hh hdec
  rw [step_of_cmdWrite hw hh]
  exact writeCmd_of_no_command hf hdec

end Sys2Proof.Proofs
end

section
/-! The GEOM word (30_encoding.md R84) and BFPK (41_bitfield.md R140 to R142): the fields and the segments as numbers, and
the one write that packing makes. -/

namespace Sys2Proof.Proofs

open Sys2Proof.Machine

/-! ### The GEOM word (R84) -/

theorem geomOf_eq (g : Word) : geomOf g = geomNumbers g.toNat := by
  simp only [geomOf, geomNumbers, bitsAt_eq, BitVec.getLsbD, Nat.testBit_eq_decide_div_mod_eq, Nat.reducePow,
    Nat.div_one]

theorem geomLegal_iff (g : Word) : geomLegal g = true ↔ geomConditions g.toNat := by
  have hg := g.isLt
  unfold geomLegal geomConditions
  rw [geomOf_eq, bitsAt_eq]
  by_cases htwo : g.toNat / 128 % 2 = 1
  · simp only [geomNumbers, htwo, decide_true, if_true, Bool.and_eq_true, beq_iff_eq, decide_eq_true_eq]
    omega
  · simp only [geomNumbers, htwo, decide_false, Bool.false_eq_true, if_false, Bool.and_eq_true, beq_iff_eq,
      decide_eq_true_eq, Bool.not_eq_true', decide_eq_false_iff_not]
    omega

/-! ### BFPK (R140 to R142) -/

theorem exec_bfpk (s : State) : exec .bfpk s = conclude s (bfpkRule s) := rfl

theorem exec_bfpk_of_ok {s : State} {r : BufRef} (hg : geomLegal s.a2 = true)
    (hr : chkBref s.cfg.params s.a1 (geomOf s.a2).span = .ok r) :
    exec .bfpk s = .next (bfPack r.sp r.off (geomOf s.a2) s.a0 s).succeed := by
  rw [exec_bfpk, bfpkRule, hg, need_true, ok_bind, hr, ok_bind]
  exact conclude_ok ..

/-- A command that writes one range and succeeds changes nothing else. -/
theorem onlyBuffers_writeBytes (s : State) (sp : Space) (off : Nat) (bs : List Byte) :
    onlyBuffers s (s.writeBytes sp off bs).succeed := by
  unfold onlyBuffers
  rw [State.writeBytes_eq]
  rfl

theorem bytesKeptOutside_writeBytes (s : State) (sp : Space) (off : Nat) {bs : List Byte} {n : Nat} (hn : bs.length = n) :
    bytesKeptOutside s (s.writeBytes sp off bs).succeed sp off n := by
  intro sp' a h
  show (s.writeBytes sp off bs).byteAt sp' a = _
  rw [State.byteAt_writeBytes, hn, if_neg h]

theorem bfPack_byteAt_first (sp : Space) (off : Nat) (G : Geom) (v : Word) (s : State) :
    (bfPack sp off G v s).byteAt sp off = orSegment (s.byteAt sp off) (splitValue G v).1 G.sa := by
  unfold bfPack
  split <;> simp [State.byteAt_writeBytes]

theorem bfPack_byteAt_second {sp : Space} {off : Nat} {G : Geom} {v : Word} {s : State} (htwo : G.two = true) :
    (bfPack sp off G v s).byteAt sp (off + 1) = orSegment (s.byteAt sp (off + 1)) (splitValue G v).2 G.sb := by
  simp [bfPack, htwo, State.byteAt_writeBytes]

/-- A segment that ends inside its byte loses no bit when it is ORed in. -/
theorem orSegment_toNat (b : Byte) {p : Word} {shift w : Nat} (hp : p.toNat < 2 ^ w) (h : shift + w ≤ 8) :
    (orSegment b p shift).toNat = b.toNat ||| p.toNat * 2 ^ shift := by
  have hlt : p.toNat * 2 ^ shift < 2 ^ 8 :=
    calc p.toNat * 2 ^ shift < 2 ^ w * 2 ^ shift := Nat.mul_lt_mul_of_pos_right hp (Nat.two_pow_pos shift)
      _ = 2 ^ (shift + w) := by rw [← Nat.pow_add, Nat.add_comm]
      _ ≤ 2 ^ 8 := Nat.pow_le_pow_right (by omega) h
  have hp8 : p.toNat < 2 ^ 8 := hp.trans_le (Nat.pow_le_pow_right (by omega) (by omega))
  rw [orSegment, BitVec.toNat_or, BitVec.toNat_shiftLeft, BitVec.toNat_setWidth, Nat.mod_eq_of_lt hp8,
    Nat.shiftLeft_eq, Nat.mod_eq_of_lt hlt]

theorem div_two_pow_lt {u i j : Nat} (h : u < 2 ^ (i + j)) : u / 2 ^ i < 2 ^ j :=
  Nat.div_lt_of_lt_mul (by rwa [← Nat.pow_add])

theorem geomWidth_of_not_two {G : Geom} (h : G.two = false) : G.width = G.wa := by simp [Geom.width, h]

theorem geomWidth_of_two {G : Geom} (h : G.two = true) : G.width = G.wa + G.wb := by simp [Geom.width, h]

/-- Each segment is below two to the power of its width. -/
theorem segmentNumbers_lt (G : Geom) (v : Nat) :
    (segmentNumbers G v).1 < 2 ^ G.wa ∧ (segmentNumbers G v).2 < 2 ^ G.wb := by
  have hu : v % 2 ^ G.width < 2 ^ G.width := Nat.mod_lt _ (Nat.two_pow_pos _)
  unfold segmentNumbers
  cases htwo : G.two with
  | false =>
    rw [geomWidth_of_not_two htwo] at hu ⊢
    exact ⟨hu, Nat.two_pow_pos _⟩
  | true =>
    rw [geomWidth_of_two htwo] at hu ⊢
    cases G.ord with
    | false => exact ⟨Nat.mod_lt _ (Nat.two_pow_pos _), div_two_pow_lt hu⟩
    | true =>
      rw [Nat.add_comm] at hu ⊢
      exact ⟨div_two_pow_lt hu, Nat.mod_lt _ (Nat.two_pow_pos _)⟩

/-- The upper part of a word whose parts have `i` and `j` bits. -/
theorem upperPart_toNat {u : Word} {i j : Nat} (hu : u.toNat < 2 ^ (i + j)) (hj : j < 32) :
    ((u >>> i) &&& maskWord j).toNat = u.toNat / 2 ^ i := by
  rw [and_maskWord_toNat _ hj, BitVec.toNat_ushiftRight, Nat.shiftRight_eq_div_pow,
    Nat.mod_eq_of_lt (div_two_pow_lt hu)]

/-- The segments of a value as numbers (R140). -/
theorem splitValue_toNat {G : Geom} (v : Word) (hw : G.wa + G.wb < 32) :
    (splitValue G v).1.toNat = (segmentNumbers G v.toNat).1 ∧
      (splitValue G v).2.toNat = (segmentNumbers G v.toNat).2 := by
  have hmask {x : Word} {w : Nat} (h : w ≤ G.wa + G.wb) : (x &&& maskWord w).toNat = x.toNat % 2 ^ w :=
    and_maskWord_toNat x (by omega)
  unfold splitValue segmentNumbers
  cases htwo : G.two with
  | false =>
    rw [geomWidth_of_not_two htwo]
    exact ⟨hmask (by omega), rfl⟩
  | true =>
    rw [geomWidth_of_two htwo, ← hmask (Nat.le_refl _)]
    have hu : (v &&& maskWord (G.wa + G.wb)).toNat < 2 ^ (G.wa + G.wb) := by
      rw [hmask (Nat.le_refl _)]
      exact Nat.mod_lt _ (Nat.two_pow_pos _)
    cases G.ord with
    | false => exact ⟨hmask (by omega), upperPart_toNat hu (by omega)⟩
    | true => exact ⟨upperPart_toNat (by rwa [Nat.add_comm G.wb]) (by omega), hmask (by omega)⟩

/-- Settles O23: packing is one write of ORed bytes, and its two segments as numbers end inside their bytes. -/
theorem bfpkOrsSegments : Obligations.BfpkOrsSegments := by
  refine ⟨fun g => ⟨geomOf_eq g, geomLegal_iff g⟩, fun s r hg hr => ?_⟩
  obtain ⟨-, ha, hb, hab, -⟩ := geomLegal_bounds hg
  obtain ⟨hlta, hltb⟩ := segmentNumbers_lt (geomOf s.a2) s.a0.toNat
  obtain ⟨hfst, hsnd⟩ := splitValue_toNat (G := geomOf s.a2) s.a0 (by omega)
  obtain ⟨bs, hlen, hpack⟩ := bfPack_eq_writeBytes r.sp r.off (geomOf s.a2) s.a0 s
  refine ⟨_, exec_bfpk_of_ok hg hr, ?_, ?_, fun htwo => ?_, ?_⟩
  · rw [hpack]
    exact onlyBuffers_writeBytes ..
  · show ((bfPack r.sp r.off (geomOf s.a2) s.a0 s).byteAt r.sp r.off).toNat = _
    rw [bfPack_byteAt_first, orSegment_toNat _ (hfst ▸ hlta) ha, hfst]
  · show ((bfPack r.sp r.off (geomOf s.a2) s.a0 s).byteAt r.sp (r.off + 1)).toNat = _
    rw [bfPack_byteAt_second htwo, orSegment_toNat _ (hsnd ▸ hltb) hb, hsnd]
  · rw [hpack]
    exact bytesKeptOutside_writeBytes s r.sp r.off hlen

end Sys2Proof.Proofs
end

section
/-! NIBX and NIBC (40_nibble.md R120 to R123): each is one write of nibble bytes, and the round trips of R122 compose
what the two writes leave in the buffers. -/

namespace Sys2Proof.Proofs

open Sys2Proof.Machine

/-! ### The one write of each command (R121, R123) -/

theorem exec_nibx (s : State) : exec .nibx s = conclude s (nibxRule s) := rfl

theorem exec_nibx_of_ok {s : State} {src dst : BufRef} (hsrc : chkBref s.cfg.params s.a0 s.a2.toNat = .ok src)
    (hdst : chkBref s.cfg.params s.a1 (2 * s.a2.toNat) = .ok dst) :
    exec .nibx s =
      .next (s.writeBytes dst.sp dst.off (nibExpand (s.readBytes src.sp src.off s.a2.toNat))).succeed := by
  rw [exec_nibx, nibxRule, hsrc, ok_bind, hdst, ok_bind]
  exact conclude_ok ..

theorem exec_nibc (s : State) : exec .nibc s = conclude s (nibcRule s) := rfl

theorem exec_nibc_of_ok {s : State} {src dst : BufRef} (hsrc : chkBref s.cfg.params s.a0 (2 * s.a2.toNat) = .ok src)
    (hdst : chkBref s.cfg.params s.a1 s.a2.toNat = .ok dst) :
    exec .nibc s =
      .next (s.writeBytes dst.sp dst.off (nibCompress (s.readBytes src.sp src.off (2 * s.a2.toNat)))).succeed := by
  rw [exec_nibc, nibcRule, hsrc, ok_bind, hdst, ok_bind]
  exact conclude_ok ..

/-- A written byte, as a command that writes one range and succeeds leaves it. -/
theorem byteAt_writeBytes_succeed (s : State) (sp : Space) (off : Nat) {bs : List Byte} {i : Nat} (hi : i < bs.length) :
    (s.writeBytes sp off bs).succeed.byteAt sp (off + i) = bs.getD i 0 := by
  show (s.writeBytes sp off bs).byteAt sp (off + i) = _
  rw [State.byteAt_writeBytes, if_pos ⟨rfl, by omega, by omega⟩, Nat.add_sub_cancel_left]

/-! ### The bytes that each command takes from the source -/

theorem nibExpand_readBytes_getD (s : State) (sp : Space) (off : Nat) {n i : Nat} (hi : i < n) :
    (nibExpand (s.readBytes sp off n)).getD (2 * i) 0 = nibHi (s.byteAt sp (off + i)) ∧
      (nibExpand (s.readBytes sp off n)).getD (2 * i + 1) 0 = nibLo (s.byteAt sp (off + i)) := by
  have hbyte : (s.readBytes sp off n).getD i 0 = s.byteAt sp (off + i) := by rw [State.readBytes_getD, if_pos hi]
  rw [← hbyte]
  exact nibExpand_getD ..

theorem nibCompress_readBytes_getD (s : State) (sp : Space) (off : Nat) {n i : Nat} (hi : i < n) :
    (nibCompress (s.readBytes sp off (2 * n))).getD i 0 =
      nibJoin (s.byteAt sp (off + 2 * i)) (s.byteAt sp (off + 2 * i + 1)) := by
  rw [nibCompress_getD _ _ (by rw [State.readBytes_length]; omega), State.readBytes_getD, State.readBytes_getD,
    if_pos (by omega), if_pos (by omega), Nat.add_assoc]

/-- Settles O20: NIBX is one write of the nibble bytes that it reads from the state before. -/
theorem nibxExpandsBytes : Obligations.NibxExpandsBytes := by
  intro s src dst hsrc hdst
  have hlen : (nibExpand (s.readBytes src.sp src.off s.a2.toNat)).length = 2 * s.a2.toNat := by
    rw [nibExpand_length, State.readBytes_length]
  refine ⟨_, exec_nibx_of_ok hsrc hdst, onlyBuffers_writeBytes .., fun i hi => ?_,
    bytesKeptOutside_writeBytes s _ _ hlen⟩
  obtain ⟨hhi, hlo⟩ := nibExpand_readBytes_getD s src.sp src.off hi
  constructor
  · rw [byteAt_writeBytes_succeed _ _ _ (by omega), hhi, nibHi_toNat]
  · rw [Nat.add_assoc, byteAt_writeBytes_succeed _ _ _ (by omega), hlo, nibLo_toNat]

/-- Settles O21: NIBC is one write of the joined pairs that it reads from the state before. -/
theorem nibcJoinsPairs : Obligations.NibcJoinsPairs := by
  intro s src dst hsrc hdst
  have hlen : (nibCompress (s.readBytes src.sp src.off (2 * s.a2.toNat))).length = s.a2.toNat := by
    rw [nibCompress_length, State.readBytes_length]
    omega
  refine ⟨_, exec_nibc_of_ok hsrc hdst, onlyBuffers_writeBytes .., fun i hi => ?_,
    bytesKeptOutside_writeBytes s _ _ hlen⟩
  rw [byteAt_writeBytes_succeed _ _ _ (by omega), nibCompress_readBytes_getD s _ _ hi, nibJoin_toNat]

/-! ### The round trips (R122) -/

/-- A command that leaves all but the buffers and its ending leaves the count and the configuration for the next one. -/
theorem a2_cfg_of_onlyBuffers {s t : State} (h : onlyBuffers s t) : t.a2 = s.a2 ∧ t.cfg = s.cfg := by
  rw [h]
  exact ⟨rfl, rfl⟩

theorem byteAt_updateArgs (t : State) (v w : Word) (sp : Space) (a : Nat) :
    State.byteAt { t with a0 := v, a1 := w } sp a = t.byteAt sp a := State.byteAt_congr rfl rfl rfl sp a

/-- The bytes back from NIBX and then NIBC: the two nibbles of a byte make it up. -/
theorem nibc_of_nibx {s : State} {back : Word} {src mid dst : BufRef}
    (hsrc : chkBref s.cfg.params s.a0 s.a2.toNat = .ok src)
    (hmid : chkBref s.cfg.params s.a1 (2 * s.a2.toNat) = .ok mid)
    (hdst : chkBref s.cfg.params back s.a2.toNat = .ok dst) :
    ∃ t u, exec .nibx s = .next t ∧ exec .nibc { t with a0 := s.a1, a1 := back } = .next u ∧
      ∀ i, i < s.a2.toNat → u.byteAt dst.sp (dst.off + i) = s.byteAt src.sp (src.off + i) := by
  obtain ⟨t, ht, honly, hexpand, -⟩ := nibxExpandsBytes s src mid hsrc hmid
  obtain ⟨ha2, hcfg⟩ := a2_cfg_of_onlyBuffers honly
  obtain ⟨u, hu, -, hjoin, -⟩ := nibcJoinsPairs { t with a0 := s.a1, a1 := back } mid dst
    (by simpa only [ha2, hcfg] using hmid) (by simpa only [ha2, hcfg] using hdst)
  simp only [byteAt_updateArgs] at hjoin
  rw [ha2] at hjoin
  refine ⟨t, u, ht, hu, fun i hi => BitVec.eq_of_toNat_eq ?_⟩
  obtain ⟨hhi, hlo⟩ := hexpand i hi
  have := (s.byteAt src.sp (src.off + i)).isLt
  rw [hjoin i hi, hhi, hlo]
  omega

/-- The low nibbles left by NIBC and then NIBX: a byte at an even place is the high member of its pair, and one at an
odd place the low member. -/
theorem nibx_of_nibc {s : State} {back : Word} {src mid dst : BufRef}
    (hsrc : chkBref s.cfg.params s.a0 (2 * s.a2.toNat) = .ok src)
    (hmid : chkBref s.cfg.params s.a1 s.a2.toNat = .ok mid)
    (hdst : chkBref s.cfg.params back (2 * s.a2.toNat) = .ok dst) :
    ∃ t u, exec .nibc s = .next t ∧ exec .nibx { t with a0 := s.a1, a1 := back } = .next u ∧
      ∀ i, i < 2 * s.a2.toNat →
        (u.byteAt dst.sp (dst.off + i)).toNat = (s.byteAt src.sp (src.off + i)).toNat % 16 := by
  obtain ⟨t, ht, honly, hjoin, -⟩ := nibcJoinsPairs s src mid hsrc hmid
  obtain ⟨ha2, hcfg⟩ := a2_cfg_of_onlyBuffers honly
  obtain ⟨u, hu, -, hexpand, -⟩ := nibxExpandsBytes { t with a0 := s.a1, a1 := back } mid dst
    (by simpa only [ha2, hcfg] using hmid) (by simpa only [ha2, hcfg] using hdst)
  simp only [byteAt_updateArgs] at hexpand
  rw [ha2] at hexpand
  refine ⟨t, u, ht, hu, fun i hi => ?_⟩
  obtain ⟨hhi, hlo⟩ := hexpand (i / 2) (by omega)
  rw [hjoin (i / 2) (by omega)] at hhi hlo
  rcases Nat.mod_two_eq_zero_or_one i with heven | hodd
  · rw [show 2 * (i / 2) = i by omega] at hhi
    omega
  · rw [Nat.add_assoc, show 2 * (i / 2) + 1 = i by omega, Nat.add_assoc, show 2 * (i / 2) + 1 = i by omega] at hlo
    omega

/-- Settles O22: the two round trips, and a byte equals its low nibble exactly when it is a nibble byte. -/
theorem nibbleRoundTrip : Obligations.NibbleRoundTrip := by
  refine ⟨fun s back src mid dst hsrc hmid hdst => nibc_of_nibx hsrc hmid hdst,
    fun s back src mid dst hsrc hmid hdst => ?_⟩
  obtain ⟨t, u, ht, hu, hlow⟩ := nibx_of_nibc hsrc hmid hdst
  refine ⟨t, u, ht, hu, hlow, forall₂_congr fun i hi => ?_⟩
  rw [← BitVec.toNat_inj, hlow i hi]
  omega

end Sys2Proof.Proofs
end

section
/-! BFUP and the bit field round trip (41_bitfield.md R143 to R145): the code as a number, and OR, which a code takes in
segment by segment. -/

namespace Sys2Proof.Proofs

open Sys2Proof.Machine

/-! ### Two parts of a number -/

theorem mod_two_pow_lt (x w : Nat) : x % 2 ^ w < 2 ^ w := Nat.mod_lt _ (Nat.two_pow_pos w)

/-- The lower part fills `i` bits and the upper part `j` bits above them. -/
theorem add_mul_two_pow_lt {lo hi i j : Nat} (hlo : lo < 2 ^ i) (hhi : hi < 2 ^ j) :
    lo + hi * 2 ^ i < 2 ^ (i + j) :=
  calc lo + hi * 2 ^ i < 2 ^ i + hi * 2 ^ i := Nat.add_lt_add_right hlo _
    _ = 2 ^ i * (hi + 1) := by ring
    _ ≤ 2 ^ i * 2 ^ j := Nat.mul_le_mul_left _ hhi
    _ = 2 ^ (i + j) := (Nat.pow_add ..).symm

theorem add_mul_two_pow_eq_or {lo hi i : Nat} (hlo : lo < 2 ^ i) : lo + hi * 2 ^ i = hi <<< i ||| lo := by
  rw [← Nat.shiftLeft_add_eq_or_of_lt hlo, Nat.shiftLeft_eq, Nat.add_comm]

/-- OR joins the lower parts and the upper parts apart. -/
theorem or_add_or_mul_two_pow {lo lo' i : Nat} (hi hi' : Nat) (hlo : lo < 2 ^ i) (hlo' : lo' < 2 ^ i) :
    (lo ||| lo') + (hi ||| hi') * 2 ^ i = (lo + hi * 2 ^ i) ||| (lo' + hi' * 2 ^ i) := by
  rw [add_mul_two_pow_eq_or hlo, add_mul_two_pow_eq_or hlo', add_mul_two_pow_eq_or (Nat.or_lt_two_pow hlo hlo'),
    Nat.shiftLeft_or_distrib]
  ac_rfl

/-! ### The code of a field as a number (R143) -/

theorem segmentCode_of_not_two {G : Geom} (h : G.two = false) (b0 b1 : Nat) :
    segmentCode G b0 b1 = b0 / 2 ^ G.sa % 2 ^ G.wa := if_pos h

/-- ORD clear: the segment of the first byte is the lower part. -/
theorem segmentCode_of_low_first {G : Geom} (h : G.two = true) (ho : G.ord = false) (b0 b1 : Nat) :
    segmentCode G b0 b1 = b0 / 2 ^ G.sa % 2 ^ G.wa + b1 / 2 ^ G.sb % 2 ^ G.wb * 2 ^ G.wa := by
  simp [segmentCode, h, ho]

/-- ORD set: the segment of the first byte is the upper part. -/
theorem segmentCode_of_high_first {G : Geom} (h : G.two = true) (ho : G.ord = true) (b0 b1 : Nat) :
    segmentCode G b0 b1 = b1 / 2 ^ G.sb % 2 ^ G.wb + b0 / 2 ^ G.sa % 2 ^ G.wa * 2 ^ G.wb := by
  simp [segmentCode, h, ho]

theorem segmentCode_lt (G : Geom) (b0 b1 : Nat) : segmentCode G b0 b1 < 2 ^ G.width := by
  cases htwo : G.two with
  | false =>
    rw [segmentCode_of_not_two htwo, geomWidth_of_not_two htwo]
    exact mod_two_pow_lt ..
  | true =>
    rw [geomWidth_of_two htwo]
    cases hord : G.ord with
    | false =>
      rw [segmentCode_of_low_first htwo hord]
      exact add_mul_two_pow_lt (mod_two_pow_lt ..) (mod_two_pow_lt ..)
    | true =>
      rw [segmentCode_of_high_first htwo hord, Nat.add_comm G.wa]
      exact add_mul_two_pow_lt (mod_two_pow_lt ..) (mod_two_pow_lt ..)

/-- The word that BFUP joins is the code as a number, where the two segments fit in a word. -/
theorem joinSegments_toNat {G : Geom} (b0 b1 : Byte) (hw : G.wa + G.wb < 32) :
    (joinSegments G b0 b1).toNat = segmentCode G b0.toNat b1.toNat := by
  have hpa := segmentOf_toNat b0 G.sa (w := G.wa) (by omega)
  have hpb := segmentOf_toNat b1 G.sb (w := G.wb) (by omega)
  have hlta : (segmentOf b0 G.sa G.wa).toNat < 2 ^ G.wa := hpa ▸ mod_two_pow_lt ..
  have hltb : (segmentOf b1 G.sb G.wb).toNat < 2 ^ G.wb := hpb ▸ mod_two_pow_lt ..
  unfold joinSegments
  cases htwo : G.two with
  | false =>
    rw [segmentCode_of_not_two htwo]
    exact hpa
  | true =>
    cases hord : G.ord with
    | false =>
      rw [segmentCode_of_low_first htwo hord, ← hpa, ← hpb]
      exact or_shiftLeft_toNat _ _ hlta hltb (by omega)
    | true =>
      rw [segmentCode_of_high_first htwo hord, ← hpa, ← hpb]
      exact or_shiftLeft_toNat _ _ hltb hlta (by omega)

/-! ### BFUP (R144) -/

theorem exec_bfup (s : State) : exec .bfup s = conclude s (bfupRule s) := rfl

theorem exec_bfup_of_ok {s : State} {r : BufRef} (hg : geomLegal s.a2 = true)
    (hr : chkBref s.cfg.params s.a1 (geomOf s.a2).span = .ok r) :
    exec .bfup s = .next { s with rval := bfUnpack r.sp r.off (geomOf s.a2) s }.succeed := by
  rw [exec_bfup, bfupRule, hg, need_true, ok_bind, hr, ok_bind]
  exact conclude_ok ..

/-- Settles O24: RVAL is the word that BFUP joins, which is the code as a number. -/
theorem bfupExtractsCode : Obligations.BfupExtractsCode := by
  intro s r hg hr
  obtain ⟨-, -, -, hab, -⟩ := geomLegal_bounds hg
  have hcode : (bfUnpack r.sp r.off (geomOf s.a2) s).toNat = segmentCode (geomOf s.a2) _ _ :=
    joinSegments_toNat _ _ (by omega)
  exact ⟨_, exec_bfup_of_ok hg hr, hcode, hcode ▸ segmentCode_lt ..⟩

/-! ### The round trip (R145) -/

/-- The code of two ORed pairs of bytes is the OR of their codes. -/
theorem segmentCode_or (G : Geom) (b0 b1 c0 c1 : Nat) :
    segmentCode G (b0 ||| c0) (b1 ||| c1) = segmentCode G b0 b1 ||| segmentCode G c0 c1 := by
  have hseg (b c sh w : Nat) : (b ||| c) / 2 ^ sh % 2 ^ w = b / 2 ^ sh % 2 ^ w ||| c / 2 ^ sh % 2 ^ w := by
    rw [Nat.or_div_two_pow, Nat.or_mod_two_pow]
  cases htwo : G.two with
  | false => simp only [segmentCode_of_not_two htwo, hseg]
  | true =>
    cases hord : G.ord with
    | false =>
      simp only [segmentCode_of_low_first htwo hord, hseg]
      exact or_add_or_mul_two_pow _ _ (mod_two_pow_lt ..) (mod_two_pow_lt ..)
    | true =>
      simp only [segmentCode_of_high_first htwo hord, hseg]
      exact or_add_or_mul_two_pow _ _ (mod_two_pow_lt ..) (mod_two_pow_lt ..)

/-- The segments of a value, each at its shift, have the value cut to the width as their code. -/
theorem segmentCode_segmentNumbers (G : Geom) (v : Nat) :
    segmentCode G ((segmentNumbers G v).1 * 2 ^ G.sa) ((segmentNumbers G v).2 * 2 ^ G.sb) = v % 2 ^ G.width := by
  obtain ⟨hlta, hltb⟩ := segmentNumbers_lt G v
  have hseg {p sh w : Nat} (hp : p < 2 ^ w) : p * 2 ^ sh / 2 ^ sh % 2 ^ w = p := by
    rw [Nat.mul_div_cancel _ (Nat.two_pow_pos sh), Nat.mod_eq_of_lt hp]
  cases htwo : G.two with
  | false =>
    rw [segmentCode_of_not_two htwo, hseg hlta]
    simp [segmentNumbers, htwo]
  | true =>
    cases hord : G.ord with
    | false =>
      rw [segmentCode_of_low_first htwo hord, hseg hlta, hseg hltb]
      simpa [segmentNumbers, htwo, hord] using Nat.mod_add_div' (v % 2 ^ G.width) (2 ^ G.wa)
    | true =>
      rw [segmentCode_of_high_first htwo hord, hseg hlta, hseg hltb]
      simpa [segmentNumbers, htwo, hord] using Nat.mod_add_div' (v % 2 ^ G.width) (2 ^ G.wb)

/-- The code in bytes `c0` and `c1` after the segments of `v` were ORed into `b0` and, for two segments, into `b1`. -/
theorem segmentCode_of_packed {G : Geom} {b0 b1 c0 c1 : Nat} (v : Nat)
    (h0 : c0 = b0 ||| (segmentNumbers G v).1 * 2 ^ G.sa)
    (h1 : G.two = true → c1 = b1 ||| (segmentNumbers G v).2 * 2 ^ G.sb) :
    segmentCode G c0 c1 = segmentCode G b0 b1 ||| v % 2 ^ G.width := by
  have hcode : segmentCode G c0 c1 = segmentCode G c0 (b1 ||| (segmentNumbers G v).2 * 2 ^ G.sb) := by
    cases htwo : G.two with
    | false => simp only [segmentCode_of_not_two htwo]
    | true => rw [h1 htwo]
  rw [hcode, h0, segmentCode_or, segmentCode_segmentNumbers]

/-- A command that leaves all but the buffers and its ending leaves the place that A1 names for the next one. -/
theorem a1_of_onlyBuffers {s t : State} (h : onlyBuffers s t) : t.a1 = s.a1 := by
  rw [h]

/-- Settles O25: BFPK leaves GEOM and the place for the second BFUP, whose code is the old one ORed with the value. -/
theorem bitFieldRoundTrip : Obligations.BitFieldRoundTrip := by
  intro s r hg hr
  obtain ⟨old, ho, hold, -⟩ := bfupExtractsCode s r hg hr
  obtain ⟨t, ht, honly, hfirst, hsecond, -⟩ := bfpkOrsSegments.2 s r hg hr
  obtain ⟨ha2, hcfg⟩ := a2_cfg_of_onlyBuffers honly
  have ha1 := a1_of_onlyBuffers honly
  obtain ⟨new, hu, hnew, -⟩ := bfupExtractsCode t r (by rwa [ha2]) (by rwa [ha2, hcfg, ha1])
  have hor : new.toNat = old.toNat ||| s.a0.toNat % 2 ^ (geomOf s.a2).width := by
    rw [hnew, hold, ha2]
    exact segmentCode_of_packed _ hfirst hsecond
  have hzero (h : old = 0) : new.toNat = s.a0.toNat % 2 ^ (geomOf s.a2).width := by
    rw [hor, h]
    exact Nat.zero_or _
  refine ⟨_, t, _, ho, ht, hu, hor, hzero, fun h hlt => BitVec.eq_of_toNat_eq ?_⟩
  exact (hzero h).trans (Nat.mod_eq_of_lt hlt)

end Sys2Proof.Proofs
end

section
/-! The 14-bit pair and the velocity+value byte (42_field_transform.md R160 to R167): the one write of each encoding
command, the registers that each decoding command leaves, and their round trips. -/

namespace Sys2Proof.Proofs

open Sys2Proof.Machine

/-! ### XF14 and the two bytes of a pair (R85, R160) -/

theorem xf14Legal_of_lt {x : Word} (h : x.toNat < 2) : xf14Legal x = true := by
  rw [xf14Legal, bitsAt_eq, beq_iff_eq]
  omega

/-- The MSB stands at the index that LSBF is, and the LSB at the other one. -/
theorem s14Bytes_getD (x v : Word) :
    (s14Bytes (xf14Lsbf x) v).getD (x.toNat % 2) 0 = s14Msb v ∧
      (s14Bytes (xf14Lsbf x) v).getD (1 - x.toNat % 2) 0 = s14Lsb v := by
  rw [xf14Lsbf_eq]
  rcases Nat.mod_two_eq_zero_or_one x.toNat with h | h <;> rw [h] <;> exact ⟨rfl, rfl⟩

/-- The value of the pair at `off`, by the places of its MSB and its LSB. -/
theorem s14Value_eq_join (x : Word) (s : State) (sp : Space) (off : Nat) :
    s14Value (xf14Lsbf x) (s.byteAt sp off) (s.byteAt sp (off + 1)) =
      s14Join (s.byteAt sp (off + x.toNat % 2)) (s.byteAt sp (off + (1 - x.toNat % 2))) := by
  rw [xf14Lsbf_eq]
  rcases Nat.mod_two_eq_zero_or_one x.toNat with h | h <;> rw [h] <;> rfl

/-! ### S14E and S14D (R161, R163) -/

theorem exec_s14e (s : State) : exec .s14e s = conclude s (s14eRule s) := rfl

theorem exec_s14e_of_ok {s : State} {r : BufRef} (hx : s.a2.toNat < 2) (hr : chkBref s.cfg.params s.a1 2 = .ok r) :
    exec .s14e s = .next (s.writeBytes r.sp r.off (s14Bytes (xf14Lsbf s.a2) s.a0)).succeed := by
  rw [exec_s14e, s14eRule, xf14Legal_of_lt hx, need_true, ok_bind, hr, ok_bind]
  exact conclude_ok ..

theorem exec_s14d (s : State) : exec .s14d s = conclude s (s14dRule s) := rfl

theorem exec_s14d_of_ok {s : State} {r : BufRef} (hx : s.a2.toNat < 2) (hr : chkBref s.cfg.params s.a1 2 = .ok r) :
    exec .s14d s = .next
      { s with
        rval := s14Value (xf14Lsbf s.a2) (s.byteAt r.sp r.off) (s.byteAt r.sp (r.off + 1)) }.succeed := by
  rw [exec_s14d, s14dRule, xf14Legal_of_lt hx, need_true, ok_bind, hr, ok_bind]
  exact conclude_ok ..

/-- S14E for both values of LSBF: the MSB goes to the byte at index LSBF. -/
theorem s14e_writes_pair {s : State} {r : BufRef} (hx : s.a2.toNat < 2) (hr : chkBref s.cfg.params s.a1 2 = .ok r) :
    ∃ t, exec .s14e s = .next t ∧ onlyBuffers s t ∧
      (t.byteAt r.sp (r.off + s.a2.toNat % 2)).toNat = s.a0.toNat / 128 % 128 ∧
      (t.byteAt r.sp (r.off + (1 - s.a2.toNat % 2))).toNat = s.a0.toNat % 128 ∧
      bytesKeptOutside s t r.sp r.off 2 := by
  have hlen := s14Bytes_length (xf14Lsbf s.a2) s.a0
  obtain ⟨hmsb, hlsb⟩ := s14Bytes_getD s.a2 s.a0
  refine ⟨_, exec_s14e_of_ok hx hr, onlyBuffers_writeBytes .., ?_, ?_, bytesKeptOutside_writeBytes s _ _ hlen⟩
  · rw [byteAt_writeBytes_succeed _ _ _ (by omega), hmsb, s14Msb_toNat]
  · rw [byteAt_writeBytes_succeed _ _ _ (by omega), hlsb, s14Lsb_toNat]

/-- S14D for both values of LSBF: the MSB is the byte at index LSBF. -/
theorem s14d_reads_pair {s : State} {r : BufRef} (hx : s.a2.toNat < 2) (hr : chkBref s.cfg.params s.a1 2 = .ok r) :
    ∃ v : Word, exec .s14d s = .next { s with rval := v, result := .success, failCause := .none } ∧
      v.toNat = 128 * ((s.byteAt r.sp (r.off + s.a2.toNat % 2)).toNat % 128) +
        (s.byteAt r.sp (r.off + (1 - s.a2.toNat % 2))).toNat % 128 := by
  refine ⟨_, exec_s14d_of_ok hx hr, ?_⟩
  rw [s14Value_eq_join, s14Join_toNat]

/-- Settles O26: the two values of LSBF are the two places that the MSB has in the pair. -/
theorem s14PairCommands : Obligations.S14PairCommands := by
  refine ⟨fun s r hx hr => ?_, fun s r hx hr => ?_⟩
  · obtain ⟨t, ht, honly, hmsb, hlsb, hkept⟩ := s14e_writes_pair hx hr
    refine ⟨t, ht, honly, fun h => ?_, fun h => ?_, hkept⟩ <;> rw [h] at hmsb hlsb
    · exact ⟨hmsb, hlsb⟩
    · exact ⟨hlsb, hmsb⟩
  · obtain ⟨v, hv, hval⟩ := s14d_reads_pair hx hr
    refine ⟨v, hv, fun h => ?_, fun h => ?_⟩ <;> rw [h] at hval <;> exact hval

/-! ### The round trip of the pair (R162) -/

theorem s14d_of_s14e {s : State} {r : BufRef} (hx : s.a2.toNat < 2) (hr : chkBref s.cfg.params s.a1 2 = .ok r) :
    ∃ t u, exec .s14e s = .next t ∧ exec .s14d t = .next u ∧ u.rval.toNat = s.a0.toNat % 16384 := by
  obtain ⟨t, ht, honly, hmsb, hlsb, -⟩ := s14e_writes_pair hx hr
  obtain ⟨ha2, hcfg⟩ := a2_cfg_of_onlyBuffers honly
  have ha1 := a1_of_onlyBuffers honly
  obtain ⟨v, hu, hv⟩ := s14d_reads_pair (s := t) (by rwa [ha2]) (by rwa [hcfg, ha1])
  refine ⟨t, _, ht, hu, ?_⟩
  rw [ha2, hmsb, hlsb] at hv
  show v.toNat = _
  omega

/-- S14D leaves the place and the order of the pair for S14E, which writes the low 7 bits of each byte back. -/
theorem s14e_of_s14d {s : State} {r : BufRef} (hx : s.a2.toNat < 2) (hr : chkBref s.cfg.params s.a1 2 = .ok r) :
    ∃ t u, exec .s14d s = .next t ∧ exec .s14e { t with a0 := t.rval } = .next u ∧
      (u.byteAt r.sp r.off).toNat = (s.byteAt r.sp r.off).toNat % 128 ∧
      (u.byteAt r.sp (r.off + 1)).toNat = (s.byteAt r.sp (r.off + 1)).toNat % 128 := by
  obtain ⟨v, ht, hv⟩ := s14d_reads_pair hx hr
  obtain ⟨u, hu, -, hmsb, hlsb, -⟩ :=
    s14e_writes_pair (s := { s with rval := v, result := .success, failCause := .none, a0 := v }) hx hr
  refine ⟨_, u, ht, hu, ?_⟩
  dsimp only at hmsb hlsb
  rcases Nat.mod_two_eq_zero_or_one s.a2.toNat with h | h <;> rw [h] at hv hmsb hlsb <;>
    simp only [Nat.add_zero, Nat.sub_zero, Nat.sub_self] at hv hmsb hlsb <;> omega

/-- Settles O27: the two round trips; a value of at most 14 bits loses nothing. -/
theorem s14RoundTrip : Obligations.S14RoundTrip := by
  intro s r hx hr
  refine ⟨?_, s14e_of_s14d hx hr⟩
  obtain ⟨t, u, ht, hu, hv⟩ := s14d_of_s14e hx hr
  refine ⟨t, u, ht, hu, hv, fun hle => BitVec.eq_of_toNat_eq ?_⟩
  rw [hv]
  exact Nat.mod_eq_of_lt (by omega)

/-! ### VELE and VELD (R164, R165, R167) -/

theorem exec_vele (s : State) : exec .vele s = conclude s (veleRule s) := rfl

theorem exec_vele_of_ok {s : State} {r : BufRef} (hr : chkBref s.cfg.params s.a1 1 = .ok r) :
    exec .vele s = .next (s.writeBytes r.sp r.off [velByte s.a2 s.a0]).succeed := by
  rw [exec_vele, veleRule, hr, ok_bind]
  exact conclude_ok ..

theorem exec_veld (s : State) : exec .veld s = conclude s (veldRule s) := rfl

theorem exec_veld_of_ok {s : State} {r : BufRef} (hr : chkBref s.cfg.params s.a1 1 = .ok r) :
    exec .veld s = .next
      { s with rval := velValue (s.byteAt r.sp r.off), rval2 := velFlag (s.byteAt r.sp r.off) }.succeed := by
  rw [exec_veld, veldRule, hr, ok_bind]
  exact conclude_ok ..

/-- Settles O28: VELE is one write of the packed byte, and VELD puts the two parts of a byte in registers. -/
theorem velByteCommands : Obligations.VelByteCommands := by
  refine ⟨fun s r hr => ?_, fun s r hr => ?_⟩
  · refine ⟨_, exec_vele_of_ok hr, onlyBuffers_writeBytes .., ?_, bytesKeptOutside_writeBytes s _ _ rfl⟩
    rw [← velByte_toNat]
    exact congrArg BitVec.toNat (byteAt_writeBytes_succeed s r.sp r.off (i := 0) Nat.one_pos)
  · exact ⟨_, _, exec_veld_of_ok hr, velValue_toNat _, velFlag_toNat _⟩

/-! ### The round trip of the byte (R166) -/

theorem veld_of_vele {s : State} {r : BufRef} (hr : chkBref s.cfg.params s.a1 1 = .ok r) (hvalue : s.a0.toNat ≤ 127)
    (hflag : s.a2.toNat ≤ 1) :
    ∃ t u, exec .vele s = .next t ∧ exec .veld t = .next u ∧ u.rval = s.a0 ∧ u.rval2 = s.a2 := by
  obtain ⟨t, ht, honly, hbyte, -⟩ := velByteCommands.1 s r hr
  obtain ⟨-, hcfg⟩ := a2_cfg_of_onlyBuffers honly
  have ha1 := a1_of_onlyBuffers honly
  obtain ⟨v, f, hu, hv, hf⟩ := velByteCommands.2 t r (by rwa [hcfg, ha1])
  refine ⟨t, _, ht, hu, BitVec.eq_of_toNat_eq ?_, BitVec.eq_of_toNat_eq ?_⟩
  · show v.toNat = _
    omega
  · show f.toNat = _
    omega

/-- VELE puts the byte back that VELD split, and touches no other one. -/
theorem vele_of_veld {s : State} {r : BufRef} (hr : chkBref s.cfg.params s.a1 1 = .ok r) :
    ∃ t u, exec .veld s = .next t ∧ exec .vele { t with a0 := t.rval, a2 := t.rval2 } = .next u ∧
      ∀ sp a, u.byteAt sp a = s.byteAt sp a := by
  obtain ⟨v, f, ht, hv, hf⟩ := velByteCommands.2 s r hr
  obtain ⟨u, hu, -, hbyte, hkept⟩ := velByteCommands.1
    { s with rval := v, rval2 := f, result := .success, failCause := .none, a0 := v, a2 := f } r hr
  refine ⟨_, u, ht, hu, fun sp a => ?_⟩
  by_cases hplace : sp = r.sp ∧ r.off ≤ a ∧ a < r.off + 1
  · obtain ⟨rfl, hle, hlt⟩ := hplace
    obtain rfl : a = r.off := by omega
    have := (s.byteAt r.sp r.off).isLt
    refine BitVec.eq_of_toNat_eq (hbyte.trans ?_)
    dsimp only
    omega
  · exact hkept sp a hplace

/-- Settles O29: the two round trips. -/
theorem velRoundTrip : Obligations.VelRoundTrip :=
  fun _ _ hr => ⟨veld_of_vele hr, vele_of_veld hr⟩

end Sys2Proof.Proofs
end

section
/-! The padded name field (42_field_transform.md R168 to R171): the bytes that a text is written as, the text that bytes
are read as, NAMEE and NAMED, and what is left of a text after both. -/

namespace Sys2Proof.Proofs

open Sys2Proof.Machine

/-! ### A text as bytes (R168) -/

theorem nameByte_toNat (c : Word) :
    (nameByte c).toNat = if 0x20 ≤ c.toInt ∧ c.toInt ≤ 0x7E then c.toNat % 256 else 0x20 := by
  unfold nameByte printable
  rw [← Bool.decide_and]
  by_cases h : 0x20 ≤ c.toInt ∧ c.toInt ≤ 0x7E
  · rw [decide_eq_true h, if_pos rfl, if_pos h, BitVec.toNat_setWidth]
  · rw [decide_eq_false h, if_neg h]
    rfl

/-- The bytes of the padded field, where `paddedByte` is the rule of R168 in numbers. -/
theorem nameEnc_getD (e : Entry) {n i : Nat} (hi : i < n) : ((nameEnc e n).getD i 0).toNat = paddedByte e i := by
  have hget : (nameEnc e n).getD i 0 = nameByte (if i < e.len then e.code i else 0x20#32) := by
    simp [nameEnc, List.getD_eq_getElem?_getD, hi]
  rw [hget, nameByte_toNat, paddedByte]
  by_cases hlen : i < e.len <;> simp [hlen]

theorem paddedByte_of_len_le {e : Entry} {i : Nat} (h : e.len ≤ i) : paddedByte e i = 0x20 :=
  if_neg fun hc => absurd hc.1 (not_lt.mpr h)

theorem paddedByte_of_not_printable {e : Entry} {i : Nat}
    (h : ¬(0x20 ≤ (e.code i).toInt ∧ (e.code i).toInt ≤ 0x7E)) : paddedByte e i = 0x20 :=
  if_neg fun hc => h hc.2

theorem paddedByte_of_space {e : Entry} {i : Nat} (h : e.code i = 0x20) : paddedByte e i = 0x20 := by
  unfold paddedByte
  rw [h]
  split <;> rfl

/-- A code that is not negative is the same number with and without its sign. -/
theorem toInt_eq_toNat_of_nonneg {c : Word} (h : 0 ≤ c.toInt) : c.toInt = c.toNat := by
  rw [BitVec.toInt_eq_toNat_cond] at h ⊢
  split at h <;> omega

/-- A printable code is written as itself. -/
theorem paddedByte_of_printable {e : Entry} {i : Nat} (hi : i < e.len)
    (h : 0x20 ≤ (e.code i).toInt ∧ (e.code i).toInt ≤ 0x7E) :
    paddedByte e i = (e.code i).toNat ∧ 0x20 ≤ (e.code i).toNat := by
  have hnat := toInt_eq_toNat_of_nonneg (c := e.code i) (by omega)
  rw [paddedByte, if_pos ⟨hi, h⟩]
  omega

/-! ### Bytes as a text (R168, R171) -/

/-- `trimmedText` in any buffer: the text `e` is read from `n` bytes at `off`, up to the last byte above 0x20. -/
def trimmedFrom (s : State) (sp : Space) (off n : Nat) (e : Entry) : Prop :=
  e.len ≤ n ∧ (0 < e.len → 0x20 < (s.byteAt sp (off + (e.len - 1))).toNat) ∧
    (∀ i, e.len ≤ i → i < n → (s.byteAt sp (off + i)).toNat ≤ 0x20) ∧
    ∀ i, (e.code i).toNat = if i < e.len then (s.byteAt sp (off + i)).toNat else 0

theorem trimmedText_iff {s : State} {q n : Nat} {e : Entry} : trimmedText s q n e ↔ trimmedFrom s .dimg q n e := Iff.rfl

/-- A byte that ends no name: a space or a control code. -/
def blank (b : Byte) : Bool := decide (b.toNat ≤ 0x20)

theorem nameDec_eq (bs : List Byte) : nameDec bs = (bs.rdropWhile blank).map (fun b => b.setWidth 32) := rfl

/-- A byte becomes the code that is the same number. -/
theorem nameDec_getD_toNat (bs : List Byte) (i : Nat) :
    ((nameDec bs).getD i 0).toNat = ((bs.rdropWhile blank).getD i 0).toNat := by
  rw [nameDec_eq, show (0 : Word) = (0 : Byte).setWidth 32 from rfl, List.getD_map, BitVec.toNat_setWidth]
  exact Nat.mod_eq_of_lt (by omega)

/-- The bytes that are kept are the first ones, the last of them is not blank, and all the others are. -/
theorem rdropWhile_blank (bs : List Byte) :
    (∀ i, i < (bs.rdropWhile blank).length → (bs.rdropWhile blank).getD i 0 = bs.getD i 0) ∧
      (0 < (bs.rdropWhile blank).length → 0x20 < (bs.getD ((bs.rdropWhile blank).length - 1) 0).toNat) ∧
      ∀ i, (bs.rdropWhile blank).length ≤ i → i < bs.length → (bs.getD i 0).toNat ≤ 0x20 := by
  have hsplit : bs.rdropWhile blank ++ bs.rtakeWhile blank = bs := List.rdropWhile_append_rtakeWhile ..
  have hkept (i : Nat) (hi : i < (bs.rdropWhile blank).length) : (bs.rdropWhile blank).getD i 0 = bs.getD i 0 := by
    conv_rhs => rw [← hsplit, List.getD_append _ _ _ _ hi]
  refine ⟨hkept, fun hpos => ?_, fun i hi hlt => ?_⟩
  · have hlast := List.rdropWhile_last_not blank bs (List.ne_nil_of_length_pos hpos)
    rw [List.getLast_eq_getElem, ← List.getD_eq_getElem _ 0, hkept _ (by omega)] at hlast
    simpa [blank] using hlast
  · have hlen := congrArg List.length hsplit
    rw [List.length_append] at hlen
    have hget : bs.getD i 0 = (bs.rtakeWhile blank).getD (i - (bs.rdropWhile blank).length) 0 := by
      conv_lhs => rw [← hsplit, List.getD_append_right _ _ _ _ hi]
    rw [hget, List.getD_eq_getElem _ _ (by omega)]
    have hblank := List.mem_rtakeWhile_imp (List.getElem_mem (l := bs.rtakeWhile blank)
      (show i - (bs.rdropWhile blank).length < _ by omega))
    exact of_decide_eq_true hblank

/-- The text that is stored from `n` bytes, where the store has room for them. -/
theorem trimmedFrom_withText_nameDec (s : State) (sp : Space) (off : Nat) {n textMax : Nat} (hn : n ≤ textMax)
    (e : Entry) : trimmedFrom s sp off n (e.withText textMax (nameDec (s.readBytes sp off n))) := by
  obtain ⟨hkept, hend, hrest⟩ := rdropWhile_blank (s.readBytes sp off n)
  have hbyte {i : Nat} (hi : i < n) : (s.readBytes sp off n).getD i 0 = s.byteAt sp (off + i) := by
    rw [State.readBytes_getD, if_pos hi]
  have hle := nameDec_length_le (s.readBytes sp off n)
  rw [State.readBytes_length] at hle hrest
  have hlen : (nameDec (s.readBytes sp off n)).length = ((s.readBytes sp off n).rdropWhile blank).length := by
    rw [nameDec_eq, List.length_map]
  unfold trimmedFrom
  rw [Entry.withText_len, Nat.min_eq_right (hle.trans hn), hlen]
  rw [hlen] at hle
  refine ⟨hle, fun hpos => ?_, fun i hi hlt => ?_, fun i => ?_⟩
  · rw [← hbyte (by omega)]
    exact hend hpos
  · rw [← hbyte hlt]
    exact hrest i hi hlt
  · rw [Entry.code_withText]
    by_cases hi : i < ((s.readBytes sp off n).rdropWhile blank).length
    · rw [if_pos (by omega), if_pos hi, ← hbyte (by omega), ← hkept i hi, nameDec_getD_toNat]
    · rw [if_neg hi, List.getD_eq_default _ _ (by omega), ite_self]
      rfl

/-! ### NAMEE and NAMED (R169, R171) -/

theorem xfname_of_le {P : Params} {x : Word} (hpos : 1 ≤ x.toNat) (hle : x.toNat ≤ 63) (hmax : x.toNat ≤ P.textMax) :
    xfnameN x = x.toNat ∧ xfnameLegal P x = true := by
  have hn : xfnameN x = x.toNat := by rw [xfnameN_eq, Nat.mod_eq_of_lt (by omega)]
  refine ⟨hn, ?_⟩
  rw [xfnameLegal, hn, bitsAt_eq]
  simp only [Bool.and_eq_true, beq_iff_eq, decide_eq_true_eq]
  omega

theorem key_toNat_of_lt {a : Word} (h : a.toNat < 65536) : (a.extractLsb' 0 16).toNat = a.toNat := by
  rw [BitVec.extractLsb'_toNat, Nat.shiftRight_zero, Nat.mod_eq_of_lt h]

/-- `nameArgs` passes every check of NAMEE and NAMED, with N of XFNAME and the key as the arguments themselves. -/
theorem nameChecks_of_nameArgs {s : State} {r : BufRef} (h : nameArgs s r) :
    nameChecks s = .ok r ∧ xfnameN s.a2 = s.a2.toNat ∧ (s.a0.extractLsb' 0 16).toNat = s.a0.toNat := by
  obtain ⟨hpos, hle, hmax, hkey, hkey16, hr, dev, d, hdev, hschema⟩ := h
  obtain ⟨hn, hlegal⟩ := xfname_of_le hpos hle hmax
  have hk := key_toNat_of_lt hkey16
  have hbits : bitsAt s.a0 0 16 = s.a0.toNat := hk
  refine ⟨?_, hn, hk⟩
  rw [nameChecks, hlegal, need_true, ok_bind, decide_eq_true hkey, need_true, ok_bind, hn, hr, ok_bind, hdev, ok_bind,
    hbits, hschema]

theorem exec_namee (s : State) : exec .namee s = conclude s (nameeRule s) := rfl

theorem exec_namee_of_nameArgs {s : State} {r : BufRef} (h : nameArgs s r) :
    exec .namee s = .next (s.writeBytes r.sp r.off (nameEnc (s.entry s.a0.toNat) s.a2.toNat)).succeed := by
  obtain ⟨hchecks, hn, hk⟩ := nameChecks_of_nameArgs h
  have hbits : bitsAt s.a0 0 16 = s.a0.toNat := hk
  rw [exec_namee, nameeRule, hchecks, ok_bind, hn, hbits]
  exact conclude_ok ..

theorem exec_named (s : State) : exec .named s = conclude s (namedRule s) := rfl

theorem exec_named_of_nameArgs {s : State} {r : BufRef} (h : nameArgs s r) :
    exec .named s =
      .next (s.setText (s.a0.extractLsb' 0 16) (nameDec (s.readBytes r.sp r.off s.a2.toNat))).succeed := by
  obtain ⟨hchecks, hn, -⟩ := nameChecks_of_nameArgs h
  rw [exec_named, namedRule, hchecks, ok_bind, hn]
  exact conclude_ok ..

/-- Settles O30: NAMEE is one write of the padded bytes. -/
theorem nameeWritesPaddedName : Obligations.NameeWritesPaddedName := by
  intro s r h
  have hlen := nameEnc_length (s.entry s.a0.toNat) s.a2.toNat
  refine ⟨_, exec_namee_of_nameArgs h, onlyBuffers_writeBytes .., fun i hi => ?_,
    bytesKeptOutside_writeBytes s _ _ hlen⟩
  rw [byteAt_writeBytes_succeed _ _ _ (by omega)]
  exact nameEnc_getD _ hi

/-- Writing a text gives the key its text, keeps its value, and leaves every other entry. -/
theorem entry_setText (s : State) (k : Key) (codes : List Word) (k' : Nat) :
    (s.setText k codes).entry k' =
      if k' = k.toNat then (s.entry k.toNat).withText s.cfg.params.textMax codes else s.entry k' :=
  State.entry_setEntry ..

/-- NAMED stores the trimmed text, and changes no other entry. -/
theorem named_reads_trimmed {s : State} {r : BufRef} (h : nameArgs s r) :
    ∃ t, exec .named s = .next t ∧ t = { s with model := t.model, result := .success, failCause := .none } ∧
      trimmedFrom s r.sp r.off s.a2.toNat (t.entry s.a0.toNat) ∧
      (t.entry s.a0.toNat).val = (s.entry s.a0.toNat).val ∧ entriesKeptBut s t s.a0.toNat := by
  obtain ⟨-, -, hk⟩ := nameChecks_of_nameArgs h
  have hexec := exec_named_of_nameArgs h
  obtain ⟨-, -, hmax, -⟩ := h
  have hentry (k' : Nat) := entry_setText s (s.a0.extractLsb' 0 16) (nameDec (s.readBytes r.sp r.off s.a2.toNat)) k'
  rw [hk] at hentry
  have hown := (hentry s.a0.toNat).trans (if_pos rfl)
  refine ⟨_, hexec, rfl, ?_, (congrArg Entry.val hown :), fun k' hk' => (hentry k').trans (if_neg hk')⟩
  show trimmedFrom _ _ _ _ ((s.setText _ _).entry _)
  rw [hown]
  exact trimmedFrom_withText_nameDec s r.sp r.off hmax _

/-- Settles O31: the length is that of the trimmed text. -/
theorem namedReadsTrimmedName : Obligations.NamedReadsTrimmedName := by
  intro s r h
  obtain ⟨t, ht, hframe, ⟨hle, hend, hrest, hcode⟩, hval, hkept⟩ := named_reads_trimmed h
  exact ⟨t, _, ht, hframe, rfl, hle, hend, hrest, hcode, hval, hkept⟩

/-! ### The round trip (R170) -/

/-- The text `e'` is what a field of width `n` that holds the text `e` is read as. -/
def readBack (e : Entry) (n : Nat) (e' : Entry) : Prop :=
  e'.len ≤ n ∧ (0 < e'.len → 0x20 < paddedByte e (e'.len - 1)) ∧
    (∀ i, e'.len ≤ i → i < n → paddedByte e i ≤ 0x20) ∧ ∀ i, i < e'.len → (e'.code i).toNat = paddedByte e i

theorem readBack_of_trimmedFrom {t : State} {sp : Space} {off n : Nat} {e e' : Entry}
    (hbytes : ∀ i, i < n → (t.byteAt sp (off + i)).toNat = paddedByte e i) (h : trimmedFrom t sp off n e') :
    readBack e n e' := by
  obtain ⟨hle, hend, hrest, hcode⟩ := h
  refine ⟨hle, fun hpos => ?_, fun i hi hlt => ?_, fun i hi => ?_⟩
  · rw [← hbytes _ (by omega)]
    exact hend hpos
  · rw [← hbytes i hlt]
    exact hrest i hi hlt
  · rw [hcode, if_pos hi, hbytes i (by omega)]

/-- NAMEE leaves NAMED its arguments, and NAMED reads back the field that NAMEE wrote. -/
theorem named_of_namee {s : State} {r : BufRef} (h : nameArgs s r) :
    ∃ t u, exec .namee s = .next t ∧ exec .named t = .next u ∧
      readBack (s.entry s.a0.toNat) s.a2.toNat (u.entry s.a0.toNat) := by
  obtain ⟨t, ht, honly, hbytes, -⟩ := nameeWritesPaddedName s r h
  have hargs : nameArgs t r := by
    rw [honly]
    exact h
  have ha0 : t.a0 = s.a0 := by rw [honly]
  obtain ⟨ha2, -⟩ := a2_cfg_of_onlyBuffers honly
  obtain ⟨u, hu, -, htext, -⟩ := named_reads_trimmed hargs
  rw [ha0, ha2] at htext
  exact ⟨t, u, ht, hu, readBack_of_trimmedFrom hbytes htext⟩

section ReadBack

variable {e e' : Entry} {n : Nat}

/-- Nothing comes back beyond the text: there the field holds spaces. -/
theorem readBack_len_le (h : readBack e n e') : e'.len ≤ e.len := by
  obtain ⟨-, hend, -, -⟩ := h
  by_contra hlt
  have hlast := hend (by omega)
  rw [paddedByte_of_len_le (by omega)] at hlast
  omega

theorem readBack_code_of_printable (h : readBack e n e') {i : Nat} (hi : i < e'.len)
    (hp : 0x20 ≤ (e.code i).toInt ∧ (e.code i).toInt ≤ 0x7E) : e'.code i = e.code i := by
  have hlt := hi.trans_le (readBack_len_le h)
  obtain ⟨-, -, -, hcode⟩ := h
  exact BitVec.eq_of_toNat_eq ((hcode i hi).trans (paddedByte_of_printable hlt hp).1)

theorem readBack_code_of_not_printable (h : readBack e n e') {i : Nat} (hi : i < e'.len)
    (hp : ¬(0x20 ≤ (e.code i).toInt ∧ (e.code i).toInt ≤ 0x7E)) : e'.code i = 0x20 := by
  obtain ⟨-, -, -, hcode⟩ := h
  exact BitVec.eq_of_toNat_eq ((hcode i hi).trans (paddedByte_of_not_printable hp))

/-- A printable code that is trimmed away is a space. -/
theorem space_of_readBack_trimmed (h : readBack e n e') {i : Nat} (hlen : e'.len ≤ i) (hn : i < n) (hi : i < e.len)
    (hp : 0x20 ≤ (e.code i).toInt ∧ (e.code i).toInt ≤ 0x7E) : e.code i = 0x20 := by
  obtain ⟨hbyte, hge⟩ := paddedByte_of_printable hi hp
  obtain ⟨-, -, hrest, -⟩ := h
  have hle := hrest i hlen hn
  refine BitVec.eq_of_toNat_eq ?_
  show _ = 0x20
  omega

/-- The last code that comes back is not a space. -/
theorem readBack_last_ne_space (h : readBack e n e') (hpos : 0 < e'.len) : e.code (e'.len - 1) ≠ 0x20 := by
  obtain ⟨-, hend, -, -⟩ := h
  intro hc
  have hlast := hend hpos
  rw [paddedByte_of_space hc] at hlast
  omega

end ReadBack

/-- Settles O32: what comes back ends where the field has its last byte above a space. -/
theorem nameRoundTrip : Obligations.NameRoundTrip := by
  refine ⟨fun s r h hprintable hlast => ?_, fun s r h => ?_⟩
  · obtain ⟨t, u, ht, hu, hback⟩ := named_of_namee h
    have hle := readBack_len_le hback
    have hspace (i : Nat) := space_of_readBack_trimmed (i := i) hback
    refine ⟨t, u, ht, hu, fun i hi => readBack_code_of_printable hback hi (hprintable i (by omega)), fun hfits => ?_,
      fun hcut => ⟨hback.1, readBack_last_ne_space hback, fun i hi hn => ?_⟩⟩
    · by_contra hne
      exact hlast (by omega) (hspace _ (by omega) (by omega) (by omega) (hprintable _ (by omega)))
    · exact hspace i hi hn (by omega) (hprintable i (by omega))
  · obtain ⟨t, u, ht, hu, hback⟩ := named_of_namee h
    have hle := readBack_len_le hback
    refine ⟨t, u, ht, hu, fun hpos _ hend => ?_, fun i _ hi hp => readBack_code_of_not_printable hback hi hp⟩
    refine lt_of_le_of_ne hle fun heq => ?_
    have hne := readBack_last_ne_space hback (by omega)
    rw [heq] at hne
    exact hne hend

end Sys2Proof.Proofs
end

section
/-! ENUMCHK (42_field_transform.md R172, R173): the legal values of ENUMW as numbers, and the enumeration check that the
command makes for no key. -/

namespace Sys2Proof.Proofs

open Sys2Proof.Machine

/-- The legal values of ENUMW as numbers (R85). -/
theorem enumwLegal_iff (e : Word) : enumwLegal e = true ↔ e = 0 ∨ e.toNat / 65536 < e.toNat % 65536 := by
  have hzero : e = 0 ↔ e.toNat = 0 := BitVec.toNat_inj.symm
  rw [enumwLegal, ecount_eq, efall_eq, hzero]
  simp only [Bool.or_eq_true, Bool.and_eq_true, beq_iff_eq, decide_eq_true_eq]
  omega

theorem exec_enumchk (s : State) : exec .enumchk s = conclude s (enumchkRule s) := rfl

theorem exec_enumchk_of_legal {s : State} (h : enumwLegal s.a1 = true) :
    exec .enumchk s = .next { s.enumFix s.a0 s.a1 noKey with rval := enumCode s.a0 s.a1 }.succeed := by
  rw [exec_enumchk, enumchkRule, h, need_true, ok_bind]
  exact conclude_ok ..

theorem exec_enumchk_of_illegal {s : State} (h : enumwLegal s.a1 = false) :
    exec .enumchk s = .next (s.raiseFault badArg) := by
  rw [exec_enumchk, enumchkRule, h, need_false, error_bind, conclude_error]

/-- What a check recorded is what DIAG_COUNT and DIAG_LOG hold, whatever else was written after it. -/
theorem diagRecorded_congr {s t u : State} {code enumw : Word} {key : Key} (hc : u.diagCount = t.diagCount)
    (hl : u.diagLog = t.diagLog) (h : diagRecorded s t code enumw key) : diagRecorded s u code enumw key := by
  unfold diagRecorded at h ⊢
  rwa [hc, hl]

/-- Settles O33: one enumeration check of A0 for no key, where ENUMW is legal. -/
theorem enumchkSubstitutes : Obligations.EnumchkSubstitutes := by
  refine ⟨rfl, fun s => ⟨fun hlegal => ?_, fun hne hle => exec_enumchk_of_illegal ?_⟩⟩
  · refine ⟨_, exec_enumchk_of_legal ((enumwLegal_iff _).mpr hlegal), ?_,
      diagRecorded_congr rfl rfl (diagRecorded_enumFix s s.a0 s.a1 noKey)⟩
    rw [enumCode_eq, enumFix_eq]
    rfl
  · rw [Bool.eq_false_iff, ne_eq, enumwLegal_iff]
    rintro (hzero | hlt)
    · exact hne hzero
    · omega

end Sys2Proof.Proofs
end

section
/-! The encode and decode rules of the FieldSpec kinds (42_field_transform.md R175 to R187), each run on its own in a
walk (log 4): the bytes or the code that the rule gives, over the one write that all rules of a direction make. -/

namespace Sys2Proof.Proofs

open Sys2Proof.Machine

/-! ### A FieldSpec that goes on -/

/-- A FieldSpec whose keys and DIMG bytes exist runs the rule of the direction of the walk. -/
theorem exec_field_of_exists {i : Instr} {f : FieldPlace} {s : State} {w : Walk} (hf : i.place? = some f)
    (hw : s.walk = some w) (hkeys : ∀ k ∈ keysNamed i f, k.toNat < s.cfg.params.nkeys)
    (hb : fieldBase w.recBase f + fieldSpan i ≤ s.cfg.params.dataSize) :
    (w.dir = .encode → exec i s = .next (encodeFieldAt i w.recBase s)) ∧
      (w.dir = .decode → exec i s = .next (decodeFieldAt i w.recBase s)) := by
  obtain ⟨enc, dec, hexec, hrules⟩ := exec_field_rules hf s
  obtain ⟨henc, hdec⟩ := hrules w.recBase s
  rw [hexec, ← henc, ← hdec]
  constructor <;> exact fun hdir => runKind_eq_next.mpr ⟨w, hw, hkeys, hb, by rw [hdir]⟩

section Walk

variable {s : State} {w : Walk} {i : Instr} {f : FieldPlace} {n : Nat}

/-- The frame of every encode rule, once what the rule leaves in its own bytes is known. -/
theorem encodesBytes_of_rule {bytes : State → Prop} (hw : s.walk = some w) (hdir : w.dir = .encode)
    (hf : i.place? = some f) (hkeys : ∀ k ∈ keysNamed i f, k.toNat < s.cfg.params.nkeys) (hn : fieldSpan i = n)
    (hb : fieldBase w.recBase f + n ≤ s.cfg.params.dataSize)
    (hbytes : bytes (encodeFieldAt i w.recBase s)) : encodesBytes s i (fieldBase w.recBase f) n bytes := by
  subst hn
  obtain ⟨hexec, -⟩ := exec_field_of_exists hf hw hkeys hb
  exact ⟨_, hexec hdir, encodeFieldAt_eq .., hbytes, encodeFieldAt_byteAt i f hf w.recBase s⟩

theorem exec_field_decode (hw : s.walk = some w) (hdir : w.dir = .decode) (hf : i.place? = some f)
    (hkeys : ∀ k ∈ keysNamed i f, k.toNat < s.cfg.params.nkeys) (hn : fieldSpan i = n)
    (hb : fieldBase w.recBase f + n ≤ s.cfg.params.dataSize) :
    exec i s = .next (decodeFieldAt i w.recBase s) := by
  subst hn
  obtain ⟨-, hexec⟩ := exec_field_of_exists hf hw hkeys hb
  exact hexec hdir

end Walk

/-! ### The bytes of each encode rule -/

/-- A written byte of DIMG. -/
theorem byteAt_writeBytes_dimg (s : State) (q : Nat) {bs : List Byte} {i : Nat} (hi : i < bs.length) :
    (s.writeBytes .dimg q bs).byteAt .dimg (q + i) = bs.getD i 0 :=
  byteAt_writeBytes_succeed s .dimg q hi

theorem encodeRaw8_byteAt (key : Key) (q : Nat) (s : State) :
    ((encodeRaw8 key q s).byteAt .dimg q).toNat = (s.val key).toNat % 256 := by
  show ((s.writeBytes .dimg q _).byteAt .dimg (q + 0)).toNat = _
  rw [byteAt_writeBytes_dimg _ _ (by simp), List.getD_cons_zero]
  exact BitVec.toNat_setWidth ..

theorem encodeNib8_byteAt (key : Key) (q : Nat) (s : State) :
    ((encodeNib8 key q s).byteAt .dimg q).toNat = (s.val key).toNat / 16 % 16 ∧
      ((encodeNib8 key q s).byteAt .dimg (q + 1)).toNat = (s.val key).toNat % 16 := by
  have hbyte : ((s.val key).setWidth 8).toNat = (s.val key).toNat % 256 := BitVec.toNat_setWidth ..
  constructor
  · show ((s.writeBytes .dimg q _).byteAt .dimg (q + 0)).toNat = _
    rw [byteAt_writeBytes_dimg _ _ (by simp), List.getD_cons_zero, nibHi_toNat, hbyte]
    omega
  · show ((s.writeBytes .dimg q _).byteAt .dimg (q + 1)).toNat = _
    rw [byteAt_writeBytes_dimg _ _ (by simp), List.getD_cons_succ, List.getD_cons_zero, nibLo_toNat, hbyte]
    omega

/-- Packing with a legal GEOM as numbers: each segment is ORed into its byte. -/
theorem bfPack_toNat {g : Word} (hg : geomLegal g = true) (sp : Space) (off : Nat) (v : Word) (s : State) :
    ((bfPack sp off (geomOf g) v s).byteAt sp off).toNat =
        (s.byteAt sp off).toNat ||| (segmentNumbers (geomOf g) v.toNat).1 * 2 ^ (geomOf g).sa ∧
      ((geomOf g).two = true → ((bfPack sp off (geomOf g) v s).byteAt sp (off + 1)).toNat =
        (s.byteAt sp (off + 1)).toNat ||| (segmentNumbers (geomOf g) v.toNat).2 * 2 ^ (geomOf g).sb) := by
  obtain ⟨-, ha, hb, hab, -⟩ := geomLegal_bounds hg
  obtain ⟨hlta, hltb⟩ := segmentNumbers_lt (geomOf g) v.toNat
  obtain ⟨hfst, hsnd⟩ := splitValue_toNat (G := geomOf g) v (by omega)
  refine ⟨?_, fun htwo => ?_⟩
  · rw [bfPack_byteAt_first, orSegment_toNat _ (hfst ▸ hlta) ha, hfst]
  · rw [bfPack_byteAt_second htwo, orSegment_toNat _ (hsnd ▸ hltb) hb, hsnd]

theorem encodeS14_byteAt (key : Key) (x : Word) (q : Nat) (s : State) :
    ((encodeS14 key x q s).byteAt .dimg (q + x.toNat % 2)).toNat = (s.val key).toNat / 128 % 128 ∧
      ((encodeS14 key x q s).byteAt .dimg (q + (1 - x.toNat % 2))).toNat = (s.val key).toNat % 128 := by
  have hlen := s14Bytes_length (xf14Lsbf x) (s.val key)
  obtain ⟨hmsb, hlsb⟩ := s14Bytes_getD x (s.val key)
  unfold encodeS14
  constructor
  · rw [byteAt_writeBytes_dimg _ _ (by omega), hmsb, s14Msb_toNat]
  · rw [byteAt_writeBytes_dimg _ _ (by omega), hlsb, s14Lsb_toNat]

theorem encodeVel_byteAt (key key2 : Key) (q : Nat) (s : State) :
    ((encodeVel key key2 q s).byteAt .dimg q).toNat =
      128 * ((s.val key2).toNat % 2) + (s.val key).toNat % 128 := by
  show ((s.writeBytes .dimg q _).byteAt .dimg (q + 0)).toNat = _
  rw [byteAt_writeBytes_dimg _ _ (by simp)]
  exact velByte_toNat ..

theorem encodeName_byteAt (key : Key) (x : Word) (q : Nat) (s : State) {i : Nat} (hi : i < xfnameN x) :
    ((encodeName key x q s).byteAt .dimg (q + i)).toNat = paddedByte (s.entry key.toNat) i := by
  unfold encodeName
  rw [byteAt_writeBytes_dimg _ _ (by rwa [nameEnc_length])]
  exact nameEnc_getD _ hi

/-- Settles O44: the bytes that each encode rule writes, over the frame of all encode rules. -/
theorem fieldSpecsEncode : Obligations.FieldSpecsEncode := by
  intro s w f hw hdir hkey
  have hone : ∀ k ∈ [f.key], k.toNat < s.cfg.params.nkeys := by simpa using hkey
  rw [placeOf_eq_fieldBase]
  refine ⟨fun e hb => ?_, fun e hb => ?_, fun g e hg hb => ?_, fun x e hb => ?_, fun k2 hk2 hb => ?_, fun x hb => ?_⟩
  · exact encodesBytes_of_rule hw hdir rfl hone rfl hb (encodeRaw8_byteAt ..)
  · exact encodesBytes_of_rule hw hdir rfl hone rfl hb (encodeNib8_byteAt ..)
  · exact encodesBytes_of_rule hw hdir rfl hone rfl hb (bfPack_toNat hg ..)
  · exact encodesBytes_of_rule hw hdir rfl hone rfl hb (encodeS14_byteAt ..)
  · have hboth : ∀ k ∈ [f.key, k2], k.toNat < s.cfg.params.nkeys := by simpa using ⟨hkey, hk2⟩
    exact encodesBytes_of_rule hw hdir rfl hboth rfl hb (encodeVel_byteAt ..)
  · have hn := xfnameN_eq x
    exact encodesBytes_of_rule hw hdir rfl hone hn hb fun i hi => encodeName_byteAt _ _ _ _ (by rwa [hn])

/-! ### The code of each decode rule -/

/-- Writing a value keeps the text of its key. -/
theorem valueStored_setVal (s : State) (k : Key) (v : Word) : valueStored s (s.setVal k v) k.toNat v := by
  unfold valueStored
  rw [State.entry_setVal, if_pos rfl]
  exact ⟨rfl, rfl, fun _ => rfl⟩

theorem entriesKeptBut_setVal (s : State) (k : Key) (v : Word) : entriesKeptBut s (s.setVal k v) k.toNat :=
  fun k' h => by rw [State.entry_setVal, if_neg h]

/-- What every decode rule with an enumeration check does with its code. -/
theorem decodesCode_of_storeCode {s : State} {i : Instr} {key : Key} {enumw code : Word} {n : Nat}
    (h : exec i s = .next (storeCode key enumw code s)) (hcode : code.toNat = n) : decodesCode s i key n enumw := by
  subst hcode
  have hmodel (k : Nat) : (s.enumFix code enumw key).entry k = s.entry k :=
    State.entry_congr (State.enumFix_model ..) k
  have hstored := valueStored_setVal (s.enumFix code enumw key) key (enumCode code enumw)
  have hkept := entriesKeptBut_setVal (s.enumFix code enumw key) key (enumCode code enumw)
  unfold decodesCode
  rw [BitVec.ofNat_toNat, BitVec.setWidth_eq, ← enumCode_eq]
  refine ⟨_, h, storeCode_eq .., ?_, fun k hk => (hkept k hk).trans (hmodel k),
    diagRecorded_congr rfl rfl (diagRecorded_enumFix s code enumw key)⟩
  unfold valueStored at hstored ⊢
  rwa [hmodel] at hstored

theorem byte_toWord_toNat (b : Byte) : (b.setWidth 32).toNat = b.toNat := by
  rw [BitVec.toNat_setWidth, Nat.mod_eq_of_lt (by omega)]

/-- What VEL leaves on decode (R184): the flag is written second, so it stays where KEY2 is KEY. -/
theorem decodeVel_entries (key key2 : Key) (q : Nat) (s : State) :
    ((decodeVel key key2 q s).val key2).toNat = (s.byteAt .dimg q).toNat / 128 ∧
      (key2 ≠ key → ((decodeVel key key2 q s).val key).toNat = (s.byteAt .dimg q).toNat % 128) ∧
      (∀ k, ((decodeVel key key2 q s).entry k).len = (s.entry k).len ∧
        ∀ i, ((decodeVel key key2 q s).entry k).code i = (s.entry k).code i) ∧
      ∀ k, k ≠ key.toNat → k ≠ key2.toNat → (decodeVel key key2 q s).entry k = s.entry k := by
  unfold decodeVel
  refine ⟨?_, fun hne => ?_, fun k => ?_, fun k hk hk2 => ?_⟩
  · rw [State.val_setVal, if_pos rfl, velFlag_toNat]
  · rw [State.val_setVal, if_neg hne.symm, State.val_setVal, if_pos rfl, velValue_toNat]
  · rw [State.entry_setVal, State.entry_setVal]
    split <;> split <;> exact ⟨rfl, fun _ => rfl⟩
  · rw [State.entry_setVal, if_neg hk2, State.entry_setVal, if_neg hk]

/-- What NAME leaves on decode (R186), where the store has room for its bytes. -/
theorem decodeName_entries (key : Key) {x : Word} (q : Nat) {s : State} (hx : xfnameN x ≤ s.cfg.params.textMax) :
    trimmedText s q (xfnameN x) ((decodeName key x q s).entry key.toNat) ∧
      (decodeName key x q s).val key = s.val key ∧ entriesKeptBut s (decodeName key x q s) key.toNat := by
  have hentry (k : Nat) := entry_setText s key (nameDec (s.readBytes .dimg q (xfnameN x))) k
  have hown := (hentry key.toNat).trans (if_pos rfl)
  unfold decodeName
  refine ⟨?_, (congrArg Entry.val hown :), fun k hk => (hentry k).trans (if_neg hk)⟩
  rw [hown]
  exact trimmedText_iff.mpr (trimmedFrom_withText_nameDec s .dimg q hx _)

/-- Settles O45: the code or the entries that each decode rule gives, over the frame of all decode rules. -/
theorem fieldSpecsDecode : Obligations.FieldSpecsDecode := by
  intro s w f hw hdir hkey
  have hone : ∀ k ∈ [f.key], k.toNat < s.cfg.params.nkeys := by simpa using hkey
  rw [placeOf_eq_fieldBase]
  refine ⟨fun e hb => ?_, fun e hb => ?_, fun g e hg hb => ?_, fun x e hb => ?_, fun k2 hk2 hb => ?_,
    fun x hb hx => ?_⟩
  · exact decodesCode_of_storeCode (exec_field_decode hw hdir rfl hone rfl hb) (byte_toWord_toNat _)
  · exact decodesCode_of_storeCode (exec_field_decode hw hdir rfl hone rfl hb)
      ((byte_toWord_toNat _).trans (nibJoin_toNat ..))
  · obtain ⟨-, -, -, hab, -⟩ := geomLegal_bounds hg
    exact decodesCode_of_storeCode (exec_field_decode hw hdir rfl hone rfl hb) (joinSegments_toNat _ _ (by omega))
  · refine decodesCode_of_storeCode (exec_field_decode hw hdir rfl hone rfl hb) ?_
    rw [s14Value_eq_join, s14Join_toNat]
  · have hboth : ∀ k ∈ [f.key, k2], k.toNat < s.cfg.params.nkeys := by simpa using ⟨hkey, hk2⟩
    exact ⟨_, exec_field_decode hw hdir rfl hboth rfl hb, rfl, decodeVel_entries ..⟩
  · have hn := xfnameN_eq x
    rw [← hn] at hx ⊢
    exact ⟨_, exec_field_decode hw hdir rfl hone hn hb, rfl, decodeName_entries f.key _ hx⟩

end Sys2Proof.Proofs
end

section
/-! CKGEN and CKCHK (43_checksum.md R200 to R205): the sum of a byte range as a number, the one write and the registers
of the two commands, and a DECODE that rejects the checksum of its frame (45_decoder.md R263). -/

namespace Sys2Proof.Proofs

open Sys2Proof.Machine

/-! ### The sum and the comparison of R200 as numbers -/

theorem byteSum_eq_sum (bs : List Byte) : byteSum bs = (bs.map BitVec.toNat).sum := by
  induction bs with
  | nil => rfl
  | cons b bs ih => rw [byteSum, ih, List.map_cons, List.sum_cons]

theorem byteSum_readBytes (s : State) (sp : Space) (off n : Nat) :
    byteSum (s.readBytes sp off n) = rangeSum s sp off n := by
  rw [byteSum_eq_sum]
  exact congrArg List.sum List.map_map

theorem ckSum_readBytes_toNat (s : State) (sp : Space) (off n : Nat) :
    (ckSum (s.readBytes sp off n)).toNat = rangeSum s sp off n % 128 := by
  rw [ckSum_toNat, byteSum_readBytes]

theorem ckValid_iff_toNat (recv computed : Byte) :
    ckValid recv computed = true ↔ recv.toNat = 0x7F ∨ recv.toNat = computed.toNat := by
  rw [ckValid_iff, ← BitVec.toNat_inj, ← BitVec.toNat_inj]
  rfl

/-! ### CKGEN (R201, R202) -/

theorem exec_ckgen (s : State) : exec .ckgen s = conclude s (ckgenRule s) := rfl

/-- CKGEN on two good BREFs: one byte written over a sum taken before, and the same sum in RVAL. -/
theorem exec_ckgen_of_ok {s : State} {src dst : BufRef} (hsrc : chkBref s.cfg.params s.a0 s.a1.toNat = .ok src)
    (hdst : chkBref s.cfg.params s.a2 1 = .ok dst) :
    exec .ckgen s = .next { (s.writeBytes dst.sp dst.off [ckSum (s.readBytes src.sp src.off s.a1.toNat)]).succeed with
      rval := (ckSum (s.readBytes src.sp src.off s.a1.toNat)).setWidth 32 } := by
  rw [exec_ckgen, ckgenRule, hsrc, ok_bind, hdst, ok_bind]
  exact conclude_ok ..

theorem byteAt_updateRval (t : State) (v : Word) (sp : Space) (a : Nat) :
    State.byteAt { t with rval := v } sp a = t.byteAt sp a := State.byteAt_congr rfl rfl rfl sp a

/-- Settles O35: the destination byte and RVAL hold one sum, over the frame of a one-byte write. -/
theorem ckgenWritesSum : Obligations.CkgenWritesSum := by
  intro s src dst hsrc hdst
  have hsum := ckSum_readBytes_toNat s src.sp src.off s.a1.toNat
  refine ⟨_, exec_ckgen_of_ok hsrc hdst, ?_, ?_, ?_, fun sp a h => ?_⟩
  · rw [State.writeBytes_eq]
    rfl
  · rw [byteAt_updateRval, ← hsum]
    exact congrArg BitVec.toNat (byteAt_writeBytes_succeed s dst.sp dst.off (i := 0) Nat.one_pos)
  · rw [← hsum]
    exact byte_toWord_toNat _
  · rw [byteAt_updateRval]
    exact bytesKeptOutside_writeBytes s _ _ rfl sp a h

/-! ### CKCHK (R203, R204) -/

theorem exec_ckchk (s : State) : exec .ckchk s = conclude s (ckchkRule s) := rfl

theorem exec_ckchk_of_ok {s : State} {src rcv : BufRef} (hsrc : chkBref s.cfg.params s.a0 s.a1.toNat = .ok src)
    (hrcv : chkBref s.cfg.params s.a2 1 = .ok rcv) :
    exec .ckchk s = .next (State.succeed { s with
      rval := if ckValid (s.byteAt rcv.sp rcv.off) (ckSum (s.readBytes src.sp src.off s.a1.toNat)) then 1 else 0
      rval2 := (ckSum (s.readBytes src.sp src.off s.a1.toNat)).setWidth 32 }) := by
  rw [exec_ckchk, ckchkRule, hsrc, ok_bind, hrcv, ok_bind]
  exact conclude_ok ..

/-- Settles O36: RVAL is the comparison of R200 as numbers, and RVAL2 the sum that it compares with. -/
theorem ckchkReportsValidity : Obligations.CkchkReportsValidity := by
  intro s src rcv hsrc hrcv
  have hword := byte_toWord_toNat (ckSum (s.readBytes src.sp src.off s.a1.toNat))
  refine ⟨_, hword.trans (ckSum_readBytes_toNat ..), ?_⟩
  rw [exec_ckchk_of_ok hsrc hrcv]
  simp only [ckValid_iff_toNat, hword]
  rfl

/-! ### A DECODE that ends with CHECKSUM (R263 check 4) -/

/-- DECODE has matched the format `fmt` at index `j` of the current device, whose checksum does not hold. -/
def checksumRejected (s : State) (dev : Device) (j : Nat) (fmt : Format) : Prop :=
  currentDevice s = .ok dev ∧ dev.fmts[j]? = some fmt ∧ checksumOk fmt s = false

theorem matchFormat_ne_checksum (fmt : Format) (s : State) : matchFormat fmt s ≠ .checksum := by
  unfold matchFormat
  split
  · exact FailCause.noConfusion
  split
  · exact FailCause.noConfusion
  split <;> exact FailCause.noConfusion

/-- With no format that matches, the cause is one of the match, which has no checksum (R260). -/
theorem failCauseOf_ne_checksum (dev : Device) (s : State) : failCauseOf dev s ≠ .checksum := by
  unfold failCauseOf
  cases hc : (dev.fmts.map fun fmt => matchFormat fmt s).find? (fun c => c != .length) with
  | none => exact FailCause.noConfusion
  | some c =>
    obtain ⟨fmt, -, rfl⟩ := List.mem_map.mp (List.mem_of_find?_eq_some hc)
    exact matchFormat_ne_checksum fmt s

theorem frameChecks_checksum_ends (j : Nat) (fmt : Format) (s : State) :
    Ends (frameChecks j fmt s) fun c =>
      ∀ w, c = .failed .checksum w → checksumOk fmt s = false ∧ w = shapeWord (some j) := by
  unfold frameChecks
  cases hok : checksumOk fmt s with
  | false =>
    rintro w ⟨⟩
    exact ⟨rfl, rfl⟩
  | true =>
    split
    · contradiction
    split
    · rintro w ⟨⟩
    split
    · rintro w ⟨⟩
    split
    · rintro w ⟨⟩
    split
    · exact badArg_cause
    · rintro w ⟨⟩

theorem decodeChecks_checksum_ends (s : State) :
    Ends (decodeChecks s) fun r =>
      ∀ w, r.2 = .failed .checksum w → ∃ j fmt, checksumRejected s r.1 j fmt ∧ w = shapeWord (some j) :=
  (currentDevice_ends s).bind fun dev hd => (noViolation_findSome_ends fun _ _ => checkFormat_cause).bind fun _ _ => by
    split
    · refine .pure fun w hw => ?_
      injection hw with hcause
      exact absurd hcause (failCauseOf_ne_checksum dev s)
    · rename_i j hj
      have hfmt := List.getElem?_eq_getElem (recognize_lt hj)
      rw [hfmt]
      refine (frameChecks_checksum_ends ..).bind fun c hc => .pure fun w hw => ?_
      obtain ⟨hok, hshape⟩ := hc w hw
      exact ⟨j, _, ⟨hd, hfmt, hok⟩, hshape⟩

theorem decodeRule_checksum_ends (s : State) :
    Ends (decodeRule s) fun t =>
      t.failCause = .checksum → ∃ dev j fmt, checksumRejected s dev j fmt ∧ t.shape = shapeWord (some j) :=
  (decodeChecks_checksum_ends s).bind fun r hr => by
    obtain ⟨dev, c⟩ := r
    cases c with
    | failed cause shape =>
      refine .pure ?_
      rintro rfl
      exact ⟨dev, hr shape rfl⟩
    | cancelled shape => exact .pure FailCause.noConfusion
    | pass j fmt p sel => exact .pure FailCause.noConfusion

/-- DECODE ends with CHECKSUM only for a checksum that does not hold, in the format that SHAPE names. -/
theorem checksumRejected_of_exec_decode {s t : State} (h : exec .decode s = .next t) (hc : t.failCause = .checksum) :
    ∃ dev j fmt, checksumRejected s dev j fmt ∧ t.shape = shapeWord (some j) := by
  rcases conclude_next_of_ends (decodeRule_checksum_ends s) h with hr | ⟨f, -, rfl⟩
  · exact hr hc
  · exact FailCause.noConfusion hc

/-- A received 0x7F passes the check of DECODE, whatever the sum is (R204). -/
theorem checksumOk_of_7F {fmt : Format} {s : State} (h : s.byteAt .ibuf (fmt.total - 2) = 0x7F) :
    checksumOk fmt s = true := by
  rw [checksumOk, (ckValid_iff _ _).mpr (.inl h), Bool.or_true]

/-- SHAPE tells the formats of a device apart, which are at most two (R41). -/
theorem shapeWord_some_inj {j j' : Nat} (hj : j < 2) (hj' : j' < 2) (h : shapeWord (some j) = shapeWord (some j')) :
    j = j' := by
  have hnat := congrArg BitVec.toNat h
  simp only [shapeWord, BitVec.toNat_ofNat] at hnat
  omega

/-- Settles O37: a multiple of 128 leaves the sum 0, and a received 0x7F is valid for CKCHK and for DECODE. -/
theorem checksumLaws : Obligations.ChecksumLaws := by
  refine ⟨fun s src dst hsrc hdst hdvd => ?_, fun s src rcv hsrc hrcv h7F => ?_,
    fun s t ht _ dev j fmt hdev htwo hfmt hshape h7F hcause => ?_⟩
  · obtain ⟨t, ht, -, hbyte, hrval, -⟩ := ckgenWritesSum s src dst hsrc hdst
    rw [Nat.mod_eq_zero_of_dvd hdvd] at hbyte hrval
    exact ⟨t, ht, BitVec.eq_of_toNat_eq hbyte, BitVec.eq_of_toNat_eq hrval⟩
  · obtain ⟨c, -, ht⟩ := ckchkReportsValidity s src rcv hsrc hrcv
    exact ⟨_, ht, if_pos (.inl (congrArg BitVec.toNat h7F))⟩
  · obtain ⟨dev', j', fmt', ⟨hdev', hfmt', hreject⟩, hshape'⟩ := checksumRejected_of_exec_decode ht hcause
    obtain rfl : dev = dev' := Except.ok.inj (hdev.symm.trans hdev')
    obtain ⟨hlt, -⟩ := List.getElem?_eq_some_iff.mp hfmt
    obtain ⟨hlt', -⟩ := List.getElem?_eq_some_iff.mp hfmt'
    obtain rfl : j = j' := shapeWord_some_inj (by omega) (by omega) (hshape.symm.trans hshape')
    obtain rfl : fmt = fmt' := Option.some.inj (hfmt.symm.trans hfmt')
    exact absurd (checksumOk_of_7F h7F) (hreject ▸ Bool.false_ne_true)

end Sys2Proof.Proofs
end

section
/-! The step of a walk (10_state.md R27, R316): the FieldSpec at FIDX is run or skipped, and the walk ends with its table
(44_encoder.md R222, 45_decoder.md R265). -/

namespace Sys2Proof.Proofs

open Sys2Proof.Machine

theorem inPart_eq {i : Instr} {f : FieldPlace} (hf : i.place? = some f) (p : Nat) :
    inPart i p = decide (f.part.toNat = p) := by
  simp [inPart, hf, beq_eq_decide]

theorem walkStep_of_field {w : Walk} {fw : FieldWords} {rest : List FieldWords} {i : Instr} {f : FieldPlace}
    (hrest : w.rest = fw :: rest) (hdec : decodeField fw = .ok i) (hf : i.place? = some f) (s : State) :
    walkStep w s =
      if f.part.toNat = w.part then exec i { s with walk := some { w with rest := rest } }
      else .next { s with walk := some { w with rest := rest } } := by
  simp only [walkStep, hrest, hdec, inPart_eq hf, decide_eq_true_eq]

theorem walkStep_of_end {w : Walk} (hrest : w.rest = []) (s : State) : walkStep w s = .next { s with walk := none } := by
  simp only [walkStep, hrest]

/-- Settles O6: the step of a walk by what is left of its table, and the idle step. -/
theorem stepRunsFieldSpec : Obligations.StepRunsFieldSpec := by
  refine ⟨fun s w fw rest i f hw hrest hr hdec hf => ?_, fun s w hw hrest hr => ?_, fun s => step_of_idle⟩
  · rw [step_of_walk hw hr, walkStep_of_field hrest hdec hf]
  · rw [step_of_walk hw hr, walkStep_of_end hrest]

end Sys2Proof.Proofs
end

section
/-! The checks of ENCODE (44_encoder.md R220, R221, R229; 60_exceptions.md R301) and the frame of the whole command
(R228): what it reads and what it leaves unchanged. -/

namespace Sys2Proof.Proofs

open Sys2Proof.Machine

/-! ### The checks in order -/

/-- The checks that follow once ENCODE has found its format. -/
theorem encodeChecks_of_format {s : State} {dev : Device} {fmt : Format} (hdev : currentDevice s = .ok dev)
    (hfmt : dev.fmts[s.a0.toNat]? = some fmt) :
    encodeChecks s = (do
      noViolation (checkFormat s.cfg.params dev fmt)
      need (decide (fmt.recs ≤ 1)) ⟨.unsupported, noKey⟩
      need (decide (fmt.parts ≤ 1) || decide (s.a1.toNat < fmt.parts)) badArg
      return fmt) := by
  rw [encodeChecks, hdev, ok_bind, hfmt]

theorem exec_encode (s : State) : exec .encode s = conclude s (encodeRule s) := rfl

theorem exec_encode_of_ok {s : State} {fmt : Format} (h : encodeChecks s = .ok fmt) :
    exec .encode s = .next (buildFrame fmt (partToEncode s fmt) s).succeed := by
  rw [exec_encode, encodeRule, h, ok_bind]
  exact conclude_ok ..

theorem exec_encode_of_error {s : State} {f : FaultRec} (h : encodeChecks s = .error f) :
    exec .encode s = .next (s.raiseFault f) := by
  rw [exec_encode, encodeRule, h, error_bind, conclude_error]

/-- ENCODE builds the frame where every check passes. -/
theorem exec_encode_of_ready {s : State} {dev : Device} {fmt : Format} (h : encodeReady s dev fmt) :
    exec .encode s = .next (buildFrame fmt (partToEncode s fmt) s).succeed := by
  obtain ⟨hdev, hfmt, hcheck, hrecs, hpart⟩ := h
  have hindex : (decide (fmt.parts ≤ 1) || decide (s.a1.toNat < fmt.parts)) = true := by
    unfold partToEncode at hpart
    split at hpart <;> simp <;> omega
  refine exec_encode_of_ok ?_
  rw [encodeChecks_of_format hdev hfmt, hcheck, hrecs, hindex]
  rfl

/-- Settles O49: the checks in their order, each of which raises its own fault. -/
theorem encodeFaultsInOrder : Obligations.EncodeFaultsInOrder := by
  refine fun s => ⟨fun hcur => ?_, fun dev hdev => ⟨fun hlen => ?_, fun fmt hfmt => ⟨fun f hf => ?_, fun hcheck =>
    ⟨fun hrecs => ?_, fun hrecs hparts hpart => ?_⟩⟩⟩⟩ <;> apply exec_encode_of_error
  · rw [encodeChecks, currentDevice_eq_error.mpr ⟨rfl, .inl hcur⟩]
    rfl
  · rw [encodeChecks, hdev, ok_bind, List.getElem?_eq_none hlen]
    rfl
  · rw [encodeChecks_of_format hdev hfmt, hf]
    rfl
  · rw [encodeChecks_of_format hdev hfmt, hcheck, decide_eq_false (by omega)]
    rfl
  · rw [encodeChecks_of_format hdev hfmt, hcheck, decide_eq_true hrecs, decide_eq_false (by omega),
      decide_eq_false (by omega)]
    rfl

/-! ### IBUF is not read (R228) -/

/-- Every encode rule reads the model store and DIMG alone. -/
theorem encodeFieldAt_updateIbuf (i : Instr) (b : Nat) (s : State) (m : Memory) :
    encodeFieldAt i b { s with ibuf := m } = { encodeFieldAt i b s with ibuf := m } := by
  cases i
  case fspecBits f g e =>
    simp only [encodeFieldAt, encodeBits, bfPack]
    split <;> rfl
  all_goals rfl

theorem walkFields_encode_updateIbuf (p b : Nat) (ws : List FieldWords) (s : State) (m : Memory) :
    walkFields .encode p b ws { s with ibuf := m } = { walkFields .encode p b ws s with ibuf := m } := by
  induction ws generalizing s with
  | nil => rfl
  | cons w ws ih =>
    have hw : walkField .encode p b w { s with ibuf := m } = { walkField .encode p b w s with ibuf := m } := by
      unfold walkField
      split
      · rfl
      · split
        · exact encodeFieldAt_updateIbuf ..
        · rfl
    rw [walkFields, hw, ih, walkFields]

theorem buildFrame_updateIbuf (fmt : Format) (p : Nat) (s : State) (m : Memory) :
    buildFrame fmt p { s with ibuf := m } = { buildFrame fmt p s with ibuf := m } := by
  have hheader : encodeHeader fmt p { s with ibuf := m } = { encodeHeader fmt p s with ibuf := m } := by
    unfold encodeHeader
    split <;> rfl
  have htail (t : State) : encodeTail fmt { t with ibuf := m } = { encodeTail fmt t with ibuf := m } := by
    unfold encodeTail
    split <;> rfl
  have hpayload (t : State) : stagePayload fmt { t with ibuf := m } = { stagePayload fmt t with ibuf := m } := rfl
  unfold buildFrame
  rw [hheader, walkFields_encode_updateIbuf, hpayload, htail]

/-- A completed ENCODE changes OBUF, DIMG, OUT_LEN and how it ended. -/
theorem buildFrame_succeed_eq (fmt : Format) (p : Nat) (s : State) :
    (buildFrame fmt p s).succeed = { s with
      obuf := (buildFrame fmt p s).obuf, dimg := (buildFrame fmt p s).dimg, outLen := (buildFrame fmt p s).outLen
      result := .success, failCause := .none } := by
  rw [buildFrame_eq]
  rfl

/-- Settles O50: the checks and the frame do not depend on IBUF, and the frame is written to OBUF and DIMG. -/
theorem encodeIgnoresInputBuffer : Obligations.EncodeIgnoresInputBuffer := by
  intro s m
  have hchecks : encodeChecks { s with ibuf := m } = encodeChecks s := rfl
  cases h : encodeChecks s with
  | ok fmt =>
    refine ⟨_, exec_encode_of_ok h, ?_, .inr (buildFrame_succeed_eq ..)⟩
    rw [exec_encode_of_ok (hchecks.trans h), buildFrame_updateIbuf]
    rfl
  | error f =>
    refine ⟨_, exec_encode_of_error h, ?_, .inl ⟨f, rfl⟩⟩
    rw [exec_encode_of_error (hchecks.trans h)]
    rfl

end Sys2Proof.Proofs
end

section
/-! The frame that ENCODE builds (44_encoder.md R220, R223 to R225, R230; 43_checksum.md R205): the header, the payload, the
checksum and the terminator stand side by side, and the walk of the table stays inside DIMG[0..D-1]. -/

namespace Sys2Proof.Proofs

open Sys2Proof.Machine

/-! ### FW1 to FW6 as numbers -/

theorem formatLevelOk_iff {P : Params} {fmt : Format} : formatLevelOk P fmt = true ↔ formatConditions P fmt := by
  have hmode : fmt.mode = 0 ∨ fmt.mode = 1 → payloadLen fmt = if fmt.mode = 1 then 2 * fmt.dlen else fmt.dlen := by
    rintro (h | h) <;> simp [payloadLen, h]
  have h1 : fw1 fmt = true ↔ fmt.hdr[0]? = some 0xF0 := by simp [fw1, List.head?_eq_getElem?]
  have h2 : fw2 P fmt = true ↔ (fmt.total = fmt.h + (if fmt.mode = 1 then 2 * fmt.dlen else fmt.dlen) +
      (if fmt.ck then 1 else 0) + 1 ∧ fmt.total ≤ P.bufSize ∧ fmt.dlen ≤ P.dataSize ∧ fmt.mode ≤ 1) := by
    have hle : fmt.mode ≤ 1 ↔ fmt.mode = 0 ∨ fmt.mode = 1 := Nat.le_one_iff_eq_zero_or_eq_one
    rw [hle]
    simp only [fw2, Bool.and_eq_true, Bool.or_eq_true, beq_iff_eq, decide_eq_true_eq, and_assoc]
    exact ⟨fun ⟨ht, hb, hd, hm⟩ => ⟨hmode hm ▸ ht, hb, hd, hm⟩, fun ⟨ht, hb, hd, hm⟩ => ⟨hmode hm ▸ ht, hb, hd, hm⟩⟩
  have h4 : fw4 fmt = true ↔ if fmt.ver then fmt.voff < fmt.h else fmt.voff = 0 := by
    unfold fw4
    split <;> simp
  have h5 : fw5 fmt = true ↔ (1 ≤ fmt.parts ∧ fmt.parts ≤ 8 ∧
      (1 < fmt.parts → fmt.recs = 1 ∧ fmt.rl ≤ fmt.poff ∧ fmt.poff < fmt.h ∧ (fmt.ver = true → fmt.poff ≠ fmt.voff)) ∧
      (fmt.parts = 1 → fmt.poff = 0)) := by
    by_cases hm : 1 < fmt.parts
    · cases hv : fmt.ver <;> simp [fw5, hm, hv, and_assoc, show fmt.parts ≠ 1 by omega]
    · simp only [fw5, hm, if_false, Bool.and_eq_true, decide_eq_true_eq, beq_iff_eq, false_implies, true_and]
      omega
  have h6 : fw6 fmt = true ↔ (1 ≤ fmt.recs ∧ fmt.base + fmt.recs * fmt.stride ≤ fmt.dlen ∧
      (1 < fmt.recs → 1 ≤ fmt.stride)) := by
    simp only [fw6, Bool.and_eq_true, Bool.or_eq_true, decide_eq_true_eq, beq_iff_eq]
    omega
  simp only [formatLevelOk, formatConditions, Bool.and_eq_true, h1, h2, h4, h5, h6, and_assoc, fw3]
  refine and_congr_right fun _ => and_congr_right fun _ => and_congr_right fun _ => and_congr_right fun _ =>
    and_congr_right fun hm => and_congr_left fun _ => ?_
  rw [hmode (by omega)]
  split <;> simp [and_assoc]

/-- The places that FW1 to FW6 give the parts of a frame. -/
structure FrameLayout (P : Params) (fmt : Format) : Prop where
  total_eq : fmt.total = fmt.h + payloadLen fmt + (if fmt.ck then 1 else 0) + 1
  total_le : fmt.total ≤ P.bufSize
  mode_cases : fmt.mode = 0 ∨ fmt.mode = 1
  sum_range : fmt.ck = true → fmt.h ≤ fmt.cks ∧ fmt.cks ≤ fmt.cke ∧ fmt.cke ≤ fmt.h + payloadLen fmt
  version_lt : fmt.ver = true → fmt.voff < fmt.h
  parts_pos : 1 ≤ fmt.parts
  parts_le : fmt.parts ≤ 8
  part_byte : 1 < fmt.parts → fmt.rl ≤ fmt.poff ∧ fmt.poff < fmt.h ∧ (fmt.ver = true → fmt.poff ≠ fmt.voff)

theorem frameLayout_of_formatLevelOk {P : Params} {fmt : Format} (h : formatLevelOk P fmt = true) :
    FrameLayout P fmt := by
  obtain ⟨-, ⟨ht, hb, -, hm⟩, hck, hver, ⟨hpos, hle, hparts, -⟩, -⟩ := formatLevelOk_iff.mp h
  have hlen : payloadLen fmt = if fmt.mode = 1 then 2 * fmt.dlen else fmt.dlen := by
    unfold payloadLen
    split <;> split <;> omega
  refine ⟨by rw [hlen]; exact ht, hb, by omega, fun h => ?_, fun h => ?_, hpos, hle, fun h => (hparts h).2⟩
  · rw [hlen]
    simpa [h] using hck
  · simpa [h] using hver

/-! ### The walk of the table -/

/-- What every FieldSpec of a table keeps, the walk of the table keeps. -/
theorem walkFields_induction {Q : State → Prop} {dir : WalkDir} {p b : Nat} {ws : List FieldWords} {s : State} (hs : Q s)
    (hstep : ∀ w ∈ ws, ∀ t, Q t → Q (walkField dir p b w t)) : Q (walkFields dir p b ws s) := by
  induction ws generalizing s with
  | nil => exact hs
  | cons w ws ih =>
    exact ih (hstep w List.mem_cons_self s hs) fun v hv => hstep v (List.mem_cons_of_mem w hv)

/-- The rule that a walk of the direction applies to a FieldSpec. -/
def fieldRule (dir : WalkDir) (i : Instr) (b : Nat) (s : State) : State :=
  match dir with
  | .encode => encodeFieldAt i b s
  | .decode => decodeFieldAt i b s

/-- A FieldSpec of the part runs. -/
theorem walkField_of_part {w : FieldWords} {i : Instr} {f : FieldPlace} (hdec : decodeField w = .ok i)
    (hf : i.place? = some f) {p : Nat} (hp : f.part.toNat = p) (dir : WalkDir) (b : Nat) (s : State) :
    walkField dir p b w s = fieldRule dir i b s := by
  simp only [walkField, hdec, inPart_eq hf, hp, decide_true, if_true]
  rfl

/-- A walked FieldSpec has run, as one of the part, or has been skipped. -/
theorem walkField_cases (dir : WalkDir) (p b : Nat) (w : FieldWords) (s : State) :
    (∃ i f, decodeField w = .ok i ∧ i.place? = some f ∧ f.part.toNat = p ∧
      walkField dir p b w s = fieldRule dir i b s) ∨ walkField dir p b w s = s := by
  cases hdec : decodeField w with
  | error e => exact .inr (by simp only [walkField, hdec])
  | ok i =>
    cases hf : i.place? with
    | none => exact .inr (by simp [walkField, hdec, inPart, hf])
    | some f =>
      by_cases hp : f.part.toNat = p
      · exact .inl ⟨i, f, rfl, hf, hp, walkField_of_part hdec hf hp dir b s⟩
      · exact .inr (by simp [walkField, hdec, inPart_eq hf, hp])

/-- The bytes of a FieldSpec in record 0 stand below D (FW7). -/
theorem fieldBase_add_span_le_dlen {fmt : Format} {i : Instr} {f : FieldPlace} (hf : fieldFits fmt i f = true) :
    fieldBase fmt.base f + fieldSpan i ≤ fmt.dlen := by
  unfold fieldFits at hf
  unfold fieldBase
  split at hf
  · rename_i hs
    rw [if_pos hs]
    exact of_decide_eq_true hf
  · rename_i hs
    simp only [Bool.and_eq_true, decide_eq_true_eq] at hf
    obtain ⟨hfits, -⟩ := hf
    rw [if_neg hs]
    omega

/-- The FieldSpec that words of a checked table decode to has legal operands and bytes that fit. -/
theorem field_of_checked {P : Params} {dev : Device} {fmt : Format} {w : FieldWords}
    (h : fieldViolation P dev fmt w = none) {i : Instr} {f : FieldPlace} (hdec : decodeField w = .ok i)
    (hf : i.place? = some f) : fieldOperandsLegal P i = true ∧ fieldFits fmt i f = true := by
  obtain ⟨i', f', hdec', hf', hlegal, hfits, -⟩ := fieldViolation_eq_none h
  obtain rfl : i = i' := Except.ok.inj (hdec.symm.trans hdec')
  obtain rfl : f = f' := Option.some.inj (hf.symm.trans hf')
  exact ⟨hlegal, hfits⟩

/-! ### The steps of ENCODE -/

theorem byteAt_succeed (s : State) (sp : Space) (a : Nat) : s.succeed.byteAt sp a = s.byteAt sp a :=
  State.byteAt_congr rfl rfl rfl sp a

/-- What a buffer byte reads as after one byte has been written. -/
theorem byteAt_writeBytes_singleton (s : State) (sp : Space) (off : Nat) (b : Byte) (sp' : Space) (a : Nat) :
    (s.writeBytes sp off [b]).byteAt sp' a = if sp' = sp ∧ a = off then b else s.byteAt sp' a := by
  have hrange : (off ≤ a ∧ a < off + 1) ↔ a = off := by omega
  simp only [State.byteAt_writeBytes, List.length_singleton, hrange]
  split
  · rename_i h
    simp [h.2]
  · rfl

/-- The state with the data image complete, before the payload is staged. -/
def imageState (fmt : Format) (p : Nat) (s : State) : State :=
  walkFields .encode p fmt.base fmt.fields (encodeHeader fmt p s)

theorem byteAt_obuf_imageState (fmt : Format) (p : Nat) (s : State) (a : Nat) :
    (imageState fmt p s).byteAt .obuf a = (encodeHeader fmt p s).byteAt .obuf a := by
  rw [imageState, walkFields_encode_eq]
  rfl

/-- The image starts at zero, and DIMG beyond it is kept (R222). -/
theorem byteAt_dimg_encodeHeader (fmt : Format) (p : Nat) (s : State) (a : Nat) :
    (encodeHeader fmt p s).byteAt .dimg a = if a < fmt.dlen then 0 else s.byteAt .dimg a := by
  unfold encodeHeader
  split <;> simp [State.byteAt_writeBytes]

/-- The walk of ENCODE writes no byte at or beyond D. -/
theorem byteAt_dimg_imageState_of_ge {P : Params} {dev : Device} {fmt : Format} (hcheck : checkFormat P dev fmt = none)
    (p : Nat) (s : State) {a : Nat} (ha : fmt.dlen ≤ a) : (imageState fmt p s).byteAt .dimg a = s.byteAt .dimg a := by
  obtain ⟨-, hfields, -⟩ := checkFormat_eq_none.mp hcheck
  refine walkFields_induction (Q := fun t => t.byteAt .dimg a = s.byteAt .dimg a) ?_ fun w hw t ht => ?_
  · rw [byteAt_dimg_encodeHeader, if_neg (by omega)]
  · rcases walkField_cases .encode p fmt.base w t with ⟨i, f, hdec, hf, -, heq⟩ | heq
    · obtain ⟨-, hfits⟩ := field_of_checked (hfields w hw) hdec hf
      have hspan := fieldBase_add_span_le_dlen hfits
      rw [heq, ← ht]
      exact encodeFieldAt_byteAt i f hf _ _ _ _ fun h => by omega
    · rwa [heq]

/-- The header bytes with the part byte, once OBUF[0..L-1] is zeroed (R220, R230). -/
theorem byteAt_obuf_encodeHeader {fmt : Format} {p : Nat} (s : State) {a : Nat} (ha : a < fmt.h) :
    (encodeHeader fmt p s).byteAt .obuf a =
      if 1 < fmt.parts ∧ a = fmt.poff then BitVec.ofNat 8 p else fmt.hdr.getD a 0 := by
  have hhdr : a < fmt.hdr.length := ha
  unfold encodeHeader
  by_cases hm : 1 < fmt.parts
  · simp only [hm, if_true, byteAt_writeBytes_singleton]
    simp [State.byteAt_writeBytes, hhdr]
  · simp [hm, State.byteAt_writeBytes, hhdr]

theorem byteAt_obuf_encodeHeader_of_ge {P : Params} {fmt : Format} (hl : FrameLayout P fmt) (p : Nat) (s : State) {a : Nat}
    (ha : fmt.total ≤ a) : (encodeHeader fmt p s).byteAt .obuf a = s.byteAt .obuf a := by
  have htotal := hl.total_eq
  have hhdr : fmt.hdr.length = fmt.h := rfl
  unfold encodeHeader
  split
  · rename_i hm
    obtain ⟨-, hpoff, -⟩ := hl.part_byte hm
    rw [byteAt_writeBytes_singleton, if_neg (by omega)]
    simp [State.byteAt_writeBytes, show ¬a < fmt.total by omega, show ¬a < fmt.hdr.length by omega]
  · simp [State.byteAt_writeBytes, show ¬a < fmt.total by omega, show ¬a < fmt.hdr.length by omega]

/-- The payload of a data image in the mode of the format (R223). -/
def payloadBytes (fmt : Format) (t : State) : List Byte :=
  if fmt.mode = 0 then t.readBytes .dimg 0 fmt.dlen else nibExpand (t.readBytes .dimg 0 fmt.dlen)

theorem payloadBytes_length (fmt : Format) (t : State) : (payloadBytes fmt t).length = payloadLen fmt := by
  unfold payloadBytes payloadLen
  split <;> simp

theorem byteAt_obuf_stagePayload (fmt : Format) (t : State) (a : Nat) :
    (stagePayload fmt t).byteAt .obuf a =
      if fmt.h ≤ a ∧ a < fmt.h + payloadLen fmt then (payloadBytes fmt t).getD (a - fmt.h) 0 else t.byteAt .obuf a := by
  rw [← payloadBytes_length fmt t]
  show (t.writeBytes .obuf fmt.h (payloadBytes fmt t)).byteAt .obuf a = _
  simp only [State.byteAt_writeBytes, true_and]

/-- The terminator is written last. -/
theorem byteAt_obuf_encodeTail_last (fmt : Format) (t : State) : (encodeTail fmt t).byteAt .obuf (fmt.total - 1) = 0xF7 := by
  simp [encodeTail, byteAt_writeBytes_singleton]

theorem byteAt_obuf_encodeTail_checksum {fmt : Format} (hck : fmt.ck = true) (ht : 2 ≤ fmt.total) (t : State) :
    (encodeTail fmt t).byteAt .obuf (fmt.total - 2) = ckSum (t.readBytes .obuf fmt.cks (fmt.cke - fmt.cks)) := by
  simp [encodeTail, hck, byteAt_writeBytes_singleton, show fmt.total - 2 ≠ fmt.total - 1 by omega]

theorem byteAt_obuf_encodeTail_other {fmt : Format} (t : State) {a : Nat} (hlast : a ≠ fmt.total - 1)
    (hck : fmt.ck = true → a ≠ fmt.total - 2) : (encodeTail fmt t).byteAt .obuf a = t.byteAt .obuf a := by
  unfold encodeTail
  split
  · rename_i h
    simp [byteAt_writeBytes_singleton, hlast, hck h]
  · simp [byteAt_writeBytes_singleton, hlast]

/-! ### The whole frame -/

theorem byteAt_buildFrame (fmt : Format) (p : Nat) (s : State) (sp : Space) (a : Nat) :
    (buildFrame fmt p s).byteAt sp a = (encodeTail fmt (stagePayload fmt (imageState fmt p s))).byteAt sp a :=
  State.byteAt_congr rfl rfl rfl sp a

theorem byteAt_dimg_buildFrame (fmt : Format) (p : Nat) (s : State) (a : Nat) :
    (buildFrame fmt p s).byteAt .dimg a = (imageState fmt p s).byteAt .dimg a := by
  rw [byteAt_buildFrame]
  unfold encodeTail
  split <;> simp [State.byteAt_writeBytes, stagePayload]

/-- The bytes before the checksum and the terminator: the header and the payload. -/
theorem byteAt_obuf_buildFrame_of_lt {P : Params} {fmt : Format} (hl : FrameLayout P fmt) (p : Nat) (s : State) {a : Nat}
    (ha : a < fmt.h + payloadLen fmt) :
    (buildFrame fmt p s).byteAt .obuf a = (stagePayload fmt (imageState fmt p s)).byteAt .obuf a := by
  have htotal := hl.total_eq
  rw [byteAt_buildFrame, byteAt_obuf_encodeTail_other _ (by omega)]
  intro hck
  simp only [hck, if_true] at htotal
  omega

theorem byteAt_obuf_header {P : Params} {fmt : Format} (hl : FrameLayout P fmt) (p : Nat) (s : State) {a : Nat}
    (ha : a < fmt.h) : (buildFrame fmt p s).byteAt .obuf a =
      if 1 < fmt.parts ∧ a = fmt.poff then BitVec.ofNat 8 p else fmt.hdr.getD a 0 := by
  rw [byteAt_obuf_buildFrame_of_lt hl p s (by omega), byteAt_obuf_stagePayload, if_neg (by omega), byteAt_obuf_imageState,
    byteAt_obuf_encodeHeader s ha]

theorem byteAt_obuf_payload {P : Params} {fmt : Format} (hl : FrameLayout P fmt) (p : Nat) (s : State) {i : Nat}
    (hi : i < payloadLen fmt) :
    (buildFrame fmt p s).byteAt .obuf (fmt.h + i) = (payloadBytes fmt (imageState fmt p s)).getD i 0 := by
  rw [byteAt_obuf_buildFrame_of_lt hl p s (by omega), byteAt_obuf_stagePayload, if_pos (by omega), Nat.add_sub_cancel_left]

theorem rangeSum_congr {s t : State} {sp sp' : Space} {off n : Nat}
    (h : ∀ a, off ≤ a → a < off + n → t.byteAt sp' a = s.byteAt sp a) : rangeSum t sp' off n = rangeSum s sp off n := by
  refine congrArg List.sum (List.map_congr_left fun i hi => ?_)
  rw [h _ (by omega) (by have := List.mem_range.mp hi; omega)]

/-- The checksum byte sums bytes of the finished frame: it and the terminator stand after them (R205). -/
theorem byteAt_obuf_checksum {P : Params} {fmt : Format} (hl : FrameLayout P fmt) (p : Nat) (s : State)
    (hck : fmt.ck = true) : ((buildFrame fmt p s).byteAt .obuf (fmt.total - 2)).toNat =
      rangeSum (buildFrame fmt p s) .obuf fmt.cks (fmt.cke - fmt.cks) % 128 := by
  have htotal := hl.total_eq
  obtain ⟨hfrom, hle, hto⟩ := hl.sum_range hck
  simp only [hck, if_true] at htotal
  rw [byteAt_buildFrame, byteAt_obuf_encodeTail_checksum hck (by omega), ckSum_readBytes_toNat]
  congr 1
  exact rangeSum_congr fun a hfrom hlt => (byteAt_obuf_buildFrame_of_lt hl p s (by omega)).symm

/-- Settles O47: the parts of the frame in turn. -/
theorem encodeBuildsFrame : Obligations.EncodeBuildsFrame := by
  intro s dev fmt hready
  have hexec := exec_encode_of_ready hready
  obtain ⟨-, -, hcheck, -, -⟩ := hready
  obtain ⟨hlevel, -, -⟩ := checkFormat_eq_none.mp hcheck
  have hl := frameLayout_of_formatLevelOk hlevel
  have htotal := hl.total_eq
  refine ⟨_, hexec, buildFrame_succeed_eq .., rfl, fun i hi => ?_, fun hmode i hi => ?_, fun hmode i hi => ?_,
    fun hck => ?_, ?_, fun a ha => ?_, fun a ha => ?_⟩ <;> simp only [byteAt_succeed]
  · exact byteAt_obuf_header hl _ s hi
  · rw [byteAt_obuf_payload hl _ s (by simpa [payloadLen, hmode] using hi), byteAt_dimg_buildFrame, payloadBytes,
      if_pos hmode, State.readBytes_getD, if_pos hi, Nat.zero_add]
  · have hlen : payloadLen fmt = 2 * fmt.dlen := by simp [payloadLen, hmode]
    obtain ⟨hhi, hlo⟩ := nibExpand_readBytes_getD (imageState fmt (partToEncode s fmt) s) .dimg 0 hi
    rw [Nat.add_assoc, byteAt_obuf_payload hl _ s (by omega), byteAt_obuf_payload hl _ s (by omega),
      byteAt_dimg_buildFrame, payloadBytes, if_neg (by omega), hhi, hlo, nibHi_toNat, nibLo_toNat, Nat.zero_add]
    exact ⟨rfl, rfl⟩
  · exact byteAt_obuf_checksum hl _ s hck
  · rw [byteAt_buildFrame, byteAt_obuf_encodeTail_last]
  · rw [byteAt_buildFrame, byteAt_obuf_encodeTail_other _ (by omega) (fun _ => by omega), byteAt_obuf_stagePayload,
      if_neg (by omega), byteAt_obuf_imageState, byteAt_obuf_encodeHeader_of_ge hl _ s ha]
  · rw [byteAt_dimg_buildFrame, byteAt_dimg_imageState_of_ge hcheck _ s ha]

end Sys2Proof.Proofs
end

section
/-! The data image of ENCODE (44_encoder.md R222, 41_bitfield.md R146, 42_field_transform.md R175 to R187), bit by bit: a
FieldSpec changes only the bits that it touches, so its transform stands where no later FieldSpec of the part reaches. -/

namespace Sys2Proof.Proofs

open Sys2Proof.Machine

/-! ### Bits outside a FieldSpec -/

theorem byte_ext {b c : Byte} (h : ∀ n, n < 8 → c.getLsbD n = b.getLsbD n) : c = b :=
  BitVec.eq_of_getLsbD_eq h

/-- ORing a segment in changes only the bits of the segment. -/
theorem orSegment_getLsbD_of_outside (b : Byte) {p : Word} {shift w n : Nat} (hp : p.toNat < 2 ^ w)
    (h : ¬(shift ≤ n ∧ n < shift + w)) : (orSegment b p shift).getLsbD n = b.getLsbD n := by
  have hbit : shift ≤ n → p.getLsbD (n - shift) = false := fun hle =>
    Nat.testBit_lt_two_pow (hp.trans_le (Nat.pow_le_pow_right (by omega) (by omega)))
  by_cases hle : shift ≤ n
  · simp [orSegment, hbit hle]
  · simp [orSegment, show n < shift by omega]

/-- Packing a field changes only the bits of its segments. -/
theorem bfPack_getLsbD_of_outside {g : Word} (hg : geomLegal g = true) (q : Nat) (v : Word) (s : State) {a n : Nat}
    (hfirst : ¬(a = q ∧ (geomOf g).sa ≤ n ∧ n < (geomOf g).sa + (geomOf g).wa))
    (hsecond : ¬((geomOf g).two = true ∧ a = q + 1 ∧ (geomOf g).sb ≤ n ∧ n < (geomOf g).sb + (geomOf g).wb)) :
    ((bfPack .dimg q (geomOf g) v s).byteAt .dimg a).getLsbD n = (s.byteAt .dimg a).getLsbD n := by
  obtain ⟨-, -, -, hab, -⟩ := geomLegal_bounds hg
  obtain ⟨hfst, hsnd⟩ := splitValue_toNat (G := geomOf g) v (by omega)
  obtain ⟨hlta, hltb⟩ := segmentNumbers_lt (geomOf g) v.toNat
  by_cases ha : a = q
  · subst ha
    rw [bfPack_byteAt_first]
    exact orSegment_getLsbD_of_outside _ (hfst ▸ hlta) fun h => hfirst ⟨rfl, h⟩
  · by_cases hb : (geomOf g).two = true ∧ a = q + 1
    · obtain ⟨htwo, rfl⟩ := hb
      rw [bfPack_byteAt_second htwo]
      exact orSegment_getLsbD_of_outside _ (hsnd ▸ hltb) fun h => hsecond ⟨htwo, rfl, h⟩
    · unfold bfPack
      split
      · rename_i htwo
        have hne : ¬(q ≤ a ∧ a < q + 2) := fun h => hb ⟨htwo, by omega⟩
        rw [State.byteAt_writeBytes]
        exact congrArg (fun b : Byte => b.getLsbD n) (if_neg fun h => hne h.2)
      · rw [byteAt_writeBytes_singleton, if_neg fun h => ha h.2]

/-- An encode rule leaves every bit that its FieldSpec does not touch. -/
theorem encodeFieldAt_getLsbD {P : Params} {i : Instr} {f : FieldPlace} (hf : i.place? = some f)
    (hlegal : fieldOperandsLegal P i = true) (b : Nat) (s : State) {a n : Nat}
    (h : ¬touchesBit i (placeOf b f) a n) :
    ((encodeFieldAt i b s).byteAt .dimg a).getLsbD n = (s.byteAt .dimg a).getLsbD n := by
  rw [placeOf_eq_fieldBase] at h
  have whole (hspan : ¬(fieldBase b f ≤ a ∧ a < fieldBase b f + fieldSpan i ∧ n < 8)) :
      ((encodeFieldAt i b s).byteAt .dimg a).getLsbD n = (s.byteAt .dimg a).getLsbD n := by
    by_cases hn : n < 8
    · rw [encodeFieldAt_byteAt i f hf b s .dimg a fun hc => hspan ⟨hc.2.1, hc.2.2, hn⟩]
    · rw [BitVec.getLsbD_of_ge _ _ (not_lt.mp hn), BitVec.getLsbD_of_ge _ _ (not_lt.mp hn)]
  cases i
  case fspecBits place g e =>
    cases hf
    simp only [fieldOperandsLegal, Bool.and_eq_true] at hlegal
    exact bfPack_getLsbD_of_outside hlegal.1.2 _ _ _ (fun hc => h (.inl hc)) fun hc => h (.inr hc)
  all_goals exact whole h

/-- The walk of ENCODE leaves every bit that no FieldSpec of the part touches. -/
theorem walkFields_getLsbD {P : Params} {dev : Device} {fmt : Format} {ws : List FieldWords} {p b a n : Nat}
    (hws : ∀ w ∈ ws, fieldViolation P dev fmt w = none) (hn : ∀ w ∈ ws, ¬wordsTouch p b w a n) (s : State) :
    ((walkFields .encode p b ws s).byteAt .dimg a).getLsbD n = (s.byteAt .dimg a).getLsbD n := by
  refine walkFields_induction (Q := fun t => (t.byteAt .dimg a).getLsbD n = (s.byteAt .dimg a).getLsbD n) rfl
    fun w hw t ht => ?_
  rcases walkField_cases .encode p b w t with ⟨i, f, hdec, hf, hp, heq⟩ | heq
  · rw [heq, ← ht]
    exact encodeFieldAt_getLsbD hf (field_of_checked (hws w hw) hdec hf).1 b t
      fun htouch => hn w hw ⟨i, f, hdec, hf, hp, htouch⟩
  · rw [heq, ht]

/-- The bits that a FieldSpec touches stand in its DIMG bytes, which end at D. -/
theorem lt_dlen_of_touchesBit {fmt : Format} {i : Instr} {f : FieldPlace} (hf : i.place? = some f)
    (hfits : fieldFits fmt i f = true) {a n : Nat} (h : touchesBit i (placeOf fmt.base f) a n) : a < fmt.dlen := by
  have hspan := fieldBase_add_span_le_dlen hfits
  rw [← placeOf_eq_fieldBase] at hspan
  cases i <;> cases hf
  case fspecBits g e =>
    simp only [touchesBit, fieldSpan, Geom.span] at h hspan
    rcases h with ⟨rfl, -⟩ | ⟨htwo, rfl, -⟩
    · split at hspan <;> omega
    · rw [if_pos htwo] at hspan
      omega
  all_goals
    simp only [touchesBit] at h
    omega

/-! ### The transform of a value in its bits -/

/-- The DIMG bytes of `t` hold the transform of the value that the FieldSpec carries in `s`. -/
def fieldHolds (s t : State) (b : Nat) (i : Instr) : Prop :=
  match i with
  | .fspecRaw8 f _ => (t.byteAt .dimg (placeOf b f)).toNat = (s.val f.key).toNat % 256
  | .fspecNib8 f _ =>
    (t.byteAt .dimg (placeOf b f)).toNat = (s.val f.key).toNat / 16 % 16 ∧
    (t.byteAt .dimg (placeOf b f + 1)).toNat = (s.val f.key).toNat % 16
  | .fspecBits f g _ =>
    segmentCode (geomOf g) (t.byteAt .dimg (placeOf b f)).toNat (t.byteAt .dimg (placeOf b f + 1)).toNat =
      (s.val f.key).toNat % 2 ^ (geomOf g).width
  | .fspecS14 f x _ =>
    (t.byteAt .dimg (placeOf b f + x.toNat % 2)).toNat = (s.val f.key).toNat / 128 % 128 ∧
    (t.byteAt .dimg (placeOf b f + (1 - x.toNat % 2))).toNat = (s.val f.key).toNat % 128
  | .fspecVel f k2 =>
    (t.byteAt .dimg (placeOf b f)).toNat = 128 * ((s.val k2).toNat % 2) + (s.val f.key).toNat % 128
  | .fspecName f x => ∀ n, n < x.toNat % 64 →
    (t.byteAt .dimg (placeOf b f + n)).toNat = paddedByte (s.entry f.key.toNat) n
  | _ => False

/-- A segment is the bits of its byte that it covers. -/
theorem segment_congr {b c : Byte} {sh w : Nat} (h : ∀ n, sh ≤ n → n < sh + w → c.getLsbD n = b.getLsbD n) :
    c.toNat / 2 ^ sh % 2 ^ w = b.toNat / 2 ^ sh % 2 ^ w := by
  refine Nat.eq_of_testBit_eq fun n => ?_
  rw [Nat.testBit_mod_two_pow, Nat.testBit_mod_two_pow, Nat.testBit_div_two_pow, Nat.testBit_div_two_pow]
  by_cases hn : n < w
  · rw [show c.toNat.testBit (n + sh) = b.toNat.testBit (n + sh) from h (n + sh) (by omega) (by omega)]
  · simp [hn]

theorem segmentCode_congr {G : Geom} {b0 b1 c0 c1 : Byte}
    (h0 : ∀ n, G.sa ≤ n → n < G.sa + G.wa → c0.getLsbD n = b0.getLsbD n)
    (h1 : G.two = true → ∀ n, G.sb ≤ n → n < G.sb + G.wb → c1.getLsbD n = b1.getLsbD n) :
    segmentCode G c0.toNat c1.toNat = segmentCode G b0.toNat b1.toNat := by
  cases htwo : G.two with
  | false => rw [segmentCode_of_not_two htwo, segmentCode_of_not_two htwo, segment_congr h0]
  | true =>
    unfold segmentCode
    simp only [segment_congr h0, segment_congr (h1 htwo)]

/-- The transform depends on the bits that the FieldSpec touches. -/
theorem fieldHolds_congr {s t t' : State} {b : Nat} {i : Instr} {f : FieldPlace} (hf : i.place? = some f)
    (hbits : ∀ a n, touchesBit i (placeOf b f) a n → (t'.byteAt .dimg a).getLsbD n = (t.byteAt .dimg a).getLsbD n)
    (h : fieldHolds s t b i) : fieldHolds s t' b i := by
  cases i <;> simp only [Instr.place?, reduceCtorEq, Option.some.injEq] at hf <;> subst hf
  case fspecBits g e =>
    exact (segmentCode_congr (fun n hle hlt => hbits _ n (.inl ⟨rfl, hle, hlt⟩))
      fun htwo n hle hlt => hbits _ n (.inr ⟨htwo, rfl, hle, hlt⟩)).trans h
  all_goals
    have hbyte (a : Nat) (hle : placeOf b _ ≤ a) (hlt : a < placeOf b _ + fieldSpan _) :
        t'.byteAt .dimg a = t.byteAt .dimg a := byte_ext fun n hn => hbits a n ⟨hle, hlt, hn⟩
    simp only [fieldSpan, xfnameN_eq] at hbyte
    simp only [fieldHolds] at h ⊢
  case fspecRaw8 f e => rwa [hbyte (placeOf b f) (by omega) (by omega)]
  case fspecNib8 f e =>
    rwa [hbyte (placeOf b f) (by omega) (by omega), hbyte (placeOf b f + 1) (by omega) (by omega)]
  case fspecS14 f x e =>
    rwa [hbyte (placeOf b f + x.toNat % 2) (by omega) (by omega),
      hbyte (placeOf b f + (1 - x.toNat % 2)) (by omega) (by omega)]
  case fspecVel f k2 => rwa [hbyte (placeOf b f) (by omega) (by omega)]
  case fspecName f x =>
    intro n hn
    rw [hbyte (placeOf b f + n) (by omega) (by omega)]
    exact h n hn

/-- An encode rule leaves the transform of its value, and packing needs its bits at 0 before (R146). -/
theorem fieldHolds_encodeFieldAt {P : Params} {i : Instr} {f : FieldPlace} (hf : i.place? = some f)
    (hlegal : fieldOperandsLegal P i = true) (b : Nat) (s : State)
    (hzero : (bitsParts i).isSome → ∀ a n, touchesBit i (placeOf b f) a n → (s.byteAt .dimg a).getLsbD n = false) :
    fieldHolds s (encodeFieldAt i b s) b i := by
  cases i <;> simp only [Instr.place?, reduceCtorEq, Option.some.injEq] at hf <;> subst hf <;>
    simp only [fieldHolds, placeOf_eq_fieldBase] at hzero ⊢
  case fspecRaw8 => exact encodeRaw8_byteAt ..
  case fspecNib8 => exact encodeNib8_byteAt ..
  case fspecBits place g e =>
    simp only [fieldOperandsLegal, Bool.and_eq_true] at hlegal
    obtain ⟨hfirst, hsecond⟩ := bfPack_toNat hlegal.1.2 .dimg (fieldBase b place) (s.val place.key) s
    have hold : segmentCode (geomOf g) (s.byteAt .dimg (fieldBase b place)).toNat
        (s.byteAt .dimg (fieldBase b place + 1)).toNat = 0 := by
      refine (segmentCode_congr (b0 := 0) (b1 := 0) (fun n hle hlt => ?_) fun htwo n hle hlt => ?_).trans ?_
      · simpa using hzero rfl _ n (.inl ⟨rfl, hle, hlt⟩)
      · simpa using hzero rfl _ n (.inr ⟨htwo, rfl, hle, hlt⟩)
      · simp [segmentCode]
    have hcode := segmentCode_of_packed _ hfirst hsecond
    rw [hold, Nat.zero_or] at hcode
    exact hcode
  case fspecS14 => exact encodeS14_byteAt ..
  case fspecVel => exact encodeVel_byteAt ..
  case fspecName => exact fun n hn => encodeName_byteAt _ _ _ _ (by rwa [xfnameN_eq])

/-! ### The whole image -/

theorem model_encodeHeader (fmt : Format) (p : Nat) (s : State) : (encodeHeader fmt p s).model = s.model := by
  unfold encodeHeader
  split <;> simp

theorem model_walkFields_encode (p b : Nat) (ws : List FieldWords) (s : State) :
    (walkFields .encode p b ws s).model = s.model := by
  rw [walkFields_encode_eq]

/-- What a FieldSpec carries is in the model store. -/
theorem fieldHolds_congr_model {s s' t : State} {b : Nat} {i : Instr} (hm : s'.model = s.model) :
    fieldHolds s' t b i ↔ fieldHolds s t b i := by
  have hentry (k : Nat) : s'.entry k = s.entry k := State.entry_congr hm k
  cases i <;> simp only [fieldHolds, State.val, hentry]

/-- The FieldSpecs before one of the part leave the bits that only it touches at 0, and those after it leave its
transform. -/
theorem fieldHolds_imageState {P : Params} {dev : Device} {fmt : Format} (hcheck : checkFormat P dev fmt = none)
    {p : Nat} (s : State) {pre post : List FieldWords} {w : FieldWords} {i : Instr} {f : FieldPlace}
    (hfields : fmt.fields = pre ++ w :: post) (hdec : decodeField w = .ok i) (hf : i.place? = some f)
    (hp : f.part.toNat = p)
    (hpost : ∀ x ∈ post, ∀ a n, touchesBit i (placeOf fmt.base f) a n → ¬wordsTouch p fmt.base x a n)
    (hpre : (bitsParts i).isSome →
      ∀ x ∈ pre, ∀ a n, touchesBit i (placeOf fmt.base f) a n → ¬wordsTouch p fmt.base x a n) :
    fieldHolds s (imageState fmt p s) fmt.base i := by
  obtain ⟨-, hviol, -⟩ := checkFormat_eq_none.mp hcheck
  rw [hfields] at hviol
  obtain ⟨hlegal, hfits⟩ := field_of_checked (hviol w (by simp)) hdec hf
  have himage : imageState fmt p s = walkFields .encode p fmt.base post (encodeFieldAt i fmt.base
      (walkFields .encode p fmt.base pre (encodeHeader fmt p s))) := by
    rw [imageState, hfields, walkFields_append, walkFields, walkField_of_part hdec hf hp]
    rfl
  have hown := fieldHolds_encodeFieldAt hf hlegal fmt.base
    (walkFields .encode p fmt.base pre (encodeHeader fmt p s)) fun hb a n htouch => by
      rw [walkFields_getLsbD (fun x hx => hviol x (by simp [hx])) fun x hx => hpre hb x hx a n htouch]
      rw [byteAt_dimg_encodeHeader, if_pos (lt_dlen_of_touchesBit hf hfits htouch)]
      exact BitVec.getLsbD_zero
  rw [himage]
  rw [fieldHolds_congr_model ((model_walkFields_encode ..).trans (model_encodeHeader ..))] at hown
  refine fieldHolds_congr hf (fun a n htouch => ?_) hown
  exact walkFields_getLsbD (fun x hx => hviol x (by simp [hx])) (fun x hx => hpost x hx a n htouch) _

/-- Settles O48: the bits that no FieldSpec of the part touches, and the transform of each FieldSpec. -/
theorem encodePlacesFields : Obligations.EncodePlacesFields := by
  intro s t dev fmt hready ht
  obtain rfl := Host.Outcome.next.inj (ht.symm.trans (exec_encode_of_ready hready))
  obtain ⟨-, -, hcheck, -, -⟩ := hready
  obtain ⟨-, hviol, -⟩ := checkFormat_eq_none.mp hcheck
  have himage (a : Nat) : (buildFrame fmt (partToEncode s fmt) s).succeed.byteAt .dimg a =
      (imageState fmt (partToEncode s fmt) s).byteAt .dimg a := by
    rw [byteAt_succeed, byteAt_dimg_buildFrame]
  simp only [himage]
  refine ⟨fun a n ha hn => ?_, fun pre w post i f hfields hdec hf hp hpost => ?_⟩
  · rw [imageState, walkFields_getLsbD hviol hn, byteAt_dimg_encodeHeader, if_pos ha]
    exact BitVec.getLsbD_zero
  · have holds := fieldHolds_imageState hcheck s hfields hdec hf hp hpost
    cases i <;> cases hf
    case fspecBits.refl => exact fun hpre => holds fun _ => hpre
    all_goals exact holds fun h => Bool.noConfusion h

end Sys2Proof.Proofs
end

section
/-! What DECODE leaves of the model, one FieldSpec at a time (42_field_transform.md R176 to R186, 45_decoder.md R265, R270): a
decode rule over bytes that hold the transform of a legal value gives the value back, no other FieldSpec and no clamp changes
it again, and a key that no FieldSpec of the part writes is only clamped. -/

namespace Sys2Proof.Proofs

open Sys2Proof.Machine

/-! ### The entries of a decode rule -/

theorem entry_storeCode (key : Key) (enumw code : Word) (s : State) (k : Nat) :
    (storeCode key enumw code s).entry k =
      if k = key.toNat then { s.entry k with val := enumCode code enumw } else s.entry k := by
  rw [storeCode, State.entry_setVal, State.entry_congr (State.enumFix_model ..)]

theorem val_storeCode (key : Key) (enumw code : Word) (s : State) :
    (storeCode key enumw code s).val key = enumCode code enumw := by
  rw [State.val, entry_storeCode, if_pos rfl]

/-- A decode rule leaves the entry of every key that its FieldSpec does not write. -/
theorem decodeFieldAt_entry {i : Instr} {f : FieldPlace} (hf : i.place? = some f) (b : Nat) (s : State) {k : Nat}
    (h : ¬writesKey i k) : (decodeFieldAt i b s).entry k = s.entry k := by
  have hkey : k ≠ f.key.toNat := fun hk => h (.inl ⟨f, hf, hk.symm⟩)
  cases i <;> cases hf
  case fspecRaw8.refl => exact (entry_storeCode ..).trans (if_neg hkey)
  case fspecNib8.refl => exact (entry_storeCode ..).trans (if_neg hkey)
  case fspecBits.refl => exact (entry_storeCode ..).trans (if_neg hkey)
  case fspecS14.refl => exact (entry_storeCode ..).trans (if_neg hkey)
  case fspecVel.refl k2 =>
    obtain ⟨-, -, -, hother⟩ := decodeVel_entries f.key k2 (fieldBase b f) s
    exact hother k hkey fun hk => h (.inr ⟨f, k2, rfl, hk.symm⟩)
  case fspecName.refl => exact (entry_setText ..).trans (if_neg hkey)

theorem walkFields_decode_entry {p b k : Nat} {ws : List FieldWords} (h : ∀ w ∈ ws, ¬wordsWrite p w k) (s : State) :
    (walkFields .decode p b ws s).entry k = s.entry k := by
  refine walkFields_induction (Q := fun t => t.entry k = s.entry k) rfl fun w hw t ht => ?_
  rcases walkField_cases .decode p b w t with ⟨i, f, hdec, hf, hp, heq⟩ | heq
  · rw [heq, ← ht]
    exact decodeFieldAt_entry hf b t fun hwrite => h w hw ⟨i, f, hdec, hf, hp, hwrite⟩
  · rw [heq, ht]

/-! ### A decode rule inverts its encode rule -/

/-- A code that is the old value and passes the enumeration check is stored as the old value. -/
theorem val_storeCode_of_passes {s t : State} {key : Key} {enumw code : Word} (hcode : code.toNat = (s.val key).toNat)
    (henum : enumw.toNat % 65536 = 0 ∨ (s.val key).toNat < enumw.toNat % 65536) :
    (storeCode key enumw code t).val key = s.val key := by
  obtain rfl := BitVec.eq_of_toNat_eq hcode
  rw [val_storeCode, enumCode_eq, enumResult, if_pos henum]

/-- A printable text that does not end in a space comes back whole from a field that holds all of it (R170). -/
theorem text_of_readBack {e e' : Entry} {n : Nat} (h : readBack e n e') (hn : e.len ≤ n)
    (hprintable : ∀ m, m < e.len → 0x20 ≤ (e.code m).toInt ∧ (e.code m).toInt ≤ 0x7E)
    (hlast : 0 < e.len → e.code (e.len - 1) ≠ 0x20) :
    e'.len = e.len ∧ ∀ m, m < e.len → e'.code m = e.code m := by
  have hle := readBack_len_le h
  have hlen : e'.len = e.len := by
    by_contra hne
    exact hlast (by omega)
      (space_of_readBack_trimmed h (by omega) (by omega) (by omega) (hprintable _ (by omega)))
  exact ⟨hlen, fun m hm => readBack_code_of_printable h (by omega) (hprintable m hm)⟩

/-- Decoding bytes that hold the transform of a legal value gives the value (R226 (a), (b), (d)). -/
theorem sameValues_decodeFieldAt {s t : State} {dev : Device} {i : Instr} {f : FieldPlace} {b : Nat}
    (hf : i.place? = some f) (hlegal : fieldOperandsLegal t.cfg.params i = true) (hholds : fieldHolds s t b i)
    (hval : carriesLegalValue s dev i) : sameValues s (decodeFieldAt i b t) i := by
  cases i <;> cases hf <;> simp only [fieldHolds, placeOf_eq_fieldBase, carriesLegalValue] at hholds hval
  case fspecRaw8.refl e =>
    obtain ⟨⟨hlt, -⟩, henum⟩ := hval
    refine val_storeCode_of_passes ?_ henum
    rw [byte_toWord_toNat, hholds, Nat.mod_eq_of_lt hlt]
  case fspecNib8.refl e =>
    obtain ⟨⟨hlt, -⟩, henum⟩ := hval
    obtain ⟨hhi, hlo⟩ := hholds
    refine val_storeCode_of_passes ?_ henum
    rw [byte_toWord_toNat, nibJoin_toNat, hhi, hlo]
    omega
  case fspecBits.refl g e =>
    obtain ⟨⟨hlt, -⟩, henum⟩ := hval
    simp only [fieldOperandsLegal, Bool.and_eq_true] at hlegal
    obtain ⟨-, -, -, hab, -⟩ := geomLegal_bounds hlegal.1.2
    refine val_storeCode_of_passes ?_ henum
    rw [bfUnpack, joinSegments_toNat _ _ (by omega), hholds, Nat.mod_eq_of_lt hlt]
  case fspecS14.refl x e =>
    obtain ⟨⟨hlt, -⟩, henum⟩ := hval
    obtain ⟨hmsb, hlsb⟩ := hholds
    refine val_storeCode_of_passes ?_ henum
    rw [s14Value_eq_join, s14Join_toNat, hmsb, hlsb]
    omega
  case fspecVel.refl k2 =>
    obtain ⟨⟨hvalue, -⟩, hflag, -⟩ := hval
    obtain ⟨hk2, hkey, -, -⟩ := decodeVel_entries f.key k2 (fieldBase b f) t
    have hflag' : (decodeVel f.key k2 (fieldBase b f) t).val k2 = s.val k2 := BitVec.eq_of_toNat_eq (by omega)
    refine ⟨?_, hflag'⟩
    by_cases hne : k2 = f.key
    · rw [← hne]
      exact hflag'
    · refine BitVec.eq_of_toNat_eq ((hkey hne).trans ?_)
      omega
  case fspecName.refl x =>
    obtain ⟨hn, hprintable, hlast⟩ := hval
    simp only [fieldOperandsLegal, xfnameLegal, Bool.and_eq_true, decide_eq_true_eq] at hlegal
    obtain ⟨-, -, hmax⟩ := hlegal
    obtain ⟨htext, -, -⟩ := decodeName_entries f.key (fieldBase b f) hmax
    rw [xfnameN_eq] at htext
    exact text_of_readBack (readBack_of_trimmedFrom hholds (trimmedText_iff.mp htext)) hn hprintable hlast

/-! ### What comes after a FieldSpec -/

/-- The values that a FieldSpec carries stand in the entries that it writes. -/
theorem sameValues_congr {s v v' : State} {i : Instr} (h : ∀ k, writesKey i k → v'.entry k = v.entry k) :
    sameValues s v' i ↔ sameValues s v i := by
  cases i
  case fspecVel f k2 =>
    simp only [sameValues, State.val, h f.key.toNat (.inl ⟨f, rfl, rfl⟩), h k2.toNat (.inr ⟨f, k2, rfl, rfl⟩)]
  case fspecRaw8 f _ | fspecNib8 f _ | fspecBits f _ _ | fspecS14 f _ _ | fspecName f _ =>
    simp only [sameValues, State.val, h f.key.toNat (.inl ⟨f, rfl, rfl⟩)]
  all_goals rfl

/-- The bytes that a FieldSpec reads are in DIMG. -/
theorem fieldHolds_congr_image {s t t' : State} {b : Nat} {i : Instr}
    (h : ∀ a, t'.byteAt .dimg a = t.byteAt .dimg a) : fieldHolds s t' b i ↔ fieldHolds s t b i := by
  cases i <;> simp only [fieldHolds, h]

/-- The walk of DECODE leaves DIMG and the configuration as they are. -/
theorem walkFields_decode_frame (p b : Nat) (ws : List FieldWords) (s : State) :
    (walkFields .decode p b ws s).dimg = s.dimg ∧ (walkFields .decode p b ws s).cfg = s.cfg := by
  rw [walkFields_decode_eq]
  exact ⟨rfl, rfl⟩

/-- A FieldSpec of the part leaves the value that its bytes hold, and no later one writes its keys. -/
theorem sameValues_walkFields {s x : State} {dev : Device} {pre post : List FieldWords} {w : FieldWords} {i : Instr}
    {f : FieldPlace} {p b : Nat} (hdec : decodeField w = .ok i) (hf : i.place? = some f) (hp : f.part.toNat = p)
    (hlegal : fieldOperandsLegal x.cfg.params i = true) (hholds : fieldHolds s x b i) (hval : carriesLegalValue s dev i)
    (hpost : ∀ y ∈ post, ∀ k, writesKey i k → ¬wordsWrite p y k) :
    sameValues s (walkFields .decode p b (pre ++ w :: post) x) i := by
  obtain ⟨hdimg, hcfg⟩ := walkFields_decode_frame p b pre x
  rw [walkFields_append, walkFields, walkField_of_part hdec hf hp,
    sameValues_congr fun k hk => walkFields_decode_entry (fun y hy => hpost y hy k hk) _]
  refine sameValues_decodeFieldAt hf (hcfg ▸ hlegal) ?_ hval
  exact (fieldHolds_congr_image fun a => congrArg (fun m => Memory.read m a) hdimg).mpr hholds

/-! ### The revise pass (R270) -/

/-- Clamping a key once more changes nothing for the claim that it is clamped. -/
theorem entryRevised_trans {P : Params} {dev : Device} {k : Nat} {e e' e'' : Entry} (h : entryRevised P dev k e e')
    (h' : entryRevised P dev k e' e'') : entryRevised P dev k e e'' := by
  unfold entryRevised at h h' ⊢
  generalize (if k < P.nkeys then schemaAt dev k else none) = schema at h h' ⊢
  rcases schema with _ | ⟨lo, hi, d⟩ | d
  · exact Eq.trans h' h
  · obtain ⟨hframe, hclamp⟩ := h
    obtain ⟨hframe', hclamp'⟩ := h'
    refine ⟨by rw [hframe', hframe], fun hle => ?_⟩
    rw [hclamp' hle, hclamp hle]
    omega
  · exact Eq.trans h' h

theorem reviseKey_entryRevised (dev : Device) (s : State) (k : Nat) :
    entryRevised s.cfg.params dev k (s.entry k) ((reviseKey dev k s).entry k) := by
  rw [reviseKey_entry]
  simp only [true_and]
  unfold entryRevised
  generalize (if k < s.cfg.params.nkeys then schemaAt dev k else none) = schema
  rcases schema with _ | ⟨lo, hi, d⟩ | d
  · rfl
  · exact ⟨rfl, fun hle => clampWord_toInt hle⟩
  · rfl

theorem reviseKey_entry_of_ne (dev : Device) (s : State) {k k' : Nat} (h : k' ≠ k) :
    (reviseKey dev k s).entry k' = s.entry k' := by
  rw [reviseKey_entry]
  simp [h]

/-- The pass over listed keys clamps each of them and leaves every other. -/
theorem reviseKeys_entry (dev : Device) (ks : List Nat) (s : State) (k : Nat) :
    (k ∈ ks → entryRevised s.cfg.params dev k (s.entry k) ((reviseKeys dev ks s).entry k)) ∧
      (k ∉ ks → (reviseKeys dev ks s).entry k = s.entry k) := by
  induction ks generalizing s with
  | nil => exact ⟨fun h => absurd h List.not_mem_nil, fun _ => rfl⟩
  | cons j ks ih =>
    obtain ⟨hmem, hnot⟩ := ih (reviseKey dev j s)
    have hcfg : (reviseKey dev j s).cfg = s.cfg := by rw [reviseKey_eq]
    rw [hcfg] at hmem
    rw [reviseKeys]
    by_cases hj : k = j
    · subst hj
      have hfirst := reviseKey_entryRevised dev s k
      refine ⟨fun _ => ?_, fun h => absurd List.mem_cons_self h⟩
      by_cases hk : k ∈ ks
      · exact entryRevised_trans hfirst (hmem hk)
      · rwa [hnot hk]
    · rw [reviseKey_entry_of_ne dev s hj] at hmem hnot
      exact ⟨fun h => hmem ((List.mem_cons.mp h).resolve_left hj), fun h => hnot fun hk => h (List.mem_cons_of_mem _ hk)⟩

/-- The revise pass clamps every defined INT key and leaves every other entry. -/
theorem revise_entryRevised (dev : Device) (s : State) (k : Nat) :
    entryRevised s.cfg.params dev k (s.entry k) ((revise dev s).entry k) := by
  obtain ⟨hmem, hnot⟩ := reviseKeys_entry dev (dev.schema.map Prod.fst) s k
  by_cases hk : k ∈ dev.schema.map Prod.fst
  · exact hmem hk
  · rw [revise, hnot hk]
    have hnone : schemaAt dev k = none := by
      cases he : schemaAt dev k with
      | none => rfl
      | some e => exact absurd (mem_of_schemaAt he) hk
    unfold entryRevised
    rw [hnone, ite_self]

theorem val_of_entryRevised {P : Params} {dev : Device} {k : Nat} {e e' : Entry} (h : entryRevised P dev k e e')
    (hrange : ∀ lo hi d, schemaAt dev k = some (.int lo hi d) → lo.toInt ≤ e.val.toInt ∧ e.val.toInt ≤ hi.toInt) :
    e'.val = e.val := by
  unfold entryRevised at h
  split at h
  · rename_i lo hi d hs
    obtain ⟨-, hclamp⟩ := h
    obtain ⟨hlo, hhi⟩ := hrange lo hi d (by split at hs <;> [exact hs; cases hs])
    refine BitVec.eq_of_toInt_eq ((hclamp (by omega)).trans ?_)
    omega
  · rw [h]
  · rw [h]

theorem text_of_entryRevised {P : Params} {dev : Device} {k : Nat} {e e' : Entry} (h : entryRevised P dev k e e') :
    e'.len = e.len ∧ ∀ n, e'.code n = e.code n := by
  unfold entryRevised at h
  split at h
  · obtain ⟨hframe, -⟩ := h
    rw [hframe]
    exact ⟨rfl, fun _ => rfl⟩
  · rw [h]
    exact ⟨rfl, fun _ => rfl⟩
  · rw [h]
    exact ⟨rfl, fun _ => rfl⟩

/-- A value in the range of its key is not clamped, and a text never is. -/
theorem sameValues_revise {s v : State} {dev : Device} {i : Instr} (hval : carriesLegalValue s dev i)
    (h : sameValues s v i) : sameValues s (revise dev v) i := by
  have hint {k : Key} (hrange : inSchemaRange s dev k) (hv : v.val k = s.val k) : (revise dev v).val k = s.val k :=
    (val_of_entryRevised (revise_entryRevised dev v k.toNat) fun lo hi d hs => by
      rw [show (v.entry k.toNat).val = s.val k from hv]
      exact hrange lo hi d hs).trans hv
  cases i <;> simp only [carriesLegalValue] at hval
  case fspecRaw8 => exact hint hval.1.2 h
  case fspecNib8 => exact hint hval.1.2 h
  case fspecBits => exact hint hval.1.2 h
  case fspecS14 => exact hint hval.1.2 h
  case fspecVel =>
    obtain ⟨hkey, hkey2⟩ := h
    exact ⟨hint hval.1.2 hkey, hint hval.2.2 hkey2⟩
  case fspecName f x =>
    obtain ⟨hlen, hcode⟩ := text_of_entryRevised (revise_entryRevised dev v f.key.toNat)
    exact ⟨hlen.trans h.1, fun n hn => (hcode n).trans (h.2 n hn)⟩

end Sys2Proof.Proofs
end

section
/-! The model round trip (44_encoder.md R226): DECODE of a frame that ENCODE built. In a well-formed configuration no other
format matches the frame (10_state.md R46), every check of DECODE passes, the data image comes back, and each FieldSpec of
the part gives back the value that it carries. -/

namespace Sys2Proof.Proofs

open Sys2Proof.Machine

/-! ### One format matches (R46) -/

theorem checked_of_deviceWf {P : Params} {dev : Device} (h : deviceWf P dev = true) {fmt : Format} (hf : fmt ∈ dev.fmts) :
    formatRanges fmt = true ∧ checkFormat P dev fmt = none := by
  simp only [deviceWf, Bool.and_eq_true, List.all_eq_true] at h
  obtain ⟨⟨-, hall⟩, -⟩ := h
  simpa [formatWf] using hall fmt hf

theorem bufSize_le_of_configWf {c : Config} (h : configWf c = true) : c.params.bufSize ≤ 65536 := by
  simp only [configWf, paramsWf, Bool.and_eq_true, decide_eq_true_eq] at h
  omega

/-- Two formats of a well-formed device that match one frame are the same format. -/
theorem matchFormat_unique {P : Params} (hP : P.bufSize ≤ 65536) {dev : Device} (h : deviceWf P dev = true) {i j : Nat}
    {f g : Format} (hi : dev.fmts[i]? = some f) (hj : dev.fmts[j]? = some g) {s : State}
    (hf : matchFormat f s = .none) (hg : matchFormat g s = .none) : i = j := by
  have bounds {fmt : Format} (hmem : fmt ∈ dev.fmts) :
      fmt.rl ≤ fmt.h ∧ (fmt.ver = true → fmt.voff < fmt.h) ∧ fmt.total < 2 ^ 32 := by
    obtain ⟨hranges, hcheck⟩ := checked_of_deviceWf h hmem
    have hl := frameLayout_of_formatLevelOk (checkFormat_eq_none.mp hcheck).1
    have htotal := hl.total_le
    simp only [formatRanges, Bool.and_eq_true, decide_eq_true_eq] at hranges
    exact ⟨hranges.1.2, hl.version_lt, by omega⟩
  have hdistinct : formatsDistinct dev.fmts = true := by
    simp only [deviceWf, Bool.and_eq_true] at h
    exact h.2
  generalize dev.fmts = fmts at hi hj hdistinct bounds
  match fmts, hdistinct with
  | [f₀], _ =>
    rw [List.getElem?_singleton] at hi hj
    split at hi <;> split at hj <;> simp_all
  | [f₀, f₁], hdistinct =>
    obtain ⟨hr₀, hv₀, hl₀⟩ := bounds (fmt := f₀) (by simp)
    obtain ⟨hr₁, hv₁, -⟩ := bounds (fmt := f₁) (by simp)
    have hapart := (distinguishable_iff hr₀ hr₁ hv₀ hv₁ hl₀).mp hdistinct s
    match i, j, hi, hj with
    | 0, 0, _, _ => rfl
    | 1, 1, _, _ => rfl
    | 0, 1, rfl, rfl => exact absurd ⟨hf, hg⟩ hapart
    | 1, 0, rfl, rfl => exact absurd ⟨hg, hf⟩ hapart

/-- The recognizer finds the one format that matches. -/
theorem recognize_of_match {P : Params} (hP : P.bufSize ≤ 65536) {dev : Device} (h : deviceWf P dev = true) {j : Nat}
    {fmt : Format} (hj : dev.fmts[j]? = some fmt) {s : State} (hm : matchFormat fmt s = .none) :
    recognize dev s = some j := by
  obtain ⟨hlt, hget⟩ := List.getElem?_eq_some_iff.mp hj
  refine List.findIdx?_eq_some_iff_getElem.mpr ⟨hlt, by rw [hget, hm]; rfl, fun i hi => ?_⟩
  intro hmatch
  have heq := matchFormat_unique hP h (List.getElem?_eq_getElem (hi.trans hlt)) hj (eq_of_beq hmatch) hm
  omega

/-! ### The checks and the rule of DECODE -/

theorem decodeChecks_of_match {s : State} {dev : Device} {j : Nat} {fmt : Format} {c : DecodeCheck}
    (hdev : currentDevice s = .ok dev) (hcheck : ∀ g ∈ dev.fmts, checkFormat s.cfg.params dev g = none)
    (hj : recognize dev s = some j) (hfmt : dev.fmts[j]? = some fmt) (hc : frameChecks j fmt s = .ok c) :
    decodeChecks s = .ok (dev, c) := by
  rw [decodeChecks, hdev, ok_bind, List.findSome?_eq_none_iff.mpr hcheck, noViolation, ok_bind, hj]
  simp only [hfmt, hc, ok_bind]
  rfl

/-- The checks on a matched frame of a format of one record. -/
theorem frameChecks_of_single {s : State} {fmt : Format} (j : Nat) (hck : checksumOk fmt s = true) {p : Nat}
    (hp : framePart fmt s = p) (hlt : p < fmt.parts) (hrecs : fmt.recs = 1) :
    frameChecks j fmt s = .ok (.pass j fmt p 0) := by
  simp [frameChecks, hck, hp, hrecs, show ¬fmt.parts ≤ p by omega]

theorem exec_decode (s : State) : exec .decode s = conclude s (decodeRule s) := rfl

theorem exec_decode_of_pass {s : State} {dev : Device} {j : Nat} {fmt : Format} {p sel : Nat}
    (h : decodeChecks s = .ok (dev, .pass j fmt p sel)) : exec .decode s = .next (decodeFrame dev j fmt p sel s) := by
  rw [exec_decode, decodeRule, h, ok_bind]
  exact conclude_ok ..

/-- The state in which DECODE has staged the payload and walked the table. -/
def decodedState (fmt : Format) (p b : Nat) (s : State) : State :=
  walkFields .decode p b fmt.fields (stageIn fmt { s with diagCount := 0 })

theorem entry_decodeFrame (dev : Device) (j : Nat) (fmt : Format) (p sel : Nat) (s : State) (k : Nat) :
    (decodeFrame dev j fmt p sel s).entry k =
      (revise dev { decodedState fmt p (fmt.base + sel * fmt.stride) s with
        partsSeen := nextParts fmt p s.partsSeen }).entry k :=
  State.entry_congr rfl k

theorem result_decodeFrame (dev : Device) (j : Nat) (fmt : Format) (p sel : Nat) (s : State) :
    (decodeFrame dev j fmt p sel s).result = decodeResult fmt p s.partsSeen := rfl

theorem partsSeen_decodeFrame (dev : Device) (j : Nat) (fmt : Format) (p sel : Nat) (s : State) :
    (decodeFrame dev j fmt p sel s).partsSeen = nextParts fmt p s.partsSeen := by
  unfold decodeFrame
  dsimp only
  rw [revise_eq]
  rfl

/-! ### PARTS_SEEN (R268) -/

theorem partsWith_getLsbD (seen : BitVec 8) (p : Nat) {q : Nat} (hq : q < 8) :
    (partsWith seen p).getLsbD q = (seen.getLsbD q || decide (q = p)) := by
  have hbit : (1#8 <<< p).getLsbD q = decide (q = p) := by
    rw [BitVec.getLsbD_shiftLeft, BitVec.getLsbD_one, Bool.eq_iff_iff]
    simp only [Bool.and_eq_true, decide_eq_true_eq, Bool.not_eq_true', decide_eq_false_iff_not]
    omega
  rw [partsWith, BitVec.getLsbD_or, hbit]

theorem partsMask_getLsbD {m q : Nat} (hq : q < 8) : (partsMask m).getLsbD q = decide (q < m) := by
  rw [partsMask, BitVec.getLsbD_ofNat, Nat.testBit_two_pow_sub_one, decide_eq_true hq, Bool.true_and]

theorem patchComplete_iff {s : State} {fmt : Format} {p : Nat} :
    patchComplete s fmt p ↔ partsWith s.partsSeen p = partsMask fmt.parts := by
  have hbit {q : Nat} (hq : q < 8) : ((s.partsSeen.getLsbD q = true ∨ q = p) ↔ q < fmt.parts) ↔
      (partsWith s.partsSeen p).getLsbD q = (partsMask fmt.parts).getLsbD q := by
    rw [partsWith_getLsbD _ _ hq, partsMask_getLsbD hq]
    conv_rhs => rw [Bool.eq_iff_iff, Bool.or_eq_true, decide_eq_true_eq, decide_eq_true_eq]
  constructor
  · exact fun h => BitVec.eq_of_getLsbD_eq fun q hq => (hbit hq).mp (h q hq)
  · exact fun h q hq => (hbit hq).mpr (by rw [h])

/-- How a decode of part `p` ends, and what it leaves in PARTS_SEEN (R268, R269). -/
theorem decodeFrame_parts (dev : Device) (j : Nat) (fmt : Format) {p : Nat} (hp : p < 8) (sel : Nat) (s : State) :
    (fmt.parts = 1 → (decodeFrame dev j fmt p sel s).result = .success) ∧
      (1 < fmt.parts → patchComplete s fmt p →
        (decodeFrame dev j fmt p sel s).result = .success ∧ (decodeFrame dev j fmt p sel s).partsSeen = 0) ∧
      (1 < fmt.parts → ¬patchComplete s fmt p →
        (decodeFrame dev j fmt p sel s).result = .incomplete ∧
          (decodeFrame dev j fmt p sel s).partsSeen.getLsbD p = true) := by
  rw [result_decodeFrame, partsSeen_decodeFrame, patchComplete_iff]
  unfold decodeResult nextParts
  refine ⟨fun h => by simp [h], fun hm hc => by simp [hm, hc], fun hm hc => ?_⟩
  simp [hm, hc, partsWith_getLsbD _ _ hp]

/-! ### A frame that ENCODE built, in IBUF -/

section Copied

variable {P : Params} {fmt : Format} {p : Nat} {s u : State} (hl : FrameLayout P fmt)
  (hcopy : ∀ a, a < fmt.total → u.byteAt .ibuf a = (buildFrame fmt p s).byteAt .obuf a)
include hl hcopy

/-- The bytes that the format compares are header bytes, and the part byte is none of them. -/
theorem matchFormat_of_copy (hr : fmt.rl ≤ fmt.h) (hlen : u.inLen.toNat = fmt.total) : matchFormat fmt u = .none := by
  refine matchFormat_eq_none.mpr ⟨hlen, fun i hi => ?_⟩
  have hlt := lt_of_checksByte hr hl.version_lt hi
  have htotal := hl.total_eq
  rw [hcopy i (by omega), byteAt_obuf_header hl p s hlt, if_neg]
  rintro ⟨hm, rfl⟩
  obtain ⟨hrl, -, hver⟩ := hl.part_byte hm
  simp only [checksByte, Bool.or_eq_true, Bool.and_eq_true, decide_eq_true_eq, beq_iff_eq] at hi
  rcases hi with hi | ⟨hv, hi⟩
  · omega
  · exact hver hv hi

theorem checksumOk_of_copy : checksumOk fmt u = true := by
  cases hck : fmt.ck with
  | false => simp [checksumOk, hck]
  | true =>
    have htotal := hl.total_eq
    obtain ⟨hfrom, hle, hto⟩ := hl.sum_range hck
    simp only [hck, if_true] at htotal
    have hsum : rangeSum u .ibuf fmt.cks (fmt.cke - fmt.cks) =
        rangeSum (buildFrame fmt p s) .obuf fmt.cks (fmt.cke - fmt.cks) :=
      rangeSum_congr fun a _ hlt => hcopy a (by omega)
    rw [checksumOk, (ckValid_iff_toNat _ _).mpr (.inr ?_), Bool.or_true]
    rw [hcopy _ (by omega), byteAt_obuf_checksum hl p s hck, ckSum_readBytes_toNat, hsum]

theorem framePart_of_copy (hp : p < fmt.parts) : framePart fmt u = p := by
  have htotal := hl.total_eq
  have hparts := hl.parts_le
  unfold framePart
  split
  · rename_i hm
    obtain ⟨-, hpoff, -⟩ := hl.part_byte hm
    rw [hcopy _ (by omega), byteAt_obuf_header hl p s hpoff, if_pos ⟨hm, rfl⟩, BitVec.toNat_ofNat]
    omega
  · omega

/-- Staging the payload gives the data image back, in both modes (R124, R264). -/
theorem byteAt_stageIn_of_copy {a : Nat} (ha : a < fmt.dlen) :
    (stageIn fmt u).byteAt .dimg a = (imageState fmt p s).byteAt .dimg a := by
  have htotal := hl.total_eq
  have hpayload {i : Nat} (hi : i < payloadLen fmt) :
      u.byteAt .ibuf (fmt.h + i) = (payloadBytes fmt (imageState fmt p s)).getD i 0 := by
    rw [hcopy _ (by omega), byteAt_obuf_payload hl p s hi]
  have hwritten (bs : List Byte) (hlen : bs.length = fmt.dlen) :
      (u.writeBytes .dimg 0 bs).byteAt .dimg a = bs.getD a 0 := by
    rw [State.byteAt_writeBytes, if_pos ⟨rfl, Nat.zero_le a, by omega⟩, Nat.sub_zero]
  unfold stageIn
  rcases hl.mode_cases with hm | hm
  · have hlen : payloadLen fmt = fmt.dlen := by simp [payloadLen, hm]
    rw [if_pos hm, hwritten _ (State.readBytes_length ..), State.readBytes_getD, if_pos ha, hpayload (by omega),
      payloadBytes, if_pos hm, State.readBytes_getD, if_pos ha, Nat.zero_add]
  · have hne : fmt.mode ≠ 0 := by omega
    have hlen : payloadLen fmt = 2 * fmt.dlen := by simp [payloadLen, hm]
    obtain ⟨hhi, hlo⟩ := nibExpand_readBytes_getD (imageState fmt p s) .dimg 0 ha
    rw [if_neg hne, hwritten _ (by rw [nibCompress_length, State.readBytes_length]; omega),
      nibCompress_readBytes_getD u .ibuf fmt.h ha, Nat.add_assoc, hpayload (by omega), hpayload (by omega), payloadBytes,
      if_neg hne, hhi, hlo, Nat.zero_add]
    refine BitVec.eq_of_toNat_eq ?_
    rw [nibJoin_toNat, nibHi_toNat, nibLo_toNat]
    omega

end Copied

/-- DECODE accepts the frame that ENCODE built, as the format and the part that it was built for. -/
theorem exec_decode_of_copy {s u : State} {dev : Device} {fmt : Format} (hwf : configWf s.cfg = true)
    (hready : encodeReady s dev fmt) (hcur : u.curdev = s.curdev) (hcfg : u.cfg = s.cfg) (hlen : u.inLen.toNat = fmt.total)
    (hcopy : ∀ a, a < fmt.total →
      u.byteAt .ibuf a = (buildFrame fmt (partToEncode s fmt) s).byteAt .obuf a) :
    exec .decode u = .next (decodeFrame dev s.a0.toNat fmt (partToEncode s fmt) 0 u) := by
  obtain ⟨hdev, hfmt, hcheck, hrecs, hpart⟩ := hready
  have hl := frameLayout_of_formatLevelOk (checkFormat_eq_none.mp hcheck).1
  have hwfdev := deviceWf_of_mem hwf (mem_of_currentDevice hdev)
  have hbuf := bufSize_le_of_configWf hwf
  obtain ⟨hranges, -⟩ := checked_of_deviceWf hwfdev (List.mem_of_getElem? hfmt)
  simp only [formatRanges, Bool.and_eq_true, decide_eq_true_eq] at hranges
  refine exec_decode_of_pass (decodeChecks_of_match ((currentDevice_congr hcur hcfg).trans hdev) (fun g hg => ?_)
    (recognize_of_match hbuf hwfdev hfmt (matchFormat_of_copy hl hcopy hranges.1.2 hlen)) hfmt
    (frameChecks_of_single _ (checksumOk_of_copy hl hcopy) (framePart_of_copy hl hcopy hpart) hpart hrecs))
  rw [hcfg]
  exact (checked_of_deviceWf hwfdev hg).2

/-! ### The round trip -/

/-- A FieldSpec of the part shares no bit and no key with any other. -/
theorem separate_of_pairwise {pre post : List FieldWords} {w : FieldWords} {p b : Nat}
    (h : (pre ++ w :: post).Pairwise fun w x =>
      (∀ a n, ¬(wordsTouch p b w a n ∧ wordsTouch p b x a n)) ∧ ∀ k, ¬(wordsWrite p w k ∧ wordsWrite p x k)) :
    (∀ x ∈ pre ++ post, ∀ a n, wordsTouch p b w a n → ¬wordsTouch p b x a n) ∧
      ∀ x ∈ post, ∀ k, wordsWrite p w k → ¬wordsWrite p x k := by
  obtain ⟨-, hafter, hbefore⟩ := List.pairwise_append.mp h
  obtain ⟨hpost, -⟩ := List.pairwise_cons.mp hafter
  refine ⟨fun x hx a n hw hx' => ?_, fun x hx k hw hx' => (hpost x hx).2 k ⟨hw, hx'⟩⟩
  rcases List.mem_append.mp hx with hx | hx
  · exact (hbefore x hx w List.mem_cons_self).1 a n ⟨hx', hw⟩
  · exact (hpost x hx).1 a n ⟨hw, hx'⟩

/-- The bytes of a FieldSpec of the part, once DECODE has staged the frame, hold the value that it carries. -/
theorem fieldHolds_stageIn {s u : State} {dev : Device} {fmt : Format} {p : Nat} {pre post : List FieldWords}
    {w : FieldWords} {i : Instr} {f : FieldPlace} (hcheck : checkFormat s.cfg.params dev fmt = none)
    (hcopy : ∀ a, a < fmt.total → u.byteAt .ibuf a = (buildFrame fmt p s).byteAt .obuf a)
    (hfields : fmt.fields = pre ++ w :: post) (hdec : decodeField w = .ok i) (hf : i.place? = some f)
    (hp : f.part.toNat = p)
    (hsep : ∀ x ∈ pre ++ post, ∀ a n, wordsTouch p fmt.base w a n → ¬wordsTouch p fmt.base x a n) :
    fieldHolds s (stageIn fmt u) fmt.base i := by
  obtain ⟨hlevel, hviol, -⟩ := checkFormat_eq_none.mp hcheck
  have hfits := (field_of_checked (hviol w (by simp [hfields])) hdec hf).2
  have touch {x : FieldWords} (hx : x ∈ pre ++ post) {a n : Nat} (h : touchesBit i (placeOf fmt.base f) a n) :
      ¬wordsTouch p fmt.base x a n := hsep x hx a n ⟨i, f, hdec, hf, hp, h⟩
  refine fieldHolds_congr hf (fun a n h => ?_) (fieldHolds_imageState hcheck s hfields hdec hf hp
    (fun x hx a n h => touch (List.mem_append_right _ hx) h) fun _ x hx a n h => touch (List.mem_append_left _ hx) h)
  rw [byteAt_stageIn_of_copy (frameLayout_of_formatLevelOk hlevel) hcopy (lt_dlen_of_touchesBit hf hfits h)]

/-- What DECODE of the copied frame leaves in the model store, before the revise pass. -/
theorem decodedState_of_copy {s u : State} {dev : Device} {fmt : Format} {p : Nat}
    (hcheck : checkFormat s.cfg.params dev fmt = none) (hcfg : u.cfg = s.cfg) (hmodel : u.model = s.model)
    (hcopy : ∀ a, a < fmt.total → u.byteAt .ibuf a = (buildFrame fmt p s).byteAt .obuf a)
    (hlegal : ∀ w ∈ fmt.fields, ∀ i f, decodeField w = .ok i → i.place? = some f → f.part.toNat = p →
      carriesLegalValue s dev i)
    (hsep : fmt.fields.Pairwise fun w x =>
      (∀ a n, ¬(wordsTouch p fmt.base w a n ∧ wordsTouch p fmt.base x a n)) ∧
        ∀ k, ¬(wordsWrite p w k ∧ wordsWrite p x k)) :
    (∀ w ∈ fmt.fields, ∀ i f, decodeField w = .ok i → i.place? = some f → f.part.toNat = p →
      sameValues s (decodedState fmt p fmt.base u) i) ∧
      ∀ k, (∀ w ∈ fmt.fields, ¬wordsWrite p w k) → (decodedState fmt p fmt.base u).entry k = s.entry k := by
  refine ⟨fun w hw i f hdec hf hp => ?_, fun k hk => ?_⟩
  · obtain ⟨pre, post, hfields⟩ := List.append_of_mem hw
    obtain ⟨-, hviol, -⟩ := checkFormat_eq_none.mp hcheck
    obtain ⟨hbits, hkeys⟩ := separate_of_pairwise (hfields ▸ hsep)
    have hholds := fieldHolds_stageIn (u := { u with diagCount := 0 }) hcheck hcopy hfields hdec hf hp hbits
    rw [decodedState, hfields]
    refine sameValues_walkFields hdec hf hp ?_ hholds (hlegal w hw i f hdec hf hp) fun x hx k hk =>
      hkeys x hx k ⟨i, f, hdec, hf, hp, hk⟩
    have hstaged : (stageIn fmt { u with diagCount := 0 }).cfg = s.cfg := hcfg
    rw [hstaged]
    exact (field_of_checked (hviol w hw) hdec hf).1
  · rw [decodedState, walkFields_decode_entry hk]
    exact State.entry_congr hmodel k

theorem patchComplete_congr {s u : State} (h : u.partsSeen = s.partsSeen) (fmt : Format) (p : Nat) :
    patchComplete u fmt p ↔ patchComplete s fmt p := by
  rw [patchComplete_iff, patchComplete_iff, h]

/-- Settles O60: every check of DECODE passes on the frame, the bytes of each FieldSpec of the part hold its value again, and
its decode rule gives that value back. -/
theorem decodeInvertsEncode : Obligations.DecodeInvertsEncode := by
  intro s t u dev fmt hwf hready ht hcopied hlegal hsep
  obtain rfl := Host.Outcome.next.inj (ht.symm.trans (exec_encode_of_ready hready))
  obtain ⟨hu, hcopy⟩ := hcopied
  rw [buildFrame_succeed_eq] at hu
  have hmodel : u.model = s.model := by rw [hu]
  have hcfg : u.cfg = s.cfg := by rw [hu]
  have hcur : u.curdev = s.curdev := by rw [hu]
  have hseen : u.partsSeen = s.partsSeen := by rw [hu]
  have hin : u.inLen = BitVec.ofNat 32 fmt.total := by rw [hu]
  simp only [byteAt_succeed] at hcopy
  have hready' := hready
  obtain ⟨-, -, hcheck, -, hpart⟩ := hready'
  have hl := frameLayout_of_formatLevelOk (checkFormat_eq_none.mp hcheck).1
  have hlen : u.inLen.toNat = fmt.total := by
    have htotal := hl.total_le
    have hbuf := bufSize_le_of_configWf hwf
    rw [hin, BitVec.toNat_ofNat]
    omega
  obtain ⟨hsingle, hdone, hmore⟩ := decodeFrame_parts dev s.a0.toNat fmt (hpart.trans_le hl.parts_le) 0 u
  rw [patchComplete_congr hseen] at hdone hmore
  obtain ⟨hvalues, hkept⟩ := decodedState_of_copy hcheck hcfg hmodel hcopy hlegal hsep
  have hentry (k : Nat) := entry_decodeFrame dev s.a0.toNat fmt (partToEncode s fmt) 0 u k
  rw [Nat.zero_mul, Nat.add_zero] at hentry
  refine ⟨_, exec_decode_of_copy hwf hready hcur hcfg hlen hcopy, hsingle, hdone, hmore,
    fun w hw i f hdec hf hp => ?_, fun k hk => ?_⟩
  · rw [sameValues_congr fun k _ => hentry k]
    exact sameValues_revise (hlegal w hw i f hdec hf hp)
      ((sameValues_congr fun k _ => State.entry_congr rfl k).mp (hvalues w hw i f hdec hf hp))
  · have hrevised := revise_entryRevised dev { decodedState fmt (partToEncode s fmt) fmt.base u with
      partsSeen := nextParts fmt (partToEncode s fmt) u.partsSeen } k
    rw [hentry, ← hkept k hk]
    have hparams : (decodedState fmt (partToEncode s fmt) fmt.base u).cfg = s.cfg :=
      (walkFields_decode_frame ..).2.trans hcfg
    rw [← hparams]
    exact hrevised

end Sys2Proof.Proofs
end

section
/-! The configuration check (44_encoder.md R221) and the construction of a model (10_state.md R47): the conditions of R7 and
R41 to R46 as numbers, and the first violation that the check finds. -/

namespace Sys2Proof.Proofs

open Sys2Proof.Machine

/-! ### The four words of a FieldSpec as numbers (R86) -/

theorem fieldPlace_key_toNat (w : FieldWords) : (fieldPlace w).key.toNat = w.w0.toNat / 256 % 65536 := by
  simp [fieldPlace, FieldWords.key, BitVec.extractLsb'_toNat, Nat.shiftRight_eq_div_pow]

theorem fieldPlace_part_toNat (w : FieldWords) : (fieldPlace w).part.toNat = w.w0.toNat / 32 % 8 := by
  simp [fieldPlace, BitVec.extractLsb'_toNat, Nat.shiftRight_eq_div_pow]

theorem fieldPlace_off_toNat (w : FieldWords) : (fieldPlace w).off.toNat = w.w1.toNat % 65536 := by
  simp [fieldPlace, BitVec.extractLsb'_toNat]

theorem fieldPlace_scope (w : FieldWords) : (fieldPlace w).scope = true ↔ w.w0.toNat / 16 % 2 = 1 := by
  simp [fieldPlace, BitVec.getLsbD, Nat.testBit_eq_decide_div_mod_eq]

theorem fieldKey2_toNat (w : FieldWords) : (fieldKey2 w).toNat = w.w1.toNat / 65536 := by
  have := w.w1.isLt
  simp only [fieldKey2, BitVec.extractLsb'_toNat, Nat.shiftRight_eq_div_pow]
  omega

theorem key_eq_ofNat (w : FieldWords) : w.key = BitVec.ofNat 16 (w.w0.toNat / 256) := by
  refine BitVec.eq_of_toNat_eq ?_
  rw [show w.key = (fieldPlace w).key from rfl, fieldPlace_key_toNat, BitVec.toNat_ofNat]

/-- What the words of a FieldSpec decode to, by their KIND, where the reserved bits of W0 are 0 (R87). -/
inductive DecodesTo (w : FieldWords) : Instr → Prop
  | raw8 (hkind : w.w0.toNat % 16 = 0) (hparam : w.w2 = 0) (hkey2 : fieldKey2 w = 0) :
      DecodesTo w (.fspecRaw8 (fieldPlace w) w.w3)
  | nib8 (hkind : w.w0.toNat % 16 = 1) (hparam : w.w2 = 0) (hkey2 : fieldKey2 w = 0) :
      DecodesTo w (.fspecNib8 (fieldPlace w) w.w3)
  | bits (hkind : w.w0.toNat % 16 = 2) (hkey2 : fieldKey2 w = 0) : DecodesTo w (.fspecBits (fieldPlace w) w.w2 w.w3)
  | s14 (hkind : w.w0.toNat % 16 = 3) (hkey2 : fieldKey2 w = 0) : DecodesTo w (.fspecS14 (fieldPlace w) w.w2 w.w3)
  | vel (hkind : w.w0.toNat % 16 = 4) (hparam : w.w2 = 0) (henumw : w.w3 = 0) :
      DecodesTo w (.fspecVel (fieldPlace w) (fieldKey2 w))
  | name (hkind : w.w0.toNat % 16 = 5) (henumw : w.w3 = 0) (hkey2 : fieldKey2 w = 0) :
      DecodesTo w (.fspecName (fieldPlace w) w.w2)

theorem decodeField_eq_ok {w : FieldWords} {i : Instr} :
    decodeField w = .ok i ↔ w.w0.toNat < 2 ^ 24 ∧ DecodesTo w i := by
  have hreserved : w.w0.extractLsb' 24 8 = 0#8 ↔ w.w0.toNat < 2 ^ 24 := by
    have := w.w0.isLt
    rw [← BitVec.toNat_inj, BitVec.extractLsb'_toNat, Nat.shiftRight_eq_div_pow, BitVec.toNat_ofNat]
    omega
  have hkind : (w.w0.extractLsb' 0 4).toNat = w.w0.toNat % 16 := by simp [BitVec.extractLsb'_toNat]
  unfold decodeField
  rw [← hreserved, hkind]
  constructor
  · intro h
    split at h
    · cases h
    · rename_i hres
      refine ⟨not_not.mp hres, ?_⟩
      split at h <;>
        simp only [needParamZero_eq_ok, needKey2Zero_eq_ok, needEnumwZero_eq_ok, Except.ok.injEq, reduceCtorEq] at h <;>
        rename_i hk
      case h_1 =>
        obtain ⟨hparam, hkey2, rfl⟩ := h
        exact .raw8 hk hparam hkey2
      case h_2 =>
        obtain ⟨hparam, hkey2, rfl⟩ := h
        exact .nib8 hk hparam hkey2
      case h_3 =>
        obtain ⟨hkey2, rfl⟩ := h
        exact .bits hk hkey2
      case h_4 =>
        obtain ⟨hkey2, rfl⟩ := h
        exact .s14 hk hkey2
      case h_5 =>
        obtain ⟨hparam, henumw, rfl⟩ := h
        exact .vel hk hparam henumw
      case h_6 =>
        obtain ⟨henumw, hkey2, rfl⟩ := h
        exact .name hk henumw hkey2
  · rintro ⟨hres, h⟩
    rw [if_neg (not_not.mpr hres)]
    cases h <;> rename_i hk _ <;> simp_all [needParamZero_eq_ok, needKey2Zero_eq_ok, needEnumwZero_eq_ok]

theorem place_of_decodesTo {w : FieldWords} {i : Instr} (h : DecodesTo w i) : i.place? = some (fieldPlace w) := by
  cases h <;> rfl

/-! ### The conditions of R45 and FW7 to FW9 -/

theorem xf14Legal_iff (x : Word) : xf14Legal x = true ↔ x.toNat ≤ 1 := by
  have := x.isLt
  rw [xf14Legal, bitsAt_eq, beq_iff_eq]
  omega

theorem xfnameLegal_iff (P : Params) (x : Word) :
    xfnameLegal P x = true ↔ 1 ≤ x.toNat ∧ x.toNat ≤ 63 ∧ x.toNat ≤ P.textMax := by
  have := x.isLt
  rw [xfnameLegal, xfnameN_eq, bitsAt_eq]
  simp only [Bool.and_eq_true, beq_iff_eq, decide_eq_true_eq]
  omega

theorem geomSpan_eq (g : Word) : (geomOf g).span = if g.toNat / 128 % 2 = 1 then 2 else 1 := by
  rw [geomOf_eq]
  simp [Geom.span, geomNumbers]

/-- FW7 as numbers. -/
theorem fieldFits_iff (fmt : Format) (i : Instr) (w : FieldWords) :
    fieldFits fmt i (fieldPlace w) = true ↔
      if w.w0.toNat / 16 % 2 = 1 then w.w1.toNat % 65536 + fieldSpan i ≤ fmt.dlen
      else fmt.base + (fmt.recs - 1) * fmt.stride + w.w1.toNat % 65536 + fieldSpan i ≤ fmt.dlen ∧
        (1 < fmt.recs → w.w1.toNat % 65536 + fieldSpan i ≤ fmt.stride) := by
  unfold fieldFits
  rw [fieldPlace_off_toNat]
  by_cases hs : w.w0.toNat / 16 % 2 = 1
  · simp [hs, (fieldPlace_scope w).mpr hs]
  · have hfalse : (fieldPlace w).scope = false := by
      rw [Bool.eq_false_iff, ne_eq, fieldPlace_scope]
      exact hs
    rw [if_neg hs]
    simp only [hfalse, Bool.false_eq_true, if_false, Bool.and_eq_true, Bool.or_eq_true, decide_eq_true_eq]
    exact and_congr_right fun _ => by omega

/-- The word-level conditions say that the operands of the FieldSpec are legal and that its bytes and its PART fit. -/
theorem fieldConditions_iff_of_decodesTo {P : Params} {fmt : Format} {w : FieldWords} {i : Instr}
    (hres : w.w0.toNat < 2 ^ 24) (h : DecodesTo w i) :
    fieldConditions P fmt w ↔ fieldOperandsLegal P i = true ∧ fieldFits fmt i (fieldPlace w) = true ∧
      (fieldPlace w).part.toNat < fmt.parts := by
  have henum (e : Word) : enumwLegal e = true ↔ e.toNat = 0 ∨ e.toNat / 65536 < e.toNat % 65536 := by
    rw [enumwLegal_iff, ← BitVec.toNat_inj]
    rfl
  have hkey2_zero (hkey2 : fieldKey2 w = 0) : w.w1.toNat / 65536 = 0 := by
    rw [← fieldKey2_toNat, hkey2]
    rfl
  have hres : w.w0.toNat < 16777216 := hres
  rw [fieldFits_iff, fieldPlace_part_toNat]
  unfold fieldConditions
  cases h with
  | raw8 hk hparam hkey2 =>
    simp [hk, hres, hparam, hkey2_zero hkey2, fieldOperandsLegal, fieldSpan, fieldPlace_key_toNat, henum, and_assoc]
  | nib8 hk hparam hkey2 =>
    simp [hk, hres, hparam, hkey2_zero hkey2, fieldOperandsLegal, fieldSpan, fieldPlace_key_toNat, henum, and_assoc]
  | bits hk hkey2 =>
    simp [hk, hres, hkey2_zero hkey2, fieldOperandsLegal, fieldSpan, fieldPlace_key_toNat, henum, geomLegal_iff,
      geomSpan_eq, and_assoc]
  | s14 hk hkey2 =>
    simp [hk, hres, hkey2_zero hkey2, fieldOperandsLegal, fieldSpan, fieldPlace_key_toNat, henum, xf14Legal_iff,
      and_assoc]
  | vel hk hparam henumw =>
    simp [hk, hres, hparam, henumw, fieldOperandsLegal, fieldSpan, fieldPlace_key_toNat, fieldKey2_toNat, and_assoc]
  | name hk henumw hkey2 =>
    by_cases hn : w.w2.toNat ≤ 63
    · have hspan : xfnameN w.w2 = w.w2.toNat := by rw [xfnameN_eq, Nat.mod_eq_of_lt (by omega)]
      simp [hk, hres, henumw, hkey2_zero hkey2, fieldOperandsLegal, fieldSpan, fieldPlace_key_toNat, xfnameLegal_iff,
        hspan, and_assoc]
    · simp [hk, fieldOperandsLegal, xfnameLegal_iff, hn]

/-- Words that meet the conditions decode. -/
theorem decodesTo_of_fieldConditions {P : Params} {fmt : Format} {w : FieldWords} (h : fieldConditions P fmt w) :
    w.w0.toNat < 2 ^ 24 ∧ ∃ i, DecodesTo w i := by
  obtain ⟨hres, hkind, -, hkey2, hparam, henumw, -⟩ := h
  have hzero {v : Word} (hv : v.toNat = 0) : v = 0 := BitVec.eq_of_toNat_eq hv
  have hkey2_zero (hne : w.w0.toNat % 16 ≠ 4) : fieldKey2 w = 0 := by
    rw [if_neg hne] at hkey2
    exact BitVec.eq_of_toNat_eq ((fieldKey2_toNat w).trans hkey2)
  refine ⟨hres, ?_⟩
  obtain hk | hk | hk | hk | hk | hk : w.w0.toNat % 16 = 0 ∨ w.w0.toNat % 16 = 1 ∨ w.w0.toNat % 16 = 2 ∨
      w.w0.toNat % 16 = 3 ∨ w.w0.toNat % 16 = 4 ∨ w.w0.toNat % 16 = 5 := by omega
  · exact ⟨_, .raw8 hk (hzero (by simpa [hk] using hparam)) (hkey2_zero (by omega))⟩
  · exact ⟨_, .nib8 hk (hzero (by simpa [hk] using hparam)) (hkey2_zero (by omega))⟩
  · exact ⟨_, .bits hk (hkey2_zero (by omega))⟩
  · exact ⟨_, .s14 hk (hkey2_zero (by omega))⟩
  · exact ⟨_, .vel hk (hzero (by simpa [hk] using hparam)) (hzero (by simpa [hk] using henumw))⟩
  · exact ⟨_, .name hk (hzero (by simpa [hk] using henumw)) (hkey2_zero (by omega))⟩

/-- The word-level check of R221 is the word-level conditions. -/
theorem fieldWordsOk_iff {P : Params} {fmt : Format} {w : FieldWords} :
    fieldWordsOk P fmt w = true ↔ fieldConditions P fmt w := by
  constructor
  · intro h
    unfold fieldWordsOk at h
    cases hdec : decodeField w with
    | error e => simp [hdec] at h
    | ok i =>
      obtain ⟨hres, hto⟩ := decodeField_eq_ok.mp hdec
      simp only [hdec, place_of_decodesTo hto, Bool.and_eq_true, decide_eq_true_eq, and_assoc] at h
      exact (fieldConditions_iff_of_decodesTo hres hto).mpr h
  · intro h
    obtain ⟨hres, i, hto⟩ := decodesTo_of_fieldConditions h
    have hparts := (fieldConditions_iff_of_decodesTo hres hto).mp h
    simp only [fieldWordsOk, decodeField_eq_ok.mpr ⟨hres, hto⟩, place_of_decodesTo hto, Bool.and_eq_true,
      decide_eq_true_eq, and_assoc]
    exact hparts

/-- FW9 in terms of the kinds of the two keys. -/
theorem schemaFault_eq (dev : Device) (w : FieldWords) :
    schemaFault dev w =
      if w.w0.toNat % 16 = 5 then
        if isTextKey dev (fieldPlace w).key then none else some (w.w0.toNat / 256 % 65536)
      else if !isIntKey dev (fieldPlace w).key then some (w.w0.toNat / 256 % 65536)
      else if w.w0.toNat % 16 = 4 ∧ isIntKey dev (fieldKey2 w) = false then some (w.w1.toNat / 65536)
      else none := by
  unfold schemaFault isIntKey isTextKey
  rw [fieldPlace_key_toNat, fieldKey2_toNat]
  rcases hkey : schemaAt dev (w.w0.toNat / 256 % 65536) with _ | ⟨_, _, _⟩ | _ <;>
    rcases hkey2 : schemaAt dev (w.w1.toNat / 65536) with _ | ⟨_, _, _⟩ | _ <;> simp [hkey, hkey2]

/-- FW9: the violation that the check finds in the keys. -/
theorem schemaViolation_of_decodesTo {w : FieldWords} {i : Instr} (h : DecodesTo w i) (dev : Device) :
    schemaViolation dev i = (schemaFault dev w).map fun k => ⟨.schema, BitVec.ofNat 16 k⟩ := by
  have hkey : BitVec.ofNat 16 (w.w0.toNat / 256 % 65536) = (fieldPlace w).key := by
    rw [← fieldPlace_key_toNat, BitVec.ofNat_toNat, BitVec.setWidth_eq]
  have hkey2 : BitVec.ofNat 16 (w.w1.toNat / 65536) = fieldKey2 w := by
    rw [← fieldKey2_toNat, BitVec.ofNat_toNat, BitVec.setWidth_eq]
  rw [schemaFault_eq]
  cases h with
  | vel hk =>
    cases hint : isIntKey dev (fieldPlace w).key <;> cases hint2 : isIntKey dev (fieldKey2 w) <;>
      simp [schemaViolation, hk, hint, hint2, hkey, hkey2]
  | name hk => cases htext : isTextKey dev (fieldPlace w).key <;> simp [schemaViolation, hk, htext, hkey]
  | raw8 hk | nib8 hk | bits hk | s14 hk =>
    cases hint : isIntKey dev (fieldPlace w).key <;> simp [schemaViolation, hk, hint, hkey]

/-- The first violation of one FieldSpec (R221 step 2). -/
theorem fieldViolation_eq {P : Params} {dev : Device} {fmt : Format} {w : FieldWords} :
    (¬fieldConditions P fmt w →
        fieldViolation P dev fmt w = some ⟨.badField, BitVec.ofNat 16 (w.w0.toNat / 256)⟩) ∧
      (fieldConditions P fmt w →
        fieldViolation P dev fmt w = (schemaFault dev w).map fun k => ⟨.schema, BitVec.ofNat 16 k⟩) := by
  rw [← fieldWordsOk_iff, ← key_eq_ofNat]
  refine ⟨fun h => by rw [fieldViolation, if_neg h], fun h => ?_⟩
  obtain ⟨hres, i, hto⟩ := decodesTo_of_fieldConditions (fieldWordsOk_iff.mp h)
  rw [fieldViolation, if_pos h, decodeField_eq_ok.mpr ⟨hres, hto⟩]
  exact schemaViolation_of_decodesTo hto dev

theorem fieldViolation_eq_none_iff {P : Params} {dev : Device} {fmt : Format} {w : FieldWords} :
    fieldViolation P dev fmt w = none ↔ fieldConditions P fmt w ∧ schemaFault dev w = none := by
  obtain ⟨hbad, hgood⟩ := fieldViolation_eq (P := P) (dev := dev) (fmt := fmt) (w := w)
  by_cases h : fieldConditions P fmt w
  · simp [hgood h, h]
  · simp [hbad h, h]

/-! ### FW10 -/

/-- The DIMG bytes that a BITS FieldSpec targets in record `r`. -/
theorem bitsTargets_of_decodesTo {w : FieldWords} {i : Instr} (hres : w.w0.toNat < 2 ^ 24) (h : DecodesTo w i)
    (fmt : Format) (r : Nat) :
    bitsTargets fmt r w =
      if w.w0.toNat % 16 = 2 then
        some ((fieldPlace w).part,
          (List.range (geomOf w.w2).span).map (fun j => fieldBase (fmt.base + r * fmt.stride) (fieldPlace w) + j))
      else none := by
  rw [bitsTargets, decodeField_eq_ok.mpr ⟨hres, h⟩]
  cases h with
  | bits hk => simp [bitsParts, hk]
  | raw8 hk | nib8 hk | s14 hk | vel hk | name hk => simp [bitsParts, hk]

/-- The bytes that the segments of a BITS FieldSpec target in one record, as numbers. -/
theorem mem_targets_iff (w : FieldWords) (recBase b : Nat) :
    b ∈ (List.range (geomOf w.w2).span).map (fun j => fieldBase recBase (fieldPlace w) + j) ↔
      b = (if w.w0.toNat / 16 % 2 = 1 then 0 else recBase) + w.w1.toNat % 65536 ∨
        w.w2.toNat / 128 % 2 = 1 ∧ b = (if w.w0.toNat / 16 % 2 = 1 then 0 else recBase) + w.w1.toNat % 65536 + 1 := by
  have hplace : fieldBase recBase (fieldPlace w) =
      (if w.w0.toNat / 16 % 2 = 1 then 0 else recBase) + w.w1.toNat % 65536 := by
    rw [← placeOf_eq_fieldBase, placeOf, fieldPlace_off_toNat]
    simp only [fieldPlace_scope]
  rw [hplace, geomSpan_eq, List.mem_map]
  simp only [List.mem_range]
  constructor
  · rintro ⟨j, hj, rfl⟩
    split at hj <;> omega
  · rintro (rfl | ⟨htwo, rfl⟩)
    · exact ⟨0, by split <;> omega, rfl⟩
    · exact ⟨1, by rw [if_pos htwo]; omega, rfl⟩

theorem bitsHits_eq_bitsTargetsByte {P : Params} {fmt : Format} {w : FieldWords} (h : fieldConditions P fmt w)
    (p : BitVec 3) (b : Nat) : bitsHits fmt p b w = bitsTargetsByte fmt p.toNat b w := by
  obtain ⟨hres, i, hto⟩ := decodesTo_of_fieldConditions h
  rw [Bool.eq_iff_iff]
  simp only [bitsHits, bitsTargetsByte, List.any_eq_true, List.mem_range, bitsTargets_of_decodesTo hres hto]
  by_cases hk : w.w0.toNat % 16 = 2
  · simp only [hk, if_true, Bool.and_eq_true, beq_iff_eq, List.contains_iff_mem, mem_targets_iff, ← BitVec.toNat_inj,
      fieldPlace_part_toNat, decide_true, true_and, decide_eq_true_eq, List.any_eq_true, List.mem_range, Bool.or_eq_true]
    exact ⟨fun ⟨r, hr, hp, hb⟩ => ⟨hp, r, hr, hb⟩, fun ⟨hp, r, hr, hb⟩ => ⟨r, hr, hp, hb⟩⟩
  · simp [hk]

/-- A byte that no FieldSpec of the part targets has the count 0, so FW10 needs to count at the targets only. -/
theorem fw10_iff {P : Params} {fmt : Format} (h : ∀ w ∈ fmt.fields, fieldConditions P fmt w) :
    fw10 fmt = true ↔ targetsBounded fmt := by
  have hcount (p : BitVec 3) (b : Nat) :
      fmt.fields.countP (bitsHits fmt p b) = fmt.fields.countP (bitsTargetsByte fmt p.toNat b) :=
    List.countP_congr fun w hw => by rw [bitsHits_eq_bitsTargetsByte (h w hw)]
  have hfw10 : fw10 fmt = true ↔ ∀ w ∈ fmt.fields, ∀ r, r < fmt.recs → w.w0.toNat % 16 = 2 →
      ∀ b ∈ (List.range (geomOf w.w2).span).map (fun j => fieldBase (fmt.base + r * fmt.stride) (fieldPlace w) + j),
        fmt.fields.countP (bitsTargetsByte fmt (fieldPlace w).part.toNat b) ≤ 8 := by
    simp only [fw10, List.all_eq_true, List.mem_range]
    refine forall₄_congr fun w hw r hr => ?_
    obtain ⟨hres, i, hto⟩ := decodesTo_of_fieldConditions (h w hw)
    rw [bitsTargets_of_decodesTo hres hto]
    by_cases hk : w.w0.toNat % 16 = 2
    · simp only [hk, if_true, true_implies, List.all_eq_true, decide_eq_true_eq, hcount]
    · simp [hk]
  rw [hfw10]
  constructor
  · intro hall p b
    by_contra hmore
    obtain ⟨w, hw, htarget⟩ := List.countP_pos_iff.mp (show 0 < fmt.fields.countP (bitsTargetsByte fmt p b) by omega)
    simp only [bitsTargetsByte, Bool.and_eq_true, Bool.or_eq_true, decide_eq_true_eq, List.any_eq_true,
      List.mem_range] at htarget
    obtain ⟨⟨hk, rfl⟩, r, hr, hb⟩ := htarget
    have hle := hall w hw r hr hk b ((mem_targets_iff ..).mpr hb)
    rw [fieldPlace_part_toNat] at hle
    exact hmore hle
  · exact fun hall w _ r _ _ b _ => hall _ b

/-! ### The check in order (R221) -/

theorem checkFormat_of_violation {P : Params} {dev : Device} {fmt : Format} {pre post : List FieldWords} {w : FieldWords}
    {v : FaultRec} (hlevel : formatLevelOk P fmt = true) (hfields : fmt.fields = pre ++ w :: post)
    (hpre : ∀ x ∈ pre, fieldViolation P dev fmt x = none) (hv : fieldViolation P dev fmt w = some v) :
    checkFormat P dev fmt = some v := by
  have hfind : fmt.fields.findSome? (fieldViolation P dev fmt) = some v := by
    rw [hfields, List.findSome?_append, List.findSome?_eq_none_iff.mpr hpre, List.findSome?_cons, hv]
    rfl
  simp [checkFormat, checkFormatLevel, hlevel, hfind]

theorem checkFormat_of_fields {P : Params} {dev : Device} {fmt : Format} (hlevel : formatLevelOk P fmt = true)
    (hfields : ∀ w ∈ fmt.fields, fieldViolation P dev fmt w = none) :
    checkFormat P dev fmt = if fw10 fmt then none else some ⟨.badField, noKey⟩ := by
  simp [checkFormat, checkFormatLevel, hlevel, List.findSome?_eq_none_iff.mpr hfields]

theorem checkFormat_of_level {P : Params} (dev : Device) {fmt : Format} (h : ¬formatConditions P fmt) :
    checkFormat P dev fmt = some ⟨.badField, noKey⟩ := by
  rw [← formatLevelOk_iff] at h
  simp [checkFormat, checkFormatLevel, h]

/-- The format passes the check (R44, R45). -/
theorem checkFormat_eq_none_iff {P : Params} {dev : Device} {fmt : Format} :
    checkFormat P dev fmt = none ↔ formatConditions P fmt ∧
      (∀ w ∈ fmt.fields, fieldConditions P fmt w ∧ schemaFault dev w = none) ∧ targetsBounded fmt := by
  simp only [checkFormat_eq_none, formatLevelOk_iff, fieldViolation_eq_none_iff]
  refine and_congr_right fun _ => and_congr_right fun hfields => fw10_iff fun w hw => (hfields w hw).1

/-! ### Telling two formats apart (R46) -/

theorem frameMatches_iff {s : State} {f : Format} : frameMatches s f ↔ matchFormat f s = .none := by
  rw [matchFormat_eq_none]
  simp only [frameMatches, frameHasLength, frameHasPrefix, checksByte, Bool.or_eq_true, Bool.and_eq_true,
    decide_eq_true_eq, beq_iff_eq]
  refine and_congr_right fun _ => ⟨fun ⟨hpre, hver⟩ i hi => ?_, fun h => ⟨fun i hi _ => h i (.inl hi), fun hv =>
    h _ (.inr ⟨hv, rfl⟩)⟩⟩
  by_cases hv : f.ver = true ∧ i = f.voff
  · obtain ⟨hv, rfl⟩ := hv
    exact hver hv
  · exact hpre i (hi.resolve_right hv) hv

/-- Each of the three ways is a byte, or the length, that no frame has twice. -/
theorem toldApart_of_listedWays {f g : Format} (h : listedWays f g) : toldApart f g := by
  rintro s ⟨⟨hlf, hpf, hvf⟩, hlg, hpg, hvg⟩
  rcases h with hne | ⟨i, hf, hg, hnf, hng, hne⟩ | ⟨hf, hg, hoff, hne⟩
  · exact hne (hlf.symm.trans hlg)
  · exact hne ((hpf i hf hnf).symm.trans (hpg i hg hng))
  · refine hne ((hvf hf).symm.trans ?_)
    rw [hoff]
    exact hvg hg

/-! ### A well-formed configuration (R7, R41 to R47) -/

theorem paramsWf_iff {P : Params} : paramsWf P = true ↔ paramConditions P := by
  simp only [paramsWf, paramConditions, Bool.and_eq_true, decide_eq_true_eq, and_assoc]

theorem keysRise_iff (ks : List Nat) : keysRise ks = true ↔ ks.Pairwise (· < ·) := by
  rw [← List.isChain_iff_pairwise]
  induction ks using keysRise.induct with
  | case1 => simp [keysRise]
  | case2 => simp [keysRise]
  | case3 a b ks ih => rw [keysRise, Bool.and_eq_true, decide_eq_true_eq, ih, List.isChain_cons_cons]

theorem schemaWf_iff {P : Params} {sc : List (Nat × SchemaEntry)} : schemaWf P sc = true ↔ schemaConditions P sc := by
  rw [schemaWf, Bool.and_eq_true, keysRise_iff, List.pairwise_map, List.all_eq_true]
  refine and_congr_right fun _ => forall₂_congr fun c _ => ?_
  rw [Bool.and_eq_true, decide_eq_true_eq]
  refine and_congr_right fun _ => ?_
  obtain ⟨k, e⟩ := c
  cases e <;> simp [schemaEntryWf]

/-- The ranges that make telling two formats apart decidable on their headers. -/
theorem distinguishable_iff_toldApart {P : Params} (hP : P.bufSize ≤ 65536) {f g : Format} (hf : formatRanges f = true)
    (hg : formatRanges g = true) (hfc : formatConditions P f) (hgc : formatConditions P g) :
    distinguishable f g = true ↔ toldApart f g := by
  simp only [formatRanges, Bool.and_eq_true, decide_eq_true_eq] at hf hg
  have hlf := frameLayout_of_formatLevelOk (formatLevelOk_iff.mpr hfc)
  have hlg := frameLayout_of_formatLevelOk (formatLevelOk_iff.mpr hgc)
  have htotal := hlf.total_le
  rw [distinguishable_iff hf.1.2 hg.1.2 hlf.version_lt hlg.version_lt (by omega)]
  simp only [toldApart, frameMatches_iff]

theorem formatRanges_iff {fmt : Format} : formatRanges fmt = true ↔
    1 ≤ fmt.h ∧ fmt.h ≤ 32 ∧ 1 ≤ fmt.rl ∧ fmt.rl ≤ fmt.h ∧ fmt.nf ≤ 65535 := by
  simp only [formatRanges, Bool.and_eq_true, decide_eq_true_eq, and_assoc]

/-- One format, or two that are told apart (R41, R46). -/
theorem formatsDistinct_iff {P : Params} (hP : P.bufSize ≤ 65536) {fmts : List Format}
    (h : ∀ fmt ∈ fmts, formatRanges fmt = true ∧ formatConditions P fmt) :
    formatsDistinct fmts = true ↔ fmts.length = 1 ∨ ∃ f g, fmts = [f, g] ∧ toldApart f g := by
  match fmts with
  | [] => simp [formatsDistinct]
  | [f] => simp [formatsDistinct]
  | [f, g] =>
    obtain ⟨hrf, hcf⟩ := h f (by simp)
    obtain ⟨hrg, hcg⟩ := h g (by simp)
    rw [formatsDistinct, distinguishable_iff_toldApart hP hrf hrg hcf hcg]
    simp
  | f :: g :: e :: fmts => simp [formatsDistinct]

theorem deviceWf_iff {P : Params} (hP : P.bufSize ≤ 65536) {dev : Device} : deviceWf P dev = true ↔
    schemaConditions P dev.schema ∧
    (∀ fmt ∈ dev.fmts,
      (1 ≤ fmt.h ∧ fmt.h ≤ 32 ∧ 1 ≤ fmt.rl ∧ fmt.rl ≤ fmt.h ∧ fmt.nf ≤ 65535) ∧ formatConditions P fmt ∧
        (∀ w ∈ fmt.fields, fieldConditions P fmt w ∧ schemaFault dev w = none) ∧ targetsBounded fmt) ∧
    (dev.fmts.length = 1 ∨ ∃ f g, dev.fmts = [f, g] ∧ toldApart f g) := by
  simp only [deviceWf, Bool.and_eq_true, List.all_eq_true, schemaWf_iff, formatWf, Option.isNone_iff_eq_none,
    formatRanges_iff, checkFormat_eq_none_iff, and_assoc]
  refine and_congr_right fun _ => and_congr_right fun hfmts => formatsDistinct_iff hP fun fmt hfmt => ?_
  rw [formatRanges_iff]
  obtain ⟨hh, hh', hrl, hrl', hnf, hcond, -⟩ := hfmts fmt hfmt
  exact ⟨⟨hh, hh', hrl, hrl', hnf⟩, hcond⟩

theorem configWf_iff {c : Config} : configWf c = true ↔ configConditions c := by
  simp only [configWf, Bool.and_eq_true, decide_eq_true_eq, List.all_eq_true, paramsWf_iff, and_assoc]
  rw [configConditions, and_assoc]
  refine and_congr_right fun hP => and_congr_right fun _ => and_congr_right fun _ => forall₂_congr fun dev _ =>
    deviceWf_iff hP.1.2

/-- Settles O43: what `construct` asks for as conditions, the ways of R46, and the first violation by its place. -/
theorem configurationCheckOrder : Obligations.ConfigurationCheckOrder := by
  refine ⟨fun c => ⟨fun h => ?_, fun h => ?_⟩, fun f g => toldApart_of_listedWays,
    fun P dev fmt => ⟨checkFormat_of_level dev, fun hcond => ⟨fun pre w post hfields hpre => ?_, fun hall => ?_⟩⟩⟩
  · rw [construct, if_pos (configWf_iff.mpr h)]
  · rw [construct, if_neg fun hc => h (configWf_iff.mp hc)]
  · have hlevel := formatLevelOk_iff.mpr hcond
    obtain ⟨hbad, hgood⟩ := fieldViolation_eq (P := P) (dev := dev) (fmt := fmt) (w := w)
    have hclear (x : FieldWords) (hx : x ∈ pre) := fieldViolation_eq_none_iff.mpr (hpre x hx)
    refine ⟨fun h => checkFormat_of_violation hlevel hfields hclear (hbad h), fun k h hk => ?_⟩
    exact checkFormat_of_violation hlevel hfields hclear (by rw [hgood h, hk]; rfl)
  · rw [checkFormat_of_fields (formatLevelOk_iff.mpr hcond) fun w hw => fieldViolation_eq_none_iff.mpr (hall w hw),
      ← fw10_iff fun w hw => (hall w hw).1]
    exact ⟨fun h => if_pos h, fun h => if_neg h⟩

end Sys2Proof.Proofs
end

section
/-! RECOG and REVISE (45_decoder.md R260, R261, R270, R271): the format that the recognizer finds, for any frame and for one
that ENCODE built, and the clamp of the defined INT keys. -/

namespace Sys2Proof.Proofs

open Sys2Proof.Machine

/-! ### The recognizer (R260) -/

theorem recognize_of_firstMatch {s : State} {dev : Device} {j : Nat} {fmt : Format} (h : firstMatch s dev j fmt) :
    recognize dev s = some j := by
  obtain ⟨hget, hmatch, hbefore⟩ := h
  obtain ⟨hlt, rfl⟩ := List.getElem?_eq_some_iff.mp hget
  refine List.findIdx?_eq_some_iff_getElem.mpr ⟨hlt, beq_iff_eq.mpr (frameMatches_iff.mp hmatch), fun i hi hm => ?_⟩
  have hmem : dev.fmts[i]'(hi.trans hlt) ∈ dev.fmts.take j := List.mem_take_iff_getElem.mpr ⟨i, by omega, rfl⟩
  exact hbefore _ hmem (frameMatches_iff.mpr (eq_of_beq hm))

theorem firstMatch_of_recognize {s : State} {dev : Device} {j : Nat} (h : recognize dev s = some j) :
    ∃ fmt, firstMatch s dev j fmt := by
  obtain ⟨hlt, hmatch, hbefore⟩ := List.findIdx?_eq_some_iff_getElem.mp h
  refine ⟨_, List.getElem?_eq_getElem hlt, frameMatches_iff.mpr (eq_of_beq hmatch), fun g hg hm => ?_⟩
  obtain ⟨i, hi, rfl⟩ := List.mem_take_iff_getElem.mp hg
  exact hbefore i (by omega) (beq_iff_eq.mpr (frameMatches_iff.mp hm))

theorem recognize_eq_none_iff {s : State} {dev : Device} :
    recognize dev s = none ↔ ∀ g ∈ dev.fmts, ¬frameMatches s g := by
  simp only [recognize, List.findIdx?_eq_none_iff, frameMatches_iff, beq_eq_false_iff_ne, ne_eq]

/-! ### RECOG (R261) -/

/-- The commands that ask for the current device first raise NO_DEVICE without one. -/
theorem bind_currentDevice_of_none {α : Type} {s : State} (h : s.curdev = 0xFF) (rest : Device → Except FaultRec α) :
    (currentDevice s >>= rest) = .error noDevice := by
  rw [currentDevice_eq_error.mpr ⟨rfl, .inl h⟩, error_bind]

theorem exec_recog (s : State) : exec .recog s = conclude s (recogRule s) := rfl

theorem exec_recog_of_bad_format {s : State} {dev : Device} (hdev : currentDevice s = .ok dev)
    (h : ∃ g ∈ dev.fmts, formatLevelOk s.cfg.params g = false) :
    exec .recog s = .next (s.raiseFault ⟨.badField, noKey⟩) := by
  have hfind : dev.fmts.findSome? (checkFormatLevel s.cfg.params) = some ⟨.badField, noKey⟩ := by
    obtain ⟨g, hg, hbad⟩ := h
    cases hv : dev.fmts.findSome? (checkFormatLevel s.cfg.params) with
    | none =>
      have hclear := List.findSome?_eq_none_iff.mp hv g hg
      simp [checkFormatLevel, hbad] at hclear
    | some v =>
      obtain ⟨x, -, hx⟩ := List.exists_of_findSome?_eq_some hv
      unfold checkFormatLevel at hx
      split at hx <;> cases hx
      rfl
  rw [exec_recog, recogRule, hdev, ok_bind, hfind]
  rfl

theorem exec_recog_of_checked {s : State} {dev : Device} (hdev : currentDevice s = .ok dev)
    (h : ∀ g ∈ dev.fmts, formatLevelOk s.cfg.params g = true) :
    exec .recog s = .next { s with
      rval := if (recognize dev s).isSome then 1 else 0, shape := shapeWord (recognize dev s), result := .success
      failCause := .none } := by
  have hfind : dev.fmts.findSome? (checkFormatLevel s.cfg.params) = none :=
    List.findSome?_eq_none_iff.mpr fun g hg => if_pos (h g hg)
  rw [exec_recog, recogRule, hdev, ok_bind, hfind]
  rfl

/-- Settles O41: the check of every format, and then what the recognizer finds. -/
theorem recogReportsMatch : Obligations.RecogReportsMatch := by
  refine ⟨rfl, fun s => ⟨fun hcur => ?_, fun dev hdev => ⟨exec_recog_of_bad_format hdev, fun hcheck =>
    ⟨fun j fmt hfirst => ?_, fun hnone => ?_⟩⟩⟩⟩
  · rw [exec_recog, recogRule, bind_currentDevice_of_none hcur, conclude_error]
    rfl
  · rw [exec_recog_of_checked hdev hcheck, recognize_of_firstMatch hfirst]
    rfl
  · rw [exec_recog_of_checked hdev hcheck, recognize_eq_none_iff.mpr hnone]
    rfl

/-- The formats of a well-formed configuration pass the checks of RECOG. -/
theorem formatLevelOk_of_configWf {s : State} {dev : Device} (hwf : configWf s.cfg = true)
    (hdev : currentDevice s = .ok dev) {g : Format} (hg : g ∈ dev.fmts) : formatLevelOk s.cfg.params g = true :=
  (checkFormat_eq_none.mp (checked_of_deviceWf (deviceWf_of_mem hwf (mem_of_currentDevice hdev)) hg).2).1

/-- Settles O59: the frame that ENCODE built matches its own format, which no other format of the device does too. -/
theorem recognizerAcceptsEncoded : Obligations.RecognizerAcceptsEncoded := by
  refine ⟨fun s t u dev fmt hwf hready ht hcopied => ?_, fun s dev hwf hdev hnone => ?_⟩
  · obtain rfl := Host.Outcome.next.inj (ht.symm.trans (exec_encode_of_ready hready))
    obtain ⟨hdev, hfmt, -⟩ := hready
    obtain ⟨hu, hcopy⟩ := hcopied
    rw [buildFrame_succeed_eq] at hu
    have hcfg : u.cfg = s.cfg := by rw [hu]
    have hin : u.inLen = BitVec.ofNat 32 fmt.total := by rw [hu]
    have hdev' : currentDevice u = .ok dev := (currentDevice_congr (by rw [hu]) hcfg).trans hdev
    have hwfdev := deviceWf_of_mem hwf (mem_of_currentDevice hdev)
    have hbuf := bufSize_le_of_configWf hwf
    have hmem := List.mem_of_getElem? hfmt
    have hl := frameLayout_of_formatLevelOk (formatLevelOk_of_configWf hwf hdev hmem)
    obtain ⟨-, -, -, hrl, -⟩ := formatRanges_iff.mp (checked_of_deviceWf hwfdev hmem).1
    have hlen : u.inLen.toNat = fmt.total := by
      have htotal := hl.total_le
      rw [hin, BitVec.toNat_ofNat]
      omega
    simp only [byteAt_succeed] at hcopy
    have hfound := recognize_of_match hbuf hwfdev hfmt (matchFormat_of_copy hl hcopy hrl hlen)
    refine ⟨_, exec_recog_of_checked hdev' fun g hg => ?_, ?_, ?_⟩
    · exact formatLevelOk_of_configWf (hcfg ▸ hwf) hdev' hg
    · rw [hfound]
      rfl
    · rw [hfound]
      show BitVec.ofNat 32 s.a0.toNat = s.a0
      rw [BitVec.ofNat_toNat, BitVec.setWidth_eq]
  · refine ⟨_, exec_recog_of_checked hdev fun g => formatLevelOk_of_configWf hwf hdev, ?_⟩
    rw [recognize_eq_none_iff.mpr hnone]
    rfl

/-! ### REVISE (R270) -/

theorem exec_revise (s : State) : exec .revise s = conclude s (reviseRule s) := rfl

theorem exec_revise_of_device {s : State} {dev : Device} (hdev : currentDevice s = .ok dev) :
    exec .revise s = .next (revise dev s).succeed := by
  rw [exec_revise, reviseRule, hdev, ok_bind]
  exact conclude_ok ..

/-- Settles O42: the revise pass over the model store, which is all that REVISE does. -/
theorem reviseClampsIntKeys : Obligations.ReviseClampsIntKeys := by
  refine ⟨rfl, fun s => ⟨fun hcur => ?_, fun dev hdev => ⟨_, exec_revise_of_device hdev, ?_, fun k => ?_⟩⟩⟩
  · rw [exec_revise, reviseRule, bind_currentDevice_of_none hcur, conclude_error]
    rfl
  · exact congrArg State.succeed (revise_eq dev s)
  · exact revise_entryRevised dev s k

end Sys2Proof.Proofs
end

section
/-! The checks of DECODE (45_decoder.md R260, R262, R263, R267, R269) and how each ends the command; what DECODE stages and
records once they all pass (R264, R268); what a DECODE that does not decode leaves unchanged (R272, R273). -/

namespace Sys2Proof.Proofs

open Sys2Proof.Machine

/-! ### Why a format does not match (R260) -/

theorem headerMatches_iff {s : State} {fmt : Format} : headerMatches fmt s = true ↔ frameHasPrefix s fmt := by
  simp only [headerMatches, frameHasPrefix, List.all_eq_true, List.mem_range, Bool.or_eq_true, Bool.and_eq_true,
    beq_iff_eq, or_iff_not_imp_left]

theorem matchFormat_of_other_length {s : State} {fmt : Format} (h : ¬frameHasLength s fmt) :
    matchFormat fmt s = .length := if_pos h

theorem matchFormat_of_length {s : State} {fmt : Format} (hlen : frameHasLength s fmt) :
    matchFormat fmt s =
      if !headerMatches fmt s then .header else if !versionMatches fmt s then .version else .none :=
  if_neg (not_not.mpr hlen)

theorem matchFormat_of_other_prefix {s : State} {fmt : Format} (hlen : frameHasLength s fmt)
    (h : ¬frameHasPrefix s fmt) : matchFormat fmt s = .header := by
  rw [← headerMatches_iff, Bool.not_eq_true] at h
  rw [matchFormat_of_length hlen, h]
  rfl

/-- With the length and the checked header bytes, only the version byte is left to differ. -/
theorem matchFormat_of_other_version {s : State} {fmt : Format} (hlen : frameHasLength s fmt)
    (hpre : frameHasPrefix s fmt) (h : ¬frameMatches s fmt) : matchFormat fmt s = .version := by
  rw [frameMatches_iff, matchFormat_of_length hlen, headerMatches_iff.mpr hpre] at h
  rw [matchFormat_of_length hlen, headerMatches_iff.mpr hpre]
  cases hv : versionMatches fmt s with
  | false => rfl
  | true => simp [hv] at h

theorem failCauseOf_of_other_lengths {s : State} {dev : Device} (h : ∀ g ∈ dev.fmts, ¬frameHasLength s g) :
    failCauseOf dev s = .length := by
  have hfind : (dev.fmts.map fun fmt => matchFormat fmt s).find? (fun c => c != .length) = none := by
    refine List.find?_eq_none.mpr fun c hc => ?_
    obtain ⟨g, hg, rfl⟩ := List.mem_map.mp hc
    simp [matchFormat_of_other_length (h g hg)]
  rw [failCauseOf, hfind]
  rfl

/-- The cause is the one of the first format that has the length of the frame. -/
theorem failCauseOf_of_first_length {s : State} {dev : Device} {pre post : List Format} {g : Format}
    (hfmts : dev.fmts = pre ++ g :: post) (hpre : ∀ x ∈ pre, ¬frameHasLength s x) (hg : matchFormat g s ≠ .length) :
    failCauseOf dev s = matchFormat g s := by
  have hskip : (pre.map fun fmt => matchFormat fmt s).find? (fun c => c != .length) = none := by
    refine List.find?_eq_none.mpr fun c hc => ?_
    obtain ⟨x, hx, rfl⟩ := List.mem_map.mp hc
    simp [matchFormat_of_other_length (hpre x hx)]
  simp [failCauseOf, hfmts, List.find?_append, hskip, hg]

/-! ### The checks in order (R262, R263) -/

theorem decodeChecks_of_no_match {s : State} {dev : Device} (hready : decodeReady s dev)
    (hnone : ∀ g ∈ dev.fmts, ¬frameMatches s g) :
    decodeChecks s = .ok (dev, .failed (failCauseOf dev s) 0xFFFFFFFF) := by
  obtain ⟨hdev, hcheck⟩ := hready
  rw [decodeChecks, hdev, ok_bind, List.findSome?_eq_none_iff.mpr hcheck, noViolation, ok_bind,
    recognize_eq_none_iff.mpr hnone]
  rfl

theorem decodeChecks_of_firstMatch {s : State} {dev : Device} {j : Nat} {fmt : Format} (hready : decodeReady s dev)
    (hfirst : firstMatch s dev j fmt) : decodeChecks s = frameChecks j fmt s >>= fun c => pure (dev, c) := by
  obtain ⟨hdev, hcheck⟩ := hready
  rw [decodeChecks, hdev, ok_bind, List.findSome?_eq_none_iff.mpr hcheck, noViolation, ok_bind,
    recognize_of_firstMatch hfirst]
  simp only [hfirst.1]

theorem exec_decode_of_error {s : State} {f : FaultRec} (h : decodeChecks s = .error f) :
    exec .decode s = .next (s.raiseFault f) := by
  rw [exec_decode, decodeRule, h, error_bind, conclude_error]

theorem exec_decode_of_failed {s : State} {dev : Device} {cause : FailCause} {shape : Word}
    (h : decodeChecks s = .ok (dev, .failed cause shape)) :
    exec .decode s = .next { s with shape := shape, result := .failed, failCause := cause } := by
  rw [exec_decode, decodeRule, h, ok_bind]
  exact conclude_ok ..

theorem exec_decode_of_cancelled {s : State} {dev : Device} {shape : Word}
    (h : decodeChecks s = .ok (dev, .cancelled shape)) :
    exec .decode s = .next { s with shape := shape, result := .cancelled, failCause := .none } := by
  rw [exec_decode, decodeRule, h, ok_bind]
  exact conclude_ok ..

theorem checksumOk_iff {s : State} {fmt : Format} : checksumOk fmt s = true ↔ checksumAccepts s fmt := by
  cases hck : fmt.ck <;>
    simp only [checksumOk, checksumAccepts, hck, Bool.or_eq_true, ckValid_iff_toNat, ckSum_readBytes_toNat, Bool.not_true,
      Bool.not_false, Bool.false_eq_true, false_or, true_or, false_implies, true_implies]

section Frame

variable {s : State} {fmt : Format} (j : Nat)

theorem frameChecks_of_bad_checksum (h : ¬checksumAccepts s fmt) :
    frameChecks j fmt s = .ok (.failed .checksum (BitVec.ofNat 32 j)) := by
  rw [← checksumOk_iff, Bool.not_eq_true] at h
  rw [frameChecks, h]
  rfl

/-- The checks that follow once the checksum holds. -/
theorem frameChecks_of_checksum (h : checksumAccepts s fmt) :
    frameChecks j fmt s =
      if fmt.parts ≤ partInFrame s fmt then .ok (.failed .part (BitVec.ofNat 32 j))
      else if fmt.recs = 1 then .ok (.pass j fmt (partInFrame s fmt) 0)
      else if s.a0 = 0xFFFFFFFF then .ok (.cancelled (BitVec.ofNat 32 j))
      else if fmt.recs ≤ s.a0.toNat then .error badArg
      else .ok (.pass j fmt (partInFrame s fmt) s.a0.toNat) := by
  rw [frameChecks, checksumOk_iff.mpr h]
  rfl

/-- The checks on a matched frame pass for one part and one selection. -/
theorem frameChecks_eq_pass {j' p sel : Nat} {g : Format} :
    frameChecks j fmt s = .ok (.pass j' g p sel) ↔
      j' = j ∧ g = fmt ∧ checksumAccepts s fmt ∧ p = partInFrame s fmt ∧ p < fmt.parts ∧ (fmt.recs = 1 → sel = 0) ∧
        (fmt.recs ≠ 1 → s.a0 ≠ 0xFFFFFFFF ∧ sel = s.a0.toNat ∧ sel < fmt.recs) := by
  by_cases hck : checksumAccepts s fmt
  · rw [frameChecks_of_checksum j hck]
    split_ifs with hpart hrecs ha0 hsel
    · simp only [Except.ok.injEq, reduceCtorEq, false_iff, not_and]
      rintro - - - rfl hlt
      omega
    · simp only [Except.ok.injEq, DecodeCheck.pass.injEq, hck, hrecs, ne_eq, not_true_eq_false, false_implies, and_true,
        true_and, true_implies]
      constructor
      · rintro ⟨rfl, rfl, rfl, rfl⟩
        exact ⟨rfl, rfl, rfl, by omega, rfl⟩
      · rintro ⟨rfl, rfl, rfl, -, rfl⟩
        exact ⟨rfl, rfl, rfl, rfl⟩
    · simp [hrecs, ha0]
    · simp only [false_iff, not_and]
      rintro - - - - - - hbank
      obtain ⟨-, rfl, hlt⟩ := hbank hrecs
      omega
    · simp only [Except.ok.injEq, DecodeCheck.pass.injEq, hck, hrecs, ha0, ne_eq, not_false_eq_true, true_and,
        true_implies, false_implies]
      constructor
      · rintro ⟨rfl, rfl, rfl, rfl⟩
        exact ⟨rfl, rfl, rfl, by omega, rfl, by omega⟩
      · rintro ⟨rfl, rfl, rfl, -, rfl, -⟩
        exact ⟨rfl, rfl, rfl, rfl⟩
  · simp [frameChecks_of_bad_checksum j hck, hck]

/-- Only a selection out of range raises a fault. -/
theorem frameChecks_ok_of_selection (h : fmt.recs = 1 ∨ s.a0 = 0xFFFFFFFF ∨ s.a0.toNat < fmt.recs) :
    ∃ c, frameChecks j fmt s = .ok c := by
  by_cases hck : checksumAccepts s fmt
  · rw [frameChecks_of_checksum j hck]
    split_ifs with hpart hrecs ha0 hsel
    · exact ⟨_, rfl⟩
    · exact ⟨_, rfl⟩
    · exact ⟨_, rfl⟩
    · exact absurd ((h.resolve_left hrecs).resolve_left ha0) (not_lt.mpr hsel)
    · exact ⟨_, rfl⟩
  · exact ⟨_, frameChecks_of_bad_checksum j hck⟩

end Frame

theorem decodeChecks_of_violation {s : State} {dev : Device} {pre post : List Format} {g : Format} {f : FaultRec}
    (hdev : currentDevice s = .ok dev) (hfmts : dev.fmts = pre ++ g :: post)
    (hpre : ∀ x ∈ pre, checkFormat s.cfg.params dev x = none) (hg : checkFormat s.cfg.params dev g = some f) :
    decodeChecks s = .error f := by
  have hfind : dev.fmts.findSome? (checkFormat s.cfg.params dev) = some f := by
    rw [hfmts, List.findSome?_append, List.findSome?_eq_none_iff.mpr hpre, List.findSome?_cons, hg]
    rfl
  rw [decodeChecks, hdev, ok_bind, hfind]
  rfl

/-- Settles O51: the configuration check, the recognizer and the checks on the matched frame, each with its own ending. -/
theorem decodeChecksInOrder : Obligations.DecodeChecksInOrder := by
  refine fun s dev hdev => ⟨fun pre g post f hfmts hpre hg =>
    exec_decode_of_error (decodeChecks_of_violation hdev hfmts hpre hg), fun hcheck => ?_⟩
  have hready : decodeReady s dev := ⟨hdev, hcheck⟩
  have hnone (hno : ∀ g ∈ dev.fmts, ¬frameMatches s g) := exec_decode_of_failed (decodeChecks_of_no_match hready hno)
  refine ⟨fun hlen => ?_, fun pre g post hfmts hpre hlen hno => ⟨fun hprefix => ?_, fun hprefix => ?_⟩,
    fun j fmt hfirst => ?_⟩
  · rw [hnone fun g hg hm => hlen g hg hm.1, failCauseOf_of_other_lengths hlen]
  · have hcause := matchFormat_of_other_prefix hlen hprefix
    rw [hnone hno, failCauseOf_of_first_length hfmts hpre (by rw [hcause]; exact FailCause.noConfusion), hcause]
  · have hcause := matchFormat_of_other_version hlen hprefix (hno g (by simp [hfmts]))
    rw [hnone hno, failCauseOf_of_first_length hfmts hpre (by rw [hcause]; exact FailCause.noConfusion), hcause]
  · have hchecks := decodeChecks_of_firstMatch hready hfirst
    refine ⟨fun hck => exec_decode_of_failed (dev := dev) ?_, fun hck => ?_⟩
    · rw [hchecks, frameChecks_of_bad_checksum j hck]
      rfl
    rw [frameChecks_of_checksum j hck] at hchecks
    refine ⟨fun hpart => exec_decode_of_failed (dev := dev) ?_, fun hpart hrecs => ⟨fun ha0 => ?_, fun ha0 hsel => ?_⟩⟩
    · rw [hchecks, if_pos hpart]
      rfl
    · refine exec_decode_of_cancelled (dev := dev) ?_
      rw [hchecks, if_neg (not_le.mpr hpart), if_neg hrecs, if_pos ha0]
      rfl
    · refine exec_decode_of_error ?_
      rw [hchecks, if_neg (not_le.mpr hpart), if_neg hrecs, if_neg ha0, if_pos hsel]
      rfl

/-! ### A DECODE that decodes (R262) -/

/-- The checks of DECODE pass exactly where the statements say that it accepts the frame. -/
theorem decodeChecks_eq_pass {s : State} {dev : Device} {j : Nat} {fmt : Format} {p sel : Nat} :
    decodeChecks s = .ok (dev, .pass j fmt p sel) ↔ decodeAccepts s dev j fmt p sel := by
  constructor
  · intro h
    have hends := decodeChecks_ends s
    rw [h] at hends
    obtain ⟨hdev, hcheck, hj, -⟩ := hends
    obtain ⟨g, hfirst⟩ := firstMatch_of_recognize hj
    rw [decodeChecks_of_firstMatch ⟨hdev, hcheck⟩ hfirst, bind_eq_ok] at h
    obtain ⟨c, hc, heq⟩ := h
    obtain ⟨-, rfl⟩ := Prod.mk.inj (Except.ok.inj heq)
    obtain ⟨-, rfl, hpass⟩ := (frameChecks_eq_pass j).mp hc
    exact ⟨⟨hdev, hcheck⟩, hfirst, hpass⟩
  · rintro ⟨hready, hfirst, hpass⟩
    rw [decodeChecks_of_firstMatch hready hfirst, (frameChecks_eq_pass j).mpr ⟨rfl, rfl, hpass⟩]
    rfl

theorem exec_decode_of_accepts {s : State} {dev : Device} {j : Nat} {fmt : Format} {p sel : Nat}
    (h : decodeAccepts s dev j fmt p sel) : exec .decode s = .next (decodeFrame dev j fmt p sel s) :=
  exec_decode_of_pass (decodeChecks_eq_pass.mpr h)

/-- The data image that DECODE stages (R264, R124). -/
def stagedBytes (fmt : Format) (s : State) : List Byte :=
  if fmt.mode = 0 then s.readBytes .ibuf fmt.h fmt.dlen else nibCompress (s.readBytes .ibuf fmt.h (2 * fmt.dlen))

theorem stageIn_eq (fmt : Format) (s : State) : stageIn fmt s = s.writeBytes .dimg 0 (stagedBytes fmt s) := rfl

theorem stagedBytes_length (fmt : Format) (s : State) : (stagedBytes fmt s).length = fmt.dlen := by
  unfold stagedBytes
  split
  · exact State.readBytes_length ..
  · rw [nibCompress_length, State.readBytes_length, Nat.mul_div_cancel_left _ Nat.two_pos]

theorem byteAt_dimg_stageIn (fmt : Format) (s : State) (a : Nat) :
    (stageIn fmt s).byteAt .dimg a = if a < fmt.dlen then (stagedBytes fmt s).getD a 0 else s.byteAt .dimg a := by
  simp [stageIn_eq, State.byteAt_writeBytes, stagedBytes_length]

/-- After the staging DECODE writes no byte of DIMG. -/
theorem dimg_decodeFrame (dev : Device) (j : Nat) (fmt : Format) (p sel : Nat) (s : State) :
    (decodeFrame dev j fmt p sel s).dimg = (stageIn fmt { s with diagCount := 0 }).dimg := by
  unfold decodeFrame
  dsimp only
  rw [revise_eq, walkFields_decode_eq]
  rfl

theorem byteAt_dimg_decodeFrame (dev : Device) (j : Nat) (fmt : Format) (p sel : Nat) (s : State) (a : Nat) :
    (decodeFrame dev j fmt p sel s).byteAt .dimg a =
      if a < fmt.dlen then (stagedBytes fmt s).getD a 0 else s.byteAt .dimg a := by
  calc (decodeFrame dev j fmt p sel s).byteAt .dimg a
      = (stageIn fmt { s with diagCount := 0 }).byteAt .dimg a := congrArg (fun m => Memory.read m a) (dimg_decodeFrame ..)
    _ = _ := byteAt_dimg_stageIn ..

/-- Settles O52: the staged image byte by byte, PARTS_SEEN bit by bit, and the frame of the whole command. -/
theorem decodeLoadsFrame : Obligations.DecodeLoadsFrame := by
  intro s dev j fmt p sel haccepts
  refine ⟨_, exec_decode_of_accepts haccepts, decodeFrame_eq .., fun hmode a ha => ?_, fun hmode a ha => ?_,
    fun a ha => ?_, ?_⟩
  · rw [byteAt_dimg_decodeFrame, if_pos ha, stagedBytes, if_pos hmode, State.readBytes_getD, if_pos ha]
  · rw [byteAt_dimg_decodeFrame, if_pos ha, stagedBytes, if_neg (by omega), nibCompress_readBytes_getD _ _ _ ha,
      nibJoin_toNat]
  · rw [byteAt_dimg_decodeFrame, if_neg (not_lt.mpr ha)]
  · rw [result_decodeFrame, partsSeen_decodeFrame, patchComplete_iff]
    unfold decodeResult nextParts
    refine ⟨fun hm => ?_, fun hm hdone => by simp [hm, hdone], fun hm hmore => ?_⟩
    · simp [show ¬1 < fmt.parts by omega]
    · refine ⟨by simp [hm, hmore], fun q hq => ?_⟩
      simp [hm, hmore, partsWith_getLsbD _ _ hq]

/-! ### A DECODE that does not decode (R273) -/

/-- What DECODE does when it does not fault: it ends FAILED or CANCELLED with no more than SHAPE written, or decodes. -/
theorem CommandEffect.decode_cases {s t : State} (h : CommandEffect s .decode t) :
    (∃ shape r c, (r = .failed ∨ r = .cancelled) ∧ t = { s with shape := shape, result := r, failCause := c }) ∨
      ∃ dev j fmt p sel, currentDevice s = .ok dev ∧ t = decodeFrame dev j fmt p sel s := by
  cases h with
  | noDecode dev hd r c hr => exact .inl ⟨_, r, c, hr.imp And.left And.left, rfl⟩
  | decoded dev hd j hj fmt hf p sel => exact .inr ⟨dev, j, fmt, p, sel, hd, rfl⟩
  | bytes hi => simp at hi
  | value hi => simp at hi
  | values hi => simp at hi

theorem result_decodeFrame_cases (dev : Device) (j : Nat) (fmt : Format) (p sel : Nat) (s : State) :
    (decodeFrame dev j fmt p sel s).result = .success ∨ (decodeFrame dev j fmt p sel s).result = .incomplete :=
  decodeResult_cases ..

/-- Settles O56: a DECODE that decodes ends SUCCESS or INCOMPLETE, and any other writes no more than its ending. -/
theorem decodeFailureChangesNothing : Obligations.DecodeFailureChangesNothing := by
  intro s t ht hresult
  rcases exec_command_cases (i := .decode) rfl ht with heffect | ⟨f, -, rfl⟩
  · rcases heffect.decode_cases with ⟨shape, r, c, -, rfl⟩ | ⟨dev, j, fmt, p, sel, -, rfl⟩
    · rfl
    · rcases result_decodeFrame_cases dev j fmt p sel s with h | h <;> simp [h] at hresult
  · rfl

/-! ### Keys in range, and no fault from the frame (R272) -/

/-- DECODE leaves every key as the walk of the table left it, but for the clamp. -/
theorem entryRevised_decodeFrame (dev : Device) (j : Nat) (fmt : Format) (p sel : Nat) (s : State) (k : Nat) :
    entryRevised s.cfg.params dev k ((decodedState fmt p (fmt.base + sel * fmt.stride) s).entry k)
      ((decodeFrame dev j fmt p sel s).entry k) := by
  have hcfg : (decodedState fmt p (fmt.base + sel * fmt.stride) s).cfg = s.cfg := (walkFields_decode_frame ..).2
  rw [entry_decodeFrame, ← hcfg]
  exact revise_entryRevised dev { decodedState fmt p (fmt.base + sel * fmt.stride) s with
    partsSeen := nextParts fmt p s.partsSeen } k

/-- A revised INT key holds its value clamped to its range. -/
theorem val_toInt_of_entryRevised {P : Params} {dev : Device} {k : Nat} {e e' : Entry} (h : entryRevised P dev k e e')
    (hk : k < P.nkeys) {lo hi d : Word} (hs : schemaAt dev k = some (.int lo hi d)) (hle : lo.toInt ≤ hi.toInt) :
    e'.val.toInt = max lo.toInt (min e.val.toInt hi.toInt) := by
  rw [entryRevised, if_pos hk, hs] at h
  exact h.2 hle

/-- Where the checks of DECODE raise no fault, the command ends in one of its effects. -/
theorem exec_decode_effect_of_ok {s : State} {r : Device × DecodeCheck} (h : decodeChecks s = .ok r) :
    ∃ t, exec .decode s = .next t ∧ CommandEffect s .decode t := by
  have hrule : ∃ t, decodeRule s = .ok t := by
    obtain ⟨dev, c⟩ := r
    rw [decodeRule, h, ok_bind]
    cases c <;> exact ⟨_, rfl⟩
  obtain ⟨t, ht⟩ := hrule
  have hends := decodeRule_ends s
  rw [ht] at hends
  exact ⟨t, by rw [exec_decode, ht, conclude_ok], hends⟩

theorem decodeChecks_ok_of_selection {s : State} {dev : Device} (hready : decodeReady s dev)
    (hsel : ∀ g ∈ dev.fmts, g.recs = 1 ∨ s.a0 = 0xFFFFFFFF ∨ s.a0.toNat < g.recs) :
    ∃ c, decodeChecks s = .ok (dev, c) := by
  cases hj : recognize dev s with
  | none => exact ⟨_, decodeChecks_of_no_match hready (recognize_eq_none_iff.mp hj)⟩
  | some j =>
    obtain ⟨fmt, hfirst⟩ := firstMatch_of_recognize hj
    obtain ⟨c, hc⟩ := frameChecks_ok_of_selection j (hsel fmt (List.mem_of_getElem? hfirst.1))
    exact ⟨c, by rw [decodeChecks_of_firstMatch hready hfirst, hc]; rfl⟩

/-- Settles O55: the revise pass comes last, and with a selection in range no check raises a fault. -/
theorem decodeLeavesKeysInRange : Obligations.DecodeLeavesKeysInRange := by
  refine ⟨fun s t dev k lo hi d hdev ht hresult hk hs hle => ?_, fun s dev hready hsel => ?_⟩
  · rcases exec_command_cases (i := .decode) rfl ht with heffect | ⟨f, -, rfl⟩
    · rcases heffect.decode_cases with ⟨shape, r, c, rfl | rfl, rfl⟩ | ⟨dev', j, fmt, p, sel, hd, rfl⟩
      · simp at hresult
      · simp at hresult
      · obtain rfl := Except.ok.inj (hdev.symm.trans hd)
        have hclamp := val_toInt_of_entryRevised (entryRevised_decodeFrame dev j fmt p sel s k) hk hs hle
        omega
    · simp at hresult
  · obtain ⟨c, hc⟩ := decodeChecks_ok_of_selection hready hsel
    obtain ⟨t, ht, heffect⟩ := exec_decode_effect_of_ok hc
    refine ⟨t, ht, ?_⟩
    rcases heffect.decode_cases with ⟨shape, r, c, hr, rfl⟩ | ⟨dev', j, fmt, p, sel, -, rfl⟩
    · exact ⟨rfl, .inr (.inr hr)⟩
    · refine ⟨by rw [decodeFrame_eq], ?_⟩
      rcases result_decodeFrame_cases dev' j fmt p sel s with h | h
      · exact .inl h
      · exact .inr (.inl h)

end Sys2Proof.Proofs
end

section
/-! What DECODE leaves of the model and of DIAG, read off the data image (45_decoder.md R264 to R266, R270, R274,
42_field_transform.md R172, R176 to R186, 10_state.md R33): the code that a FieldSpec reads is what its decode rule stores,
the last FieldSpec that writes a key decides its entry, and each code that an enumeration does not have is logged once. -/

namespace Sys2Proof.Proofs

open Sys2Proof.Machine

/-! ### The code of a FieldSpec (R176, R178, R180, R182) -/

theorem storeCode_of_toNat {code : Word} {c : Nat} (h : code.toNat = c) (key : Key) (enumw : Word) (s : State) :
    c < 2 ^ 32 ∧ storeCode key enumw code s = storeCode key enumw (BitVec.ofNat 32 c) s := by
  subst h
  exact ⟨code.isLt, by rw [BitVec.ofNat_toNat, BitVec.setWidth_eq]⟩

/-- The decode rule of a FieldSpec that reads a code stores it, checked, under its key. -/
theorem decodeFieldAt_of_rawCode {P : Params} {i : Instr} (hlegal : fieldOperandsLegal P i = true) {b : Nat} {s : State}
    {k : Key} {c : Nat} {e : Word} (h : rawCode s b i = some (k, c, e)) :
    c < 2 ^ 32 ∧ decodeFieldAt i b s = storeCode k e (BitVec.ofNat 32 c) s := by
  cases i <;> simp only [rawCode, placeOf_eq_fieldBase, reduceCtorEq, Option.some.injEq, Prod.mk.injEq] at h <;>
    obtain ⟨rfl, rfl, rfl⟩ := h
  case fspecRaw8 => exact storeCode_of_toNat (byte_toWord_toNat _) ..
  case fspecNib8 => exact storeCode_of_toNat ((byte_toWord_toNat _).trans (nibJoin_toNat ..)) ..
  case fspecBits =>
    simp only [fieldOperandsLegal, Bool.and_eq_true] at hlegal
    obtain ⟨-, -, -, hab, -⟩ := geomLegal_bounds hlegal.1.2
    exact storeCode_of_toNat (joinSegments_toNat _ _ (by omega)) ..
  case fspecS14 =>
    refine storeCode_of_toNat ?_ ..
    rw [s14Value_eq_join, s14Join_toNat]

/-- A code is read from the DIMG bytes of its FieldSpec. -/
theorem rawCode_congr {s t : State} {b : Nat} {i : Instr}
    (h : ∀ f, i.place? = some f → ∀ a, fieldBase b f ≤ a → a < fieldBase b f + fieldSpan i →
      t.byteAt .dimg a = s.byteAt .dimg a) : rawCode t b i = rawCode s b i := by
  cases i <;> try rfl
  all_goals
    replace h := h _ rfl
    simp only [fieldSpan] at h
    simp only [rawCode, placeOf_eq_fieldBase]
  case fspecRaw8 => rw [h _ (by omega) (by omega)]
  case fspecNib8 => rw [h _ (by omega) (by omega), h _ (by omega) (by omega)]
  case fspecBits f g e =>
    cases htwo : (geomOf g).two with
    | false =>
      rw [h _ (by omega) (by simp [Geom.span, htwo]), segmentCode_of_not_two htwo, segmentCode_of_not_two htwo]
    | true => rw [h _ (by omega) (by simp [Geom.span, htwo]), h _ (by omega) (by simp [Geom.span, htwo])]
  case fspecS14 => rw [h _ (by omega) (by omega), h _ (by omega) (by omega)]

theorem rawCode_congr_image {s t : State} (h : ∀ a, t.byteAt .dimg a = s.byteAt .dimg a) (b : Nat) (i : Instr) :
    rawCode t b i = rawCode s b i :=
  rawCode_congr fun _ _ a _ _ => h a

theorem key_of_rawCode {s : State} {b : Nat} {i : Instr} {f : FieldPlace} (hf : i.place? = some f) {k : Key} {c : Nat}
    {e : Word} (h : rawCode s b i = some (k, c, e)) : k = f.key := by
  cases i <;> cases hf <;> simp only [rawCode, reduceCtorEq, Option.some.injEq, Prod.mk.injEq] at h
  all_goals exact h.1.symm

/-- The key of a FieldSpec with legal operands is a key of the store (R45). -/
theorem key_lt_of_legal {P : Params} {i : Instr} {f : FieldPlace} (hf : i.place? = some f)
    (hlegal : fieldOperandsLegal P i = true) : f.key.toNat < P.nkeys := by
  cases i <;> cases hf <;> simp only [fieldOperandsLegal, Bool.and_eq_true, decide_eq_true_eq] at hlegal
  case fspecBits.refl | fspecS14.refl => exact hlegal.1.1
  all_goals exact hlegal.1

/-! ### The last FieldSpec that writes a key (R265) -/

section Last

variable {pre post : List FieldWords} {w : FieldWords} {i : Instr} {f : FieldPlace} {p : Nat}
  (hdec : decodeField w = .ok i) (hf : i.place? = some f) (hp : f.part.toNat = p)
include hdec hf hp

theorem walkFields_decode_entry_of_last {k : Nat} (hk : ∀ y ∈ post, ¬wordsWrite p y k) (b : Nat) (s : State) :
    (walkFields .decode p b (pre ++ w :: post) s).entry k =
      (decodeFieldAt i b (walkFields .decode p b pre s)).entry k := by
  rw [walkFields_append, walkFields, walkField_of_part hdec hf hp, walkFields_decode_entry hk]
  rfl

/-- Where no later FieldSpec of the part writes a key, its entry is what the decode rule left, but for the clamp; and the
rule read the data image as the command leaves it. -/
theorem entry_decodeFrame_of_last {fmt : Format} (hfields : fmt.fields = pre ++ w :: post) (dev : Device) (j sel : Nat)
    (s : State) :
    ∃ x : State, x.cfg = s.cfg ∧
      (∀ a, (decodeFrame dev j fmt p sel s).byteAt .dimg a = x.byteAt .dimg a) ∧
      ∀ k, (∀ y ∈ post, ¬wordsWrite p y k) →
        entryRevised s.cfg.params dev k ((decodeFieldAt i (fmt.base + sel * fmt.stride) x).entry k)
          ((decodeFrame dev j fmt p sel s).entry k) := by
  obtain ⟨hdimg, hcfg⟩ := walkFields_decode_frame p (fmt.base + sel * fmt.stride) pre
    (stageIn fmt { s with diagCount := 0 })
  refine ⟨_, hcfg, fun a => congrArg (fun m => Memory.read m a) ((dimg_decodeFrame ..).trans hdimg.symm), fun k hk => ?_⟩
  rw [← walkFields_decode_entry_of_last hdec hf hp hk, ← hfields]
  exact entryRevised_decodeFrame dev j fmt p sel s k

end Last

theorem clampedTo_of_entryRevised {P : Params} {dev : Device} {k : Key} {e e' : Entry}
    (h : entryRevised P dev k.toNat e e') (hk : k.toNat < P.nkeys) {n : Int} (hn : e.val.toInt = n) :
    clampedTo dev k n e'.val := fun lo hi d hs hle => by
  rw [val_toInt_of_entryRevised h hk hs hle, hn]

/-- A small number is the same with and without its sign. -/
theorem toInt_of_toNat_eq {v : Word} {n : Nat} (h : v.toNat = n) (hn : n < 2 ^ 31) : v.toInt = n := by
  rw [BitVec.toInt_eq_toNat_of_lt (by omega), h]

theorem trimmedText_congr {s t : State} {q n : Nat} {e e' : Entry} (hb : ∀ a, t.byteAt .dimg a = s.byteAt .dimg a)
    (hlen : e'.len = e.len) (hcode : ∀ m, e'.code m = e.code m) (h : trimmedText s q n e) : trimmedText t q n e' := by
  unfold trimmedText at h ⊢
  simpa only [hb, hlen, hcode] using h

/-! ### What every key keeps (R274) -/

/-- An INT key has the text it had, a TEXT key the value, and an undefined key both. -/
def entryKept (dev : Device) (k : Nat) (e e' : Entry) : Prop :=
  match schemaAt dev k with
  | some (.int _ _ _) => e'.len = e.len ∧ ∀ n, e'.code n = e.code n
  | some (.text _) => e'.val = e.val
  | none => e' = e

theorem entryKept_refl (dev : Device) (k : Nat) (e : Entry) : entryKept dev k e e := by
  unfold entryKept
  split
  · exact ⟨rfl, fun _ => rfl⟩
  · rfl
  · rfl

theorem entryKept_trans {dev : Device} {k : Nat} {e e' e'' : Entry} (h : entryKept dev k e e')
    (h' : entryKept dev k e' e'') : entryKept dev k e e'' := by
  unfold entryKept at h h' ⊢
  generalize schemaAt dev k = schema at h h' ⊢
  rcases schema with _ | ⟨lo, hi, d⟩ | d
  · exact Eq.trans h' h
  · exact ⟨h'.1.trans h.1, fun n => (h'.2 n).trans (h.2 n)⟩
  · exact Eq.trans h' h

theorem isIntKey_iff {dev : Device} {k : Key} :
    isIntKey dev k = true ↔ ∃ lo hi d, schemaAt dev k.toNat = some (.int lo hi d) := by
  unfold isIntKey
  split <;> simp_all

theorem isTextKey_iff {dev : Device} {k : Key} :
    isTextKey dev k = true ↔ ∃ d, schemaAt dev k.toNat = some (.text d) := by
  unfold isTextKey
  split <;> simp_all

theorem entryKept_setVal {dev : Device} {key : Key} (hint : isIntKey dev key = true) (s : State) (v : Word) (k : Nat) :
    entryKept dev k (s.entry k) ((s.setVal key v).entry k) := by
  rw [State.entry_setVal]
  split
  · rename_i hk
    obtain ⟨lo, hi, d, hs⟩ := isIntKey_iff.mp hint
    rw [entryKept, hk, hs]
    exact ⟨rfl, fun _ => rfl⟩
  · exact entryKept_refl ..

theorem entryKept_storeCode {dev : Device} {key : Key} (hint : isIntKey dev key = true) (enumw code : Word) (s : State)
    (k : Nat) : entryKept dev k (s.entry k) ((storeCode key enumw code s).entry k) := by
  have hkept := entryKept_setVal hint (s.enumFix code enumw key) (enumCode code enumw) k
  rwa [State.entry_congr (State.enumFix_model ..)] at hkept

theorem entryKept_setText {dev : Device} {key : Key} (htext : isTextKey dev key = true) (s : State) (codes : List Word)
    (k : Nat) : entryKept dev k (s.entry k) ((s.setText key codes).entry k) := by
  rw [entry_setText]
  split
  · rename_i hk
    obtain ⟨d, hs⟩ := isTextKey_iff.mp htext
    rw [entryKept, hk, hs]
    rfl
  · exact entryKept_refl ..

/-- A FieldSpec that FW9 admits writes values of INT keys and texts of TEXT keys. -/
theorem entryKept_decodeFieldAt {dev : Device} {i : Instr} (hschema : schemaViolation dev i = none) (b : Nat) (s : State)
    (k : Nat) : entryKept dev k (s.entry k) ((decodeFieldAt i b s).entry k) := by
  cases i <;> simp only [schemaViolation, ite_eq_left_iff, reduceCtorEq, imp_false, not_not] at hschema
  case fspecRaw8 => exact entryKept_storeCode hschema ..
  case fspecNib8 => exact entryKept_storeCode hschema ..
  case fspecBits => exact entryKept_storeCode hschema ..
  case fspecS14 => exact entryKept_storeCode hschema ..
  case fspecVel f k2 =>
    have hkeys : isIntKey dev f.key = true ∧ isIntKey dev k2 = true := by
      cases h : isIntKey dev f.key <;> cases h2 : isIntKey dev k2 <;> simp [h, h2] at hschema ⊢
    exact entryKept_trans (entryKept_setVal hkeys.1 ..) (entryKept_setVal hkeys.2 ..)
  case fspecName => exact entryKept_setText hschema ..
  all_goals exact entryKept_refl ..

theorem entryKept_of_entryRevised {P : Params} {dev : Device} {k : Nat} {e e' : Entry}
    (h : entryRevised P dev k e e') : entryKept dev k e e' := by
  by_cases hk : k < P.nkeys
  · rw [entryRevised, if_pos hk] at h
    unfold entryKept
    generalize schemaAt dev k = schema at h ⊢
    rcases schema with _ | ⟨lo, hi, d⟩ | d
    · exact h
    · rw [h.1]
      exact ⟨rfl, fun _ => rfl⟩
    · exact congrArg Entry.val h
  · rw [entryRevised, if_neg hk] at h
    rw [show e' = e from h]
    exact entryKept_refl ..

theorem entryKept_decodedState {P : Params} {dev : Device} {fmt : Format} (hcheck : checkFormat P dev fmt = none)
    (p b : Nat) (s : State) (k : Nat) : entryKept dev k (s.entry k) ((decodedState fmt p b s).entry k) := by
  obtain ⟨-, hfields, -⟩ := checkFormat_eq_none.mp hcheck
  refine walkFields_induction (Q := fun t => entryKept dev k (s.entry k) (t.entry k)) (entryKept_refl ..)
    fun w hw t ht => ?_
  obtain ⟨i, f, hdec, -, -, -, -, hschema⟩ := fieldViolation_eq_none (hfields w hw)
  rcases walkField_cases .decode p b w t with ⟨i', f', hdec', -, -, heq⟩ | heq
  · obtain rfl : i = i' := Except.ok.inj (hdec.symm.trans hdec')
    rw [heq]
    exact entryKept_trans ht (entryKept_decodeFieldAt hschema b t k)
  · rwa [heq]

/-! ### The entries after DECODE -/

theorem checkFormat_of_accepts {s : State} {dev : Device} {j : Nat} {fmt : Format} {p sel : Nat}
    (h : decodeAccepts s dev j fmt p sel) : checkFormat s.cfg.params dev fmt = none := by
  obtain ⟨⟨-, hcheck⟩, ⟨hfmt, -⟩, -⟩ := h
  exact hcheck fmt (List.mem_of_getElem? hfmt)

/-- Settles O53: the entries by the last FieldSpec that writes their key, and what every key keeps. -/
theorem decodeLoadsValues : Obligations.DecodeLoadsValues := by
  intro s t dev j fmt p sel haccepts ht
  obtain rfl := Host.Outcome.next.inj (ht.symm.trans (exec_decode_of_accepts haccepts))
  have hcheck := checkFormat_of_accepts haccepts
  obtain ⟨-, hviol, -⟩ := checkFormat_eq_none.mp hcheck
  have hrevised := entryRevised_decodeFrame dev j fmt p sel s
  refine ⟨fun k hk => ?_, fun k => ?_, fun pre w post i f hfields hdec hf hp => ?_⟩
  · have hkept : (decodedState fmt p (fmt.base + sel * fmt.stride) s).entry k = s.entry k :=
      walkFields_decode_entry hk _
    exact hkept ▸ hrevised k
  · exact entryKept_trans (entryKept_decodedState hcheck p (fmt.base + sel * fmt.stride) s k)
      (entryKept_of_entryRevised (hrevised k))
  · obtain ⟨hlegal, -⟩ := field_of_checked (hviol w (by simp [hfields])) hdec hf
    have hkey := key_lt_of_legal hf hlegal
    obtain ⟨x, hcfg, hbytes, hlast⟩ := entry_decodeFrame_of_last hdec hf hp hfields dev j sel s
    refine ⟨fun k c e hraw hpost => ?_, ?_, ?_, ?_⟩
    · rw [rawCode_congr_image hbytes] at hraw
      obtain rfl := key_of_rawCode hf hraw
      refine clampedTo_of_entryRevised (hlast _ hpost) hkey ?_
      rw [(decodeFieldAt_of_rawCode hlegal hraw).2, ← enumCode_eq]
      exact congrArg BitVec.toInt (val_storeCode ..)
    · rintro k2 rfl hpost
      obtain ⟨hflag, -⟩ := decodeVel_entries f.key k2 (fieldBase (fmt.base + sel * fmt.stride) f) x
      simp only [fieldOperandsLegal, Bool.and_eq_true, decide_eq_true_eq] at hlegal
      refine clampedTo_of_entryRevised (hlast _ hpost) hlegal.2 ?_
      rw [hbytes, placeOf_eq_fieldBase]
      exact toInt_of_toNat_eq hflag (by omega)
    · rintro k2 rfl hne hpost
      obtain ⟨-, hvalue, -⟩ := decodeVel_entries f.key k2 (fieldBase (fmt.base + sel * fmt.stride) f) x
      refine clampedTo_of_entryRevised (hlast _ hpost) hkey ?_
      rw [hbytes, placeOf_eq_fieldBase]
      exact toInt_of_toNat_eq (hvalue hne) (by omega)
    · rintro n rfl hpost
      simp only [fieldOperandsLegal, xfnameLegal, Bool.and_eq_true, decide_eq_true_eq] at hlegal
      obtain ⟨htext, -⟩ := decodeName_entries f.key (fieldBase (fmt.base + sel * fmt.stride) f)
        (hcfg ▸ hlegal.2.2 : xfnameN n ≤ x.cfg.params.textMax)
      obtain ⟨hlen, hcode⟩ := text_of_entryRevised (hlast _ hpost)
      rw [← xfnameN_eq, placeOf_eq_fieldBase]
      exact trimmedText_congr hbytes hlen hcode htext

/-! ### The substitutions of a walk (R172, R264) -/

theorem substitutions_cons (t : State) (p b : Nat) (w : FieldWords) (ws : List FieldWords) :
    substitutions t p b (w :: ws) = substitutions t p b [w] ++ substitutions t p b ws :=
  List.filterMap_append (l := [w])

theorem substitutions_congr_image {s t : State} (h : ∀ a, t.byteAt .dimg a = s.byteAt .dimg a) (p b : Nat)
    (ws : List FieldWords) : substitutions t p b ws = substitutions s p b ws := by
  simp only [substitutions, rawCode_congr_image h]

section Word

variable {w : FieldWords} {i : Instr} {f : FieldPlace} (hdec : decodeField w = .ok i) (hf : i.place? = some f) {t : State}
  {p b : Nat}
include hdec hf

theorem substitutions_of_other_part (hp : f.part.toNat ≠ p) : substitutions t p b [w] = [] := by
  cases hraw : rawCode t b i <;> simp [substitutions, hdec, hf, hraw, hp]

theorem substitutions_of_no_code (hraw : rawCode t b i = none) : substitutions t p b [w] = [] := by
  simp [substitutions, hdec, hf, hraw]

theorem substitutions_of_code (hp : f.part.toNat = p) {k : Key} {c : Nat} {e : Word}
    (hraw : rawCode t b i = some (k, c, e)) :
    substitutions t p b [w] =
      if e.toNat % 65536 = 0 ∨ c < e.toNat % 65536 then []
      else [BitVec.ofNat 32 (c % 65536 * 65536 + k.toNat)] := by
  simp only [substitutions, List.filterMap_cons, List.filterMap_nil, hdec, hf, hraw, hp, true_and]
  by_cases h : e.toNat % 65536 = 0 ∨ c < e.toNat % 65536
  · rw [if_pos h, if_neg (by omega)]
  · rw [if_neg h, if_pos (by omega)]

end Word

/-- `t` has counted `subs` and listed them over the entries of `log`, as far as DIAG_COUNT and DIAG_LOG reach (R33). -/
structure DiagLists (c : Config) (log subs : List Word) (t : State) : Prop where
  cfg_eq : t.cfg = c
  count : t.diagCount.toNat = min subs.length 0xFFFFFFFF
  length : t.diagLog.length = c.params.diagMax
  listed : ∀ n, n < c.params.diagMax → n < 0xFFFFFFFF →
    t.diagLog.getD n 0 = if n < subs.length then subs.getD n 0 else log.getD n 0

section Diag

variable {c : Config} {log subs : List Word} {t : State}

theorem DiagLists.congr (h : DiagLists c log subs t) {u : State} (hcfg : u.cfg = t.cfg)
    (hcount : u.diagCount = t.diagCount) (hlog : u.diagLog = t.diagLog) : DiagLists c log subs u :=
  ⟨hcfg.trans h.cfg_eq, hcount ▸ h.count, hlog ▸ h.length, hlog ▸ h.listed⟩

/-- One more substitution stands at the old count, if the log has a place there. -/
theorem DiagLists.append (h : DiagLists c log subs t) {u : State} (hcfg : u.cfg = t.cfg) {x : Word}
    (hcount : u.diagCount.toNat = min (t.diagCount.toNat + 1) 0xFFFFFFFF)
    (hlog : u.diagLog =
      if t.diagCount.toNat < t.cfg.params.diagMax then t.diagLog.set t.diagCount.toNat x else t.diagLog) :
    DiagLists c log (subs ++ [x]) u := by
  have hold := h.count
  have hlen := h.length
  rw [h.cfg_eq] at hlog
  refine ⟨hcfg.trans h.cfg_eq, ?_, ?_, fun n hn hmax => ?_⟩
  · rw [List.length_append, List.length_singleton]
    omega
  · rw [hlog]
    split <;> simp [hlen]
  · have hplace : n = t.diagCount.toNat ↔ n = subs.length := by omega
    have hread : u.diagLog.getD n 0 = if n = subs.length then x else t.diagLog.getD n 0 := by
      rw [hlog]
      by_cases heq : n = subs.length
      · have hcnt := hplace.mpr heq
        subst hcnt
        rw [if_pos heq, if_pos hn]
        simp [List.getD_eq_getElem?_getD, hlen, hn]
      · rw [if_neg heq]
        have hne : t.diagCount.toNat ≠ n := fun h => heq (hplace.mp h.symm)
        split <;> simp [List.getD_eq_getElem?_getD, List.getElem?_set_ne hne]
    rw [hread, h.listed n hn hmax, List.length_append, List.length_singleton]
    rcases Nat.lt_trichotomy n subs.length with hlt | rfl | hgt
    · rw [if_neg (by omega), if_pos hlt, if_pos (by omega), List.getD_append _ _ _ _ hlt]
    · simp
    · rw [if_neg (by omega), if_neg (by omega), if_neg (by omega)]

/-- Storing a code logs one substitution where the enumeration does not have the code. -/
theorem DiagLists.storeCode (h : DiagLists c log subs t) (key : Key) (enumw : Word) {n : Nat} (hn : n < 2 ^ 32) :
    DiagLists c log
      (subs ++ if enumw.toNat % 65536 = 0 ∨ n < enumw.toNat % 65536 then []
        else [BitVec.ofNat 32 (n % 65536 * 65536 + key.toNat)])
      (storeCode key enumw (BitVec.ofNat 32 n) t) := by
  have hcode : (BitVec.ofNat 32 n).toNat = n := by rw [BitVec.toNat_ofNat, Nat.mod_eq_of_lt hn]
  have hrec := diagRecorded_enumFix t (BitVec.ofNat 32 n) enumw key
  have hcfg : (t.enumFix (BitVec.ofNat 32 n) enumw key).cfg = t.cfg := State.enumFix_cfg ..
  suffices DiagLists c log
      (subs ++ if enumw.toNat % 65536 = 0 ∨ n < enumw.toNat % 65536 then []
        else [BitVec.ofNat 32 (n % 65536 * 65536 + key.toNat)])
      (t.enumFix (BitVec.ofNat 32 n) enumw key) from this.congr rfl rfl rfl
  unfold diagRecorded at hrec
  rw [hcode] at hrec
  split at hrec
  · rename_i hpass
    rw [if_pos hpass, List.append_nil]
    exact h.congr hcfg hrec.1 hrec.2
  · rename_i hfail
    rw [if_neg hfail]
    exact h.append hcfg hrec.1 hrec.2

/-- A FieldSpec that reads no code logs nothing. -/
theorem decodeFieldAt_diag_of_no_code {i : Instr} {b : Nat} {s : State} (h : rawCode s b i = none) :
    (decodeFieldAt i b s).diagCount = s.diagCount ∧ (decodeFieldAt i b s).diagLog = s.diagLog := by
  cases i <;> simp only [rawCode, reduceCtorEq] at h
  all_goals exact ⟨rfl, rfl⟩

theorem DiagLists.walkField (h : DiagLists c log subs t) {dev : Device} {fmt : Format} {w : FieldWords}
    (hw : fieldViolation c.params dev fmt w = none) (p b : Nat) :
    DiagLists c log (subs ++ substitutions t p b [w]) (walkField .decode p b w t) := by
  obtain ⟨i, f, hdec, hf, hlegal, -⟩ := fieldViolation_eq_none hw
  by_cases hp : f.part.toNat = p
  · rw [walkField_of_part hdec hf hp]
    cases hraw : rawCode t b i with
    | none =>
      obtain ⟨hcount, hlog⟩ := decodeFieldAt_diag_of_no_code hraw
      rw [substitutions_of_no_code hdec hf hraw, List.append_nil]
      exact h.congr (by rw [fieldRule, decodeFieldAt_eq]) hcount hlog
    | some r =>
      obtain ⟨k, n, e⟩ := r
      obtain ⟨hn, heq⟩ := decodeFieldAt_of_rawCode hlegal hraw
      rw [substitutions_of_code hdec hf hp hraw, fieldRule, heq]
      exact h.storeCode k e hn
  · have hskip : Machine.walkField .decode p b w t = t := by simp [Machine.walkField, hdec, inPart_eq hf, hp]
    rwa [substitutions_of_other_part hdec hf hp, List.append_nil, hskip]

/-- The walk of DECODE lists its substitutions in table order. -/
theorem DiagLists.walkFields (h : DiagLists c log subs t) {dev : Device} {fmt : Format} {ws : List FieldWords}
    (hws : ∀ w ∈ ws, fieldViolation c.params dev fmt w = none) (p b : Nat) :
    DiagLists c log (subs ++ substitutions t p b ws) (walkFields .decode p b ws t) := by
  induction ws generalizing subs t with
  | nil => simpa [substitutions, Machine.walkFields] using h
  | cons w ws ih =>
    have hstep := ih (h.walkField (hws w List.mem_cons_self) p b) fun v hv => hws v (List.mem_cons_of_mem w hv)
    have himage (a : Nat) : (Machine.walkField .decode p b w t).byteAt .dimg a = t.byteAt .dimg a :=
      congrArg (fun m => Memory.read m a) (walkFields_decode_frame p b [w] t).1
    rw [substitutions_congr_image himage, List.append_assoc, ← substitutions_cons] at hstep
    exact hstep

end Diag

/-- Settles O54: DIAG_COUNT starts at 0, and the walk of the table lists what it substitutes. -/
theorem decodeLogsSubstitutions : Obligations.DecodeLogsSubstitutions := by
  intro s t dev j fmt p sel haccepts hlen ht
  obtain rfl := Host.Outcome.next.inj (ht.symm.trans (exec_decode_of_accepts haccepts))
  obtain ⟨-, hviol, -⟩ := checkFormat_eq_none.mp (checkFormat_of_accepts haccepts)
  have hstart : DiagLists s.cfg s.diagLog [] (stageIn fmt { s with diagCount := 0 }) :=
    ⟨rfl, rfl, hlen, fun n _ _ => by simp [stageIn_eq]⟩
  have himage (a : Nat) : (decodeFrame dev j fmt p sel s).byteAt .dimg a = _ :=
    congrArg (fun m => Memory.read m a) (dimg_decodeFrame ..)
  have hend : DiagLists s.cfg s.diagLog
      (substitutions (decodeFrame dev j fmt p sel s) p (fmt.base + sel * fmt.stride) fmt.fields)
      (decodeFrame dev j fmt p sel s) := by
    rw [substitutions_congr_image himage]
    refine (hstart.walkFields hviol p (fmt.base + sel * fmt.stride)).congr ?_ ?_ ?_ <;>
      (unfold decodeFrame; dsimp only; rw [revise_eq]; rfl)
  exact ⟨hend.count, hend.listed⟩

end Sys2Proof.Proofs
end

section
/-! What DECODE depends on (45_decoder.md R275): two runs that agree on the frame, A0, CURDEV, PARTS_SEEN, the model store and
the configuration make the same checks, stage the same image and leave the same model store. -/

namespace Sys2Proof.Proofs

open Sys2Proof.Machine

/-- The states agree on what R275 names: IN_LEN and the frame, A0, CURDEV, PARTS_SEEN, the model store, the configuration. -/
structure SameInputs (s₁ s₂ : State) : Prop where
  cfg_eq : s₂.cfg = s₁.cfg
  inLen_eq : s₂.inLen = s₁.inLen
  a0_eq : s₂.a0 = s₁.a0
  curdev_eq : s₂.curdev = s₁.curdev
  partsSeen_eq : s₂.partsSeen = s₁.partsSeen
  model_eq : s₂.model = s₁.model
  frame_eq : ∀ a, a < s₁.inLen.toNat → s₂.byteAt .ibuf a = s₁.byteAt .ibuf a

theorem readBytes_congr {s t : State} {sp : Space} {off n : Nat}
    (h : ∀ a, off ≤ a → a < off + n → t.byteAt sp a = s.byteAt sp a) : t.readBytes sp off n = s.readBytes sp off n :=
  List.map_congr_left fun _ hi => h _ (Nat.le_add_right ..) (Nat.add_lt_add_left (List.mem_range.mp hi) off)

/-! ### The same checks -/

section Inputs

variable {s₁ s₂ : State} (h : SameInputs s₁ s₂)
include h

theorem SameInputs.frameHasLength_iff (fmt : Format) : frameHasLength s₂ fmt ↔ frameHasLength s₁ fmt := by
  rw [frameHasLength, frameHasLength, h.inLen_eq]

section Layout

variable {P : Params} {fmt : Format} (hl : FrameLayout P fmt) (hlen : frameHasLength s₁ fmt)
include hlen

theorem SameInputs.byteAt_frame {a : Nat} (ha : a < fmt.total) : s₂.byteAt .ibuf a = s₁.byteAt .ibuf a :=
  h.frame_eq a (ha.trans_eq (show s₁.inLen.toNat = fmt.total from hlen).symm)

include hl

theorem SameInputs.headerMatches_eq (hrl : fmt.rl ≤ fmt.h) : headerMatches fmt s₂ = headerMatches fmt s₁ := by
  have htotal := hl.total_eq
  rw [Bool.eq_iff_iff, headerMatches_iff, headerMatches_iff]
  exact forall₃_congr fun i hi _ => by rw [h.byteAt_frame hlen (by omega)]

theorem SameInputs.versionMatches_eq : versionMatches fmt s₂ = versionMatches fmt s₁ := by
  have htotal := hl.total_eq
  unfold versionMatches
  cases hver : fmt.ver with
  | false => rfl
  | true =>
    have hlt := hl.version_lt hver
    rw [h.byteAt_frame hlen (by omega)]

theorem SameInputs.checksumOk_eq : checksumOk fmt s₂ = checksumOk fmt s₁ := by
  have htotal := hl.total_eq
  unfold checksumOk
  cases hck : fmt.ck with
  | false => rfl
  | true =>
    obtain ⟨-, hle, hto⟩ := hl.sum_range hck
    rw [h.byteAt_frame hlen (by omega), readBytes_congr fun a _ hlt => h.byteAt_frame hlen (by omega)]

theorem SameInputs.framePart_eq : framePart fmt s₂ = framePart fmt s₁ := by
  have htotal := hl.total_eq
  unfold framePart
  split
  · rename_i hm
    obtain ⟨-, hpoff, -⟩ := hl.part_byte hm
    rw [h.byteAt_frame hlen (by omega)]
  · rfl

theorem SameInputs.frameChecks_eq (j : Nat) : frameChecks j fmt s₂ = frameChecks j fmt s₁ := by
  simp only [frameChecks, h.checksumOk_eq hl hlen, h.framePart_eq hl hlen, h.a0_eq]

/-- The payload is part of the frame. -/
theorem SameInputs.stagedBytes_eq : stagedBytes fmt s₂ = stagedBytes fmt s₁ := by
  have htotal := hl.total_eq
  unfold stagedBytes
  split
  · rename_i hm
    have hpl : payloadLen fmt = fmt.dlen := if_pos hm
    rw [readBytes_congr fun a _ hlt => h.byteAt_frame hlen (by omega)]
  · rename_i hm
    have hpl : payloadLen fmt = 2 * fmt.dlen := if_neg hm
    rw [readBytes_congr fun a _ hlt => h.byteAt_frame hlen (by omega)]

end Layout

/-- A format of another length differs by the length, and one of this length looks at bytes of the frame. -/
theorem SameInputs.matchFormat_eq {P : Params} {fmt : Format} (hl : FrameLayout P fmt) (hrl : fmt.rl ≤ fmt.h) :
    matchFormat fmt s₂ = matchFormat fmt s₁ := by
  by_cases hlen : frameHasLength s₁ fmt
  · rw [matchFormat_of_length hlen, matchFormat_of_length ((h.frameHasLength_iff fmt).mpr hlen),
      h.headerMatches_eq hl hlen hrl, h.versionMatches_eq hl hlen]
  · rw [matchFormat_of_other_length hlen, matchFormat_of_other_length (mt (h.frameHasLength_iff fmt).mp hlen)]

theorem SameInputs.recognizer_eq {P : Params} {dev : Device} (hdev : deviceWf P dev = true) :
    recognize dev s₂ = recognize dev s₁ ∧ failCauseOf dev s₂ = failCauseOf dev s₁ := by
  have hmap : dev.fmts.map (fun fmt => matchFormat fmt s₂) = dev.fmts.map (fun fmt => matchFormat fmt s₁) := by
    refine List.map_congr_left fun fmt hfmt => ?_
    obtain ⟨hranges, hcheck⟩ := checked_of_deviceWf hdev hfmt
    obtain ⟨-, -, -, hrl, -⟩ := formatRanges_iff.mp hranges
    exact h.matchFormat_eq (frameLayout_of_formatLevelOk (checkFormat_eq_none.mp hcheck).1) hrl
  have hrecognize (s : State) : recognize dev s = (dev.fmts.map fun fmt => matchFormat fmt s).findIdx? (· == .none) := by
    rw [List.findIdx?_map]
    rfl
  rw [hrecognize, hrecognize, failCauseOf, failCauseOf, hmap]
  exact ⟨rfl, rfl⟩

/-- The formats of the current device of a well-formed configuration pass the check, for both states. -/
theorem SameInputs.decodeReady (hwf : configWf s₁.cfg = true) {dev : Device} (hdev : currentDevice s₁ = .ok dev) :
    decodeReady s₁ dev ∧ decodeReady s₂ dev := by
  have hcheck {g : Format} (hg : g ∈ dev.fmts) : checkFormat s₁.cfg.params dev g = none :=
    (checked_of_deviceWf (deviceWf_of_mem hwf (mem_of_currentDevice hdev)) hg).2
  exact ⟨⟨hdev, fun g => hcheck⟩, (currentDevice_congr h.curdev_eq h.cfg_eq).trans hdev, fun g hg => h.cfg_eq ▸ hcheck hg⟩

theorem SameInputs.decodeChecks_eq (hwf : configWf s₁.cfg = true) : decodeChecks s₂ = decodeChecks s₁ := by
  cases hdev : currentDevice s₁ with
  | error f =>
    have hdev' := (currentDevice_congr h.curdev_eq h.cfg_eq).trans hdev
    rw [decodeChecks, decodeChecks, hdev, hdev', error_bind, error_bind]
  | ok dev =>
    obtain ⟨hready₁, hready₂⟩ := h.decodeReady hwf hdev
    obtain ⟨hrecognize, hcause⟩ := h.recognizer_eq (deviceWf_of_mem hwf (mem_of_currentDevice hdev))
    cases hj : recognize dev s₁ with
    | none =>
      rw [decodeChecks_of_no_match hready₁ (recognize_eq_none_iff.mp hj),
        decodeChecks_of_no_match hready₂ (recognize_eq_none_iff.mp (hrecognize.trans hj)), hcause]
    | some j =>
      obtain ⟨fmt, hfirst₁⟩ := firstMatch_of_recognize hj
      obtain ⟨fmt', hfirst₂⟩ := firstMatch_of_recognize (hrecognize.trans hj)
      obtain rfl : fmt = fmt' := Option.some.inj (hfirst₁.1.symm.trans hfirst₂.1)
      have hl := frameLayout_of_formatLevelOk
        (checkFormat_eq_none.mp (hready₁.2 fmt (List.mem_of_getElem? hfirst₁.1))).1
      rw [decodeChecks_of_firstMatch hready₁ hfirst₁, decodeChecks_of_firstMatch hready₂ hfirst₂,
        h.frameChecks_eq hl hfirst₁.2.1.1]

end Inputs

/-! ### The same walk of the table -/

/-- The states agree on the configuration, the model store, DIAG_COUNT and DIMG[0..n-1]. -/
structure SameStore (n : Nat) (t₁ t₂ : State) : Prop where
  cfg_eq : t₂.cfg = t₁.cfg
  model_eq : t₂.model = t₁.model
  count_eq : t₂.diagCount = t₁.diagCount
  image_eq : ∀ a, a < n → t₂.byteAt .dimg a = t₁.byteAt .dimg a

section Store

variable {n : Nat} {t₁ t₂ : State} (h : SameStore n t₁ t₂)
include h

theorem SameStore.entry_eq (k : Nat) : t₂.entry k = t₁.entry k := State.entry_congr h.model_eq k

theorem SameStore.setEntry (k : Nat) (e : Entry) : SameStore n (t₁.setEntry k e) (t₂.setEntry k e) :=
  ⟨h.cfg_eq, congrArg (fun m => writeCell Entry.zero m k e) h.model_eq, h.count_eq, h.image_eq⟩

theorem SameStore.setVal (k : Key) (v : Word) : SameStore n (t₁.setVal k v) (t₂.setVal k v) := by
  unfold State.setVal
  rw [h.entry_eq]
  exact h.setEntry ..

theorem SameStore.setText (k : Key) (codes : List Word) : SameStore n (t₁.setText k codes) (t₂.setText k codes) := by
  unfold State.setText
  rw [h.entry_eq, h.cfg_eq]
  exact h.setEntry ..

theorem SameStore.enumFix (code enumw : Word) (key : Key) :
    SameStore n (t₁.enumFix code enumw key) (t₂.enumFix code enumw key) := by
  unfold State.enumFix
  split
  · exact h
  · exact ⟨h.cfg_eq, h.model_eq, by simp only [State.logSubstitution, h.count_eq], h.image_eq⟩

theorem SameStore.storeCode (key : Key) (enumw code : Word) :
    SameStore n (storeCode key enumw code t₁) (storeCode key enumw code t₂) :=
  (h.enumFix code enumw key).setVal ..

/-- A decode rule whose bytes stand in the common image does the same in both states. -/
theorem SameStore.decodeFieldAt {P : Params} {i : Instr} {f : FieldPlace} (hf : i.place? = some f)
    (hlegal : fieldOperandsLegal P i = true) {b : Nat} (hspan : fieldBase b f + fieldSpan i ≤ n) :
    SameStore n (decodeFieldAt i b t₁) (decodeFieldAt i b t₂) := by
  have hbytes (a : Nat) (ha : a < fieldBase b f + fieldSpan i) := h.image_eq a (ha.trans_le hspan)
  have hraw : rawCode t₂ b i = rawCode t₁ b i := rawCode_congr fun f' hf' a _ ha => by
    obtain rfl : f = f' := Option.some.inj (hf.symm.trans hf')
    exact hbytes a ha
  cases hcode : rawCode t₁ b i with
  | some r =>
    obtain ⟨k, c, e⟩ := r
    rw [(decodeFieldAt_of_rawCode hlegal hcode).2, (decodeFieldAt_of_rawCode hlegal (hraw.trans hcode)).2]
    exact h.storeCode ..
  | none =>
    cases i <;> cases hf <;> simp only [rawCode, reduceCtorEq] at hcode
    case fspecVel.refl k2 =>
      simp only [Machine.decodeFieldAt, decodeVel, hbytes (fieldBase b f) (Nat.lt_succ_self _)]
      exact (h.setVal ..).setVal ..
    case fspecName.refl x =>
      have hread : t₂.readBytes .dimg (fieldBase b f) (xfnameN x) = t₁.readBytes .dimg (fieldBase b f) (xfnameN x) :=
        readBytes_congr fun a _ ha => hbytes a ha
      simp only [Machine.decodeFieldAt, decodeName, hread]
      exact h.setText ..

theorem SameStore.walkFields {P : Params} {b p : Nat} {ws : List FieldWords}
    (hws : ∀ w ∈ ws, ∀ i f, decodeField w = .ok i → i.place? = some f →
      fieldOperandsLegal P i = true ∧ fieldBase b f + fieldSpan i ≤ n) :
    SameStore n (walkFields .decode p b ws t₁) (walkFields .decode p b ws t₂) := by
  induction ws generalizing t₁ t₂ with
  | nil => exact h
  | cons w ws ih =>
    refine ih ?_ fun v hv => hws v (List.mem_cons_of_mem w hv)
    unfold walkField
    split
    · exact h
    · rename_i i hdec
      split
      · rename_i hp
        cases hf : i.place? with
        | none => simp [inPart, hf] at hp
        | some f =>
          obtain ⟨hlegal, hspan⟩ := hws w List.mem_cons_self i f hdec hf
          exact h.decodeFieldAt hf hlegal hspan
      · exact h

theorem SameStore.reviseKey (dev : Device) (k : Nat) : SameStore n (reviseKey dev k t₁) (reviseKey dev k t₂) := by
  unfold Machine.reviseKey
  rw [h.entry_eq, h.cfg_eq]
  split
  · split
    · exact h.setEntry ..
    · exact h
  · exact h
  · exact h

theorem SameStore.reviseKeys (dev : Device) (ks : List Nat) :
    SameStore n (reviseKeys dev ks t₁) (reviseKeys dev ks t₂) := by
  induction ks generalizing t₁ t₂ with
  | nil => exact h
  | cons k ks ih => exact ih (h.reviseKey dev k)

end Store

/-- The bytes of a FieldSpec in any record stand below D (FW7). -/
theorem fieldBase_add_span_le_of_record {fmt : Format} {i : Instr} {f : FieldPlace} (hf : fieldFits fmt i f = true)
    {sel : Nat} (hsel : sel ≤ fmt.recs - 1) :
    fieldBase (fmt.base + sel * fmt.stride) f + fieldSpan i ≤ fmt.dlen := by
  have hstride := Nat.mul_le_mul_right fmt.stride hsel
  unfold fieldFits at hf
  unfold fieldBase
  split at hf
  · rename_i hs
    rw [if_pos hs]
    exact of_decide_eq_true hf
  · rename_i hs
    simp only [Bool.and_eq_true, decide_eq_true_eq] at hf
    obtain ⟨hfits, -⟩ := hf
    rw [if_neg hs]
    omega

/-- The FieldSpecs of a format whose frame DECODE accepts are legal and read the data image. -/
theorem field_of_accepts {s : State} {dev : Device} {j : Nat} {fmt : Format} {p sel : Nat}
    (haccepts : decodeAccepts s dev j fmt p sel) {w : FieldWords} (hw : w ∈ fmt.fields) {i : Instr} {f : FieldPlace}
    (hdec : decodeField w = .ok i) (hf : i.place? = some f) :
    fieldOperandsLegal s.cfg.params i = true ∧
      fieldBase (fmt.base + sel * fmt.stride) f + fieldSpan i ≤ fmt.dlen := by
  obtain ⟨-, hviol, -⟩ := checkFormat_eq_none.mp (checkFormat_of_accepts haccepts)
  obtain ⟨hlegal, hfits⟩ := field_of_checked (hviol w hw) hdec hf
  obtain ⟨-, -, -, -, -, hone, hbank⟩ := haccepts
  refine ⟨hlegal, fieldBase_add_span_le_of_record hfits ?_⟩
  by_cases hrecs : fmt.recs = 1
  · have hzero := hone hrecs
    omega
  · obtain ⟨-, -, hlt⟩ := hbank hrecs
    omega

section Frame

variable {s₁ s₂ : State} {dev : Device} {j : Nat} {fmt : Format} {p sel : Nat} (h : SameInputs s₁ s₂)
  (haccepts : decodeAccepts s₁ dev j fmt p sel)
include h haccepts

/-- Decoding leaves the same model store, DIAG_COUNT and data image. -/
theorem SameInputs.decodeFrame :
    SameStore fmt.dlen (decodeFrame dev j fmt p sel s₁) (decodeFrame dev j fmt p sel s₂) := by
  have hl := frameLayout_of_formatLevelOk (checkFormat_eq_none.mp (checkFormat_of_accepts haccepts)).1
  have hlen : frameHasLength s₁ fmt := haccepts.2.1.2.1.1
  have hstaged : SameStore fmt.dlen (stageIn fmt { s₁ with diagCount := 0 }) (stageIn fmt { s₂ with diagCount := 0 }) :=
    ⟨h.cfg_eq, h.model_eq, rfl, fun a ha => by
      rw [byteAt_dimg_stageIn, byteAt_dimg_stageIn, if_pos ha, if_pos ha]
      exact congrArg (fun bs : List Byte => bs.getD a 0) (h.stagedBytes_eq hl hlen)⟩
  have hwalk := hstaged.walkFields (p := p) fun w hw i f => field_of_accepts haccepts hw
  have hparts : SameStore fmt.dlen
      { decodedState fmt p (fmt.base + sel * fmt.stride) s₁ with partsSeen := nextParts fmt p s₁.partsSeen }
      { decodedState fmt p (fmt.base + sel * fmt.stride) s₂ with partsSeen := nextParts fmt p s₂.partsSeen } :=
    ⟨hwalk.cfg_eq, hwalk.model_eq, hwalk.count_eq, hwalk.image_eq⟩
  have hrevised := hparts.reviseKeys dev (dev.schema.map Prod.fst)
  exact ⟨hrevised.cfg_eq, hrevised.model_eq, hrevised.count_eq, hrevised.image_eq⟩

/-- The substitutions are read off the common image. -/
theorem SameInputs.substitutions_eq :
    substitutions (Machine.decodeFrame dev j fmt p sel s₂) p (fmt.base + sel * fmt.stride) fmt.fields =
      substitutions (Machine.decodeFrame dev j fmt p sel s₁) p (fmt.base + sel * fmt.stride) fmt.fields := by
  have hstore := h.decodeFrame haccepts
  refine List.filterMap_congr fun w hw => ?_
  cases hdec : decodeField w with
  | error e => rfl
  | ok i =>
    have hraw : rawCode (Machine.decodeFrame dev j fmt p sel s₂) (fmt.base + sel * fmt.stride) i =
        rawCode (Machine.decodeFrame dev j fmt p sel s₁) (fmt.base + sel * fmt.stride) i :=
      rawCode_congr fun f hf a _ ha => hstore.image_eq a (ha.trans_le (field_of_accepts haccepts hw hdec hf).2)
    simp only [hraw]

/-- DIAG_LOG lists the same substitutions below DIAG_COUNT. -/
theorem SameInputs.diagLog_eq (haccepts₂ : decodeAccepts s₂ dev j fmt p sel)
    (hlen₁ : s₁.diagLog.length = s₁.cfg.params.diagMax) (hlen₂ : s₂.diagLog.length = s₁.cfg.params.diagMax) {n : Nat}
    (hn : n < (Machine.decodeFrame dev j fmt p sel s₁).diagCount.toNat) (hmax : n < s₁.cfg.params.diagMax) :
    (Machine.decodeFrame dev j fmt p sel s₂).diagLog.getD n 0 =
      (Machine.decodeFrame dev j fmt p sel s₁).diagLog.getD n 0 := by
  rw [← h.cfg_eq] at hlen₂
  obtain ⟨hcount, hlog₁⟩ := decodeLogsSubstitutions s₁ _ dev j fmt p sel haccepts hlen₁ (exec_decode_of_accepts haccepts)
  obtain ⟨-, hlog₂⟩ := decodeLogsSubstitutions s₂ _ dev j fmt p sel haccepts₂ hlen₂ (exec_decode_of_accepts haccepts₂)
  rw [h.cfg_eq, h.substitutions_eq haccepts] at hlog₂
  rw [hlog₁ n hmax (by omega), hlog₂ n hmax (by omega), if_pos (by omega), if_pos (by omega)]

end Frame

/-- Settles O57: the checks agree, so both runs end the same way; and where they decode, they decode the same image into the
same model store. -/
theorem decodeDependsOnInputs : Obligations.DecodeDependsOnInputs := by
  intro s₁ s₂ t₁ t₂ hwf hcfg hin ha0 hcur hparts hmodel hbytes ht₁ ht₂
  have h : SameInputs s₁ s₂ := ⟨hcfg, hin, ha0, hcur, hparts, hmodel, hbytes⟩
  have hchecks := h.decodeChecks_eq hwf
  cases hc : decodeChecks s₁ with
  | error f =>
    obtain rfl := Host.Outcome.next.inj (ht₁.symm.trans (exec_decode_of_error hc))
    obtain rfl := Host.Outcome.next.inj (ht₂.symm.trans (exec_decode_of_error (hchecks.trans hc)))
    simp [hmodel, hparts]
  | ok r =>
    obtain ⟨dev, c⟩ := r
    rw [hc] at hchecks
    cases c with
    | failed cause shape =>
      obtain rfl := Host.Outcome.next.inj (ht₁.symm.trans (exec_decode_of_failed hc))
      obtain rfl := Host.Outcome.next.inj (ht₂.symm.trans (exec_decode_of_failed hchecks))
      simp [hmodel, hparts]
    | cancelled shape =>
      obtain rfl := Host.Outcome.next.inj (ht₁.symm.trans (exec_decode_of_cancelled hc))
      obtain rfl := Host.Outcome.next.inj (ht₂.symm.trans (exec_decode_of_cancelled hchecks))
      simp [hmodel, hparts]
    | pass j fmt p sel =>
      have haccepts₁ := decodeChecks_eq_pass.mp hc
      have haccepts₂ := decodeChecks_eq_pass.mp hchecks
      obtain rfl := Host.Outcome.next.inj (ht₁.symm.trans (exec_decode_of_accepts haccepts₁))
      obtain rfl := Host.Outcome.next.inj (ht₂.symm.trans (exec_decode_of_accepts haccepts₂))
      have hstore := h.decodeFrame haccepts₁
      refine ⟨?_, rfl, hstore.model_eq, ?_, fun _ => rfl, fun hfault => ?_, fun _ => ⟨hstore.count_eq,
        fun hlen₁ hlen₂ n => h.diagLog_eq haccepts₁ haccepts₂ hlen₁ hlen₂, fun dev' fmt' a hdev hfmt ha => ?_⟩⟩
      · rw [result_decodeFrame, result_decodeFrame, hparts]
      · rw [partsSeen_decodeFrame, partsSeen_decodeFrame, hparts]
      · rcases result_decodeFrame_cases dev j fmt p sel s₁ with hr | hr <;> simp [hr] at hfault
      · obtain ⟨⟨hdev₁, -⟩, ⟨hfmt₁, -⟩, -⟩ := haccepts₁
        obtain rfl := Except.ok.inj (hdev₁.symm.trans hdev)
        obtain ⟨hlt, -⟩ := List.getElem?_eq_some_iff.mp hfmt₁
        have htwo := fmts_length_le_two (deviceWf_of_mem hwf (mem_of_currentDevice hdev))
        have hj : (Machine.decodeFrame dev j fmt p sel s₁).shape.toNat = j := by
          show (BitVec.ofNat 32 j).toNat = j
          rw [BitVec.toNat_ofNat]
          omega
        rw [hj, hfmt₁] at hfmt
        obtain rfl := Option.some.inj hfmt
        exact hstore.image_eq a ha

end Sys2Proof.Proofs
end

section
/-! Control (46_control.md): the dispatch of a legal CMD word (R290), the defaults that INIT loads (R292), and which
commands need a device (R295). -/

namespace Sys2Proof.Proofs

open Sys2Proof.Machine

/-! ### Dispatch (R290) -/

theorem writeCmd_of_command {s : State} {w : Word} {i : Instr} (hf : s.faulted = false) (hdec : decodeCmd w = .ok i) :
    writeCmd w s = exec i { s with cmd := w } := by
  simp only [writeCmd, hf, hdec, Bool.false_eq_true, if_false]

/-- Settles O5: the step is the dispatch of the word, which finds the command. -/
theorem stepRunsCommand : Obligations.StepRunsCommand := by
  intro s w i rest hw hf hh hdec
  rw [step_of_cmdWrite hw hh]
  exact writeCmd_of_command hf hdec

/-! ### INIT (R292) -/

theorem exec_init (s : State) : exec .init s = conclude s (initRule s) := rfl

theorem exec_init_of_no_device {s : State} (h : s.cfg.devs.length ≤ s.a0.toNat) :
    exec .init s = .next (s.raiseFault noDevice) := by
  rw [exec_init, initRule, List.getElem?_eq_none h]
  exact conclude_error ..

theorem exec_init_of_device {s : State} {dev : Device} (h : s.cfg.devs[s.a0.toNat]? = some dev) :
    exec .init s = .next { s with
      curdev := s.a0.setWidth 8, model := initModel s.cfg.params dev (dev.schema.map Prod.fst), partsSeen := 0
      diagCount := 0, result := .success, failCause := .none } := by
  rw [exec_init, initRule, h]
  rfl

/-- INIT visits every defined key, so what a key then holds depends on its schema entry alone. -/
theorem initModel_schema_read (P : Params) (dev : Device) (k : Nat) :
    readCell Entry.zero (initModel P dev (dev.schema.map Prod.fst)) k =
      (if k < P.nkeys then schemaAt dev k else none).elim Entry.zero (initEntry P) := by
  rw [initModel_read]
  cases hs : schemaAt dev k with
  | none => simp
  | some e =>
    have hmem := mem_of_schemaAt hs
    by_cases hk : k < P.nkeys <;> simp only [hmem, hk, true_and, and_false, if_true, if_false] <;> rfl

/-- The default text of a key, where TEXT_MAX has room for it (R42). -/
theorem initEntry_text {P : Params} {dtxt : List Word} (h : dtxt.length ≤ P.textMax) :
    (initEntry P (.text dtxt)).len = dtxt.length ∧ ∀ i, (initEntry P (.text dtxt)).code i = dtxt.getD i 0 := by
  refine ⟨(Entry.withText_len ..).trans (Nat.min_eq_right h), fun i => ?_⟩
  refine (Entry.code_withText ..).trans ?_
  by_cases hi : i < P.textMax
  · exact if_pos hi
  · rw [if_neg hi, List.getD_eq_default _ _ (by omega)]

/-- A device number below 256 fits CURDEV. -/
theorem curdev_toNat_of_lt {a : Word} {n : Nat} (ha : a.toNat < n) (hn : n ≤ 255) :
    (a.setWidth 8).toNat = a.toNat := by
  rw [BitVec.toNat_setWidth, Nat.mod_eq_of_lt (by omega)]

/-- Settles O39: the one check of INIT, and the model store key by key: an INT default, a TEXT default, or zero. -/
theorem initLoadsDefaults : Obligations.InitLoadsDefaults := by
  refine ⟨rfl, fun s => ⟨exec_init_of_no_device, fun dev hdev => ⟨_, exec_init_of_device hdev, rfl,
    fun hlen => ?_, fun k => ?_⟩⟩⟩
  · obtain ⟨hlt, -⟩ := List.getElem?_eq_some_iff.mp hdev
    exact curdev_toNat_of_lt hlt hlen
  · simp only [State.entry, initModel_schema_read]
    cases (if k < s.cfg.params.nkeys then schemaAt dev k else none) with
    | none => exact ⟨rfl, rfl, fun _ => rfl⟩
    | some e =>
      cases e with
      | int lo hi dflt => exact ⟨rfl, rfl, fun _ => rfl⟩
      | text dtxt => exact ⟨rfl, initEntry_text⟩

/-! ### The commands that need a device (R295) -/

theorem exec_decode_of_no_device {s : State} (h : s.curdev = 0xFF) :
    exec .decode s = .next (s.raiseFault noDevice) :=
  exec_decode_of_error (bind_currentDevice_of_none h _)

/-- The device is the fourth thing that NAMEE and NAMED check (R169, R171). -/
theorem nameChecks_of_no_device {s : State} {r : BufRef} (h : s.curdev = 0xFF) (hpos : 1 ≤ s.a2.toNat)
    (hle : s.a2.toNat ≤ 63) (hmax : s.a2.toNat ≤ s.cfg.params.textMax) (hkey : s.a0.toNat < s.cfg.params.nkeys)
    (hr : chkBref s.cfg.params s.a1 s.a2.toNat = .ok r) : nameChecks s = .error noDevice := by
  obtain ⟨hn, hlegal⟩ := xfname_of_le hpos hle hmax
  rw [nameChecks, hlegal, need_true, ok_bind, decide_eq_true hkey, need_true, ok_bind, hn, hr, ok_bind]
  exact bind_currentDevice_of_none h _

theorem exec_namee_of_error {s : State} {f : FaultRec} (h : nameChecks s = .error f) :
    exec .namee s = .next (s.raiseFault f) := by
  rw [exec_namee, nameeRule, h, error_bind, conclude_error]

theorem exec_named_of_error {s : State} {f : FaultRec} (h : nameChecks s = .error f) :
    exec .named s = .next (s.raiseFault f) := by
  rw [exec_named, namedRule, h, error_bind, conclude_error]

/-! ### The commands that need none (R295)

Their rules read nothing of CURDEV and of the configured devices, so they commute with replacing both. -/

/-- The state with another CURDEV and other configured devices. -/
def withDevices (d : BitVec 8) (devs : List Device) (s : State) : State :=
  { s with curdev := d, cfg := { s.cfg with devs := devs } }

section Devices

variable (d : BitVec 8) (devs : List Device) (s : State)

theorem raiseFault_withDevices (f : FaultRec) :
    (withDevices d devs s).raiseFault f = withDevices d devs (s.raiseFault f) := rfl

theorem writeBytes_withDevices (sp : Space) (off : Nat) (bs : List Byte) :
    (withDevices d devs s).writeBytes sp off bs = withDevices d devs (s.writeBytes sp off bs) := by
  cases sp <;> rfl

theorem enumFix_withDevices (code enumw : Word) (key : Key) :
    (withDevices d devs s).enumFix code enumw key = withDevices d devs (s.enumFix code enumw key) := by
  unfold State.enumFix
  split <;> rfl

theorem bfPack_withDevices (sp : Space) (off : Nat) (G : Geom) (v : Word) :
    bfPack sp off G v (withDevices d devs s) = withDevices d devs (bfPack sp off G v s) := by
  unfold bfPack
  split <;> exact writeBytes_withDevices ..

end Devices

/-- The rule `y` ends as the rule `x` does, in the state of `x` with CURDEV and the devices replaced. -/
def EndsWithDevices (d : BitVec 8) (devs : List Device) (x y : Except FaultRec State) : Prop :=
  y = x.map (withDevices d devs)

section EndsWithDevices

variable {d : BitVec 8} {devs : List Device}

theorem EndsWithDevices.pure {t u : State} (h : u = withDevices d devs t) :
    EndsWithDevices d devs (Pure.pure t) (Pure.pure u) := congrArg Except.ok h

/-- A check that both rules make alike. -/
theorem EndsWithDevices.bind {α : Type} (x : Except FaultRec α) {f g : α → Except FaultRec State}
    (h : ∀ a, EndsWithDevices d devs (f a) (g a)) : EndsWithDevices d devs (x >>= f) (x >>= g) := by
  cases x with
  | error e => exact rfl
  | ok a => exact h a

theorem EndsWithDevices.conclude {s : State} {x y : Except FaultRec State} (h : EndsWithDevices d devs x y) :
    ∃ t, Machine.conclude s x = .next t ∧
      Machine.conclude (withDevices d devs s) y = .next (withDevices d devs t) := by
  rw [EndsWithDevices] at h
  subst h
  cases x with
  | error f => exact ⟨_, rfl, congrArg Host.Outcome.next (raiseFault_withDevices ..)⟩
  | ok t => exact ⟨t, rfl, rfl⟩

end EndsWithDevices

section Rules

variable (d : BitVec 8) (devs : List Device) (s : State)

theorem nibxRule_withDevices : EndsWithDevices d devs (nibxRule s) (nibxRule (withDevices d devs s)) :=
  .bind _ fun _ => .bind _ fun _ => .pure (congrArg State.succeed (writeBytes_withDevices ..))

theorem nibcRule_withDevices : EndsWithDevices d devs (nibcRule s) (nibcRule (withDevices d devs s)) :=
  .bind _ fun _ => .bind _ fun _ => .pure (congrArg State.succeed (writeBytes_withDevices ..))

theorem bfpkRule_withDevices : EndsWithDevices d devs (bfpkRule s) (bfpkRule (withDevices d devs s)) :=
  .bind _ fun _ => .bind _ fun _ => .pure (congrArg State.succeed (bfPack_withDevices ..))

theorem bfupRule_withDevices : EndsWithDevices d devs (bfupRule s) (bfupRule (withDevices d devs s)) :=
  .bind _ fun _ => .bind _ fun _ => .pure rfl

theorem s14eRule_withDevices : EndsWithDevices d devs (s14eRule s) (s14eRule (withDevices d devs s)) :=
  .bind _ fun _ => .bind _ fun _ => .pure (congrArg State.succeed (writeBytes_withDevices ..))

theorem s14dRule_withDevices : EndsWithDevices d devs (s14dRule s) (s14dRule (withDevices d devs s)) :=
  .bind _ fun _ => .bind _ fun _ => .pure rfl

theorem veleRule_withDevices : EndsWithDevices d devs (veleRule s) (veleRule (withDevices d devs s)) :=
  .bind _ fun _ => .pure (congrArg State.succeed (writeBytes_withDevices ..))

theorem veldRule_withDevices : EndsWithDevices d devs (veldRule s) (veldRule (withDevices d devs s)) :=
  .bind _ fun _ => .pure rfl

theorem enumchkRule_withDevices : EndsWithDevices d devs (enumchkRule s) (enumchkRule (withDevices d devs s)) :=
  .bind _ fun _ => .pure
    (congrArg (fun t : State => { t with rval := enumCode s.a0 s.a1 }.succeed) (enumFix_withDevices ..))

theorem clampRule_withDevices : EndsWithDevices d devs (clampRule s) (clampRule (withDevices d devs s)) :=
  .bind _ fun _ => .pure rfl

theorem ckgenRule_withDevices : EndsWithDevices d devs (ckgenRule s) (ckgenRule (withDevices d devs s)) :=
  .bind _ fun src => .bind _ fun _ => .pure
    (congrArg (fun t : State =>
      { t with rval := (ckSum (s.readBytes src.sp src.off s.a1.toNat)).setWidth 32 }.succeed)
      (writeBytes_withDevices ..))

theorem ckchkRule_withDevices : EndsWithDevices d devs (ckchkRule s) (ckchkRule (withDevices d devs s)) :=
  .bind _ fun _ => .bind _ fun _ => .pure rfl

end Rules

/-- The commands whose rule has no check of the device. -/
theorem exec_withDevices (d : BitVec 8) (devs : List Device) (s : State) {i : Instr}
    (hi : i ∈ [Instr.nibx, .nibc, .bfpk, .bfup, .s14e, .s14d, .vele, .veld, .enumchk, .clamp, .ckgen, .ckchk]) :
    ∃ t, exec i s = .next t ∧ exec i (withDevices d devs s) = .next (withDevices d devs t) := by
  simp only [List.mem_cons, List.not_mem_nil, or_false] at hi
  rcases hi with rfl | rfl | rfl | rfl | rfl | rfl | rfl | rfl | rfl | rfl | rfl | rfl
  · exact (nibxRule_withDevices d devs s).conclude
  · exact (nibcRule_withDevices d devs s).conclude
  · exact (bfpkRule_withDevices d devs s).conclude
  · exact (bfupRule_withDevices d devs s).conclude
  · exact (s14eRule_withDevices d devs s).conclude
  · exact (s14dRule_withDevices d devs s).conclude
  · exact (veleRule_withDevices d devs s).conclude
  · exact (veldRule_withDevices d devs s).conclude
  · exact (enumchkRule_withDevices d devs s).conclude
  · exact (clampRule_withDevices d devs s).conclude
  · exact (ckgenRule_withDevices d devs s).conclude
  · exact (ckchkRule_withDevices d devs s).conclude

/-- Settles O40: the check of the device, first or fourth in its rule; and the twelve rules that have no such check. -/
theorem deviceNeeded : Obligations.DeviceNeeded := by
  refine ⟨fun s i hcur hi => ?_, fun s i r hcur hi hpos hle hmax hkey hr => ?_, fun s i d devs hi => ?_⟩
  · simp only [List.mem_cons, List.not_mem_nil, or_false] at hi
    rcases hi with rfl | rfl | rfl | rfl
    · exact (recogReportsMatch.2 s).1 hcur
    · exact (encodeFaultsInOrder s).1 hcur
    · exact exec_decode_of_no_device hcur
    · exact (reviseClampsIntKeys.2 s).1 hcur
  · have hchecks := nameChecks_of_no_device hcur hpos hle hmax hkey hr
    simp only [List.mem_cons, List.not_mem_nil, or_false] at hi
    rcases hi with rfl | rfl
    · exact exec_namee_of_error hchecks
    · exact exec_named_of_error hchecks
  · obtain ⟨t, ht, hdevices⟩ := exec_withDevices d devs s hi
    exact ⟨t, ht, hdevices.trans (by rw [withDevices, cfg_of_exec ht])⟩

end Sys2Proof.Proofs
end

section
/-! How a command ends (60_exceptions.md): with a fault that R300 allows, which leaves the state before the command and
the six writes of the fault entry (R302), or with one normal ending (R305); and what the host can still do while FAULTED
(R303). -/

namespace Sys2Proof.Proofs

open Sys2Proof.Machine

/-! ### A fault entry is final until reset (R303) -/

theorem writeCmd_of_faulted {s : State} (w : Word) (hf : s.faulted = true) : writeCmd w s = .next s := if_pos hf

/-- While FAULTED, a write to the window stores into an argument register at most. -/
theorem writeRegister_eq_of_faulted {off : Nat} {v : Word} {s t : State} (hf : s.faulted = true)
    (h : writeRegister off v s = .next t) :
    t = { s with a0 := t.a0, a1 := t.a1, a2 := t.a2, inLen := t.inLen } := by
  by_cases h0 : off = 0
  · subst h0
    have hcmd : writeCmd v s = .next t := h
    rw [writeCmd_of_faulted v hf] at hcmd
    cases hcmd
    rfl
  · rw [writeRegister_of_ne_zero h0] at h
    cases h
    rfl

/-- While FAULTED, every access but reset is a read, or a write of an argument, a buffer byte or a model entry. -/
theorem hostAccess_eq_of_faulted {op : HostOp} {s t : State} (hf : s.faulted = true) (hop : op ≠ .reset)
    (h : hostAccess op s = .next t) :
    t = { s with
      a0 := t.a0, a1 := t.a1, a2 := t.a2, inLen := t.inLen, ibuf := t.ibuf, obuf := t.obuf, dimg := t.dimg
      model := t.model, hostData := t.hostData } := by
  cases op with
  | regRead addr width =>
    rw [hostAccess] at h
    obtain ⟨off, h⟩ := atRegister_eq_next h
    cases h
    rfl
  | regWrite addr width v =>
    rw [hostAccess] at h
    obtain ⟨off, h⟩ := atRegister_eq_next h
    rw [writeRegister_eq_of_faulted hf h]
  | bufRead sp off =>
    obtain ⟨-, h⟩ := atByte_eq_next.mp h
    cases h
    rfl
  | bufWrite sp off b =>
    obtain ⟨-, h⟩ := atByte_eq_next.mp h
    cases h
    rw [State.writeBytes_eq]
  | valRead | valWrite | lenRead | lenWrite =>
    obtain ⟨-, h⟩ := atEntry_eq_next.mp h
    cases h
    rfl
  | txtRead | txtWrite =>
    obtain ⟨-, h⟩ := atEntry_eq_next.mp h
    split at h <;> cases h
    rfl
  | reset => exact absurd rfl hop

/-- Settles O8: the gate of the dispatch, the frame of every access but reset, and the reset state. -/
theorem faultedUntilReset : Obligations.FaultedUntilReset := by
  refine ⟨fun s w rest hw hf hh => ?_, fun s t hw hf hr h => ?_, fun s rest hh => ⟨_, step_of_reset hh, rfl⟩⟩
  · rw [step_of_cmdWrite hw hh]
    exact writeCmd_of_faulted w hf
  · cases hh : s.host with
    | nil =>
      rw [step_of_idle hw hh] at h
      cases h
      simp [hf]
    | cons op rest =>
      rw [step_of_host hw hh] at h
      have hop : op ≠ .reset := by simpa [hh] using hr
      rw [hostAccess_eq_of_faulted (s := { s with host := rest }) hf hop h]
      simp [hf]

/-! ### The faults that a command can raise (R300) -/

/-- A fault of a command: ILLEGAL_CMD is raised by the dispatch alone, and only SCHEMA and BAD_FIELD name a key. -/
def CommandFault (f : FaultRec) : Prop :=
  f.cause ≠ .none ∧ f.cause ≠ .illegalCmd ∧ (f.cause ≠ .schema → f.cause ≠ .badField → f.key = noKey)

theorem commandFault_of_noKey {c : FaultCause} (hnone : c ≠ .none) (hcmd : c ≠ .illegalCmd) :
    CommandFault ⟨c, noKey⟩ := ⟨hnone, hcmd, fun _ _ => rfl⟩

theorem commandFault_badArg : CommandFault badArg :=
  commandFault_of_noKey FaultCause.noConfusion FaultCause.noConfusion

theorem commandFault_of_schema {f : FaultRec} (h : f.cause = .schema) : CommandFault f :=
  ⟨by simp [h], by simp [h], fun hne => absurd h hne⟩

theorem commandFault_of_badField {f : FaultRec} (h : f.cause = .badField) : CommandFault f :=
  ⟨by simp [h], by simp [h], fun _ hne => absurd h hne⟩

/-- Every fault that the checks raise is a fault of a command. -/
def CommandFaults {α : Type} (x : Except FaultRec α) : Prop := ∀ f, x = .error f → CommandFault f

theorem CommandFaults.ok {α : Type} {a : α} : CommandFaults (.ok a) := nofun

theorem CommandFaults.error {α : Type} {f : FaultRec} (hf : CommandFault f) :
    CommandFaults (.error f : Except FaultRec α) := fun g h => by
  cases h
  exact hf

theorem CommandFaults.bind {α β : Type} {x : Except FaultRec α} {g : α → Except FaultRec β} (hx : CommandFaults x)
    (hg : ∀ a, CommandFaults (g a)) : CommandFaults (x >>= g) := fun f h => by
  rcases bind_eq_error.mp h with h | ⟨a, -, h⟩
  · exact hx f h
  · exact hg a f h

theorem need_commandFaults (c : Bool) {f : FaultRec} (hf : CommandFault f) : CommandFaults (need c f) := fun g h => by
  obtain ⟨-, rfl⟩ := need_eq_error.mp h
  exact hf

theorem chkBref_commandFaults (P : Params) (b : Word) (n : Nat) : CommandFaults (chkBref P b n) := fun f h => by
  rcases chkBref_error h with rfl | rfl <;>
    exact commandFault_of_noKey FaultCause.noConfusion FaultCause.noConfusion

theorem currentDevice_commandFaults (s : State) : CommandFaults (currentDevice s) := fun f h => by
  obtain ⟨rfl, -⟩ := currentDevice_eq_error.mp h
  exact commandFault_of_noKey FaultCause.noConfusion FaultCause.noConfusion

theorem noViolation_commandFaults {v : Option FaultRec} (h : ∀ f, v = some f → CommandFault f) :
    CommandFaults (noViolation v) := fun f hf => h f (noViolation_eq_error.mp hf)

theorem noViolation_findSome_commandFaults {fmts : List Format} {check : Format → Option FaultRec}
    (h : ∀ fmt f, check fmt = some f → CommandFault f) : CommandFaults (noViolation (fmts.findSome? check)) :=
  noViolation_commandFaults fun f hf => by
    obtain ⟨fmt, -, hfmt⟩ := List.exists_of_findSome?_eq_some hf
    exact h fmt f hfmt

/-! ### The faults of the configuration checks (R221) -/

theorem checkFormatLevel_commandFault {P : Params} {fmt : Format} {f : FaultRec}
    (h : checkFormatLevel P fmt = some f) : CommandFault f := by
  unfold checkFormatLevel at h
  split at h <;> cases h
  exact commandFault_of_badField rfl

theorem fieldViolation_commandFault {P : Params} {dev : Device} {fmt : Format} {w : FieldWords} {f : FaultRec}
    (h : fieldViolation P dev fmt w = some f) : CommandFault f := by
  unfold fieldViolation at h
  split at h
  · split at h
    · cases h
    · exact commandFault_of_schema (schemaViolation_cause h)
  · cases h
    exact commandFault_of_badField rfl

theorem checkFormat_commandFault {P : Params} {dev : Device} {fmt : Format} {f : FaultRec}
    (h : checkFormat P dev fmt = some f) : CommandFault f := by
  unfold checkFormat at h
  split at h
  · rename_i v hv
    cases h
    exact checkFormatLevel_commandFault hv
  · split at h
    · rename_i v hv
      cases h
      obtain ⟨w, -, hw⟩ := List.exists_of_findSome?_eq_some hv
      exact fieldViolation_commandFault hw
    · split at h <;> cases h
      exact commandFault_of_badField rfl

/-! ### The faults of the larger rules -/

theorem initRule_commandFaults (s : State) : CommandFaults (initRule s) := by
  unfold initRule
  split
  · exact .error (commandFault_of_noKey FaultCause.noConfusion FaultCause.noConfusion)
  · exact .ok

theorem encodeChecks_commandFaults (s : State) : CommandFaults (encodeChecks s) :=
  (currentDevice_commandFaults s).bind fun dev => by
    cases dev.fmts[s.a0.toNat]? with
    | none => exact .error commandFault_badArg
    | some fmt =>
      exact (noViolation_commandFaults fun _ => checkFormat_commandFault).bind fun _ =>
        (need_commandFaults _ (commandFault_of_noKey FaultCause.noConfusion FaultCause.noConfusion)).bind fun _ =>
          (need_commandFaults _ commandFault_badArg).bind fun _ => .ok

theorem frameChecks_commandFaults (j : Nat) (fmt : Format) (s : State) : CommandFaults (frameChecks j fmt s) := by
  unfold frameChecks
  split
  · exact .ok
  · split
    · exact .ok
    · split
      · exact .ok
      · split
        · exact .ok
        · split
          · exact .error commandFault_badArg
          · exact .ok

theorem decodeChecks_commandFaults (s : State) : CommandFaults (decodeChecks s) :=
  (currentDevice_commandFaults s).bind fun dev =>
    (noViolation_findSome_commandFaults fun _ _ => checkFormat_commandFault).bind fun _ => by
      split
      · exact .ok
      · split
        · exact .ok
        · exact (frameChecks_commandFaults _ _ s).bind fun _ => .ok

theorem decodeRule_commandFaults (s : State) : CommandFaults (decodeRule s) :=
  (decodeChecks_commandFaults s).bind fun r => by
    cases r.2 with
    | failed cause shape => exact .ok
    | cancelled shape => exact .ok
    | pass j fmt p sel => exact .ok

theorem nameChecks_commandFaults (s : State) : CommandFaults (nameChecks s) :=
  (need_commandFaults _ commandFault_badArg).bind fun _ => (need_commandFaults _ commandFault_badArg).bind fun _ =>
    (chkBref_commandFaults _ _ _).bind fun _ => (currentDevice_commandFaults s).bind fun dev => by
      cases schemaAt dev (bitsAt s.a0 0 16) with
      | none => exact .error (commandFault_of_schema rfl)
      | some e =>
        cases e with
        | int lo hi dflt => exact .error (commandFault_of_schema rfl)
        | text dtxt => exact .ok

/-! ### The shapes of the other rules: one or two checks, and then the effect -/

section Shapes

variable {α β : Type} {x : Except FaultRec α} {effect : α → State}

theorem CommandFaults.of_check (hx : CommandFaults x) : CommandFaults (do let a ← x; return effect a) :=
  hx.bind fun _ => .ok

theorem CommandFaults.of_checks {y : Except FaultRec β} {effect : α → β → State} (hx : CommandFaults x)
    (hy : CommandFaults y) : CommandFaults (do let a ← x; let b ← y; return effect a b) :=
  hx.bind fun _ => hy.bind fun _ => .ok

end Shapes

/-- Every command concludes a rule that ends in the effect of the command or in a fault that R300 allows it. -/
theorem exec_command_rule {i : Instr} (hi : isCommand i) (s : State) :
    ∃ r, exec i s = conclude s r ∧ Ends r (CommandEffect s i) ∧ CommandFaults r := by
  have hbref := chkBref_commandFaults s.cfg.params
  have hneed (c : Bool) : CommandFaults (need c badArg) := need_commandFaults c commandFault_badArg
  cases i with
  | init => exact ⟨_, rfl, initRule_ends s, initRule_commandFaults s⟩
  | recog =>
    exact ⟨_, rfl, recogRule_ends s, (currentDevice_commandFaults s).bind fun _ =>
      (noViolation_findSome_commandFaults fun _ _ => checkFormatLevel_commandFault).of_check⟩
  | encode => exact ⟨_, rfl, encodeRule_ends s, (encodeChecks_commandFaults s).of_check⟩
  | decode => exact ⟨_, rfl, decodeRule_ends s, decodeRule_commandFaults s⟩
  | revise => exact ⟨_, rfl, reviseRule_ends s, (currentDevice_commandFaults s).of_check⟩
  | nibx => exact ⟨_, rfl, nibxRule_ends s, (hbref _ _).of_checks (hbref _ _)⟩
  | nibc => exact ⟨_, rfl, nibcRule_ends s, (hbref _ _).of_checks (hbref _ _)⟩
  | bfpk => exact ⟨_, rfl, bfpkRule_ends s, (hneed _).of_checks (hbref _ _)⟩
  | bfup => exact ⟨_, rfl, bfupRule_ends s, (hneed _).of_checks (hbref _ _)⟩
  | s14e => exact ⟨_, rfl, s14eRule_ends s, (hneed _).of_checks (hbref _ _)⟩
  | s14d => exact ⟨_, rfl, s14dRule_ends s, (hneed _).of_checks (hbref _ _)⟩
  | vele => exact ⟨_, rfl, veleRule_ends s, (hbref _ _).of_check⟩
  | veld => exact ⟨_, rfl, veldRule_ends s, (hbref _ _).of_check⟩
  | namee => exact ⟨_, rfl, nameeRule_ends s, (nameChecks_commandFaults s).of_check⟩
  | named => exact ⟨_, rfl, namedRule_ends s, (nameChecks_commandFaults s).of_check⟩
  | enumchk => exact ⟨_, rfl, enumchkRule_ends s, (hneed _).of_check⟩
  | clamp => exact ⟨_, rfl, clampRule_ends s, (hneed _).of_check⟩
  | ckgen => exact ⟨_, rfl, ckgenRule_ends s, (hbref _ _).of_checks (hbref _ _)⟩
  | ckchk => exact ⟨_, rfl, ckchkRule_ends s, (hbref _ _).of_checks (hbref _ _)⟩
  | fspecRaw8 => cases hi
  | fspecNib8 => cases hi
  | fspecBits => cases hi
  | fspecS14 => cases hi
  | fspecVel => cases hi
  | fspecName => cases hi

/-- Settles O9: FAULTED is set by the fault entry alone, from the state before the command. -/
theorem commandFaultsArePrecise : Obligations.CommandFaultsArePrecise := by
  intro i s t hi hf h ht
  obtain ⟨r, hexec, hends, hfaults⟩ := exec_command_rule hi s
  rw [hexec] at h
  rcases conclude_eq_next.mp h with rfl | ⟨f, rfl, rfl⟩
  · have heffect : CommandEffect s i t := hends
    obtain ⟨hfaulted, -⟩ := heffect.ending
    rw [hfaulted, hf] at ht
    cases ht
  · exact ⟨rfl, hfaults f rfl⟩

/-! ### Normal endings (R305) -/

/-- A command writes neither CMD nor an argument (R22, R23). -/
theorem CommandEffect.arguments_eq {s t : State} {i : Instr} (h : CommandEffect s i t) :
    t.cmd = s.cmd ∧ t.a0 = s.a0 ∧ t.a1 = s.a1 ∧ t.a2 = s.a2 ∧ t.inLen = s.inLen := by
  cases h with
  | revision dev hd =>
    rw [revise_eq]
    simp
  | frame dev fmt hf p =>
    rw [buildFrame_eq]
    simp
  | decoded dev hd j hj fmt hf p sel =>
    rw [decodeFrame_eq]
    simp
  | _ => simp

/-- DECODE alone has normal endings other than SUCCESS (R24). -/
theorem CommandEffect.result_cases {s t : State} {i : Instr} (h : CommandEffect s i t) :
    t.result = .success ∨
      i = .decode ∧ (t.result = .incomplete ∨ t.result = .failed ∨ t.result = .cancelled) := by
  cases h with
  | noDecode dev hd r c hr =>
    rcases hr with ⟨rfl, -⟩ | ⟨rfl, -⟩
    · exact .inr ⟨rfl, .inr (.inl rfl)⟩
    · exact .inr ⟨rfl, .inr (.inr rfl)⟩
  | decoded dev hd j hj fmt hf p sel =>
    rcases decodeResult_cases fmt p s.partsSeen with hr | hr
    · exact .inl hr
    · exact .inr ⟨rfl, .inl hr⟩
  | _ => exact .inl rfl

/-- Settles O10: a command answers its effect, with the frame and the result of a normal ending, or the fault entry. -/
theorem commandEndsOnce : Obligations.CommandEndsOnce := by
  intro i s hi
  obtain ⟨t, ht⟩ := exec_command_next hi s
  refine ⟨t, ht, ?_⟩
  rcases exec_command_cases hi ht with heffect | ⟨f, -, rfl⟩
  · obtain ⟨hcmd, ha0, ha1, ha2, hinLen⟩ := heffect.arguments_eq
    obtain ⟨hfaulted, hcause, hkey, hfaultCmd, hresult, hfail⟩ := heffect.ending
    refine ⟨hcmd, ha0, ha1, ha2, hinLen, .inr ⟨hfaulted, hcause, hkey, hfaultCmd, ?_, hresult, fun hi => ?_,
      fun hr => not_not.mp (hr ∘ hfail.mp), hfail.mpr⟩⟩
    · rcases heffect.result_cases with hr | ⟨-, hr | hr | hr⟩ <;> simp [hr]
    · rcases heffect.result_cases with hr | ⟨rfl, -⟩
      · exact hr
      · exact absurd rfl hi
  · exact ⟨rfl, rfl, rfl, rfl, rfl, .inl ⟨f, rfl⟩⟩

end Sys2Proof.Proofs
end

section
/-! The argument faults of the primitive commands that take a BREF (60_exceptions.md R300, R301), check by check. -/

namespace Sys2Proof.Proofs

open Sys2Proof.Machine

/-! ### A check that fails ends the command -/

section Checks

variable {α β : Type} {s : State} {f : FaultRec} {x : Except FaultRec α}

theorem conclude_of_error_first {rest : α → Except FaultRec State} (hx : x = .error f) :
    conclude s (x >>= rest) = .next (s.raiseFault f) := by
  rw [hx, error_bind, conclude_error]

theorem conclude_of_error_second {a : α} {y : Except FaultRec β} {rest : α → β → Except FaultRec State}
    (hx : x = .ok a) (hy : y = .error f) : conclude s (x >>= fun a => y >>= rest a) = .next (s.raiseFault f) := by
  rw [hx, ok_bind, hy, error_bind, conclude_error]

end Checks

/-! ### NAMEE and NAMED (R169, R171) -/

theorem nameChecks_of_illegal_xfname {s : State}
    (h : s.a2.toNat = 0 ∨ 64 ≤ s.a2.toNat ∨ s.cfg.params.textMax < s.a2.toNat) : nameChecks s = .error badArg := by
  have hillegal : xfnameLegal s.cfg.params s.a2 = false := by
    rw [← Bool.not_eq_true, xfnameLegal_iff]
    omega
  rw [nameChecks, hillegal, need_false, error_bind]

section LegalXfname

variable {s : State} (hpos : 1 ≤ s.a2.toNat) (hle : s.a2.toNat ≤ 63) (hmax : s.a2.toNat ≤ s.cfg.params.textMax)

include hpos hle hmax

theorem nameChecks_of_key_beyond (hkey : s.cfg.params.nkeys ≤ s.a0.toNat) : nameChecks s = .error badArg := by
  obtain ⟨-, hlegal⟩ := xfname_of_le hpos hle hmax
  rw [nameChecks, hlegal, need_true, ok_bind, decide_eq_false (not_lt.mpr hkey), need_false, error_bind]

theorem nameChecks_of_bref_error (hkey : s.a0.toNat < s.cfg.params.nkeys) {f : FaultRec}
    (hr : chkBref s.cfg.params s.a1 s.a2.toNat = .error f) : nameChecks s = .error f := by
  obtain ⟨hn, hlegal⟩ := xfname_of_le hpos hle hmax
  rw [nameChecks, hlegal, need_true, ok_bind, decide_eq_true hkey, need_true, ok_bind, hn, hr, error_bind]

/-- The schema is checked last: the key has to be a defined TEXT key. -/
theorem nameChecks_of_no_text (hkey : s.a0.toNat < s.cfg.params.nkeys) (hkey16 : s.a0.toNat < 65536) {r : BufRef}
    (hr : chkBref s.cfg.params s.a1 s.a2.toNat = .ok r) {dev : Device} (hdev : currentDevice s = .ok dev)
    (htext : ∀ d, schemaAt dev s.a0.toNat ≠ some (.text d)) :
    nameChecks s = .error ⟨.schema, BitVec.ofNat 16 s.a0.toNat⟩ := by
  obtain ⟨hn, hlegal⟩ := xfname_of_le hpos hle hmax
  have hbits : bitsAt s.a0 0 16 = s.a0.toNat := key_toNat_of_lt hkey16
  rw [nameChecks, hlegal, need_true, ok_bind, decide_eq_true hkey, need_true, ok_bind, hn, hr, ok_bind, hdev, ok_bind,
    hbits]
  cases hs : schemaAt dev s.a0.toNat with
  | none => rfl
  | some e =>
    cases e with
    | int lo hi dflt => rfl
    | text d => exact absurd hs (htext d)

end LegalXfname

theorem exec_name_of_error {i : Instr} (hi : i = .namee ∨ i = .named) {s : State} {f : FaultRec}
    (h : nameChecks s = .error f) : exec i s = .next (s.raiseFault f) := by
  rcases hi with rfl | rfl
  · exact exec_namee_of_error h
  · exact exec_named_of_error h

/-- Settles O38: each rule is its checks in order, and the first one that fails gives the fault entry. -/
theorem argumentFaultsInOrder : Obligations.ArgumentFaultsInOrder := by
  refine ⟨fun s => ⟨?geom, ?xf14, ?nibxSrc, ?nibxDst, ?nibcSrc, ?nibcDst, ?bits, ?pair, ?vel, ?sumRange, ?sumByte⟩,
    fun s i hi => ⟨fun hn => ?_, fun hpos hle hmax => ⟨fun hkey => ?_, fun hkey => ⟨fun f hr => ?_, fun r hr =>
      ⟨fun hcur => ?_, fun dev hdev hkey16 htext => ?_⟩⟩⟩⟩⟩
  case geom =>
    intro hg
    have hneed : need (geomLegal s.a2) badArg = .error badArg := need_eq_error.mpr ⟨hg, rfl⟩
    exact ⟨conclude_of_error_first hneed, conclude_of_error_first hneed⟩
  case xf14 =>
    intro hx
    have hillegal : xf14Legal s.a2 = false := by
      rw [← Bool.not_eq_true, xf14Legal_iff]
      omega
    have hneed : need (xf14Legal s.a2) badArg = .error badArg := need_eq_error.mpr ⟨hillegal, rfl⟩
    exact ⟨conclude_of_error_first hneed, conclude_of_error_first hneed⟩
  case nibxSrc => exact fun f => conclude_of_error_first
  case nibxDst => exact fun r f => conclude_of_error_second
  case nibcSrc => exact fun f => conclude_of_error_first
  case nibcDst => exact fun r f => conclude_of_error_second
  case bits =>
    intro f hg hr
    have hneed : need (geomLegal s.a2) badArg = .ok () := need_eq_ok.mpr hg
    exact ⟨conclude_of_error_second hneed hr, conclude_of_error_second hneed hr⟩
  case pair =>
    intro f hx hr
    have hneed : need (xf14Legal s.a2) badArg = .ok () := need_eq_ok.mpr (xf14Legal_of_lt hx)
    exact ⟨conclude_of_error_second hneed hr, conclude_of_error_second hneed hr⟩
  case vel => exact fun f hr => ⟨conclude_of_error_first hr, conclude_of_error_first hr⟩
  case sumRange => exact fun f hr => ⟨conclude_of_error_first hr, conclude_of_error_first hr⟩
  case sumByte => exact fun r f hsrc hr => ⟨conclude_of_error_second hsrc hr, conclude_of_error_second hsrc hr⟩
  all_goals apply exec_name_of_error hi
  · exact nameChecks_of_illegal_xfname hn
  · exact nameChecks_of_key_beyond hpos hle hmax hkey
  · exact nameChecks_of_bref_error hpos hle hmax hkey hr
  · exact nameChecks_of_no_device hcur hpos hle hmax hkey hr
  · exact nameChecks_of_no_text hpos hle hmax hkey hkey16 hr hdev htext

end Sys2Proof.Proofs
end
